-- ==== Sys2Proof/Word.lean ====
section
/-! DEFINITION. Words, predicates of sixteen-fold size, and the sparse tables that hold the machine's state:
a table is a list of keys with strictly rising keys. -/

namespace Sys2Proof

/-- A 32-bit register word (R213). -/
abbrev Word := BitVec 32

/-- A 64-bit value, held in an even:odd pair (R35). -/
abbrev DWord := BitVec 64

/-- One byte of memory. -/
abbrev Byte := BitVec 8

/-- The 96 bits of one instruction slot (R24). -/
abbrev Slot := BitVec 96

/-- A sparse table: pairs of a key and a value, keys strictly rising. A key that is absent has the reader's default. -/
abbrev Tab (α : Type) := List (Nat × α)

/-- A finite set of numbers, as a strictly rising list. -/
abbrev NSet := List Nat

end Sys2Proof
end

