-- ==== Sys2Proof/Syntax.lean ====
section
/-! DEFINITION. The syntax of the Ralrix X16: operand shapes, and the one inductive Instr with a constructor for every row
of spec/opcode_table.json: 156 instruction rows and 116 rows that are events of the module. -/

namespace Sys2Proof

/-- A register named by a 9-bit operand code (R34, Table 02.3). -/
inductive Reg where
  /-- vector register v0 to v63 -/
  | v (i : Fin 64)
  /-- meet register k0 to k15 -/
  | k (i : Fin 16)
  /-- handle register h0 to h31 -/
  | h (i : Fin 32)
  /-- accumulator tile m0 to m15 -/
  | m (i : Fin 16)
  /-- scalar register s0 to s383 -/
  | s (i : Fin 384)
  deriving DecidableEq, Repr

/-- Code 0x000, v0: at the same time the value of an unused operand field (R37). -/
abbrev Reg.zero : Reg := .v 0

/-- The fields every instruction has: lookahead, guard predicate, guard negate (R33). -/
structure Hdr where
  la : BitVec 4
  gp : BitVec 7
  gn : Bool
  deriving DecidableEq, Repr

/-- The operand that B names in FR and IMM supplies in FI (R40). -/
inductive Src where
  | reg (r : Reg)
  | imm (w : BitVec 32)
  deriving DecidableEq, Repr

/-- The B operand of an instruction whose IMM holds a predicate in [6:0]: a register, or IMM[31:7] (R246, R250, R255). -/
inductive SrcP where
  | reg (r : Reg)
  | imm (w : BitVec 25)
  deriving DecidableEq, Repr

/-- A lane or index given by IMM[6:0] or by a register (R229, R272). -/
inductive Src7 where
  | reg (r : Reg)
  | imm (w : BitVec 7)
  deriving DecidableEq, Repr

/-- A memory operand of FM (R41, R64): base pair, an index register with its shift, and the offset in IMM. -/
structure Addr where
  base : Reg
  idx  : Option (Reg × BitVec 2)
  off  : BitVec 32
  deriving DecidableEq, Repr

/-- A memory operand of `atom` and `red`, whose offset is IMM[19:0] (R155). -/
structure Addr20 where
  base : Reg
  idx  : Option (Reg × BitVec 2)
  off  : BitVec 20
  deriving DecidableEq, Repr

/-- The target of an FB instruction: a signed line count and a slot (R31). -/
structure FbTarget where
  lines : BitVec 29
  slot  : BitVec 3
  deriving DecidableEq, Repr

/-- Integer operands and modifiers (R244, Table 09.1). -/
structure IntOps where
  d   : Reg
  a   : Reg
  b   : Src
  c   : Reg
  sat : Bool
  u   : Bool
  w64 : Bool
  xop : BitVec 4
  deriving DecidableEq, Repr

/-- Integer operands with a predicate in IMM[6:0]: icmp, iaddc, isubb (R246, R250). -/
structure IntPOps where
  d   : Reg
  a   : Reg
  b   : SrcP
  p   : BitVec 7
  u   : Bool
  w64 : Bool
  xop : BitVec 4
  deriving DecidableEq, Repr

/-- FP32 operands and modifiers (R252, Table 09.3). -/
structure FpOps where
  d   : Reg
  a   : Reg
  b   : Src
  c   : Reg
  ftz : Bool
  rm  : BitVec 2
  xop : BitVec 4
  deriving DecidableEq, Repr

/-- fcmp (R255). -/
structure FcmpOps where
  a   : Reg
  b   : SrcP
  p   : BitVec 7
  ftz : Bool
  xop : BitVec 4
  deriving DecidableEq, Repr

/-- Packed half-precision operands (R259). -/
structure HalfOps where
  d   : Reg
  a   : Reg
  b   : Src
  c   : Reg
  ftz : Bool
  bf  : Bool
  nan : Bool
  deriving DecidableEq, Repr

/-- cvt (R260). -/
structure CvtOps where
  d   : Reg
  a   : Reg
  b   : Reg
  ftz : Bool
  rm  : BitVec 2
  sat : Bool
  hi  : Bool
  st  : BitVec 4
  dt  : BitVec 4
  deriving DecidableEq, Repr

/-- fround (R263). -/
structure FroundOps where
  d    : Reg
  a    : Reg
  ftz  : Bool
  mode : BitVec 2
  deriving DecidableEq, Repr

/-- bfpq and bfpx: N − 2 in n; C is bfpq's participation mask (R264). -/
structure BfpOps where
  d : Reg
  a : Reg
  c : Reg
  n : BitVec 3
  deriving DecidableEq, Repr

/-- ballot (R269). -/
structure BallotOps where
  d    : Reg
  mask : Reg
  wsel : BitVec 2
  x4   : Bool
  p    : BitVec 7
  deriving DecidableEq, Repr

/-- vote (R270): kind 0 some, 1 every, 2 same, 3 most. -/
structure VoteOps where
  mask : Reg
  kind : BitVec 2
  seg  : BitVec 3
  dp   : BitVec 7
  xp   : BitVec 7
  deriving DecidableEq, Repr

/-- shfl (R272): mode 0 at, 1 rot, 2 rev, 3 xor. -/
structure ShflOps where
  d    : Reg
  a    : Reg
  b    : Src7
  mask : Reg
  mode : BitVec 2
  b64  : Bool
  seg  : BitVec 3
  deriving DecidableEq, Repr

/-- match (R273). -/
structure MatchOps where
  d    : Reg
  a    : Reg
  mask : Reg
  wsel : BitVec 2
  x4   : Bool
  b64  : Bool
  seg  : BitVec 3
  deriving DecidableEq, Repr

/-- redx (R274): op is a code of Table 09.13. -/
structure RedxOps where
  d    : Reg
  a    : Reg
  mask : Reg
  op   : BitVec 4
  seg  : BitVec 3
  deriving DecidableEq, Repr

/-- scan (R275): op is a code 0 to 7 of Table 09.13. -/
structure ScanOps where
  d    : Reg
  a    : Reg
  mask : Reg
  op   : BitVec 3
  excl : Bool
  seg  : BitVec 3
  deriving DecidableEq, Repr

/-- lmask (R271): rel 0 eq, 1 lt, 2 le, 3 gt, 4 ge. -/
structure LmaskOps where
  d    : Reg
  rel  : BitVec 3
  x4   : Bool
  wsel : BitVec 2
  deriving DecidableEq, Repr

/-- ld (R153): sz 0 four bytes, 1 eight, 2 two, 3 one. -/
structure LdOps where
  d    : Reg
  addr : Addr
  mig  : Bool
  sz   : BitVec 2
  sgn  : Bool
  acq  : Bool
  deriving DecidableEq, Repr

/-- st (R153). -/
structure StOps where
  d    : Reg
  addr : Addr
  mig  : Bool
  sz   : BitVec 2
  rel  : Bool
  deriving DecidableEq, Repr

/-- atom (R155). -/
structure AtomOps where
  d    : Reg
  c    : Reg
  addr : Addr20
  mig  : Bool
  op   : BitVec 4
  w64  : Bool
  acq  : Bool
  rel  : Bool
  deriving DecidableEq, Repr

/-- red (R157): the source stands in D. -/
structure RedOps where
  d    : Reg
  addr : Addr20
  mig  : Bool
  op   : BitVec 4
  rel  : Bool
  deriving DecidableEq, Repr

/-- gath and scat (R160): n is K − 1. -/
structure GathOps where
  d    : Reg
  base : Reg
  idx  : Reg
  sh   : BitVec 2
  off  : BitVec 32
  n    : BitVec 3
  deriving DecidableEq, Repr

/-- lds and sts (R154): n is 0 to 3 for 1, 2, 4, 8 words; ord is .acq or .rel. -/
structure LdsOps where
  d    : Reg
  addr : Addr
  n    : BitVec 2
  ord  : Bool
  deriving DecidableEq, Repr

/-- pld and pst (R226). -/
structure PldOps where
  addr : Addr
  n    : BitVec 2
  deriving DecidableEq, Repr

/-- mov, sel (R228). -/
structure SelOps where
  d   : Reg
  a   : Reg
  b   : Reg
  p   : BitVec 7
  b64 : Bool
  deriving DecidableEq, Repr

/-- pmov (R225): the four-entry truth table t. -/
structure PmovOps where
  t : BitVec 4
  p : BitVec 7
  x : BitVec 7
  y : BitVec 7
  deriving DecidableEq, Repr

/-- rgn (R222, R223): eight entries, the first four named by operand codes. -/
structure RgnOps where
  e0 : Option Reg
  e1 : Option Reg
  e2 : Option Reg
  e3 : Option Reg
  e4 : Option (BitVec 6)
  e5 : Option (BitVec 6)
  e6 : Option (BitVec 6)
  e7 : Option (BitVec 6)
  deriving DecidableEq, Repr

/-- cpy and cfill (R177): len is C, or IMM under LI. -/
structure CpyOps where
  d   : Reg
  a   : Reg
  b   : Reg
  len : Src
  deriving DecidableEq, Repr

/-- The matrix commands (R280): handle or none, tile, meet register, descriptor. -/
structure MatOps where
  d : Reg
  t : Reg
  k : Reg
  c : Reg
  deriving DecidableEq, Repr

/-- The target word of acall (R309). -/
inductive ATarget where
  | imm (die seq : BitVec 4) (entry : BitVec 3)
  | reg (r : Reg)
  deriving DecidableEq, Repr

/-- A register written by REGISTER_WRITE: one without behaviour of its own (R6). Numbers name the unit's instance. -/
inductive RegName where
  | lqbase (vf : Nat) | eqhead (vf : Nat) | vfErr (vf : Nat)
  | margin | fallback | floor | ramp | drth | defpt
  | trbase (p : Nat) | log2nrec (p : Nat) | dctbase (p : Nat) | tqcfg (p : Nat)
  | fmtwM (w : Nat) | fmtwPart (w : Nat) | fmtwVbase (w : Nat) | fmtwVlen (w : Nat) | fmtwMbase (w : Nat)
  | fmtwSbase (w : Nat) | fmtwErr (w : Nat) | fmtwRange (w : Nat)
  | shbase (die : Nat) | caddr (die seq : Nat) | cwd (die seq k : Nat) | evec (die seq e : Nat)
  | wgctl (slice : Nat)
  | coreEvsel (core n : Nat) | coreEvcnt (core n : Nat) | hubEvsel (n : Nat) | hubEvcnt (n : Nat)
  | vfPart (vf : Nat)
  | route (m : Nat)
  | dclass (p n : Nat)
  deriving DecidableEq, Repr

/-- What the fabric brings back to a command (R450): a CODE met at the peer, the FST, and on success the words that the peers
sent: those a get reads, or each other rank's contribution to a collective, in rank order. -/
structure FabResult where
  code  : BitVec 8
  fst   : BitVec 3
  data  : List Word
  deriving DecidableEq, Repr

/-- One remote access that a peer's command makes in a window of this module (R449). -/
inductive RemoteOp where
  | put (data : List Byte)
  | get (len : Nat)
  | sig (v : Word)
  deriving DecidableEq, Repr

/-- An image offered to the root of trust (R454): type 0 hub, 1 management processor, 2 RCE, 3 micro-code. -/
structure BootImage where
  ty   : Nat
  svn  : Nat
  body : List Byte
  ed25519 : List Byte
  mldsa   : List Byte
  deriving DecidableEq, Repr

/-- The fields of a context descriptor (Table 15.3). -/
structure CtxDesc where
  s1root   : BitVec 64
  savebase : BitVec 64
  debug    : Bool
  sys      : Bool
  commbase : BitVec 64
  deriving DecidableEq, Repr

/-- The fields of a partition descriptor that PARTITION_DESCRIPTOR_WRITE may change (Table 15.2). -/
inductive PartField where
  | cores (m : BitVec 192) | waymask (m : BitVec 16) | s2root (v : BitVec 64) | tqcfg (v : BitVec 8)
  | trbase (v : BitVec 64) | log2nrec (v : BitVec 5) | dctbase (v : BitVec 64)
  deriving DecidableEq, Repr

/-- A miss of a core's TLB (R110). -/
structure TlbMiss where
  core : Nat
  va   : Nat
  deriving DecidableEq, Repr

/-- A matrix command and the k-step or row that it has reached (R284, R297). -/
structure MatrixReach where
  id   : Nat
  upto : Nat
  deriving DecidableEq, Repr

/-- The ways of a partition in a home slice (R397). -/
structure SliceWays where
  slice : Nat
  part  : Nat
  deriving DecidableEq, Repr

/-- A communicator entry as the management processor writes it (Table 15.6). -/
structure CommEntry where
  valid   : Bool
  myrank  : BitVec 12
  nrankm1 : BitVec 12
  members : BitVec 64
  wbase   : BitVec 64
  wlen    : BitVec 64
  deriving DecidableEq, Repr

/-- One constructor per row of spec/opcode_table.json, in the table's order (but unassignedOpcode stands after the last
instruction row). Instruction rows carry Hdr; event rows carry
what names the event: the operation in flight, the unit, the message. -/
inductive Instr where
  | nop (h : Hdr)
  | bra (h : Hdr) (t : FbTarget)
  | brx (h : Hdr) (a : Reg)
  | call (h : Hdr) (t : FbTarget)
  | callx (h : Hdr) (a : Reg)
  | ret (h : Hdr)
  | exit (h : Hdr)
  | yield (h : Hdr)
  | sleep (h : Hdr) (n : BitVec 32)
  | trap (h : Hdr) (v : BitVec 3) (n : BitVec 8)
  | tfence (h : Hdr)
  | meet (h : Hdr) (k : Reg)
  | kset (h : Hdr) (k : Reg) (m : Reg) (n : BitVec 13)
  | bar (h : Hdr)
  | cbar (h : Hdr)
  | wait (h : Hdr) (a : Reg)
  | htest (h : Hdr) (a : Reg) (p : BitVec 7)
  | hcancel (h : Hdr) (a : Reg)
  | hmov (h : Hdr) (d a : Reg)
  | hmovTok (h : Hdr) (d a : Reg)
  | rgn (h : Hdr) (o : RgnOps)
  | brk (h : Hdr) (n : BitVec 16)
  | mov (h : Hdr) (d a : Reg) (b64 : Bool)
  | movi (h : Hdr) (d : Reg) (imm : BitVec 32) (b64 : Bool)
  | sel (h : Hdr) (o : SelOps)
  | pmov (h : Hdr) (o : PmovOps)
  | pld (h : Hdr) (o : PldOps)
  | pst (h : Hdr) (o : PldOps)
  | srd (h : Hdr) (d : Reg) (num : BitVec 8)
  | swr (h : Hdr) (a : Reg) (num : BitVec 8)
  | rdl (h : Hdr) (d a : Reg) (b : Src7)
  | wrl (h : Hdr) (d a : Reg) (b : Src7)
  | iadd (h : Hdr) (o : IntOps)
  | isub (h : Hdr) (o : IntOps)
  | imul (h : Hdr) (o : IntOps)
  | imulh (h : Hdr) (o : IntOps)
  | imad (h : Hdr) (o : IntOps)
  | idiv (h : Hdr) (o : IntOps)
  | irem (h : Hdr) (o : IntOps)
  | imin (h : Hdr) (o : IntOps)
  | imax (h : Hdr) (o : IntOps)
  | iabs (h : Hdr) (o : IntOps)
  | iand (h : Hdr) (o : IntOps)
  | ior (h : Hdr) (o : IntOps)
  | ixor (h : Hdr) (o : IntOps)
  | inot (h : Hdr) (o : IntOps)
  | shl (h : Hdr) (o : IntOps)
  | shr (h : Hdr) (o : IntOps)
  | sar (h : Hdr) (o : IntOps)
  | rotl (h : Hdr) (o : IntOps)
  | clz (h : Hdr) (o : IntOps)
  | popc (h : Hdr) (o : IntOps)
  | brev (h : Hdr) (o : IntOps)
  | bfx (h : Hdr) (o : IntOps)
  | bfi (h : Hdr) (o : IntOps)
  | icmp (h : Hdr) (o : IntPOps)
  | iaddc (h : Hdr) (o : IntPOps)
  | isubb (h : Hdr) (o : IntPOps)
  | lea (h : Hdr) (o : IntOps)
  | dot4 (h : Hdr) (o : IntOps)
  | prmt (h : Hdr) (o : IntOps)
  | fadd (h : Hdr) (o : FpOps)
  | fsub (h : Hdr) (o : FpOps)
  | fmul (h : Hdr) (o : FpOps)
  | ffma (h : Hdr) (o : FpOps)
  | fmin (h : Hdr) (o : FpOps)
  | fmax (h : Hdr) (o : FpOps)
  | fcmp (h : Hdr) (o : FcmpOps)
  | fclass (h : Hdr) (o : FpOps)
  | frcp (h : Hdr) (o : FpOps)
  | frsq (h : Hdr) (o : FpOps)
  | fsqrt (h : Hdr) (o : FpOps)
  | fdiv (h : Hdr) (o : FpOps)
  | fexp2 (h : Hdr) (o : FpOps)
  | flog2 (h : Hdr) (o : FpOps)
  | fsin (h : Hdr) (o : FpOps)
  | fcos (h : Hdr) (o : FpOps)
  | hadd2 (h : Hdr) (o : HalfOps)
  | hmul2 (h : Hdr) (o : HalfOps)
  | hfma2 (h : Hdr) (o : HalfOps)
  | hmax2 (h : Hdr) (o : HalfOps)
  | hmin2 (h : Hdr) (o : HalfOps)
  | cvt (h : Hdr) (o : CvtOps)
  | fround (h : Hdr) (o : FroundOps)
  | bfpq (h : Hdr) (o : BfpOps)
  | bfpx (h : Hdr) (o : BfpOps)
  | ballot (h : Hdr) (o : BallotOps)
  | vote (h : Hdr) (o : VoteOps)
  | shfl (h : Hdr) (o : ShflOps)
  | matchx (h : Hdr) (o : MatchOps)
  | redx (h : Hdr) (o : RedxOps)
  | scan (h : Hdr) (o : ScanOps)
  | lmask (h : Hdr) (o : LmaskOps)
  | ld (h : Hdr) (o : LdOps)
  | st (h : Hdr) (o : StOps)
  | atom (h : Hdr) (o : AtomOps)
  | red (h : Hdr) (o : RedOps)
  | fence (h : Hdr)
  | fenceAcq (h : Hdr)
  | fenceRel (h : Hdr)
  | prefl (h : Hdr) (addr : Addr) (llc : Bool)
  | gath (h : Hdr) (o : GathOps)
  | scat (h : Hdr) (o : GathOps)
  | lds (h : Hdr) (o : LdsOps)
  | sts (h : Hdr) (o : LdsOps)
  | cpy (h : Hdr) (o : CpyOps)
  | cpy2 (h : Hdr) (d a b c : Reg)
  | cfill (h : Hdr) (o : CpyOps)
  | pres (h : Hdr) (base : Reg) (idx : Option (Reg × BitVec 2)) (l : BitVec 4) (p : BitVec 7)
  | sgive (h : Hdr) (a d : Reg)
  | stake (h : Hdr) (a d : Reg) (ph free : Bool)
  | stakeTry (h : Hdr) (a d : Reg) (ph free : Bool) (p : BitVec 7)
  | sfree (h : Hdr) (a d : Reg)
  | go (h : Hdr) (addr : Addr)
  | back (h : Hdr)
  | carry (h : Hdr) (m : Src) (q : Bool)
  | whereIs (h : Hdr) (d : Reg) (addr : Addr)
  | mzero (h : Hdr) (d t k : Reg)
  | mma (h : Hdr) (o : MatOps) (ty : BitVec 2) (k16 : BitVec 8)
  | mmab (h : Hdr) (o : MatOps) (m : BitVec 3) (k16 : BitVec 8)
  | mld (h : Hdr) (o : MatOps) (ty : BitVec 2)
  | mst (h : Hdr) (o : MatOps) (ty : BitVec 3)
  | mscl (h : Hdr) (o : MatOps)
  | msclU (h : Hdr) (d t k : Reg) (scale : BitVec 32)
  | acall (h : Hdr) (d a : Reg) (t : ATarget) (trap : Bool)
  | acorr (h : Hdr) (d a b : Reg)
  | astat (h : Hdr) (d b : Reg)
  | tenq (h : Hdr) (a : Reg) (try_ : Option (BitVec 7))
  | tdeq (h : Hdr) (a : Reg) (p : BitVec 7) (q : BitVec 3)
  | dcnew (h : Hdr) (a : Reg) (n : Src)
  | dcadd (h : Hdr) (a : Reg) (n : Src)
  | dcdec (h : Hdr) (a : Reg) (n : Src)
  | dcrd (h : Hdr) (a b : Reg)
  | launch (h : Hdr) (d a : Reg)
  | dcfree (h : Hdr) (a : Reg)
  | dln (h : Hdr) (ns : Src) (b : Reg)
  | dprog (h : Hdr) (n : Src)
  | dend (h : Hdr)
  | dslack (h : Hdr) (a : Reg)
  | coll (h : Hdr) (d a : Reg) (kind : BitVec 3) (op : BitVec 4)
  | fput (h : Hdr) (d a : Reg)
  | fget (h : Hdr) (d a : Reg)
  | fsig (h : Hdr) (d a : Reg)
  | eret (h : Hdr)
  | sysrd (h : Hdr) (d : Reg) (addr : BitVec 32)
  | syswr (h : Hdr) (a : Reg) (addr : BitVec 32)
  | tlbiVa (h : Hdr) (a : Reg)
  | tlbiCtx (h : Hdr)
  | tlbiOth (h : Hdr) (a : Reg)
  | tlbiPart (h : Hdr) (a : Reg)
  | tlbiAll (h : Hdr)
  | cmaintWb (h : Hdr) (addr : Addr)
  | cmaintWbi (h : Hdr) (addr : Addr)
  | cmaintIc (h : Hdr) (addr : Addr)
  | halt (h : Hdr)
  | chkset (h : Hdr) (a : Reg) (n : Src)
  | unassignedOpcode (w : Slot)
  -- the rows that are events of the module
  | instructionFetch (core ctx va : Nat)
  | asyncTrapDelivery (tid : Nat)
  | hostServicedStop (gid : Nat)
  | shadowEnd (tid op : Nat)
  | regrouping (core sector : Nat)
  | sectorIssueCycle (core sector : Nat)
  | cohortAged (core sector : Nat)
  | sleepExpiry (tid : Nat)
  | registration (id : Nat)
  | registrationAck (id : Nat)
  | homeRead (tid op part : Nat)
  | wordRecall (word : Nat)
  | l1Eviction (core line : Nat)
  | llcEviction (line : Nat)
  | directoryEviction (line : Nat)
  | reducePartialUpdate (id : Nat)
  | partialEviction (line slice : Nat)
  | exclusiveRequest (line : Nat)
  | atomBackoffExpiry (id : Nat)
  | tlbMissWalk (ctx : Nat) (miss : TlbMiss)
  | walkCompletion (ctx va : Nat)
  | memoryControllerAccess (part pa : Nat) (wr : Bool) (ecc : Nat)
  | formatViewFill (line : Nat)
  | formatViewWriteback (line : Nat)
  | fmtwEnable (w : Nat)
  | fmtwDisable (w : Nat)
  | fmtwFlushEnd (w : Nat)
  | regionEntryWrite (g : Nat) (v : BitVec 32)
  | regionScrubEnd (g : Nat)
  | copyCommandStart (core : Nat)
  | lineLanded (core id line : Nat)
  | copyCompletion (core id : Nat)
  | stakeRetry (gid : Nat)
  | matrixCommandStart (core id : Nat)
  | matrixCompletion (core : Nat) (reached : MatrixReach)
  | matrixCheck (core : Nat)
  | continuationArrival (pkt : Nat)
  | returnArrival (pkt : Nat)
  | migrationRefusalReturn (tid : Nat)
  | arrayQueueEntry (die id : Nat)
  | alay (die seq : Nat)
  | abat (die seq : Nat)
  | calibrationProbe (die seq : Nat)
  | astg (die seq : Nat)
  | acmt (die seq : Nat)
  | avfy (die seq : Nat)
  | journalReplay (die : Nat)
  | aqry (die seq : Nat)
  | tilePass (die id : Nat)
  | rowProgramVerify (die id : Nat) (ok : Bool)
  | arrayCompletion (die id : Nat)
  | correctionPublish (die tile : Nat) (cols : List (Nat × Word × Word))
  | arrayCheck (die : Nat)
  | stagingOwnerWrite (die stg : Nat) (v : BitVec 32)
  | stagingEraseEnd (die stg : Nat)
  | permissionEntryWrite (die row vf : Nat) (v : BitVec 32)
  | sequencerCtlWrite (die seq : Nat) (v : BitVec 32)
  | cwd3Write (die seq : Nat) (v : BitVec 32)
  | launchPacket (vf : Option Nat) (req : Nat)
  | clusterPlacement (grid : Nat)
  | launchCompletion (grid : Nat)
  | schedulerTake (core : Nat)
  | schedulerSteal (core : Nat)
  | evaluation
  | railSettled (r : Nat)
  | railHoldExpiry (r : Nat)
  | capMessage (seq : BitVec 32) (cap lease : BitVec 16)
  | leaseExpiry
  | capacitorHold (r : Nat)
  | capacitorRecharged (r : Nat)
  | droopAlarm (r : Nat) (mv : Nat)
  | droopStretchEnd (core : Nat)
  | droopHalvingEnd (core : Nat)
  | wayGatingWindow (slice part est : Nat)
  | wayReenable (ways : SliceWays) (misses accesses : Nat)
  | retentionEntry (core : Nat)
  | coreWake (core : Nat)
  | paritySweep (core : Nat) (fails sfails hfails qfails rfails : List (Nat × Nat)) (spad tiles : List Nat)
  | linkFailure (join : Nat)
  | dieLoss (join : Nat)
  | fevasPortDown (port : Nat)
  | fabricRemoteAccess (ctx comm : Nat) (off : Nat) (op : RemoteOp)
  | fabricCompletion (id : Nat) (r : FabResult)
  | communicatorAbort (ctx comm : Nat)
  | fabricUnreachable (ctx comm peer : Nat)
  | communicatorSetup (ctx comm : Nat) (e : CommEntry)
  | lqtailWrite (vf : Nat) (v : BitVec 32)
  | lqcfgWrite (vf : Nat) (v : BitVec 32)
  | eqheadWrite (vf : Nat) (v : BitVec 32)
  | resume (vf ctx core group : Nat)
  | kill (vf ctx : Nat)
  | preempt (vf ctx : Nat)
  | restore (vf ctx : Nat)
  | saveImageClose (ctx : Nat)
  | saveLost (ctx : Nat)
  | contextEnd (ctx : Nat)
  | contextCreate (vf : Nat) (d : CtxDesc)
  | partitionCreate (p : Nat)
  | partitionDestroy (p : Nat)
  | partitionDescriptorWrite (p : Nat) (f : PartField)
  | coreReassign (core : Nat) (p : Nat)
  | registerWrite (r : RegName) (v : BitVec 64)
  | powerOn (images : List BootImage)
  | powerLoss
  | warmReset
  | recoveryImageWrite (img : BootImage)
  | attestationRequest (nonce : List Byte)
  | bypass
  | idcode
  | samplePreload
  | extest
  | resultArrival (tid op : Nat)
  | eqcfgWrite (vf : Nat) (base : Bool) (v : BitVec 64)
  | probeRequest (die tile : Nat)
  | acorrAstatRun (die id : Nat)
  deriving DecidableEq, Repr

end Sys2Proof
end

