-- ==== Sys2Proof/Machine/State.lean ====
section
/-! DEFINITION. The state of the module: plain data, holding every piece of state that the specification names, and the
state right after power-on. Sparse tables hold what exists; a default stands for what is absent. -/

namespace Sys2Proof.Machine

/-- The role of a group (Table 12.5). -/
inductive Role where
  | vector | copy | matrix
  deriving DecidableEq, Repr

/-- What a thread is doing (R356). -/
inductive Status where
  /-- its next instruction may issue -/
  | ready
  /-- it waits for a release, an interlock, a line, a handle, a queue place or a `stake`, and tries again when picked -/
  | waiting
  /-- it is parked on absent scratchpad lines, by core and line; with none left its access is performed next (R167) -/
  | parked (lines : List (Nat × Nat))
  /-- its `stake` is parked at a slot of a header, by core and offset (R183) -/
  | staked (core off slot : Nat) (ph free : Bool)
  /-- a full table of a peer has answered its `stake` as not matching: it is sent again at a time (R183) -/
  | resend (till : Nat)
  /-- the phase of its `stake` was met, and the acquire that follows waits for its earlier loads (R136, R183) -/
  | acquires
  /-- it waits at a meet register; signed tells whether it signed the open instance (R366) -/
  | meet (k : Nat) (signed : Bool)
  /-- it waits at a matrix command for the open instance of a meet register to issue (R281) -/
  | held (k : Nat)
  /-- it has arrived at the team barrier (R368) -/
  | bar
  /-- it has arrived at the cluster or wide-set barrier (R368) -/
  | cbar
  /-- it has arrived at a cross-lane instance at its PC (R266) -/
  | xlane
  /-- it sleeps until %time reaches a value (R364) -/
  | sleeping (till : Nat)
  /-- it waits for the next regrouping (R363) -/
  | yielded
  /-- its continuation is between cores (R195, R204) -/
  | transit
  /-- it has exited (R362) -/
  | retired
  deriving DecidableEq, Repr

/-- A destination of a long instruction: a v-register by its place in the linear window file, a predicate, or an s-register. -/
inductive Dest where
  | v (key : Nat)
  | p (n : Nat)
  | s (n : Nat)
  deriving DecidableEq, Repr

/-- One word of memory that a load or a gath element awaits: the physical word, its access's effective address, and its value once it has
been read. -/
structure MemPart where
  word : Nat
  ea   : DWord
  val  : Option Word
  deriving DecidableEq, Repr

/-- How the parts of a long memory operation become its results. -/
inductive LongKind where
  /-- the results are known and only their arrival is awaited (arithmetic, and accesses done at issue) -/
  | value
  /-- one load: byte offset in its first word, size code SZ and SGN (R153) -/
  | load (off : Nat) (sz : BitVec 2) (sgn : Bool)
  /-- one word for each destination (lds) -/
  | words
  /-- one word for each element of a gath, from an element on (R160) -/
  | gather (first : Nat)
  /-- one predicate word (pld) -/
  | pred (n : Nat)
  /-- an atomic (R150, R457) -/
  | excl
  deriving DecidableEq, Repr

/-- A long instruction in flight (R49, R50): open shadow slots left, destinations not yet overwritten, results. -/
structure LongOp where
  id    : Nat
  /-- the instance of a memory instruction, the same for all its lanes (R148, R152) -/
  inst  : Option Nat
  left  : Nat
  /-- the result has arrived (R50) -/
  arrived : Bool
  kind  : LongKind
  dests : List (Nat × Dest)
  parts : List MemPart
  vals  : Option (List Word)
  flags : BitVec 5
  acq   : Bool
  pc    : BitVec 48
  eas   : DWord
  deriving DecidableEq, Repr

/-- Which handler the window points away from the current frame for (R218). -/
inductive View where
  | off | spill | fill
  deriving DecidableEq, Repr

/-- Why a fault is raised, with what the record and the special registers take (R400, R402, R414). -/
structure Cause where
  code  : Nat
  sub   : Nat
  eaddr : DWord
  syn   : Word
  gpa   : DWord
  deriving DecidableEq, Repr

/-- A trap or fault to be taken: a precise fault by code, or a user trap by vector with its %ecause (R399 to R404). -/
inductive Trap where
  | fault (c : Cause)
  | vector (v : Nat) (ecause : Word) (eaddr : DWord) (next : Bool)
  | brk (n : BitVec 16)
  deriving DecidableEq, Repr

/-- Where an away thread is, or where its continuation goes, and what it carried (R192, R199 to R204). -/
structure Visit where
  core  : Nat
  /-- guest group, once placed -/
  guest : Nat
  /-- hops since leaving home -/
  hops  : Nat
  vregs : Tab Word
  preds : BitVec 32
  /-- the continuation is on its way home: by exit, or to take a trap -/
  home  : Bool
  exits : Bool
  trap  : Option (Trap × BitVec 48)
  deriving DecidableEq, Repr

/-- A hop under way (R195, R198): where to, whether a `.mig` access makes it, whether the destination refused it, and the
effective address. -/
structure Hop where
  dest    : Nat
  impl    : Bool
  refused : Bool
  ea : DWord
  deriving DecidableEq, Repr

/-- A migration packet under way (R192, R193): between which cores, whether it carries returns, and its continuations as they are sent,
in ascending home lane order. -/
structure Packet where
  src   : Nat
  dest  : Nat
  home  : Bool
  conts : List (List Byte)
  deriving DecidableEq, Repr

/-- One thread (R213, R234): its registers and its progress. -/
structure Thread where
  status  : Status
  pc      : BitVec 48
  /-- v0 to v15 at keys 0 to 15, window words from key 16: entry band of frame n at 16 + 32n, body band after it (R214) -/
  vregs   : Tab Word
  vpoison : NSet
  preds   : BitVec 96
  ppoison : NSet
  longs   : List LongOp
  flags   : BitVec 5
  trapen  : BitVec 5
  carryV  : BitVec 32
  carryQ  : Bool
  epc     : BitVec 48
  ecause  : Word
  eaddr   : DWord
  pix     : Nat
  /-- v-register words never written since launch: none reads 0, some n reads the free values from n (R236) -/
  undef   : Option Nat
  /-- the instruction that trapped last, for the resumption of gath and scat (R413) -/
  trapPc  : Option (BitVec 48)
  /-- the named gath or scat resumes from %pix (R413, R415) -/
  resumed : Bool
  inH     : Bool
  view    : View
  nres    : Nat
  nspill  : Nat
  rsmem   : Nat
  rstack  : List (BitVec 48)
  /-- places of the resident return-stack entries that are poisoned, the oldest at 0 (R237) -/
  rpoison : NSet
  rspill  : BitVec 48
  deadline : Option DWord
  visit   : Option Visit
  hop     : Option Hop
  /-- the `.mig` access at the PC was refused by its destination: it is performed in place (R198) -/
  stay    : Bool
  /-- its first instruction has not issued yet (R349) -/
  fresh   : Bool
  deriving DecidableEq, Repr

/-- A handle register (R230): GEN, the pending command, STATUS, the TRAP bit of acall (R316), and the threads that a read of
the pending handle as a destination blocks (R173, R230). -/
structure Handle where
  gen    : Nat
  pend   : Option Nat
  status : Word
  trap   : Bool
  readers : NSet
  deriving DecidableEq, Repr

/-- A lane that has arrived at a cross-lane instance, with its operands as they stood (R267). -/
structure Arrival where
  lane    : Nat
  guard   : Bool
  vals    : List Word
  pred    : Bool
  deriving DecidableEq, Repr

/-- An open cross-lane instance of a home group (R266). -/
structure XInst where
  pc      : BitVec 48
  instr   : Instr
  mask    : NSet
  arrived : List Arrival
  deriving DecidableEq, Repr

/-- The kinds of a fault record (Table 14.5). -/
inductive StopKind where
  | fault | novec | double | brk | dieloss
  deriving DecidableEq, Repr

/-- A host-serviced stop of a group (R414): the record's fields, and whether it has been made. -/
structure Stop where
  kind  : StopKind
  vec   : Nat
  cause : Word
  inH   : Bool
  epc   : BitVec 48
  eaddr : DWord
  syn   : Word
  brkn  : BitVec 16
  gpa   : DWord
  lanes : NSet
  pix   : Nat
  made  : Bool
  /-- RESUME has been accepted and waits for register words (R415) -/
  resumeAsked : Bool
  deriving DecidableEq, Repr

/-- One resident group (R342, R227). -/
structure Group where
  team    : Nat
  index   : Nat
  role    : Role
  sregs   : Tab Word
  /-- as in Thread, for s-registers -/
  undef   : Option Nat
  spoison : NSet
  /-- poisoned words of the handle file: 2h the TOKEN of h, 2h + 1 its STATUS (R230, R237) -/
  hpoison : NSet
  handles : Tab Handle
  /-- the v-registers in the operand buffer (R222); their words stand in the register file too, as only timing shows.
  DEDUCED, log 19 -/
  obuf    : List Nat
  xinsts  : List XInst
  stop    : Option Stop
  deriving DecidableEq, Repr

/-- The kernel header fields a team keeps (Table 02.14). -/
structure Kernel where
  addr    : Nat
  wide    : Bool
  groups  : Nat
  cw      : Nat
  ch      : Nat
  wteams  : Nat
  roles   : BitVec 64
  depth   : Nat
  frames  : Nat
  tiles   : Nat
  spad    : Nat
  dline   : Nat
  dwork   : Nat
  vecs    : List Word
  deriving DecidableEq, Repr

/-- A matrix command as its instance's first signature recorded it (R281), with where its operands come from. -/
structure MatReq where
  instr : Instr
  tile  : Nat
  /-- the command's name, given at the first signature -/
  id    : Nat
  deriving DecidableEq, Repr

/-- The open instance of a meet register (R366). -/
structure KInst where
  pc     : BitVec 48
  n      : Nat
  m      : Word
  signed : NSet
  cmd    : Option MatReq
  deriving DecidableEq, Repr

/-- A meet register (R365). -/
structure KReg where
  n    : Nat
  m    : Word
  inst : Option KInst
  deriving DecidableEq, Repr

/-- A team's open step (R385). -/
structure Step where
  deadline : Nat
  work     : Nat
  done     : Nat
  /-- C (R385), with the part of a core cycle that has passed, in twentieths -/
  cycles   : Nat
  owner    : Nat
  risk     : Bool
  deriving DecidableEq, Repr

/-- One placed team (R342, R347). -/
structure Team where
  ctx     : Nat
  grid    : Nat
  cluster : Nat
  rank    : Nat
  core    : Nat
  kernel  : Kernel
  spadBase : Nat
  tiles   : List Nat
  slots   : List Nat
  kregs   : Tab KReg
  bar     : NSet
  step    : Option Step
  /-- the step that the launch opens at team-group 0's first instruction: DLNS and DWORK (R73, R386) -/
  opens   : Option (Nat × Nat)
  deriving DecidableEq, Repr

/-- One placed cluster, or the one set of a wide launch (R342, R344). -/
structure Cluster where
  grid  : Nat
  index : Nat
  teams : List Nat
  cbar  : NSet
  deriving DecidableEq, Repr

/-- A launch (R345 to R350). -/
structure Grid where
  ctx    : Nat
  nclus  : Nat
  prio   : Nat
  arg    : DWord
  crec   : DWord
  donedc : Nat
  dclass : Nat
  kernel : Kernel
  rsbase : DWord
  rsstr  : Nat
  next   : Nat
  origin : Option Nat
  /-- the command number under which a launch handle pends -/
  cmd    : Option Nat
  deriving DecidableEq, Repr

/-- A device launch that the command processor has not read yet: its packet, and the command number under which its handle
pends (R351). -/
structure LaunchReq where
  ctx    : Nat
  packet : DWord
  cmd    : Option Nat
  deriving DecidableEq, Repr

/-- L1 word states (Table 05.2); an absent word is I. -/
inductive L1State where
  | S | P | O
  deriving DecidableEq, Repr

/-- One valid word of an L1 (R128): value, the bytes that hold it (all but in P), and for P its registration and writer. -/
structure L1Word where
  st     : L1State
  val    : Word
  mask   : BitVec 4
  writers : NSet
  reg    : Nat
  poison : Bool
  deriving DecidableEq, Repr

/-- A registration on its way to the home, or its acknowledgement on its way back (R132). -/
structure Registration where
  core  : Nat
  tids  : NSet
  part  : Nat
  word  : Nat
  val   : Word
  mask  : BitVec 4
  acked : Bool
  deriving DecidableEq, Repr

/-- A line held in its home slice: bytes, and which of them are not yet in memory (R129). -/
structure LlcLine where
  bytes : List Byte
  dirty : NSet
  part  : Nat
  /-- the way of its set that the line stands in (R129) -/
  way   : Nat
  /-- bytes that good data has overwritten since the line was filled (R122) -/
  cured : NSet
  deriving DecidableEq, Repr

/-- The partials of one line in reduce state, by slice and word (R142), and the partial entries that hold them: slice,
partition and way (R129). -/
structure Reduce where
  op       : Nat
  partials : List (Nat × Nat × DWord)
  entries  : List (Nat × Nat × Nat)
  deriving DecidableEq, Repr

/-- A `red` on its way to its slice (R142). -/
structure RedFly where
  tid  : Nat
  core : Nat
  part : Nat
  word : Nat
  op   : Nat
  val  : DWord
  deriving DecidableEq, Repr

/-- A cross-die atomic (R150): waiting at the hub, holding the line, or backing off till a time. -/
inductive ExclState where
  | queued | held | backoff (till : Nat)
  deriving DecidableEq, Repr

structure Excl where
  tid   : Nat
  core  : Nat
  part  : Nat
  /-- the instruction instance: its lanes that target one line are served together (R148) -/
  inst  : Nat
  line  : Nat
  addr  : Nat
  op    : BitVec 4
  w64   : Bool
  src   : DWord
  cmp   : DWord
  st    : ExclState
  losses : Nat
  /-- stands for the order in which requests arrived at the hub -/
  asked : Nat
  deriving DecidableEq, Repr

/-- Lines that an engine's command owns or pins (R139, R140). -/
structure Hold where
  cmd  : Nat
  own  : NSet
  pin  : NSet
  deriving DecidableEq, Repr

/-- A cached translation (R110). -/
structure TlbEntry where
  ctx   : Nat
  base  : Nat
  size  : Nat
  pa    : Nat
  rd    : Bool
  wr    : Bool
  ex    : Bool
  unc   : Bool
  lvl1  : Nat
  lvl2  : Nat
  okOwn : Bool
  deriving DecidableEq, Repr

/-- A walk in flight (R110): one page of one context, the cores whose misses wait for it. -/
structure Walk where
  ctx   : Nat
  page  : Nat
  cores : NSet
  deriving DecidableEq, Repr

/-- A table entry that a walker caches (R110): the walker, the entry's host physical address, and its value. -/
structure WalkerEntry where
  walker : Nat
  addr   : Nat
  entry  : DWord
  deriving DecidableEq, Repr

/-- A region table entry (Table 04.7). -/
structure Region where
  valid : Bool
  /-- SCRUB, with the time at which the fill began (R116) -/
  scrub : Option Nat
  owner : Nat
  deriving DecidableEq, Repr

/-- A format window (Table 04.9). -/
structure Fmtw where
  en    : Bool
  busy  : Bool
  err   : Bool
  range : Bool
  m     : BitVec 4
  part  : Nat
  vbase : BitVec 52
  vlen  : BitVec 32
  mbase : BitVec 52
  sbase : BitVec 52
  deriving DecidableEq, Repr

/-- A copy command (R171 to R179). -/
structure CopyCmd where
  id     : Nat
  ctx    : Nat
  team   : Nat
  gid    : Nat
  kind   : Nat
  dst    : DWord
  src    : DWord
  fill   : Word
  rb     : Nat
  rows   : Nat
  ss     : Int
  ds     : Int
  started : Bool
  cancel : Bool
  /-- it has been restored from a save image, and its start goes before those of threads' commands (R379, R380) -/
  restored : Bool
  /-- destination lines landed: global or scratchpad line keys -/
  landed : NSet
  pix    : Nat
  err    : Nat
  deriving DecidableEq, Repr

/-- An accumulator tile (R277, R278): words absent read as zero. -/
structure Tile where
  words : Tab Word
  /-- words not listed are free values from this name (R278, R287) -/
  undef : Option Nat
  flags : BitVec 5
  err   : Nat
  canc  : Bool
  scale : Tab Word
  deriving DecidableEq, Repr

/-- A matrix command in the unit (R283). -/
structure MatCmd where
  id      : Nat
  ctx     : Nat
  team    : Nat
  tile    : Nat
  phys    : Nat
  instr   : Instr
  desc    : List Word
  started : Bool
  cancel  : Bool
  /-- column scales captured at issue of an mst -/
  scale   : Tab Word
  /-- progress: the k-steps or rows that are done (R293, R294) -/
  kstep   : Nat
  err     : Nat
  /-- the flags that it has raised -/
  flags   : BitVec 5
  /-- the reference of a product's check, as far as its k-steps have come (R297) -/
  ref     : Option (List Word)
  /-- pre-emption stopped it part-way (R297, R299) -/
  parted  : Bool
  /-- what ended commands that were issued after it leave in its tile when it leaves: an ERR code, and CANC (R283, R287) -/
  marks   : List (Nat × Bool)
  deriving DecidableEq, Repr

/-- Whether a core's register files are powered (R383, R384). -/
inductive Retention where
  | awake
  | retained
  | waking (till : Nat)
  /-- awake, the parity sweep still to be made before the first issue (R237) -/
  | unswept
  deriving DecidableEq, Repr

/-- Droop control of a core (R398). -/
inductive Droop where
  | none | stretch (since : Nat) | halved (since : Nat)
  deriving DecidableEq, Repr

/-- One sector (R352 to R355, R382). -/
structure Sector where
  /-- bundles: the thread at each occupied physical lane (R353) -/
  bundles : List (Tab Nat)
  /-- age of the cohort at a PC of a bundle: key bundle, then PC -/
  ages    : List (Nat × Nat × Nat)
  /-- the bundle first served in the last cycle (R354) -/
  rr      : Nat
  /-- the cohorts that the running cycle issues, by bundle and PC, with their threads (R354) -/
  offers  : List (Nat × Nat × List Nat)
  /-- the cohorts that have issued in the running cycle, by bundle and PC -/
  served  : List (Nat × Nat)
  /-- sector cycles since the last regrouping (R353) -/
  since   : Nat
  /-- %cyc, in eightieths of a sector cycle -/
  cyc     : Nat
  /-- issue ratio in quarters: 4, 3, 2 or 1 -/
  ratio   : Nat
  /-- cycles since the last evaluation in which the sector issued, and all of them (R382) -/
  issued  : Nat
  cycles  : Nat
  deriving DecidableEq, Repr

/-- The visitors of one guest group (R199). -/
structure Guest where
  ctx  : Nat
  role : Role
  deriving DecidableEq, Repr

/-- One core (R12 to R14). -/
structure Core where
  l1      : Tab L1Word
  /-- the core's TLB (R110) -/
  tlb     : List TlbEntry
  ifetch  : Tab (List Byte)
  spad    : Tab Byte
  /-- byte ranges whose unwritten bytes are free values: first, length, name of the first (R186) -/
  spadUndef : List (Nat × Nat × Nat)
  absent  : NSet
  spoison : NSet
  guests  : Tab Guest
  copyq   : List CopyCmd
  tiles   : Tab Tile
  tilePoison : NSet
  matq    : List MatCmd
  matCount : Nat
  /-- the context that last held each 128-byte scratchpad line and each physical tile, and those that held register words
  (R185, R236, R278); 2048 stands for a context that has ended -/
  spadCtx : Tab Nat
  tileCtx : Tab Nat
  regCtx  : NSet
  /-- the context that last held the s-registers of each group slot (R236) -/
  slotCtx : Tab Nat
  /-- poisoned words of the main file and of the scalar file that no thread or group holds: by the thread and place, or the group and
  number, to which they fall next (R237). DESIGN CHOICE, log 105 -/
  spareV  : List (Nat × Nat)
  spareS  : List (Nat × Nat)
  /-- check records of sampled matrix commands still to be written, with their partition (R297) -/
  matChecks : List (Nat × List Byte)
  point   : Nat
  want    : Nat
  ret     : Retention
  /-- a request of another core to its scratchpad waits for it to wake (R383) -/
  asked   : Bool
  idleFrom : Option Nat
  droop   : Droop
  capHold : Bool
  /-- issue on the V and E ports is held in alternate sector cycles (R396) -/
  rampHold : Bool
  sectors : Tab Sector
  evsel   : Tab Word
  evcnt   : Tab (BitVec 48)
  deriving DecidableEq, Repr

/-- A task record with its place (R370 to R375). -/
structure Task where
  words : List Word
  ctx   : Nat
  home  : Nat
  /-- waits on its counter; else it stands in the deque of its queue and home core -/
  waits : Bool
  /-- its queue was a launch queue when it became runnable (R370) -/
  launches : Bool
  deriving DecidableEq, Repr

/-- A partition (R440, Table 15.2). -/
structure Part where
  cores    : BitVec 192
  waymask  : BitVec 16
  s2root   : BitVec 64
  tqcfg    : BitVec 8
  trbase   : BitVec 64
  log2nrec : BitVec 5
  peacc    : BitVec 64
  /-- the estimate of its power at the last evaluation, in watts (R396) -/
  est      : Nat
  dctbase  : BitVec 64
  /-- key slot loaded (R118): the generated key's name -/
  key      : Option Nat
  tasks    : List Task
  counters : Tab Word
  interval : Nat
  /-- when the last record left a core's launch deques (R376) -/
  emptyFrom : Tab Nat
  deriving DecidableEq, Repr

/-- A communicator as the hub holds it (R446, R447). DEDUCED, log 69. -/
structure Comm where
  valid  : Bool
  dead   : Bool
  myrank : Nat
  nrank  : Nat
  wbase  : DWord
  wlen   : DWord
  /-- per rank: module, context, window length -/
  list   : List (Nat × Nat × DWord)
  deriving DecidableEq, Repr

/-- What state a context is in (R417, R418, R425, R439). DESIGN CHOICE, log 57. -/
inductive Phase where
  | running | stopping | saved | queued
  deriving DecidableEq, Repr

/-- A save image (R417, R418): what the context held in its place. Each core keeps the context's scratchpad bytes, tiles and
commands, and nothing else. DEDUCED, log 58. -/
structure Image where
  groups   : Tab Group
  threads  : Tab Thread
  teams    : Tab Team
  clusters : Tab Cluster
  cores    : Tab Core
  deriving DecidableEq, Repr

/-- A context (R442, Table 15.3, R423). -/
structure Ctx where
  part    : Nat
  vf      : Nat
  s1root  : BitVec 64
  savebase : BitVec 64
  debug   : Bool
  sys     : Bool
  commbase : BitVec 64
  touched : BitVec 20
  phase   : Phase
  ending  : Bool
  image   : Option Image
  /-- what the save hardware last wrote to the save area of each core: the fault record at its start, and the name of the free values
  that stand for its other bytes, whose layout is not architectural (R420, R421) -/
  areas   : Tab (Nat × List Byte)
  comms   : Tab Comm
  deriving DecidableEq, Repr

/-- A virtual function's control page (Table 15.1), the events it holds back, and its fabric queue length. -/
structure Vf where
  part   : Option Nat
  lqbase : BitVec 64
  lqcfg  : BitVec 32
  lqtail : BitVec 32
  lqhead : BitVec 32
  eqbase : BitVec 64
  eqcfg  : BitVec 32
  eqtail : BitVec 32
  eqhead : BitVec 32
  err    : BitVec 3
  held   : List (List Byte)
  deriving DecidableEq, Repr

/-- A fabric command (R445, R449, R450). -/
structure FabCmd where
  id   : Nat
  ctx  : Nat
  gid  : Nat
  team : Nat
  instr : Instr
  desc : List Word
  comm : Nat
  peer : Nat
  cancel : Bool
  deriving DecidableEq, Repr

/-- Tile states (Table 11.2). -/
inductive TileState where
  | empty | ready | commit | probe | failed
  deriving DecidableEq, Repr

/-- A correction bank: per column gain and offset, absent columns the identity 1.0 and 0.0 (R325). -/
structure Bank where
  gain : Tab Word
  off  : Tab Word
  deriving DecidableEq, Repr

/-- An array tile: descriptor, weights (absent cells level 0), the two banks and which is current (R302, R325, R326). -/
structure ATile where
  sw      : Word
  rsh     : BitVec 4
  state   : TileState
  ver     : BitVec 16
  w       : Tab Int
  bank0   : Bank
  bank1   : Bank
  cur1    : Bool
  /-- when a command last activated the tile (R324), and when a version was last published (R326) -/
  lastAct : Option Nat
  lastPub : Option Nat
  deriving DecidableEq, Repr

/-- A staging-owner entry (Table 11.17). -/
structure StgOwner where
  valid : Bool
  erase : Bool
  owner : Nat
  deriving DecidableEq, Repr

/-- A journal record (Table 11.15). A record whose write was cut off by a loss of power has a CRC that is not its own (R337). -/
structure JRec where
  magic : BitVec 16
  type : Nat
  seq  : Nat
  tile : Nat
  stg  : Nat
  row  : Nat
  time : Nat
  sw   : Word
  rsh  : BitVec 4
  imgcrc : Word
  crc  : Word
  /-- its stage is discarded (R334, R337, R338) -/
  discarded : Bool
  deriving DecidableEq, Repr

/-- An array sequencer's control block and store (Table 11.3, R304). -/
structure Seqr where
  stop  : Bool
  fault : Bool
  /-- commands complete with ILL_OP from a fault until STOP is cleared (R307) -/
  halted : Bool
  /-- the VF whose segment was started last (R322) -/
  lastVf : Nat
  /-- the lanes that have run a probe since their last command segment (R322) -/
  probed : NSet
  caddr : BitVec 8
  cwd   : Tab Word
  evec  : Tab (BitVec 8)
  store : Tab (BitVec 128)
  deriving DecidableEq, Repr

/-- What a lane holds while it executes micro-words (R306), with the data that they move. DESIGN CHOICE, log 53. -/
structure MicroLane where
  /-- the micro-address -/
  pc    : Nat
  /-- w0 to w15, and LC -/
  work  : Tab Word
  lc    : Nat
  /-- what COND tests: the last ALU result, the last row verify, and whether the last conversion clipped -/
  last  : Word
  verified : Bool
  clipped  : Bool
  /-- the tile whose columns hold charge -/
  on    : Option Nat
  /-- the vector that the chunks belong to, its input, s_x and q, and its d -/
  vec   : Nat
  x     : List Word
  sx    : Word
  q     : List Int
  d     : List Word
  /-- column charges, converted codes, codes in the correction pipe, partials and outputs -/
  charge : Tab Int
  codes : Tab Int
  pipe  : Tab Int
  part  : Tab Word
  y     : Option (Tab Word)
  /-- the image buffer: one row of levels -/
  img   : Tab Int
  deriving DecidableEq, Repr

/-- An array command, on its way, queued or running (R311 to R315, R327). -/
structure ACmd where
  id    : Nat
  ctx   : Nat
  vf    : Nat
  gid   : Nat
  team  : Nat
  seq   : Nat
  /-- entry 0 to 7 of acall; 8 acorr, 9 astat; 10 a probe of the RCE -/
  entry : Nat
  /-- the argument block's address, or acorr's destination -/
  argAddr : DWord
  /-- tile number of acorr, astat and a probe -/
  tile  : Nat
  /-- the argument block as queue entry read it -/
  block : List Byte
  queued : Bool
  started : Bool
  /-- the lane of its sequencer that it holds once it has started -/
  lane  : Nat
  /-- micro-words of the control store that it executes (R306); none while the shipped firmware's entry point runs -/
  micro : Option MicroLane
  /-- its micro-code has gone on into the shipped firmware -/
  shipped : Bool
  /-- passes driven -/
  pass  : Nat
  /-- tile, bank and correction version latched at the start (R325) -/
  latched : List (Nat × Bool × BitVec 16)
  /-- tile partials by (16 × vector + t) × 1,024 + column, or the levels that a verify has read -/
  parts : Tab Word
  /-- per vector: s_x, the codes, and whether an input is NaN or infinite (R317) -/
  xq    : List (Word × List Int × Bool)
  flags : BitVec 5
  clipx : Bool
  clipc : Bool
  err   : Nat
  detail : Nat
  cancel : Bool
  /-- progress of a stage or commit: phase, next row, and whether its ROW_BEGIN is written -/
  phase : Nat
  row   : Nat
  begun : Bool
  /-- the image of a stage: levels by row × 1,024 + column -/
  img   : Tab Int
  deriving DecidableEq, Repr

/-- A sampled pass whose check record is still to be written (R328). -/
structure ASample where
  part : Nat
  tile : Nat
  seq  : Nat
  ctx  : Nat
  ver  : BitVec 16
  row0 : Nat
  col0 : Nat
  time : Nat
  sx   : Word
  q    : List Int
  p    : List Word
  deriving DecidableEq, Repr

/-- One Orangery die (R301 to R341). -/
structure Orng where
  tiles   : Tab ATile
  staging : Tab (Tab Int)
  stgOwner : Tab StgOwner
  perm    : Tab Word
  journal : List JRec
  nextSeq : Nat
  seqrs   : Tab Seqr
  cmds    : List ACmd
  samples : List ASample
  replayed : Bool
  shbase  : BitVec 64
  /-- array pass counter of each partition (R328) -/
  passCount : Tab Nat
  deriving DecidableEq, Repr

/-- A power rail (R389): level, target, what it is doing, and since when or till when. -/
inductive RailPhase where
  | steady | rising (since : Nat) | holding (till : Nat) | falling (since : Nat)
  deriving DecidableEq, Repr

structure Rail where
  /-- level in microvolts, when its phase began -/
  level  : Nat
  target : Nat
  phase  : RailPhase
  /-- votes in microvolts by partition -/
  votes  : Tab Nat
  deriving DecidableEq, Repr

/-- The governor's registers (Table 13.3) and its pending message. -/
structure Gov where
  margin   : BitVec 32
  cap      : BitVec 16
  capseq   : BitVec 32
  leaseEnd : Option Nat
  fallback : BitVec 16
  floor    : BitVec 16
  ramp     : BitVec 16
  drth     : BitVec 8
  defpt    : BitVec 4
  lastseq  : BitVec 32
  /-- messages to apply at the next evaluation, in order of arrival (R394) -/
  pending  : List (BitVec 32 × BitVec 16 × BitVec 16)
  lastEval : Nat
  /-- the estimate of the last evaluation with its filler, in watts (R396) -/
  power    : Nat
  /-- filler that slows a fall, filler that keeps FLOOR, in watts, and by how much each partition fell (R396) -/
  filler   : Nat
  floorFill : Nat
  falls    : Tab Nat
  deriving DecidableEq, Repr

/-- The root of trust (R454). -/
structure Trust where
  powered  : Bool
  recovery : Bool
  images   : List (Nat × Nat × List Byte)
  report   : Option (List Byte)
  deriving DecidableEq, Repr

/-- The boundary-scan register (R456). -/
inductive Scan where
  | bypass | idcode | sample | extest
  deriving DecidableEq, Repr

/-- What the agenda does next: a cohort of one core issues, or an event of the module happens. -/
inductive What where
  | issue (core : Nat) (tids : List Nat)
  | event (i : Instr)
  deriving DecidableEq, Repr

/-- One act, with the nanoseconds that pass before it. -/
structure Act where
  dt   : Nat
  what : What
  deriving DecidableEq, Repr

/-- The cohort that executes: threads of one core at one PC, whose line passed its checks. -/
structure Cohort where
  core : Nat
  pc   : BitVec 48
  tids : List Nat
  deriving DecidableEq, Repr

/-- The state of the module. The first four fields are the model's own. -/
structure State where
  /-- what happens next, in order (model's own). DESIGN CHOICE, log 1 -/
  agenda   : List Act
  /-- the cohort that executes now (model's own). DESIGN CHOICE, log 1 -/
  cur      : Option Cohort
  /-- the name of the next free value (model's own). DESIGN CHOICE, log 4 -/
  free     : Nat
  /-- the name of the next operation or command (model's own). DESIGN CHOICE, log 1 -/
  nextId   : Nat
  /-- %time (Table 08.10) -/
  now      : Nat
  threads  : Tab Thread
  packets  : Tab Packet
  groups   : Tab Group
  teams    : Tab Team
  clusters : Tab Cluster
  grids    : Tab Grid
  launchReqs : Tab LaunchReq
  cores    : Tab Core
  /-- LPDDR-6 and host memory, by host physical address; an unlisted byte reads 0. DESIGN CHOICE, log 6 -/
  mem      : Tab Byte
  /-- vault bytes, at vault * 2^23 + offset; an unlisted byte reads 0. DESIGN CHOICE, log 6 -/
  vault    : Tab Byte
  /-- poisoned 64-byte lines (R122), and 8-byte units of LPDDR-6 that poisoned view lines left poisoned (R125) -/
  poison   : NSet
  poison8  : NSet
  /-- regions whose bytes were encrypted under a key that their owner's slot no longer holds, each with the name of the free
  values it reads as, and the 32-byte bursts written since (R118, R121) -/
  garbled  : List (Nat × Nat)
  regrown  : NSet
  llc      : Tab LlcLine
  /-- the core that owns a word; the lines that engines own stand in holds -/
  owner    : Tab Nat
  reduce   : Tab Reduce
  regs     : Tab Registration
  reds     : Tab RedFly
  excl     : Tab Excl
  holds    : List Hold
  /-- cross-die atomics' lines: the core that holds each and the time till which it holds it exclusively (R150) -/
  exclTill : Tab (Nat × Nat)
  /-- the shared TLB of each Arbor die (R110) -/
  dieTlb   : Tab (List TlbEntry)
  walks    : List Walk
  walkers  : List WalkerEntry
  /-- gated ways by slice and way, WGTH by slice -/
  gated    : List (Nat × Nat)
  wgth     : Tab Nat
  regions  : Tab Region
  fmtw     : Tab Fmtw
  parts    : Tab Part
  ctxs     : Tab Ctx
  vfs      : Tab Vf
  fabric   : List FabCmd
  route    : Tab (BitVec 18)
  portsDown : NSet
  /-- since when a die-to-die join carries no flit (R17). DESIGN CHOICE, log 92 -/
  linkDown : Tab Nat
  orng     : Tab Orng
  gov      : Gov
  rails    : Tab Rail
  hubEvsel : Tab Word
  hubEvcnt : Tab (BitVec 48)
  lost     : NSet
  trust    : Trust
  scan     : Scan
  deriving DecidableEq, Repr

/-- Why the model stops. DESIGN CHOICE, log 89. -/
inductive Fault where
  /-- an instruction row was executed with no cohort issuing it. Raised by exec of every instruction row when State.cur is
  none; step never asks for it. Safe: the machine has no such step. -/
  | noCohort
  deriving DecidableEq, Repr

/-- What the model refuses. -/
inductive Refusal where
  /-- an instruction that the model gives no meaning yet. Raised by exec alone. Safe. -/
  | notModelled (mnemonic : String)
  deriving DecidableEq, Repr

/-- Governor registers at reset (Table 13.3). DESIGN CHOICE, log 3. -/
def Gov.reset : Gov where
  margin := 2000
  cap := 900
  capseq := 0
  leaseEnd := none
  fallback := 900
  floor := 0
  ramp := 1000
  drth := 40
  defpt := 8
  lastseq := 0
  pending := []
  lastEval := 0
  power := 0
  filler := 0
  floorFill := 0
  falls := []

/-- The state right after power-on, before any image has been loaded (R454, R467): every table is empty, so every
register it would hold reads as its reset value.
DESIGN CHOICE, log 5; PRESUMED, log 21; DESIGN CHOICE, log 22; DESIGN CHOICE, log 25. -/
def State.reset : State where
  agenda := []
  cur := none
  free := 0
  nextId := 0
  now := 0
  threads := []
  packets := []
  groups := []
  teams := []
  clusters := []
  grids := []
  launchReqs := []
  cores := []
  mem := []
  vault := []
  poison := []
  poison8 := []
  garbled := []
  regrown := []
  llc := []
  owner := []
  reduce := []
  regs := []
  reds := []
  excl := []
  holds := []
  exclTill := []
  dieTlb := []
  walks := []
  walkers := []
  gated := []
  wgth := []
  regions := []
  fmtw := []
  parts := []
  ctxs := []
  vfs := []
  fabric := []
  route := []
  portsDown := []
  linkDown := []
  orng := []
  gov := Gov.reset
  rails := []
  hubEvsel := []
  hubEvcnt := []
  lost := []
  trust := { powered := false, recovery := false, images := [], report := none }
  scan := .idcode

end Sys2Proof.Machine
end

