-- ==== Sys2Proof/Machine/Tab.lean ====
section
/-! DEFINITION. Operations on sparse tables and sets in canonical form: strictly rising keys. -/

namespace Sys2Proof

variable {α : Type}

namespace Tab

/-- The entry of a key. -/
def get? : Tab α → Nat → Option α
  | [], _ => none
  | (k, v) :: t, n => if n = k then some v else get? t n

/-- The entry of a key, or the reader's default. -/
def getD (t : Tab α) (n : Nat) (d : α) : α := (get? t n).getD d

/-- Put an entry, keeping the keys strictly rising. -/
def set : Tab α → Nat → α → Tab α
  | [], n, x => [(n, x)]
  | (k, v) :: t, n, x => if n < k then (n, x) :: (k, v) :: t else if n = k then (n, x) :: t else (k, v) :: set t n x

/-- Remove a key. -/
def erase : Tab α → Nat → Tab α
  | [], _ => []
  | (k, v) :: t, n => if n = k then erase t n else (k, v) :: erase t n

/-- Put an entry of a table whose absent keys read as d: writing d removes the entry. -/
def put [DecidableEq α] (d : α) (t : Tab α) (n : Nat) (x : α) : Tab α := if x = d then erase t n else set t n x

/-- Change one entry, if it is there. -/
def modify (t : Tab α) (n : Nat) (f : α → α) : Tab α :=
  match t with
  | [] => []
  | (k, v) :: r => if n = k then (k, f v) :: r else (k, v) :: modify r n f

/-- Change the entries of the keys that satisfy p. -/
def update (t : Tab α) (p : Nat → Bool) (f : Nat → α → α) : Tab α :=
  match t with
  | [] => []
  | (k, v) :: r => (k, if p k then f k v else v) :: update r p f

/-- Keep the entries that satisfy p. -/
def keep (t : Tab α) (p : Nat → α → Bool) : Tab α :=
  match t with
  | [] => []
  | (k, v) :: r => if p k v then (k, v) :: keep r p else keep r p

/-- The keys. -/
def keys (t : Tab α) : List Nat := t.map Prod.fst

/-- Whether the keys are strictly rising, all above a bound. -/
def risingFrom : Nat → Tab α → Bool
  | _, [] => true
  | b, (k, _) :: t => decide (b ≤ k) && risingFrom (k + 1) t

/-- The canonical form: strictly rising keys. -/
def rising (t : Tab α) : Bool := risingFrom 0 t

end Tab

namespace NSet

/-- Add a number to a set. -/
def add : NSet → Nat → NSet
  | [], n => [n]
  | k :: t, n => if n < k then n :: k :: t else if n = k then k :: t else k :: add t n

/-- Add several numbers. -/
def addAll (s : NSet) (l : List Nat) : NSet := l.foldl add s

/-- Remove a number. -/
def del (s : NSet) (n : Nat) : NSet := s.filter (· ≠ n)

/-- The numbers of a mask's one bits, below n. -/
def ofMask (n : Nat) (m : Nat) : NSet := (List.range n).filter (fun i => m.testBit i)

/-- The mask of a set. -/
def toMask (s : NSet) : Nat := s.foldl (fun m i => m ||| (1 <<< i)) 0

end NSet

end Sys2Proof
end

