-- ==== Sys2Proof/Machine/Bytes.lean ====
section
/-! DEFINITION. Bytes and words: byte-addressed memory in its canonical form, and little-endian numbers (R1). -/

namespace Sys2Proof.Machine

open Sys2Proof

/-! ### The canonical form of memory -/

/-- Main memory and vaults: keys strictly rising, no entry that equals what an unlisted address reads as, which is 0.
DESIGN CHOICE, log 6. -/
def Memory.wf (m : Tab Byte) : Bool := m.rising && m.all (fun x => x.2 != 0)

/-- One byte of a memory. DESIGN CHOICE, log 6. -/
def Memory.byte (m : Tab Byte) (a : Nat) : Byte := m.getD a 0

/-- Store one byte. DESIGN CHOICE, log 6. -/
def Memory.write (m : Tab Byte) (a : Nat) (b : Byte) : Tab Byte := Tab.put 0 m a b

/-- Store bytes at consecutive addresses. -/
def Memory.writeAll (m : Tab Byte) (a : Nat) : List Byte → Tab Byte
  | [] => m
  | b :: r => Memory.writeAll (Memory.write m a b) (a + 1) r

namespace Mem

/-- A little-endian number from bytes (R1). -/
def ofBytes : List Byte → Nat
  | [] => 0
  | b :: r => b.toNat + 256 * ofBytes r

/-- The n low bytes of a number. -/
def toBytes : Nat → Nat → List Byte
  | 0, _ => []
  | n + 1, x => BitVec.ofNat 8 x :: toBytes n (x / 256)

/-- n bytes of a memory from a. -/
def bytes (m : Tab Byte) (a : Nat) : Nat → List Byte
  | 0 => []
  | n + 1 => Memory.byte m a :: bytes m (a + 1) n

/-- The bytes of a word that a mask names come from x, the others from old. -/
def merge (old x : Word) (mask : BitVec 4) : Word :=
  (if mask.getLsbD 3 then x.extractLsb' 24 8 else old.extractLsb' 24 8)
    ++ (if mask.getLsbD 2 then x.extractLsb' 16 8 else old.extractLsb' 16 8)
    ++ (if mask.getLsbD 1 then x.extractLsb' 8 8 else old.extractLsb' 8 8)
    ++ (if mask.getLsbD 0 then x.extractLsb' 0 8 else old.extractLsb' 0 8)

end Mem

end Sys2Proof.Machine
end

