-- ==== Sys2Proof/Config.lean ====
section
/-! DEFINITION. What the specification leaves open: free values and implementation choices, each an opaque constant without a
body, so that no proof can see a value; and the fixed sizes of the module. -/

namespace Sys2Proof.Config

/-- A free 32-bit value, named by a counter of the state (R4: undefined launch registers, bands, tile words).
DESIGN CHOICE, log 4. -/
opaque freeWord : Nat → Word

/-- A free byte (R4: undefined destination bytes of failed, cancelled or overlapping commands, scratchpad of a new team
of the same context). DESIGN CHOICE, log 4. -/
opaque freeByte : Nat → Byte

/-- A free choice between alternatives that the specification does not order: which of n is taken (R99, R112, R147).
DESIGN CHOICE, log 4. -/
opaque freeChoice : Nat → Nat

/-- The result that the LX16-M fixes for an approximated function within its bound (R258): an offset in ulp, held to the
bound where it is used, by function number, input pattern and FTZ. DESIGN CHOICE, log 9. -/
opaque approxPick : Nat → Word → Bool → Int

/-- The deviation of an analogue column's code from its ideal value (R320), by a free counter. DESIGN CHOICE, log 10. -/
opaque adcDeviation : Nat → Int

/-- The estimate of module power, in watts, for the cores' operating points and the activity of the rail domains (R393): the formula is not
described. DESIGN CHOICE, log 11. -/
opaque powerEstimate (points activity : List (Nat × Nat)) : Nat

/-- A partition's part of that estimate (R396). DESIGN CHOICE, log 11. -/
opaque partEstimate (p : Nat) (points activity : List (Nat × Nat)) : Nat

/-- The energy charged to a partition at an evaluation for what it ran, in µJ (R393). DESIGN CHOICE, log 11. -/
opaque energyCharge (now p : Nat) (activity : List (Nat × Nat)) : Nat

/-- Whether both signatures of an image verify against the fused keys (R454). DESIGN CHOICE, log 12. -/
opaque signaturesVerify : Nat → Nat → List Byte → List Byte → List Byte → Bool

/-- The fused minimum security version of an image type (R454). PRESUMED, log 20. -/
opaque fuseMinSvn : Nat → Nat

/-- The SHA-384 digest of an image, as 48 bytes (R454: FIPS 180-4, not described in the manual). DESIGN CHOICE, log 12. -/
opaque sha384 : List Byte → List Byte

/-- An Ed25519 and an ML-DSA-65 signature of an attestation report by the identity keys (R454). DESIGN CHOICE, log 12. -/
opaque identitySign : Bool → List Byte → List Byte

/-- The state of the fuses, as an attestation report gives it (R454). PRESUMED, log 20. -/
opaque fuseState : List Byte

/-- The module's own 12-bit module number in the fabric (R444, R447). DESIGN CHOICE, log 13. -/
opaque moduleNumber : BitVec 12

/-- LPDDR-6 addresses lie below this (Table 04.4). The cipher image in LPDDR-6 is not modelled: memory holds plaintext (R117, R119).
. DEDUCED, log 7. -/
abbrev lpddrBytes : Nat := 0xC000000000

/-- The number of cores, 0 to 191 (R12). -/
abbrev cores : Nat := 192

/-- Main-file words of a core (Table 08.1). -/
abbrev mainWords : Nat := 524288

/-- Scratchpad bytes of a core (R18, R185). -/
abbrev spadBytes : Nat := 524288

end Sys2Proof.Config
end

