-- ==== Sys2Proof/Machine/Ops.lean ====
section
/-! DEFINITION. The named operations over the state: registers, the executing cohort, shadows, taking an exception and
returning from one, releases and acquires, handles, and the meeting of threads. -/

namespace Sys2Proof.Machine

open Sys2Proof

/-! ### What an absent entry of a table stands for -/

/-- A sector with no bundle (R352, R382). DESIGN CHOICE, log 3; DESIGN CHOICE, log 22. -/
def Sector.reset : Sector := { bundles := [], ages := [], rr := 0, offers := [], served := [], since := 0, cyc := 0, ratio := 4, issued := 0, cycles := 0 }

/-- A core after power-on. DESIGN CHOICE, log 3; DESIGN CHOICE, log 5; DESIGN CHOICE, log 22. -/
def Core.reset : Core where
  l1 := []
  tlb := []
  ifetch := []
  spad := []
  spadUndef := []
  absent := []
  spoison := []
  guests := []
  copyq := []
  tiles := []
  tilePoison := []
  matq := []
  matCount := 0
  spadCtx := []
  tileCtx := []
  regCtx := []
  slotCtx := []
  spareV := []
  spareS := []
  matChecks := []
  point := 0
  want := 0
  ret := .awake
  asked := false
  idleFrom := none
  droop := .none
  capHold := false
  rampHold := false
  sectors := []
  evsel := []
  evcnt := []

/-- A handle register at launch (R236). -/
def Handle.reset : Handle := { gen := 0, pend := none, status := 0, trap := false, readers := [] }

/-- A partition descriptor at reset (Table 15.2). DESIGN CHOICE, log 3; DESIGN CHOICE, log 23. -/
def Part.reset : Part where
  cores := 0
  waymask := 0
  s2root := 0
  tqcfg := 0x0F
  trbase := 0
  log2nrec := 4
  peacc := 0
  est := 0
  dctbase := 0
  key := none
  tasks := []
  counters := []
  interval := 0
  emptyFrom := []

/-- A VF control page at reset (Table 15.1). -/
def Vf.reset : Vf where
  part := none
  lqbase := 0
  lqcfg := 0
  lqtail := 0
  lqhead := 0
  eqbase := 0
  eqcfg := 0
  eqtail := 0
  eqhead := 0
  err := 0
  held := []

/-- A format window at reset (Table 04.9). -/
def Fmtw.reset : Fmtw where
  en := false
  busy := false
  err := false
  range := false
  m := 0
  part := 0
  vbase := 0
  vlen := 0
  mbase := 0
  sbase := 0

/-- A region entry at reset (Table 04.7). -/
def Region.reset : Region := { valid := false, scrub := none, owner := 0 }

/-- The identity correction: gain 1.0 and offset 0.0 in every column (R326). DESIGN CHOICE, log 24. -/
def Bank.identity : Bank := { gain := [], off := [] }

/-- An array tile that has never been committed (Table 11.1). DESIGN CHOICE, log 24. -/
def ATile.reset : ATile where
  sw := 0
  rsh := 0
  state := .empty
  ver := 0
  w := []
  bank0 := Bank.identity
  bank1 := Bank.identity
  cur1 := false
  lastAct := none
  lastPub := none

/-- A sequencer at reset (Table 11.3): stopped. DESIGN CHOICE, log 3. -/
def Seqr.reset : Seqr := { stop := true, fault := false, halted := false, lastVf := 127, probed := [], caddr := 0, cwd := [], evec := [], store := [] }

/-- A staging-owner entry never written (Table 11.17). -/
def StgOwner.reset : StgOwner := { valid := true, erase := false, owner := 0 }

/-- An Orangery die after power-on, with nothing ever committed. DESIGN CHOICE, log 3; DESIGN CHOICE, log 24. -/
def Orng.reset : Orng where
  tiles := []
  staging := []
  stgOwner := []
  perm := []
  journal := []
  nextSeq := 0
  seqrs := []
  cmds := []
  samples := []
  replayed := false
  shbase := 0
  passCount := []

/-- A rail at power-on: 0.550 V, with no vote (R389). DESIGN CHOICE, log 22. -/
def Rail.reset : Rail := { level := 550000, target := 550000, phase := .steady, votes := [] }

/-- A tile whose words are zero (R278). -/
def Tile.reset : Tile := { words := [], undef := none, flags := 0, err := 0, canc := false, scale := [] }

/-! ### Names of things -/

/-- The name of a group: its home core and slot. -/
def gidOf (core slot : Nat) : Nat := core * 64 + slot

/-- The home core of a group. -/
def gidCore (gid : Nat) : Nat := gid / 64

/-- The slot of a group, %group. -/
def gidSlot (gid : Nat) : Nat := gid % 64

/-- The home group of a thread. -/
def tidGid (tid : Nat) : Nat := tid / 128

/-- The home lane of a thread, %lane. -/
def tidLane (tid : Nat) : Nat := tid % 128

/-- The thread of a home lane. -/
def tidOf (gid lane : Nat) : Nat := gid * 128 + lane

/-- The die of a core (R12). -/
def coreDie (core : Nat) : Nat := core / 48

/-- Mesh column and row of a core (R12). -/
def coreX (core : Nat) : Nat := core % 48 % 8
def coreY (core : Nat) : Nat := core % 48 / 8

/-- Mesh distance, 16 between dies (R13). -/
def meshDistance (a b : Nat) : Nat :=
  if coreDie a = coreDie b then
    (max (coreX a) (coreX b) - min (coreX a) (coreX b)) + (max (coreY a) (coreY b) - min (coreY a) (coreY b))
  else 16

/-- The rail domain of a core, 12 to a die (R381). -/
def coreRail (core : Nat) : Nat := coreDie core * 12 + 4 * (coreY core / 2) + coreX core / 2

/-- The core clock at an operating point, in tenths of a GHz (Table 13.1). -/
def coreClock (point : Nat) : Nat := [5, 7, 9, 10, 12, 14, 16, 18, 20, 21, 22, 24].getD point 24

namespace State

def core (s : State) (c : Nat) : Core := s.cores.getD c Core.reset
def setCore (s : State) (c : Nat) (x : Core) : State := { s with cores := s.cores.set c x }
def modCore (s : State) (c : Nat) (f : Core → Core) : State := s.setCore c (f (s.core c))
def thread? (s : State) (tid : Nat) : Option Thread := s.threads.get? tid
def group? (s : State) (gid : Nat) : Option Group := s.groups.get? gid
def setThread (s : State) (tid : Nat) (t : Thread) : State := { s with threads := s.threads.set tid t }
def setGroup (s : State) (gid : Nat) (g : Group) : State := { s with groups := s.groups.set gid g }
def modThread (s : State) (tid : Nat) (f : Thread → Thread) : State := { s with threads := s.threads.modify tid f }
def modGroup (s : State) (gid : Nat) (f : Group → Group) : State := { s with groups := s.groups.modify gid f }
def modTeam (s : State) (n : Nat) (f : Team → Team) : State := { s with teams := s.teams.modify n f }
def part (s : State) (p : Nat) : Part := s.parts.getD p Part.reset
def setPart (s : State) (p : Nat) (x : Part) : State := { s with parts := s.parts.set p x }
def modPart (s : State) (p : Nat) (f : Part → Part) : State := s.setPart p (f (s.part p))
def vf (s : State) (v : Nat) : Vf := s.vfs.getD v Vf.reset
def setVf (s : State) (v : Nat) (x : Vf) : State := { s with vfs := s.vfs.set v x }
def die (s : State) (n : Nat) : Orng := s.orng.getD n Orng.reset
def setDie (s : State) (n : Nat) (x : Orng) : State := { s with orng := s.orng.set n x }
def modDie (s : State) (n : Nat) (f : Orng → Orng) : State := s.setDie n (f (s.die n))
def sector (s : State) (c k : Nat) : Sector := (s.core c).sectors.getD k Sector.reset
def modCtx (s : State) (c : Nat) (f : Ctx → Ctx) : State := { s with ctxs := s.ctxs.modify c f }

/-- Change every thread of a list. -/
def mapThreads (s : State) (tids : List Nat) (f : Nat → Thread → Thread) : State :=
  { s with threads := s.threads.update (fun k => tids.contains k) f }

/-- A fresh name for an operation or command. -/
def fresh (s : State) : Nat × State := (s.nextId, { s with nextId := s.nextId + 1 })

/-- Take n free names. -/
def takeFree (s : State) (n : Nat) : State := { s with free := s.free + n }

/-- The team of a thread. -/
def teamOf? (s : State) (tid : Nat) : Option (Nat × Team) :=
  match s.group? (tidGid tid) with
  | none => none
  | some g => (s.teams.get? g.team).map (fun t => (g.team, t))

/-- The context of a thread. -/
def ctxOf (s : State) (tid : Nat) : Nat := ((s.teamOf? tid).map (fun t => t.2.ctx)).getD 0

/-- The partition of a context. -/
def ctxPart (s : State) (c : Nat) : Nat := ((s.ctxs.get? c).map Ctx.part).getD 0

/-- Whether a partition owns a core (R440). -/
def partOwns (s : State) (p c : Nat) : Bool := (s.part p).cores.getLsbD c

/-- Mark a die in the touched-dies mask of a context (R423). -/
def touch (s : State) (ctx bit : Nat) : State :=
  s.modCtx ctx (fun x => { x with touched := x.touched ||| (1#20 <<< bit) })

/-- The joins between a die and the hub, by the die's number in a touched-dies mask: an Orangery die is reached through its Arbor die;
any other number is the hub itself (R15). -/
def joinsOf (d : Nat) : List Nat := if d < 4 then [d] else if d < 20 then [d, (d - 4) / 4] else []

/-- A flit passes between two dies, or a die and the hub: the joins on the way carry one, and a failed one among them has been repaired
(R17). -/
def cross (s : State) (a b : Nat) : State :=
  if s.linkDown.isEmpty || a = b then s
  else
    let on := (joinsOf a).filter (fun j => !(joinsOf b).contains j) ++ (joinsOf b).filter (fun j => !(joinsOf a).contains j)
    { s with linkDown := s.linkDown.keep (fun j _ => !on.contains j) }

end State

/-! ### The registers of a thread -/

namespace Thread

/-- Whether the thread runs away from its home core. -/
def away (t : Thread) : Bool := t.visit.isSome

/-- The frame that v16 to v63 name (R214, R218). -/
def frame (t : Thread) : Nat :=
  match t.view with
  | .off => (t.nspill + t.nres + 65535) % 65536
  | .spill => t.nspill
  | .fill => (t.nspill + 65535) % 65536

/-- The place of v-register i in the window file. NSPILL counts modulo 2^16, and so do the frames: in the handler of a `trap 3`
with NSPILL = 0, v16 to v47 name a frame slot other than the trapping frame's. DEDUCED, log 28. -/
def vkey (t : Thread) (i : Nat) : Nat :=
  if i < 16 then i else if i < 48 then 32 * t.frame + i else 32 * ((t.frame + 1) % 65536) + (i - 32)

/-- The word at a place of the linear file. -/
def word (t : Thread) (key : Nat) : Word :=
  match t.vregs.get? key with
  | some w => w
  | none =>
    match t.undef with
    | none => 0
    | some n => Config.freeWord (n + key)

/-- V[i]: a visiting thread reads its guest copy (R200). -/
def v (t : Thread) (i : Nat) : Word :=
  match t.visit with
  | none => t.word (t.vkey i)
  | some x => x.vregs.getD i 0

/-- Write V[i]; a whole-word write clears its poison (R238). -/
def setV (t : Thread) (i : Nat) (w : Word) : Thread :=
  match t.visit with
  | none => { t with vregs := t.vregs.set (t.vkey i) w, vpoison := t.vpoison.del (t.vkey i) }
  | some x => { t with visit := some { x with vregs := x.vregs.set i w } }

/-- Q[n]: q0 reads 1 (R224); a visiting thread reads its guest copy of q1 to q31 (R200). -/
def q (t : Thread) (n : Nat) : Bool :=
  if n = 0 then true
  else match t.visit with
    | none => t.preds.getLsbD n
    | some x => x.preds.getLsbD n

/-- Write Q[n]; a write to q0 is discarded (R36, R224). A single predicate write leaves its word's poison (R238). -/
def setQ (t : Thread) (n : Nat) (b : Bool) : Thread :=
  if n = 0 then t
  else match t.visit with
    | none => { t with preds := if b then t.preds ||| (1#96 <<< n) else t.preds &&& ~~~(1#96 <<< n) }
    | some x => { t with visit := some { x with preds := if b then x.preds ||| (1#32 <<< n) else x.preds &&& ~~~(1#32 <<< n) } }

/-- The core on which the thread runs. -/
def runsOn (t : Thread) (home : Nat) : Nat :=
  match t.visit with
  | none => home
  | some x => x.core

/-- Whether the guard of a header holds (R8, R33). -/
def guard (t : Thread) (h : Hdr) : Bool := xor (t.q h.gp.toNat) h.gn

end Thread

namespace Group

/-- S[n]. -/
def s (g : Group) (n : Nat) : Word :=
  match g.sregs.get? n with
  | some w => w
  | none =>
    match g.undef with
    | none => 0
    | some k => Config.freeWord (k + n)

/-- Write S[n], clearing its poison (R238). -/
def setS (g : Group) (n : Nat) (w : Word) : Group :=
  { g with sregs := g.sregs.set n w, spoison := g.spoison.del n }

def handle (g : Group) (n : Nat) : Handle := g.handles.getD n Handle.reset
def setHandle (g : Group) (n : Nat) (h : Handle) : Group := { g with handles := g.handles.set n h }

/-- The 64-bit value of a pair. -/
def sPair (g : Group) (n : Nat) : DWord := (g.s (n + 1)) ++ (g.s n)

end Group

namespace State

/-- S[n] of a home group. -/
def s (st : State) (gid n : Nat) : Word := ((st.group? gid).map (fun g => g.s n)).getD 0

/-- S[n] of the group of a thread, and its pair. -/
def sPair (st : State) (gid n : Nat) : DWord := (st.s gid (n + 1)) ++ (st.s gid n)

/-- Write S[n] of a home group. A pending long result for that register loses its destination (R51). -/
def setS (st : State) (gid n : Nat) (w : Word) : State :=
  let st := st.modGroup gid (fun g => g.setS n w)
  { st with threads := st.threads.update (fun k => tidGid k == gid) (fun _ t =>
      if t.longs.isEmpty then t else
      { t with longs := t.longs.map (fun o => { o with dests := o.dests.filter (fun d => d.2 ≠ Dest.s n) }) }) }

end State

/-! ### Event counters (R455) -/

/-- Whether a counter with this EVSEL counts an event of a partition. -/
def evCounts (sel : Word) (ev p : Nat) : Bool :=
  (sel.extractLsb' 0 10).toNat == ev && sel.getLsbD 10 && (!sel.getLsbD 16 || (sel.extractLsb' 11 5).toNat == p)

/-- n events at a core. -/
def Core.count (k : Core) (ev p n : Nat) : Core :=
  if k.evsel.isEmpty then k
  else { k with evcnt := k.evsel.foldl (fun t e =>
    if evCounts e.2 ev p then t.put 0 e.1 (t.getD e.1 0 + BitVec.ofNat 48 n) else t) k.evcnt }

namespace State

/-- One event at a core, and one at the hub, of a partition. -/
def countCore (s : State) (c ev p : Nat) : State := s.modCore c (fun k => k.count ev p 1)

def countHub (s : State) (ev p n : Nat) : State :=
  if s.hubEvsel.isEmpty then s
  else { s with hubEvcnt := s.hubEvsel.foldl (fun t e =>
    if evCounts e.2 ev p then t.put 0 e.1 (t.getD e.1 0 + BitVec.ofNat 48 n) else t) s.hubEvcnt }

end State

/-! ### Program counter -/

/-- The next slot in fall-through order, modulo 2^48 (R29, R32). -/
def nextPc (pc : BitVec 48) : BitVec 48 := if pc &&& 0x3F = 48 then pc + 16 else pc + 12

/-- Whether the low six bits name a slot (R29). -/
def pcAligned (pc : BitVec 48) : Bool :=
  let o := (pc &&& 0x3F).toNat
  o == 0 || o == 12 || o == 24 || o == 36 || o == 48

/-- The slot number of a PC. -/
def pcSlot (pc : BitVec 48) : Nat := (pc &&& 0x3F).toNat / 12

/-- The line address of a PC. -/
def pcLine (pc : BitVec 48) : Nat := pc.toNat / 64 * 64

/-- What executing an instruction or an event answers. -/
abbrev Result := Host.Outcome State Fault Refusal

/-! ### The executing cohort -/

namespace Ops

/-- Run an instruction's effect on the executing cohort. DESIGN CHOICE, log 89. -/
def withCohort (s : State) (f : Cohort → State) : Result :=
  match s.cur with
  | none => .fault .noCohort
  | some c => .next (f c)

/-- The lanes of the cohort whose guard holds (R8). -/
def active (s : State) (c : Cohort) (h : Hdr) : List Nat :=
  c.tids.filter (fun tid => match s.thread? tid with
    | some t => t.guard h
    | none => false)

/-- Put a lane in its place: by home lane; two lanes of one number, of different groups, by the name of their group.
DESIGN CHOICE, log 18. -/
def putLane (x : Nat) : List Nat → List Nat
  | [] => [x]
  | y :: l => if tidLane x < tidLane y || (tidLane x == tidLane y && decide (x < y)) then x :: y :: l else y :: putLane x l

/-- Lanes in ascending home lane order (R7, R148). -/
def byLane (l : List Nat) : List Nat := l.foldr putLane []

/-- The home groups with a lane in a list, each once, in order. -/
def groupsOf (tids : List Nat) : List Nat := tids.foldl (fun l t => NSet.add l (tidGid t)) []

/-- The lanes of one home group. -/
def lanesOf (gid : Nat) (tids : List Nat) : List Nat := tids.filter (fun t => tidGid t == gid)

/-- One instruction of a thread's shadows has issued (R49). -/
def tickShadows (t : Thread) : Thread :=
  if t.longs.isEmpty then t else { t with longs := t.longs.map (fun o => { o with left := o.left - 1 }) }

/-- A lane has issued its instruction and goes on at a PC. -/
def retireLane (t : Thread) (pc : BitVec 48) : Thread :=
  { tickShadows t with pc := pc, status := .ready, resumed := false, stay := false, fresh := false }

/-- Every lane of a list goes on at the next slot. -/
def advance (s : State) (tids : List Nat) : State :=
  s.mapThreads tids (fun _ t => retireLane t (nextPc t.pc))

/-- Change every active lane; then every lane of the cohort goes on. -/
def eachActive (s : State) (c : Cohort) (h : Hdr) (f : Nat → Thread → Thread) : State :=
  advance (s.mapThreads (active s c h) f) c.tids

/-- The cohort cannot go on yet: its threads try this instruction again when they are picked (R356). DEDUCED, log 17. -/
def stall (s : State) (tids : List Nat) : State :=
  s.mapThreads tids (fun _ t => { t with status := .waiting })

/-- What the threads of one bundle share: at home their team and role, away their context and role; and their sector. -/
def bundleKey (s : State) (tid : Nat) (t : Thread) : Option (Bool × Nat × Role × Nat) :=
  match s.group? (tidGid tid) with
  | none => none
  | some g =>
    match t.visit with
    | none => some (false, g.team, g.role, gidSlot (tidGid tid) / 8)
    | some x => some (true, s.ctxOf tid, g.role, x.guest / 2)

/-- Whether a parked thread's instruction can be performed without an issue slot: its lines are present, or its phase is met. -/
def resumes (t : Thread) : Bool := t.status == .parked [] || t.status == .acquires

/-- The acts that perform what some threads are parked at: those of one core, PC and bundle together. -/
def resumeActs (s : State) : Nat → List (Nat × Thread) → List Act
  | 0, _ => []
  | _, [] => []
  | n + 1, (a, t) :: l =>
    let same (x : Nat × Thread) : Bool :=
      x.2.pc == t.pc && x.2.runsOn (gidCore (tidGid x.1)) == t.runsOn (gidCore (tidGid a)) && bundleKey s x.1 x.2 == bundleKey s a t
    { dt := 0, what := .issue (t.runsOn (gidCore (tidGid a))) ((a, t) :: l.filter same |>.map Prod.fst) }
      :: resumeActs s n (l.filter (fun x => !same x))

/-- Scratchpad lines have become present: the accesses that were parked on them alone are performed next, as if issued now
(R167, R169). DEDUCED, log 102. -/
def wakeParked (s : State) : State :=
  let here (t : Thread) : Bool := match t.status with
    | .parked (x :: l) => (x :: l).all (fun y => !(s.core y.1).absent.contains y.2)
    | _ => false
  let ts := s.threads.filter (fun x => here x.2)
  if ts.isEmpty then s
  else
    let s := s.mapThreads (ts.map Prod.fst) (fun _ t => { t with status := .parked [] })
    { s with agenda := resumeActs s ts.length ts ++ s.agenda }

/-- Whether a lane of an instruction instance has not read its words, or executed its atomic: no lane's result is written before
then (R152, R457). -/
def unread (s : State) (inst : Option Nat) : Bool :=
  inst.isSome && s.threads.any (fun x => x.2.longs.any (fun o => o.inst == inst && o.vals.isNone))

/-- Every open shadow of a thread ends (R52). -/
def endShadows (t : Thread) : Thread :=
  if t.longs.isEmpty then t else { t with longs := t.longs.map (fun o => { o with left := 0 }) }

/-- A destination has been written by a later instruction (R50, R51). -/
def dropDest (t : Thread) (d : Dest) : Thread :=
  if t.longs.isEmpty then t else
  { t with longs := t.longs.map (fun o => { o with dests := o.dests.filter (fun x => x.2 ≠ d) }) }

/-- The place of V[i]: in the lane a visitor holds, or in the thread's own file. -/
def vplace (t : Thread) (i : Nat) : Dest :=
  .v (match t.visit with
    | none => t.vkey i
    | some _ => i)

/-- Write V[i] as an instruction does. -/
def writeV (t : Thread) (i : Nat) (w : Word) : Thread := (dropDest t (vplace t i)).setV i w

/-- Write Q[n] as an instruction does. -/
def writeQ (t : Thread) (n : Nat) (b : Bool) : Thread := (dropDest t (.p n)).setQ n b

/-- The older operations of a list lose destinations that a younger one writes (R50, R51). -/
def dropOlder (id : Nat) (ds : List Dest) (l : List LongOp) : List LongOp :=
  l.map (fun o => if o.id < id then { o with dests := o.dests.filter (fun x => !ds.contains x.2) } else o)

/-- Write a destination of a long result, by its place (R50). -/
def landDest (s : State) (tid : Nat) (d : Dest) (w : Word) : State :=
  match d with
  | .v key => s.modThread tid (fun t =>
      match t.visit with
      | none => { t with vregs := t.vregs.set key w, vpoison := t.vpoison.del key }
      | some x => { t with visit := some { x with vregs := x.vregs.set key w } })
  | .p n => s.modThread tid (fun t => t.setQ n (w != 0))
  | .s n => s.modGroup (tidGid tid) (fun g => g.setS n w)

/-- Older operations of a group, in whichever of its threads they stand, lose the s-registers that a younger one writes (R51,
R227). -/
def dropOlderS (s : State) (gid id : Nat) (ds : List Dest) : State :=
  let ss := ds.filter (fun d => match d with
    | .s _ => true
    | _ => false)
  if ss.isEmpty then s
  else { s with threads := s.threads.update (fun k => tidGid k == gid) (fun _ t =>
    if t.longs.isEmpty then t else { t with longs := dropOlder id ss t.longs }) }

/-- Write a long result to its remaining destinations, merge its flags and close it; operations issued before it no longer write
those destinations (R50, R51). -/
def landLong (s : State) (tid : Nat) (o : LongOp) : State :=
  let ws := o.vals.getD []
  let ds := o.dests.map Prod.snd
  let s := dropOlderS s (tidGid tid) o.id ds
  let s := s.modThread tid (fun t =>
    { t with
      longs := dropOlder o.id ds (t.longs.filter (fun x => x.id ≠ o.id)), flags := t.flags ||| o.flags
      ppoison := match o.kind with
        | .pred n => t.ppoison.del n
        | _ => t.ppoison })
  o.dests.foldl (fun s d => landDest s tid d.2 (ws.getD d.1 0)) s

/-- Open a long instruction's shadow (R49). With LA 0 and its result known, the result is written at once. -/
def openLong (s : State) (tid : Nat) (o : LongOp) : State :=
  let s := { s with nextId := s.nextId + 1 }
  let o := { o with id := s.nextId - 1 }
  if o.left = 0 && o.arrived && o.vals.isSome then landLong s tid o
  else s.modThread tid (fun t => { t with longs := t.longs ++ [o] })

/-! ### Performed accesses -/

/-- Whether an array command of a group has been issued and has not taken its destination lines yet: it is on its way to its queue,
or it is an acorr, which takes them when it runs (R135, R139, R314, R327). -/
def arrayBehind (s : State) (gid : Nat) : Bool :=
  s.orng.any (fun o => o.2.cmds.any (fun c => c.gid == gid && c.entry != 9 && c.entry != 10 && !c.started && !c.cancel
    && (!c.queued || c.entry == 8)))

/-- Every memory access of the thread has been performed (R135): no load has still to return, no store to be registered, no red to be
accepted, no atomic to be executed, and no array command to take its lines. -/
def drained (s : State) (tid : Nat) : Bool :=
  (match s.thread? tid with
    | some t => t.longs.all (fun o => o.kind == LongKind.value || o.vals.isSome)
    | none => true)
  && s.regs.all (fun r => !r.2.tids.contains tid)
  && s.reds.all (fun r => r.2.tid != tid)
  && s.excl.all (fun r => r.2.tid != tid) && !arrayBehind s (tidGid tid)

/-- Whether a thread may leave its core: every earlier access is performed and every result has landed (R135, R194, R209). -/
def mayLeave (s : State) (tid : Nat) (t : Thread) : Bool := drained s tid && t.longs.isEmpty

/-! ### Continuations and migration packets (R192, R193) -/

/-- The registers that a continuation carries: one word for each bit of VMASK (R192). -/
def carriedWords (t : Thread) : List Word := ((List.range 32).filter (fun i => t.carryV.getLsbD i)).map t.v

/-- q1 to q31 as a continuation carries them: 0 without Q. -/
def carriedPreds (t : Thread) : BitVec 32 :=
  if t.carryQ then (List.range 32).foldl (fun m i => if i ≠ 0 && t.q i then m ||| (1#32 <<< i) else m) 0 else 0

/-- The fields of a continuation (Table 07.4, Table 07.5). -/
structure Cont where
  tid    : Nat
  ctx    : Nat
  hops   : Nat
  exits  : Bool
  fault  : Bool
  impl   : Bool
  pc     : BitVec 48
  dest   : Nat
  cmask  : BitVec 32
  qc     : Bool
  pred   : BitVec 32
  flags  : BitVec 5
  trapen : BitVec 5
  words  : List Word
  deriving DecidableEq, Repr

/-- The bytes of a continuation: header, state block, and one word for each bit of VMASK, but none on an exit (R192, R205). -/
def packCont (c : Cont) : List Byte :=
  let b (x : Bool) (k : Nat) : Nat := if x then 2 ^ k else 0
  Mem.toBytes 16 (tidLane c.tid + 2 ^ 7 * gidSlot (tidGid c.tid) + 2 ^ 13 * gidCore (tidGid c.tid) + 2 ^ 21 * c.ctx + 2 ^ 32 * c.hops
      + b c.exits 35 + b c.fault 36 + b c.impl 37 + 2 ^ 48 * c.pc.toNat + 2 ^ 96 * c.dest)
    ++ Mem.toBytes 16 (c.cmask.toNat + b c.qc 32 + 2 ^ 32 * (c.pred.toNat / 2 * 2) + 2 ^ 64 * c.flags.toNat + 2 ^ 69 * c.trapen.toNat)
    ++ c.words.flatMap (fun w => Mem.toBytes 4 w.toNat)

/-- The fields of the bytes of a continuation. -/
def unpackCont (l : List Byte) : Cont :=
  let h := Mem.ofBytes (l.take 16)
  let x := Mem.ofBytes ((l.drop 16).take 16)
  { tid := tidOf (gidOf (h / 2 ^ 13 % 256) (h / 2 ^ 7 % 64)) (h % 128), ctx := h / 2 ^ 21 % 2048, hops := h / 2 ^ 32 % 8
    exits := h.testBit 35, fault := h.testBit 36, impl := h.testBit 37, pc := BitVec.ofNat 48 (h / 2 ^ 48), dest := h / 2 ^ 96 % 256
    cmask := BitVec.ofNat 32 x, qc := x.testBit 32, pred := BitVec.ofNat 32 (x / 2 ^ 32 % 2 ^ 32 / 2 * 2)
    flags := BitVec.ofNat 5 (x / 2 ^ 64), trapen := BitVec.ofNat 5 (x / 2 ^ 69)
    words := (List.range ((l.length - 32) / 4)).map (fun i => BitVec.ofNat 32 (Mem.ofBytes ((l.drop (32 + 4 * i)).take 4))) }

/-- The continuation of a thread that departs: outward to a core, or home (R192, R195, R196, R203, R205). -/
def contOf (s : State) (tid : Nat) (t : Thread) : Cont :=
  let base : Cont :=
    { tid := tid, ctx := s.ctxOf tid, hops := 0, exits := false, fault := false, impl := false, pc := t.pc, dest := gidCore (tidGid tid)
      cmask := t.carryV, qc := t.carryQ, pred := carriedPreds t, flags := t.flags, trapen := t.trapen, words := carriedWords t }
  match t.hop, t.visit with
  | some h, v =>
    { base with
      hops := (v.map Visit.hops).getD 0 + 1, impl := h.impl, pc := if h.impl then t.pc else nextPc t.pc, dest := h.dest }
  | none, some x =>
    { base with exits := x.exits, fault := x.trap.isSome, words := if x.exits then [] else base.words }
  | none, none => base

/-- Cut a list into parts of n. -/
def chunks {α : Type} (n : Nat) : Nat → List α → List (List α)
  | 0, _ => []
  | _, [] => []
  | k + 1, l => l.take n :: chunks n k (l.drop n)

/-- The lanes of a list that depart and whose accesses are performed travel in packets, by source, destination and PC, of up to 32
continuations each in ascending home lane order (R193, R209). -/
def send (s : State) (tids : List Nat) : State :=
  let ths := (byLane tids).filterMap (fun tid => (s.thread? tid).bind (fun t =>
    if t.status = .transit && mayLeave s tid t then some (tid, t) else none))
  let key (x : Nat × Thread) : Nat × Nat × Bool × BitVec 48 :=
    (x.2.runsOn (gidCore (tidGid x.1)), (contOf s x.1 x.2).dest, x.2.hop.isNone, x.2.pc)
  let keys := ths.foldl (fun l x => if l.contains (key x) then l else l ++ [key x]) []
  keys.foldl (fun s k =>
    (chunks 32 ths.length (ths.filter (fun x => key x == k))).foldl (fun s l =>
      let (id, s) := s.fresh
      let p : Packet := { src := k.1, dest := k.2.1, home := k.2.2.1, conts := l.map (fun x => packCont (contOf s x.1 x.2)) }
      { s with packets := s.packets.set id p }) s) s

/-- Whether a thread's continuation is in a packet. -/
def packed (s : State) (tid : Nat) : Bool := s.packets.any (fun p => p.2.conts.any (fun c => (unpackCont c).tid == tid))

/-- Threads that were to go home before their accesses were performed depart when they are (R52, R203, R209, R210). DEDUCED, log 33. -/
def leave (s : State) : State :=
  let tids := (s.threads.filter (fun x => x.2.status == .transit && mayLeave s x.1 x.2
    && !(match x.2.hop with
      | some h => h.refused
      | none => false) && !packed s x.1)).map Prod.fst
  if tids.isEmpty then s else send s tids

/-! ### Taking an exception and returning from one -/

/-- The handler of a vector: none when TRAPVECv is 0 (R403). -/
def handlerPc (k : Kernel) (v : Nat) : Option (BitVec 48) :=
  let w := k.vecs.getD v 0
  if w = 0 then none
  else
    let lines := (w.extractLsb' 3 29).signExtend 48
    let slot := (w.extractLsb' 0 3).toNat
    some (BitVec.ofNat 48 (k.addr + 64) + lines * 64 + BitVec.ofNat 48 (12 * slot))

/-- Empty the operand buffer of a group: its words stand in the registers already (R222). DEDUCED, log 19. -/
def flushBuffer (s : State) (gid : Nat) : State := s.modGroup gid (fun g => { g with obuf := [] })

/-- A lane enters a user trap handler (R404), with the view of R218 on WSPILL and WFILL. In a WFILL handler the slot of the
caller's frame holds undefined words until the handler writes them. DEDUCED, log 28. -/
def enterHandler (t : Thread) (v : Nat) (handler epc : BitVec 48) (ecause : Word) (eaddr : DWord) (pix free : Nat) : Thread :=
  let t := endShadows t
  let t := { t with
    epc := epc, ecause := ecause, eaddr := eaddr, pix := pix, trapPc := some t.pc, inH := true, pc := handler, status := .ready
    resumed := false, stay := false }
  if v = 2 then { t with view := .spill }
  else if v = 3 then
    { t with
      view := .fill
      vregs := (List.range 32).foldl (fun m j =>
        m.set (32 * ((t.nspill + 65535) % 65536) + 16 + j) (Config.freeWord (free + j))) t.vregs }
  else t

/-- A group begins a host-serviced stop for a list of faulting lanes, the first of them the lowest; a stop already begun
stands (R414). The faulting lanes keep their own %ecause and %eaddr (R400). -/
def beginStop (s : State) (gid : Nat) (st : Stop) : State :=
  s.modGroup gid (fun g => match g.stop with
    | some _ => g
    | none => { g with stop := some st })

/-- The stop that a trap of one lane begins, when the trap is not taken by a handler (Table 14.1, Table 14.3). -/
def stopOf (t : Thread) (tr : Trap) (kind : StopKind) (lanes : NSet) : Stop :=
  match tr with
  | .fault c =>
    { kind := kind, vec := 0, cause := BitVec.ofNat 32 (c.code + 256 * c.sub), inH := t.inH, epc := t.pc, eaddr := c.eaddr
      syn := c.syn, brkn := 0, gpa := c.gpa, lanes := lanes, pix := if t.resumed then t.pix else 0, made := false, resumeAsked := false }
  | .vector v e a nx =>
    { kind := kind, vec := v, cause := e, inH := t.inH, epc := if nx then nextPc t.pc else t.pc, eaddr := a, syn := 0
      brkn := 0, gpa := 0, lanes := lanes, pix := if t.resumed then t.pix else 0, made := false, resumeAsked := false }
  | .brk n =>
    { kind := .brk, vec := 0, cause := 0, inH := t.inH, epc := nextPc t.pc, eaddr := 0, syn := 0, brkn := n, gpa := 0
      lanes := lanes, pix := if t.resumed then t.pix else 0, made := false, resumeAsked := false }

/-- How a trap of a lane at home is delivered: its handler, or the kind of stop; a discarded DEADLINE gives none. -/
inductive Delivery where
  | handler (v : Nat) (pc epc : BitVec 48) (ecause : Word) (eaddr : DWord)
  | stop (k : StopKind)
  | discard

/-- Table 14.1 and Table 14.3, with the double trap of R401. -/
def delivery (k : Kernel) (t : Thread) (tr : Trap) : Delivery :=
  match tr with
  | .fault c =>
    if c.code = 0x52 then
      if t.inH then .stop .double
      else match handlerPc k 5 with
        | some h => .handler 5 h t.pc (BitVec.ofNat 32 (c.code + 256 * c.sub)) c.eaddr
        | none => .stop .novec
    else .stop .fault
  | .vector v e a nx =>
    if t.inH then .stop .double
    else match handlerPc k v with
      | some h => .handler v h (if nx then nextPc t.pc else t.pc) e a
      | none => if v = 1 then .discard else .stop .novec
  | .brk _ => .stop .brk

/-- The vector of a trap, for NOVEC and DOUBLE (Table 14.5). -/
def Trap.vec : Trap → Nat
  | .vector v _ _ _ => v
  | .fault c => if c.code = 0x52 then 5 else 0
  | .brk _ => 0

/-- Whether another instruction's stop of a group stands, whose record does not name a lane (R414). -/
def stoppedBefore (s : State) (tid : Nat) : Bool :=
  match (s.group? (tidGid tid)).bind Group.stop with
  | some st => !st.lanes.contains (tidLane tid)
  | none => false

/-- TAKING AN EXCEPTION, for one lane: a visiting lane returns home first (R203); at home a user trap enters its handler
(R404) and everything else begins the group's stop, with %epc, %ecause and %eaddr of the lane (R26, R30, R58, R400, R414). A lane
that faults while another instruction's stop of its group stands is left as if the instruction had not begun (R414). `others` are
the faulting lanes of the same instruction. -/
def takeTrap (s : State) (tid : Nat) (tr : Trap) (others : NSet) : State :=
  match s.thread? tid, s.teamOf? tid with
  | some t, some (_, team) =>
    match t.visit with
    | some x =>
      s.setThread tid { endShadows t with
        status := .transit, stay := false, visit := some { x with home := true, exits := false, trap := some (tr, t.pc) } }
    | none =>
      match delivery team.kernel t tr with
      | .handler v h epc e a =>
        let s := s.setThread tid (enterHandler t v h epc e a (if t.resumed then t.pix else 0) s.free)
        flushBuffer (s.takeFree 32) (tidGid tid)
      | .stop k =>
        if stoppedBefore s tid then s else
        let st := stopOf t tr k others
        let st := { st with vec := if k = .novec || k = .double then Trap.vec tr else 0 }
        let s := beginStop s (tidGid tid) st
        s.setThread tid { t with
          epc := st.epc, ecause := st.cause, eaddr := st.eaddr, trapPc := some t.pc, status := .waiting, stay := false }
      | .discard => match tr with
        | .vector _ _ _ true => s.setThread tid (retireLane t (nextPc t.pc))
        | _ => s
  | _, _ => s

/-- Take the traps of the lanes of one instruction, lowest home lane first; visitors leave for home together (R193, R203). -/
def takeTraps (s : State) (trs : List (Nat × Trap)) : State :=
  let lanes (gid : Nat) : NSet := NSet.addAll [] ((trs.filter (fun x => tidGid x.1 == gid)).map (fun x => tidLane x.1))
  send (trs.foldl (fun s x => takeTrap s x.1 x.2 (lanes (tidGid x.1))) s) (trs.map Prod.fst)

/-- A precise fault without subcode or syndrome. -/
def plain (code : Nat) (eaddr : DWord) : Trap := .fault { code := code, sub := 0, eaddr := eaddr, syn := 0, gpa := 0 }

/-- A 64-bit value from a PC. -/
def pc64 (pc : BitVec 48) : DWord := pc.setWidth 64

/-- ILL_OP with %eaddr the PC of the slot (R59). -/
def illOp (t : Thread) : Trap := plain 0x01 (pc64 t.pc)

/-- The same trap in every lane of a list, with its value from the thread. -/
def trapAll (s : State) (tids : List Nat) (f : Thread → Trap) : State :=
  takeTraps s (tids.filterMap (fun tid => (s.thread? tid).map (fun t => (tid, f t))))

/-- RETURNING FROM AN EXCEPTION, for one lane with IN = 1 whose %epc is aligned (R413, R218). A gath or scat that %epc still
names resumes from %pix. DEDUCED, log 28. -/
def returnLane (t : Thread) : Thread :=
  let t := match t.view with
    | .off => t
    | .spill => { t with nres := t.nres - 1, nspill := t.nspill + 1, view := .off }
    | .fill => { t with nres := t.nres + 1, nspill := (t.nspill + 65535) % 65536, view := .off }
  let res := decide (t.trapPc = some t.epc)
  { t with inH := false, pc := t.epc, status := .ready, resumed := res }

/-! ### Releases and acquires -/

/-- Whether every lane of a list may release. -/
def allDrained (s : State) (tids : List Nat) : Bool := tids.all (drained s)

/-- Whether every earlier load of a thread has returned (R136). -/
def loadsBack (s : State) (tid : Nat) : Bool :=
  match s.thread? tid with
  | some t => t.longs.all (fun o => o.kind == LongKind.value || o.vals.isSome)
  | none => true

/-- An acquire on a core: its L1 forgets every S word (R136). -/
def acquireCore (s : State) (c : Nat) : State :=
  s.modCore c (fun x => { x with l1 := x.l1.keep (fun _ w => w.st != L1State.S) })

/-- Release first: the cohort waits until its active lanes' accesses are performed, then the effect takes place. -/
def afterRelease (s : State) (c : Cohort) (act : List Nat) (f : State) : State :=
  if allDrained s act then f else stall s c.tids

/-! ### Instructions that execute once for each home group -/

/-- What such an instruction comes to in one group: its effect, an effect that says itself which lanes go on, a wait, or a fault of every
active lane of the group. -/
inductive GroupOut where
  | go (s : State)
  | stay (s : State)
  | wait (s : State)
  | trap (s : State) (f : Thread → Trap)

/-- Execute once for each home group that has an active lane, with the group's lowest active lane and its active lanes. With
`rel` the instruction is a release before its effect. Active lanes go on, wait or fault with their group; the others go on. -/
def perGroup (s : State) (c : Cohort) (h : Hdr) (rel : Bool) (f : State → Nat → Thread → List Nat → GroupOut) : State :=
  let act := active s c h
  let s1 := (groupsOf act).foldl (fun st gid =>
    let lanes := lanesOf gid act
    match lanes.head?.bind st.thread? with
    | none => st
    | some t =>
      if rel && !allDrained st lanes then stall st lanes
      else match f st gid t lanes with
        | .go st' => advance st' lanes
        | .stay st' => st'
        | .wait st' => stall st' lanes
        | .trap st' g => trapAll st' lanes g) s
  advance s1 (c.tids.filter (fun t => !act.contains t))

/-! ### Handles -/

/-- The token of a handle register (Table 08.8). -/
def token (gid h : Nat) (gen : Nat) : Word :=
  BitVec.ofNat 32 (gidCore gid + 256 * gidSlot gid + 16384 * h + 524288 * (gen % 8192))

/-- Change a handle register of a group. -/
def modHandle (s : State) (gid h : Nat) (f : Handle → Handle) : State :=
  s.modGroup gid (fun g => g.setHandle h (f (g.handle h)))

/-- A handle register of a group. -/
def handleOf (s : State) (gid h : Nat) : Handle := ((s.group? gid).map (fun g => g.handle h)).getD Handle.reset

/-- A command issues into a handle register: GEN counts, TOKEN names it, PEND is set (R230). -/
def issueHandle (s : State) (gid h cmd : Nat) (trap : Bool) : State :=
  let s := s.modGroup gid (fun g => { g with hpoison := g.hpoison.del (2 * h) })
  modHandle s gid h (fun x => { x with gen := (x.gen + 1) % 8192, pend := some cmd, trap := trap, readers := [] })

/-- A command completes: every handle that pends on it receives its status, a saved one too (R173, R282, R419); the write clears
the poison of the STATUS word (R238). -/
def completeCmd (s : State) (cmd : Nat) (status : Word) : State :=
  let done (t : Tab Group) : Tab Group := t.update (fun _ => true) (fun _ g =>
    { g with
      handles := g.handles.update (fun _ => true) (fun _ h =>
        if h.pend = some cmd then { h with pend := none, status := status } else h)
      hpoison := if g.hpoison.isEmpty then g.hpoison else g.hpoison.filter (fun w =>
        !(w % 2 == 1 && (g.handle (w / 2)).pend == some cmd)) })
  { s with
    groups := done s.groups
    ctxs := s.ctxs.update (fun _ => true) (fun _ c => { c with image := c.image.map (fun i => { i with groups := done i.groups }) }) }

/-- The user trap ARRAY of a read of a handle whose acall asked for it and ended with a nonzero CODE (R316). -/
def arrayTrap (gid h : Nat) (x : Handle) : Option Trap :=
  if x.trap && x.pend.isNone && x.status.extractLsb' 0 8 != 0 then
    some (.vector 6 ((x.status.extractLsb' 0 8).setWidth 32) ((token gid h x.gen).setWidth 64) false)
  else none

/-- A command reads the handle register that it names as its destination: a pending one blocks its threads (R173, R230); the
read that follows is an acquire, and raises ARRAY by R316. Then the command goes on as `f` says. -/
def readDest (s : State) (gid h : Nat) (lanes : List Nat) (f : State → GroupOut) : GroupOut :=
  let x := handleOf s gid h
  if x.pend.isSome then .wait (modHandle s gid h (fun x => { x with readers := NSet.addAll x.readers lanes }))
  else if lanes.any (fun t => x.readers.contains t) then
    let s1 := acquireCore (modHandle s gid h (fun x => { x with readers := x.readers.filter (fun t => !lanes.contains t) }))
      (gidCore gid)
    match arrayTrap gid h x with
    | some tr => .trap s1 (fun _ => tr)
    | none => f s1
  else f s

/-- The operand of wait, htest and hcancel: a handle of a group, complete, or a token that raises HANDLE (R232). -/
inductive Resolved where
  | handle (gid h : Nat)
  | complete
  | bad (tok : Word)
  deriving DecidableEq, Repr

/-- Resolve a token (R232). -/
def resolve (s : State) (ctx : Nat) (tok : Word) : Resolved :=
  let core := (tok.extractLsb' 0 8).toNat
  let slot := (tok.extractLsb' 8 6).toNat
  let h := (tok.extractLsb' 14 5).toNat
  let gen := (tok.extractLsb' 19 13).toNat
  if core ≥ 192 || !s.partOwns (s.ctxPart ctx) core then .bad tok
  else
    let gid := gidOf core slot
    match s.group? gid with
    | none => .complete
    | some g =>
      if ((s.teams.get? g.team).map Team.ctx).getD 4096 ≠ ctx then .complete
      else if (g.handle h).gen ≠ gen then .complete
      else .handle gid h

/-! ### Threads that meet -/

/-- The threads of a team that have not retired. -/
def liveOf (s : State) (team : Nat) : List Nat :=
  (s.threads.filter (fun x => x.2.status != Status.retired
    && ((s.group? (tidGid x.1)).map Group.team == some team))).map Prod.fst

/-- The declared signers of a mask that have retired without signing: every lane of a named group that is not live (R366). -/
def retiredSigners (s : State) (team : Nat) (k : KInst) : Nat :=
  match s.teams.get? team with
  | none => 0
  | some t =>
    let live := liveOf s team
    ((List.range t.kernel.groups).filter (fun g => k.m.getLsbD g)).foldl (fun n g =>
      match t.slots[g]? with
      | none => n
      | some gid => n + ((List.range 128).filter (fun l =>
          !live.contains (tidOf gid l) && !k.signed.contains (tidOf gid l))).length) 0

/-- Threads leave a meeting place: they go on at the next slot. Departure is an acquire of the core they are on. -/
def depart (s : State) (tids : List Nat) : State :=
  let s := (groupsOf tids).foldl (fun s gid => acquireCore s (gidCore gid)) s
  advance s tids

/-- The team barrier proceeds when every thread of the team has arrived or retired (R368). -/
def settleBar (s : State) (team : Nat) : State :=
  match s.teams.get? team with
  | none => s
  | some t =>
    if !t.bar.isEmpty && (liveOf s team).all (fun x => t.bar.contains x) then
      depart (s.modTeam team (fun t => { t with bar := [] })) t.bar
    else s

/-- The cluster or wide-set barrier proceeds (R368). -/
def settleCbar (s : State) (cl : Nat) : State :=
  match s.clusters.get? cl with
  | none => s
  | some c =>
    if !c.cbar.isEmpty && c.teams.all (fun tm => (liveOf s tm).all (fun x => c.cbar.contains x)) then
      depart { s with clusters := s.clusters.modify cl (fun c => { c with cbar := [] }) } c.cbar
    else s

end Ops

end Sys2Proof.Machine
end

