-- ==== Sys2Proof/Machine/Events.lean ====
section
/-! DEFINITION. The event ring of a virtual function: records, the writing of those that fit, and the holding of the others
(R438). -/

namespace Sys2Proof.Machine

open Sys2Proof

namespace Events

/-- A record of 32 bytes: type, context, core, group, an address, %time, and the status byte of CRECFAIL. -/
def record (ty ctx core group addr now status : Nat) : List Byte :=
  Mem.toBytes 8 (ty + 256 * ctx + 2 ^ 24 * core + 2 ^ 32 * group) ++ Mem.toBytes 8 addr ++ Mem.toBytes 8 now
    ++ Mem.toBytes 8 status

/-- Whether the ring takes a record now: its registers are legal and it is not full. -/
def room (v : Vf) : Bool :=
  let n := (v.eqcfg.extractLsb' 0 5).toNat
  decide (4 ≤ n) && decide (n ≤ 16) && decide (v.eqbase.toNat < 2 ^ 51) && decide ((v.eqtail - v.eqhead).toNat < 2 ^ n)

/-- The host physical address of the next record. -/
def place (v : Vf) : Nat :=
  0x8000000000000 + v.eqbase.toNat + 32 * (v.eqtail.toNat % 2 ^ (v.eqcfg.extractLsb' 0 5).toNat)

/-- Write held records while the ring takes them: the record, over CerudLink, then EQTAIL. -/
def drain (vf : Nat) : Nat → State → State
  | 0, s => s
  | fuel + 1, s =>
    let v := s.vf vf
    match v.held with
    | [] => s
    | r :: rest =>
      if room v then
        drain vf fuel ({ s with mem := Memory.writeAll s.mem (place v) r }.setVf vf { v with eqtail := v.eqtail + 1, held := rest })
      else s

/-- Append a record to the ring of a VF. -/
def post (s : State) (vf : Nat) (r : List Byte) : State :=
  let v := s.vf vf
  drain vf (v.held.length + 1) (s.setVf vf { v with held := v.held ++ [r] })

/-- Write what a VF holds back, as far as it fits. -/
def drainAll (s : State) (vf : Nat) : State := drain vf ((s.vf vf).held.length) s

/-- An event of a context, in the ring of its VF. -/
def ofCtx (s : State) (ctx ty core group addr status : Nat) : State :=
  match s.ctxs.get? ctx with
  | none => s
  | some c => post s c.vf (record ty ctx core group addr s.now status)

/-- A region violation by a thread, or by a command (core and group 0) (R115). DEDUCED, log 38. -/
def violation (s : State) (ctx core group : Nat) : State := ofCtx s ctx 4 core group 0 0

/-- A region violation by the write-back of a line that a partition filled: no context asks for it, and the record, of context 0,
stands in the partition's first VF (R115). DEDUCED, log 38. -/
def partViolation (s : State) (p : Nat) : State :=
  match s.vfs.find? (fun v => v.2.part == some p) with
  | some v => post s v.1 (record 4 0 0 0 0 s.now 0)
  | none => s

end Events

end Sys2Proof.Machine
end

