-- ==== Sys2Proof/Machine/Flags.lean ====
section
/-! DEFINITION. Floating-point formats, exact values, the one rounding, the sticky flags that it raises, conversions, block
floating point, and the approximated functions within their bounds (chapter 3, R253 to R264). -/

namespace Sys2Proof.Machine

open Sys2Proof

namespace Flags

/-! ### Sticky flags (Table 03.5) -/

abbrev Fl := BitVec 5
abbrev iv : Fl := 1
abbrev dz : Fl := 2
abbrev ofl : Fl := 4
abbrev uf : Fl := 8
abbrev nx : Fl := 16

/-! ### Formats and exact values -/

/-- A binary format: exponent bits and fraction bits (Table 03.1). -/
structure Fmt where
  eb : Nat
  fb : Nat
  deriving DecidableEq, Repr

abbrev f32 : Fmt := { eb := 8, fb := 23 }
abbrev f16 : Fmt := { eb := 5, fb := 10 }
abbrev bf16 : Fmt := { eb := 8, fb := 7 }

namespace Fmt
def bias (f : Fmt) : Nat := 2 ^ (f.eb - 1) - 1
def emax (f : Fmt) : Nat := 2 ^ f.eb - 1
/-- Exponent of the least significant bit of a subnormal. -/
def qmin (f : Fmt) : Int := 1 - (f.bias : Int) - (f.fb : Int)
def infBits (f : Fmt) : Nat := f.emax * 2 ^ f.fb
/-- The canonical NaN (R76). -/
def qnan (f : Fmt) : Nat := f.infBits + 2 ^ (f.fb - 1)
def maxFin (f : Fmt) : Nat := f.infBits - 1
def signBit (f : Fmt) : Nat := 2 ^ (f.eb + f.fb)
def sign (f : Fmt) (neg : Bool) (n : Nat) : Nat := if neg then n + f.signBit else n
end Fmt

/-- The value of a floating-point pattern, or an exact unrounded value: the finite ones are ± m × 2^e. -/
inductive Fp where
  | nan (signalling : Bool)
  | inf (neg : Bool)
  | fin (neg : Bool) (m : Nat) (e : Int)
  deriving DecidableEq, Repr

/-- Read a pattern (R75); under FTZ a subnormal reads as a zero of its sign (R82). -/
def unpack (f : Fmt) (ftz : Bool) (n : Nat) : Fp :=
  let neg := n.testBit (f.eb + f.fb)
  let e := n / 2 ^ f.fb % 2 ^ f.eb
  let fr := n % 2 ^ f.fb
  if e = f.emax then
    if fr = 0 then .inf neg else .nan (!fr.testBit (f.fb - 1))
  else if e = 0 then .fin neg (if ftz then 0 else fr) f.qmin
  else .fin neg (2 ^ f.fb + fr) (f.qmin + (e : Int) - 1)

/-! ### The one rounding (R79 to R82) -/

/-- m / 2^s rounded to an integer magnitude by mode, and whether bits were lost. -/
def roundShift (rm : BitVec 2) (neg : Bool) (m s : Nat) : Nat × Bool :=
  let q := m / 2 ^ s
  let r := m % 2 ^ s
  let up : Bool := match rm.toNat with
    | 0 => decide (2 * r > 2 ^ s) || (decide (2 * r = 2 ^ s) && q % 2 == 1)
    | 1 => false
    | 2 => decide (r ≠ 0) && !neg
    | _ => decide (r ≠ 0) && neg
  (if up then q + 1 else q, decide (r ≠ 0))

/-- m × 2^e at a least significant bit of exponent l: the magnitude in units of 2^l and whether it is inexact. -/
def roundAt (rm : BitVec 2) (neg : Bool) (m : Nat) (e l : Int) : Nat × Bool :=
  if e ≤ l then roundShift rm neg m (l - e).toNat else (m * 2 ^ (e - l).toNat, false)

/-- The overflow result (R80). -/
def overflow (f : Fmt) (rm : BitVec 2) (neg : Bool) : Nat :=
  let toInf : Bool := match rm.toNat with
    | 0 => true
    | 1 => false
    | 2 => !neg
    | _ => neg
  f.sign neg (if toInf then f.infBits else f.maxFin)

/-- Round ± m × 2^e to a format: the pattern and the flags OF, UF, NX. -/
def round (f : Fmt) (rm : BitVec 2) (ftz neg : Bool) (m : Nat) (e : Int) : Nat × Fl :=
  if m = 0 then (f.sign neg 0, 0)
  else
    let top : Int := e + (m.log2 : Int)
    let (q, inex) := roundAt rm neg m e (top - (f.fb : Int))
    let carry := decide (q = 2 ^ (f.fb + 1))
    let ex : Int := if carry then top + 1 else top
    let emin : Int := 1 - (f.bias : Int)
    if ex < emin then
      if ftz then (f.sign neg 0, uf ||| nx)
      else
        let (q, inex) := roundAt rm neg m e f.qmin
        (f.sign neg q, if inex then uf ||| nx else 0)
    else if (f.bias : Int) < ex then (overflow f rm neg, ofl ||| nx)
    else
      let fr := if carry then 0 else q - 2 ^ f.fb
      (f.sign neg ((ex - emin + 1).toNat * 2 ^ f.fb + fr), if inex then nx else 0)

/-- Deliver an exact value in a format. -/
def deliver (f : Fmt) (rm : BitVec 2) (ftz : Bool) (x : Fp) : Nat × Fl :=
  match x with
  | .nan _ => (f.qnan, 0)
  | .inf neg => (f.sign neg f.infBits, 0)
  | .fin neg m e => round f rm ftz neg m e

/-! ### Exact operations (R83) -/

/-- IV when a value is a signalling NaN. -/
def sig (x : Fp) : Fl :=
  match x with
  | .nan true => iv
  | _ => 0

def isNan (x : Fp) : Bool :=
  match x with
  | .nan _ => true
  | _ => false

def negate (x : Fp) : Fp :=
  match x with
  | .nan s => .nan s
  | .inf n => .inf (!n)
  | .fin n m e => .fin (!n) m e

/-- A signed integer of units 2^e. -/
def ofInt (n : Int) (e : Int) (zeroNeg : Bool) : Fp :=
  if n = 0 then .fin zeroNeg 0 e else .fin (decide (n < 0)) n.natAbs e

def signed (neg : Bool) (m : Nat) : Int := if neg then -(m : Int) else (m : Int)

/-- The exact sum, with the sign of an exactly zero sum by mode (R80). -/
def addX (rm : BitVec 2) (x y : Fp) : Fp × Fl :=
  match x, y with
  | .nan s, y => (.nan false, sig (.nan s) ||| sig y)
  | x, .nan s => (.nan false, sig x ||| sig (.nan s))
  | .inf a, .inf b => if a = b then (.inf a, 0) else (.nan false, iv)
  | .inf a, .fin _ _ _ => (.inf a, 0)
  | .fin _ _ _, .inf b => (.inf b, 0)
  | .fin a m e, .fin b n k =>
    let l := min e k
    let t := signed a (m * 2 ^ (e - l).toNat) + signed b (n * 2 ^ (k - l).toNat)
    let z := if a = b then a else decide (rm = 3)
    (ofInt t l z, 0)

/-- The exact product. -/
def mulX (x y : Fp) : Fp × Fl :=
  match x, y with
  | .nan s, y => (.nan false, sig (.nan s) ||| sig y)
  | x, .nan s => (.nan false, sig x ||| sig (.nan s))
  | .inf a, .inf b => (.inf (xor a b), 0)
  | .inf a, .fin b n _ => if n = 0 then (.nan false, iv) else (.inf (xor a b), 0)
  | .fin a m _, .inf b => if m = 0 then (.nan false, iv) else (.inf (xor a b), 0)
  | .fin a m e, .fin b n k => (.fin (xor a b) (m * n) (e + k), 0)

/-- The quotient to `prec` bits and a sticky bit, which one rounding cannot tell from the exact one. -/
def divX (prec : Nat) (x y : Fp) : Fp × Fl :=
  match x, y with
  | .nan s, y => (.nan false, sig (.nan s) ||| sig y)
  | x, .nan s => (.nan false, sig x ||| sig (.nan s))
  | .inf _, .inf _ => (.nan false, iv)
  | .inf a, .fin b _ _ => (.inf (xor a b), 0)
  | .fin a _ _, .inf b => (.fin (xor a b) 0 0, 0)
  | .fin a m e, .fin b n k =>
    if n = 0 then (if m = 0 then (.nan false, iv) else (.inf (xor a b), dz))
    else
      let sh := prec + n.log2 + 1
      let q := m * 2 ^ sh / n
      let st := if q * n = m * 2 ^ sh then 0 else 1
      (.fin (xor a b) (2 * q + st) (e - k - (sh : Int) - 1), 0)

/-- The integer square root of n, below 2^bits. -/
def isqrt : Nat → Nat → Nat → Nat
  | 0, _, r => r
  | b + 1, n, r =>
    let t := r + 2 ^ b
    isqrt b n (if t * t ≤ n then t else r)

/-- The square root to at least `prec` bits and a sticky bit. -/
def sqrtX (prec : Nat) (x : Fp) : Fp × Fl :=
  match x with
  | .nan s => (.nan false, sig (.nan s))
  | .inf neg => if neg then (.nan false, iv) else (.inf false, 0)
  | .fin neg m e =>
    if m = 0 then (.fin neg 0 0, 0)
    else if neg then (.nan false, iv)
    else
      let sh := 2 * prec + (e % 2).toNat
      let n := m * 2 ^ sh
      let r := isqrt (n.log2 / 2 + 1) n 0
      let st := if r * r = n then 0 else 1
      (.fin false (2 * r + st) ((e - (sh : Int)) / 2 - 1), 0)

/-! ### The arithmetic operations of a format -/

def rounded (f : Fmt) (rm : BitVec 2) (ftz : Bool) (x : Fp × Fl) : Nat × Fl :=
  let y := deliver f rm ftz x.1
  (y.1, x.2 ||| y.2)

def add (f : Fmt) (rm : BitVec 2) (ftz : Bool) (a b : Nat) : Nat × Fl :=
  rounded f rm ftz (addX rm (unpack f ftz a) (unpack f ftz b))

def sub (f : Fmt) (rm : BitVec 2) (ftz : Bool) (a b : Nat) : Nat × Fl :=
  rounded f rm ftz (addX rm (unpack f ftz a) (negate (unpack f ftz b)))

def mul (f : Fmt) (rm : BitVec 2) (ftz : Bool) (a b : Nat) : Nat × Fl :=
  rounded f rm ftz (mulX (unpack f ftz a) (unpack f ftz b))

/-- A × B + C with one rounding. -/
def fma (f : Fmt) (rm : BitVec 2) (ftz : Bool) (a b c : Nat) : Nat × Fl :=
  let p := mulX (unpack f ftz a) (unpack f ftz b)
  let t := addX rm p.1 (unpack f ftz c)
  rounded f rm ftz (t.1, p.2 ||| t.2)

def div (f : Fmt) (rm : BitVec 2) (ftz : Bool) (a b : Nat) : Nat × Fl :=
  rounded f rm ftz (divX (f.fb + 3) (unpack f ftz a) (unpack f ftz b))

def sqrt (f : Fmt) (rm : BitVec 2) (ftz : Bool) (a : Nat) : Nat × Fl :=
  rounded f rm ftz (sqrtX (f.fb + 3) (unpack f ftz a))

/-- FP32 sum and product with RNE, as `atom.fadd`, `red.fadd`, merges and the array sequencers make them. -/
def addRne (a b : Word) : Word × Fl :=
  let r := add f32 0 false a.toNat b.toNat
  (BitVec.ofNat 32 r.1, r.2)

def mulRne (a b : Word) : Word × Fl :=
  let r := mul f32 0 false a.toNat b.toNat
  (BitVec.ofNat 32 r.1, r.2)

/-- The order of two numbers, −1, 0 or 1; zeros of either sign are equal. -/
def cmpNum (x y : Fp) : Option Int :=
  match x, y with
  | .nan _, _ => none
  | _, .nan _ => none
  | .inf a, .inf b => some (if a = b then 0 else if a then -1 else 1)
  | .inf a, .fin _ _ _ => some (if a then -1 else 1)
  | .fin _ _ _, .inf b => some (if b then 1 else -1)
  | .fin a m e, .fin b n k =>
    let l := min e k
    let t := signed a (m * 2 ^ (e - l).toNat) - signed b (n * 2 ^ (k - l).toNat)
    some (if t < 0 then -1 else if t = 0 then 0 else 1)

def isNeg (f : Fmt) (n : Nat) : Bool := n.testBit (f.eb + f.fb)

/-- A subnormal input under FTZ, as its bits (R254). -/
def flushBits (f : Fmt) (ftz : Bool) (n : Nat) : Nat :=
  if ftz && decide (n / 2 ^ f.fb % 2 ^ f.eb = 0) then f.sign (isNeg f n) 0 else n

/-- Smaller or larger value (R254). -/
def minmax (f : Fmt) (ftz nan max : Bool) (a b : Nat) : Nat × Fl :=
  let x := unpack f ftz a
  let y := unpack f ftz b
  let fl := sig x ||| sig y
  let ar := flushBits f ftz a
  let br := flushBits f ftz b
  match isNan x, isNan y with
  | true, true => (f.qnan, fl)
  | true, false => (if nan then f.qnan else br, fl)
  | false, true => (if nan then f.qnan else ar, fl)
  | false, false =>
    let less : Bool := match cmpNum x y with
      | some t => decide (t < 0) || (decide (t = 0) && isNeg f a)
      | none => false
    (if xor less max then ar else br, fl)

/-- fcmp (Table 09.5): whether the condition holds, and IV. -/
def fcmp (ftz : Bool) (cond : BitVec 4) (a b : Word) : Bool × Fl :=
  let x := unpack f32 ftz a.toNat
  let y := unpack f32 ftz b.toNat
  let rel (k : Nat) (t : Int) : Bool := match k with
    | 0 => decide (t = 0)
    | 1 => decide (t ≠ 0)
    | 2 => decide (t < 0)
    | 3 => decide (t ≤ 0)
    | 4 => decide (0 < t)
    | _ => decide (0 ≤ t)
  let c := cond.toNat
  let s := sig x ||| sig y
  match cmpNum x y with
  | some t => (if c = 6 then true else if c = 7 then false else if c < 6 then rel c t else rel (c - 8) t, 0)
  | none => (if c < 6 then false else decide (c ≠ 6), if 2 ≤ c && c ≤ 5 then iv else s)

/-- fclass (R256). -/
def fclass (a : Word) : Word :=
  let neg := isNeg f32 a.toNat
  match unpack f32 false a.toNat with
  | .nan true => 0x100
  | .nan false => 0x200
  | .inf n => if n then 0x001 else 0x080
  | .fin _ m _ =>
    if m = 0 then (if neg then 0x008 else 0x010)
    else if m < 2 ^ 23 then (if neg then 0x004 else 0x020)
    else (if neg then 0x002 else 0x040)

/-! ### Conversions (R87, R260 to R263) -/

/-- Round a value to an integer by mode: the integer and whether it is inexact. -/
def toInt (rm : BitVec 2) (neg : Bool) (m : Nat) (e : Int) : Int × Bool :=
  let r := roundAt rm neg m e 0
  (signed neg r.1, r.2)

/-- The nearest integer of ± m × 2^e, ties to even. -/
def rneInt (neg : Bool) (m : Nat) (e : Int) : Int := (toInt 0 neg m e).1

def clamp (lo hi x : Int) : Int := if x < lo then lo else if hi < x then hi else x

/-- Range of an integer type of w bits. -/
def intLo (sgn : Bool) (w : Nat) : Int := if sgn then -(2 ^ (w - 1) : Int) else 0
def intHi (sgn : Bool) (w : Nat) : Int := if sgn then 2 ^ (w - 1) - 1 else 2 ^ w - 1

/-- Float to integer (R87). -/
def fpToInt (rm : BitVec 2) (sgn : Bool) (w : Nat) (x : Fp) : Int × Fl :=
  match x with
  | .nan _ => (0, iv)
  | .inf neg => (if neg then intLo sgn w else intHi sgn w, iv)
  | .fin neg m e =>
    let t := toInt rm neg m e
    let c := clamp (intLo sgn w) (intHi sgn w) t.1
    if c ≠ t.1 then (c, iv) else (c, if t.2 then nx else 0)

/-- fround (R263). -/
def fround (ftz : Bool) (mode : BitVec 2) (a : Word) : Word × Fl :=
  let rm : BitVec 2 := match mode.toNat with
    | 0 => 0
    | 1 => 1
    | 2 => 2
    | _ => 3
  match unpack f32 ftz a.toNat with
  | .nan s => (BitVec.ofNat 32 f32.qnan, sig (.nan s))
  | .inf _ => (a, 0)
  | .fin neg m e =>
    let t := (toInt rm neg m e).1
    (BitVec.ofNat 32 (round f32 0 false neg t.natAbs 0).1, 0)

/-! ### Block floating point (R88 to R92) -/

/-- Quantise sixteen FP32 values to width m: the exponent, the mantissas, the flags (R92). -/
def quantise (m : Nat) (xs : List Word) : Nat × List Int × Fl :=
  let vs := xs.map (fun x => unpack f32 false x.toNat)
  let bad (x : Fp) : Bool := match x with
    | .fin _ _ _ => false
    | _ => true
  let badFl (x : Fp) : Fl := match x with
    | .inf _ => iv
    | x => sig x
  if vs.any bad then (255, xs.map (fun _ => 0), vs.foldl (fun f x => f ||| badFl x) 0)
  else
    -- every value is a multiple of 2^-149
    let units (x : Fp) : Nat := match x with
      | .fin _ n e => n * 2 ^ (e + 149).toNat
      | _ => 0
    let neg (x : Fp) : Bool := match x with
      | .fin b _ _ => b
      | _ => false
    let a := vs.foldl (fun a x => max a (units x)) 0
    if a = 0 then (0, xs.map (fun _ => 0), 0)
    else
      let e : Int := (a.log2 : Int) - 149
      let ex := e + 128
      let fl : Fl := if 254 < ex then ofl else 0
      let ex := clamp 1 254 ex
      let l : Int := ex - 127 - ((m : Int) - 1)
      let half : Int := 2 ^ (m - 1)
      let ms := vs.map (fun x => clamp (-half) (half - 1) (rneInt (neg x) (units x) (-149 - l)))
      let same (x : Fp) (mj : Int) : Bool :=
        -- M × 2^l = x, both in units of 2^-149 or finer
        let k := min l (-149)
        decide (mj * 2 ^ (l - k).toNat = signed (neg x) (units x) * 2 ^ (-149 - k).toNat)
      let inex := !((vs.zip ms).all (fun p => same p.1 p.2))
      (ex.toNat, ms, fl ||| (if inex then nx else 0))

/-- The FP32 value of an on-chip byte M8, as a signed number, with exponent E (R88, R90). -/
def expand (m8 : Int) (ex : Nat) : Word :=
  if ex = 0 then 0
  else if ex = 255 then BitVec.ofNat 32 f32.qnan
  else if m8 = 0 then 0
  else BitVec.ofNat 32 (round f32 0 false (decide (m8 < 0)) m8.natAbs ((ex : Int) - 134)).1

/-- Narrow an on-chip byte to width m (R91): the m-bit mantissa and whether it saturated. -/
def narrow (m : Nat) (b : Byte) : Int × Bool :=
  let t := rneInt (b.toInt < 0) b.toInt.natAbs (-((8 - m : Nat) : Int))
  let half : Int := 2 ^ (m - 1)
  let c := clamp (-half) (half - 1) t
  (c, decide (c ≠ t))

/-! ### The approximated functions (R257, R258)

An exact value is approached in fixed point with 2^-128 as its unit; the result that the part fixes is r0, the nearest
pattern, moved by the implementation's offset as long as it stays within the bound of Table 09.7. -/

abbrev unit : Nat := 2 ^ 128

/-- ln 2 and 1 / (2π), in units of 2^-128 and of 2^-320. -/
def ln2 : Nat := 0xb17217f7d1cf79abc9e3b39803f2f6af
def invTwoPi : Nat := 0x28be60db9391054a7f09d5f47d4d377036d8a5664f10e4107f9458eaf7aef1586dc91b8e909374b8
def twoPi : Nat := 0x6487ed5110b4611a62633145c06e0e689

/-- Σ x^n / n! for the terms that remain, t the current term. -/
def expSeries : Nat → Nat → Int → Int → Int → Int
  | 0, _, _, _, acc => acc
  | k + 1, n, x, t, acc =>
    let t := t * x / (unit : Int) / (n : Int)
    expSeries k (n + 1) x t (acc + t)

/-- 2^f for f in [0, 1), units of 2^-128. -/
def exp2Frac (f : Nat) : Nat :=
  (expSeries 40 1 ((f * ln2 / unit : Nat) : Int) (unit : Int) (unit : Int)).toNat

/-- Σ y^(2n+1) / (2n+1). -/
def atanhSeries : Nat → Nat → Nat → Nat → Nat → Nat
  | 0, _, _, _, acc => acc
  | k + 1, n, y2, t, acc =>
    let t := t * y2 / unit
    atanhSeries k (n + 2) y2 t (acc + t / n)

/-- log2 of a number in [1, 2), units of 2^-128. -/
def log2Frac (y : Nat) : Nat :=
  let z := (y - unit) * unit / (y + unit)
  2 * atanhSeries 48 3 (z * z / unit) z z * unit / ln2

/-- Alternating series of sin and cos: terms x^(n) / n!. -/
def trigSeries : Nat → Nat → Int → Int → Int → Int
  | 0, _, _, _, acc => acc
  | k + 1, n, x2, t, acc =>
    let t := -(t * x2 / (unit : Int) / ((n * (n + 1) : Nat) : Int))
    trigSeries k (n + 2) x2 t (acc + t)

/-- sin or cos of ± m × 2^e, units of 2^-128. -/
def trig (cos neg : Bool) (m : Nat) (e : Int) : Int :=
  -- turns in units of 2^-320, taken modulo one turn
  let p := m * invTwoPi
  let turns := (if e < 0 then p / 2 ^ (-e).toNat else p * 2 ^ e.toNat) % 2 ^ 320
  let t : Int := ((turns / 2 ^ 192 : Nat) : Int)
  let t := if 2 ^ 127 ≤ t then t - (unit : Int) else t
  let x := t * (twoPi : Int) / (unit : Int)
  let x := if neg then -x else x
  let x2 := x * x / (unit : Int)
  if cos then trigSeries 40 1 x2 (unit : Int) (unit : Int) else trigSeries 40 2 x2 x x

/-- A pattern's place in the order of the finite numbers, and back. -/
def toOrd (n : Nat) : Int := if isNeg f32 n then -((n - f32.signBit : Nat) : Int) else (n : Int)
def ofOrd (i : Int) (neg0 : Bool) : Nat := f32.sign (if i = 0 then neg0 else decide (i < 0)) i.natAbs

/-- |pattern − v × 2^k| in units 2^l, with l the least exponent in play. -/
def distance (n : Nat) (v : Int) (k : Int) : Nat × Int :=
  match unpack f32 false n with
  | .fin neg m e =>
    let l := min e k
    ((signed neg (m * 2 ^ (e - l).toNat) - v * 2 ^ (k - l).toNat).natAbs, l)
  | _ => (0, 0)

/-- Whether a distance is at most b × 2^e. -/
def within (d : Nat × Int) (b : Nat) (e : Int) : Bool :=
  decide (d.1 * 2 ^ (d.2 - min d.2 e).toNat ≤ b * 2 ^ (e - min d.2 e).toNat)

/-- Exponent of one unit in the last place of a finite pattern. -/
def ulpExp (n : Nat) : Int :=
  match unpack f32 false n with
  | .fin _ _ e => e
  | _ => 0

/-- The part's result for the exact value v × 2^k within a bound of b ulp, or an absolute 2^a where one is given.
DESIGN CHOICE, log 9. -/
def approx (fn : Nat) (x : Word) (ftz : Bool) (v : Int) (k : Int) (b : Nat) (a : Option Int) : Word × Fl :=
  let r0 := (round f32 0 false (decide (v < 0)) v.natAbs k).1
  let c := ofOrd (toOrd r0 + Config.approxPick fn x ftz) (decide (v < 0))
  let d := distance c v k
  let fin : Bool := match unpack f32 false c with
    | .fin _ _ _ => true
    | _ => false
  let okUlp := within d b (ulpExp c)
  let ok := fin && (okUlp || (match a with
    | some a => within d 1 a
    | none => false))
  let r := if ok then c else r0
  let tiny := decide (r % f32.signBit < 2 ^ 23)
  if tiny then
    (BitVec.ofNat 32 (if ftz then f32.sign (isNeg f32 r) 0 else r), uf ||| nx)
  else (BitVec.ofNat 32 r, nx)

/-- The exponent n when a positive value is exactly 2^n. -/
def powerOfTwo (m : Nat) (e : Int) : Option Int :=
  if m = 2 ^ m.log2 then some (e + (m.log2 : Int)) else none

def word (n : Nat) : Word := BitVec.ofNat 32 n
def qnan32 : Word := word f32.qnan
def inf32 (neg : Bool) : Word := word (f32.sign neg f32.infBits)
def zero32 (neg : Bool) : Word := word (f32.sign neg 0)

/-- frsq (Table 09.6, R258). DESIGN CHOICE, log 9. -/
def frsq (ftz : Bool) (a : Word) : Word × Fl :=
  match unpack f32 ftz a.toNat with
  | .nan s => (qnan32, sig (.nan s))
  | .inf neg => if neg then (qnan32, iv) else (zero32 false, 0)
  | .fin neg m e =>
    if m = 0 then (inf32 neg, dz)
    else if neg then (qnan32, iv)
    else match powerOfTwo m e with
      | some n =>
        if n % 2 = 0 then (word (round f32 0 false false 1 (-(n / 2))).1, 0)
        else
          let v := isqrt 200 (2 ^ 399) 0
          approx 1 a ftz (v : Int) (-200 - (n - 1) / 2) 1 none
      | none =>
        let od := (e % 2).toNat
        let n := m * 2 ^ od
        let e2 := (e - (od : Int)) / 2
        let v := isqrt 200 (2 ^ 398 / n) 0
        approx 1 a ftz (v : Int) (-199 - e2) 1 none

/-- fexp2. DESIGN CHOICE, log 9. -/
def fexp2 (ftz : Bool) (a : Word) : Word × Fl :=
  match unpack f32 ftz a.toNat with
  | .nan s => (qnan32, sig (.nan s))
  | .inf neg => if neg then (zero32 false, 0) else (inf32 false, 0)
  | .fin neg m e =>
    if m = 0 then (word 0x3F800000, 0)
    else
      -- the value in units of 2^-149, its floor and fraction
      let t := signed neg (m * 2 ^ (e + 149).toNat)
      let n := t / (2 ^ 149 : Int)
      let fr := (t % (2 ^ 149 : Int)).toNat
      if 128 ≤ n then (inf32 false, ofl ||| nx)
      else if t ≤ -150 * (2 ^ 149 : Int) then (zero32 false, uf ||| nx)
      else if fr = 0 then
        let r := round f32 0 ftz false 1 n
        (word r.1, r.2)
      else approx 2 a ftz (exp2Frac (fr * unit / 2 ^ 149) : Int) (n - 128) 2 none

/-- flog2. DESIGN CHOICE, log 9. -/
def flog2 (ftz : Bool) (a : Word) : Word × Fl :=
  match unpack f32 ftz a.toNat with
  | .nan s => (qnan32, sig (.nan s))
  | .inf neg => if neg then (qnan32, iv) else (inf32 false, 0)
  | .fin neg m e =>
    if m = 0 then (inf32 true, dz)
    else if neg then (qnan32, iv)
    else match powerOfTwo m e with
      | some n => (word (round f32 0 ftz (decide (n < 0)) n.natAbs 0).1, 0)
      | none =>
        let n := e + (m.log2 : Int)
        let v := n * (unit : Int) + (log2Frac (m * unit / 2 ^ m.log2) : Int)
        let near := decide (0x3F400000 ≤ a.toNat) && decide (a.toNat ≤ 0x3FC00000)
        if near then approx 3 a ftz v (-128) 0 (some (-22)) else approx 3 a ftz v (-128) 2 none

/-- fsin and fcos. DESIGN CHOICE, log 9. -/
def fsincos (cos ftz : Bool) (a : Word) : Word × Fl :=
  match unpack f32 ftz a.toNat with
  | .nan s => (qnan32, sig (.nan s))
  | .inf _ => (qnan32, iv)
  | .fin neg m e =>
    if m = 0 then (if cos then word 0x3F800000 else zero32 neg, 0)
    else if !cos && e + (m.log2 : Int) < -40 then approx 4 a ftz (signed neg m) e 2 (some (-24))
    else approx (if cos then 5 else 4) a ftz (trig cos neg m e) (-128) 2 (some (-24))

end Flags

end Sys2Proof.Machine
end

