-- ==== Sys2Proof/Machine/Mem.lean ====
section
/-! DEFINITION. Memory: the address map, two-stage translation, the home of a line, the LLC and the L1 caches, reduce state,
the scratchpad and the vaults (chapters 4 to 6). -/

namespace Sys2Proof.Machine

open Sys2Proof

namespace Mem

/-! ### The virtual address map (Table 04.1) -/

/-- Where an address lies after the map check. -/
inductive Place where
  | glob (va : Nat)
  | spad (core off : Nat)
  | vault (a : Nat)
  deriving DecidableEq, Repr

/-- The teams of the cluster of a team, in rank order. -/
def members (s : State) (t : Team) : List Team :=
  match s.clusters.get? t.cluster with
  | none => [t]
  | some c => c.teams.filterMap s.teams.get?

/-- The team whose allocation the own-scratchpad window names (R101, R202). -/
def ownTeam? (s : State) (tid : Nat) (t : Thread) : Option Team :=
  match s.teamOf? tid with
  | none => none
  | some (_, tm) =>
    match t.visit with
    | none => some tm
    | some x => (members s tm).find? (fun m => m.core == x.core)

/-- Byte o to o + n − 1 of a team's allocation. -/
def inSpad (tm : Team) (o n : Nat) : Option Place :=
  if o + n ≤ tm.kernel.spad then some (.spad tm.core (tm.spadBase + o)) else none

/-- Classify n bytes at an address for a team (R100). `own` names the own-scratchpad allocation, `die` the current die; none
for the owner check of R188, which leaves the die limit of vaults out. -/
def classifyFor (s : State) (tm : Team) (own : Option Team) (die : Option Nat) (ea : DWord) (n : Nat) : Option Place :=
  let a := ea.toNat
  if a + n ≤ 0x800000000000 then some (.glob a)
  else if 0xFF0000000000 ≤ a && a + n ≤ 0xFF0100000000 then own.bind (fun t => inSpad t (a - 0xFF0000000000) n)
  else if 0xFF0100000000 ≤ a && a + n ≤ 0xFF0200000000 then
    let x := a - 0xFF0100000000
    if tm.kernel.wide then none
    else ((members s tm)[x / 0x80000]?).bind (fun t => inSpad t (x % 0x80000) n)
  else if 0xFF0200000000 ≤ a && a + n ≤ 0xFF0260000000 then
    let x := a - 0xFF0200000000
    let v := x / 0x800000
    let dieOk : Bool := match die with
      | none => true
      | some d => coreDie v == d
    if dieOk && s.partOwns (s.ctxPart tm.ctx) v && decide (x % 0x800000 + n ≤ 0x800000) then some (.vault x) else none
  else none

/-- The core on which a thread runs. -/
def coreOf (tid : Nat) (t : Thread) : Nat := t.runsOn (gidCore (tidGid tid))

/-- Classify an access of a thread. -/
def classify (s : State) (tid : Nat) (t : Thread) (ea : DWord) (n : Nat) (anyDie : Bool) : Option Place :=
  match s.teamOf? tid with
  | none => none
  | some (_, tm) =>
    classifyFor s tm (ownTeam? s tid t) (if anyDie then none else some (coreDie (coreOf tid t))) ea n

/-! ### The physical address map (Table 04.4) -/

def isDram (pa : Nat) : Bool := decide (pa < Config.lpddrBytes)
def isView (pa : Nat) : Bool := decide (0x1000000000000 ≤ pa) && decide (pa < 0x2000000000000)
def isHost (pa : Nat) : Bool := decide (0x8000000000000 ≤ pa) && decide (pa < 0x10000000000000)

/-- The home die (R113). -/
def homeDie (pa : Nat) : Nat :=
  if isDram pa then pa / 0x3000000000 else if isView pa then pa / 2 ^ 46 % 4 else pa / 4096 % 4

/-- The LPDDR-6 channel of an address, 16 to a die, each of 12 GiB (R113, Table 04.8). -/
def channel (pa : Nat) : Nat := 16 * homeDie pa + pa / 4096 % 16

/-- The home slice (R129): the slice and the core paired with it have one number. -/
def homeSlice (pa : Nat) : Nat :=
  let x := pa / 64
  let h := (x % 4096) ^^^ (x / 4096 % 4096) ^^^ (x / 2 ^ 24 % 4096) ^^^ (x / 2 ^ 36 % 1024)
  48 * homeDie pa + h % 48

/-- The enabled window that covers a view address (R124). -/
def fmtwOf (s : State) (pa : Nat) : Option (Nat × Fmtw) :=
  s.fmtw.find? (fun w => w.2.en && decide (w.2.vbase.toNat ≤ pa) && decide (pa < w.2.vbase.toNat + 4096 * w.2.vlen.toNat))

/-- The LPDDR-6 address behind a physical address: itself, or the mantissa bytes of its view line (R125). -/
def backing (s : State) (pa : Nat) : Option Nat :=
  if isView pa then
    (fmtwOf s pa).map (fun w => w.2.mbase.toNat + 8 * w.2.m.toNat * ((pa - w.2.vbase.toNat) / 64))
  else some pa

/-- The region of a physical address; of a view line, the region of its first mantissa byte. DESIGN CHOICE, log 96. -/
def regionOf (s : State) (pa : Nat) : Region :=
  match backing s pa with
  | some a => s.regions.getD (a / 2 ^ 30) Region.reset
  | none => Region.reset

/-- The region check (R114): partition 0 and host memory always pass. -/
def regionOk (s : State) (p pa : Nat) : Bool :=
  p == 0 || isHost pa || ((regionOf s pa).valid && (regionOf s pa).owner == p)

/-- Whether the zero fill of a region has not reached a byte's 4 KiB unit: 262,144 units, in ascending order, in 1.8 ms (R116).
DESIGN CHOICE, log 97. -/
def unfilled (s : State) (a : Nat) : Bool :=
  match (s.regions.getD (a / 2 ^ 30) Region.reset).scrub with
  | some t => decide ((s.now - t) * 262144 < (a % 2 ^ 30 / 4096 + 1) * 1800000)
  | none => false

/-- An access that has to wait: for the zero fill to reach it (R116), or for the end of a window's flush (R124). -/
def mustWait (s : State) (pa : Nat) : Bool :=
  if isView pa then
    match fmtwOf s pa, backing s pa with
    | some (_, w), some a => w.busy || unfilled s a || unfilled s (a + 8 * w.m.toNat - 1)
    | _, _ => false
  else isDram pa && unfilled s pa

/-! ### LPDDR-6 (R118, R121) -/

/-- The free value that a byte decrypts to, where its region's slot no longer holds the key it was written under (R118). -/
def garbledAs (s : State) (a : Nat) : Option Nat :=
  if s.garbled.isEmpty || s.regrown.contains (a / 32) then none
  else (s.garbled.find? (fun g => g.1 == a / 2 ^ 30)).map (fun g => g.2 + a % 2 ^ 30)

/-- One byte of LPDDR-6 or host memory, as its controller reads it. -/
def dramByte (s : State) (a : Nat) : Byte :=
  match garbledAs s a with
  | some n => Config.freeByte n
  | none => Memory.byte s.mem a

def dramBytes (s : State) (a n : Nat) : List Byte := (List.range n).map (fun i => dramByte s (a + i))

/-- A burst is read and merged before a part of it is written (R121): what it decrypted to stands in it from then on. -/
def regrow (s : State) (a : Nat) : State :=
  if (garbledAs s a).isNone then s
  else { s with mem := Memory.writeAll s.mem (a / 32 * 32) (dramBytes s (a / 32 * 32) 32), regrown := s.regrown.add (a / 32) }

/-- Write one byte, and bytes at consecutive addresses. -/
def dramPut (s : State) (a : Nat) (b : Byte) : State :=
  let s := regrow s a
  { s with mem := Memory.write s.mem a b }

def dramPutAll (s : State) (a : Nat) : List Byte → State
  | [] => s
  | b :: r => dramPutAll (dramPut s a b) (a + 1) r

/-- A region's key slot has changed (R118): everything written under the old key decrypts to bytes that are not defined.
DESIGN CHOICE, log 98. -/
def rekey (s : State) (p : Nat) : State :=
  (s.regions.filter (fun g => g.2.owner == p)).foldl (fun s g =>
    { s with
      garbled := s.garbled.filter (fun x => x.1 ≠ g.1) ++ [(g.1, s.free)]
      regrown := s.regrown.filter (fun b => b / 2 ^ 25 ≠ g.1)
      free := s.free + 2 ^ 30 }) s

/-- n bytes at a have been written whole: 8-byte units, and 64-byte lines, that lie in them lose their poison (R122, R125). -/
def curePoison (s : State) (a n : Nat) : State :=
  { s with
    poison := if s.poison.isEmpty then s.poison else s.poison.filter (fun l => !(decide (a ≤ 64 * l) && decide (64 * l + 64 ≤ a + n)))
    poison8 := if s.poison8.isEmpty then s.poison8 else
      s.poison8.filter (fun u => !(decide (a ≤ 8 * u) && decide (8 * u + 8 ≤ a + n))) }

/-- Whether n bytes of LPDDR-6 hold poison. -/
def dramPoisoned (s : State) (a n : Nat) : Bool :=
  s.poison.any (fun l => decide (64 * l < a + n) && decide (a < 64 * l + 64))
    || s.poison8.any (fun u => decide (8 * u < a + n) && decide (a < 8 * u + 8))

/-! ### Home values -/

/-- The elements of a view line from its packed bytes (R125). -/
def unpackView (m : Nat) (x : Nat) : Nat → List Byte
  | 0 => []
  | k + 1 => BitVec.ofNat 8 (x % 2 ^ m * 2 ^ (8 - m)) :: unpackView m (x / 2 ^ m) k

/-- The packed bytes of a view line, and whether an element saturated. -/
def packView (m : Nat) (l : List Byte) : Nat × Bool :=
  l.foldr (fun b r =>
    let t := Flags.narrow m b
    ((t.1 % (2 ^ m : Int)).toNat + 2 ^ m * r.1, t.2 || r.2)) (0, false)

/-- A line as memory holds it. -/
def memLine (s : State) (line : Nat) : List Byte :=
  if isView (64 * line) then
    match fmtwOf s (64 * line), backing s (64 * line) with
    | some w, some a => unpackView w.2.m.toNat (ofBytes (dramBytes s a (8 * w.2.m.toNat))) 64
    | _, _ => List.replicate 64 0
  else dramBytes s (64 * line) 64

/-- A line as its home holds it. -/
def homeLine (s : State) (line : Nat) : List Byte :=
  match s.llc.get? line with
  | some l => l.bytes
  | none => memLine s line

/-- One byte as the home holds it. -/
def homeByte (s : State) (pa : Nat) : Byte :=
  match s.llc.get? (pa / 64) with
  | some l => l.bytes.getD (pa % 64) 0
  | none => if isView pa then (memLine s (pa / 64)).getD (pa % 64) 0 else dramByte s pa

/-- One word as the home holds it. -/
def homeWord (s : State) (w : Nat) : Word :=
  homeByte s (4 * w + 3) ++ homeByte s (4 * w + 2) ++ homeByte s (4 * w + 1) ++ homeByte s (4 * w)

/-- Whether a line holds poison: as its home holds it, or where its home does not hold it as LPDDR-6 does, a view line by its own
mantissa bytes (R122, R125). -/
def linePoisoned (s : State) (line : Nat) : Bool :=
  s.poison.contains line || ((s.llc.get? line).isNone &&
    (if isView (64 * line) then match fmtwOf s (64 * line), backing s (64 * line) with
      | some w, some a => dramPoisoned s a (8 * w.2.m.toNat)
      | _, _ => false
    else s.poison8.any (fun u => u / 8 == line)))

/-- A line as a fill brings it (R129). -/
def newLine (s : State) (part line way : Nat) : LlcLine :=
  { bytes := memLine s line, dirty := [], part := part, way := way, cured := [] }

/-- Put a line into its home slice, with its poison (R122). -/
def setLine (s : State) (part line way : Nat) : State :=
  { s with
    llc := s.llc.set line (newLine s part line way)
    poison := if linePoisoned s line then s.poison.add line else s.poison }

/-- Replace n bytes of a list from position o. -/
def patch (l : List Byte) (o : Nat) (b : List Byte) : List Byte := l.take o ++ b ++ l.drop (o + b.length)

/-- Write bytes of a line that its home holds (R129). Only data that no poison has entered cures a poisoned line (R122). -/
def llcPut (s : State) (line o : Nat) (b : List Byte) (good : Bool) : State :=
  let ix := (List.range b.length).map (o + ·)
  { s with llc := s.llc.modify line (fun l =>
      { l with
        bytes := patch l.bytes o b, dirty := NSet.addAll l.dirty ix
        cured := if good then NSet.addAll l.cured ix else l.cured.filter (fun i => !ix.contains i) }) }

/-- Write the dirty bytes of an LLC line to memory; a controller whose region check fails writes nothing and raises a region
violation (R115); a poisoned view line poisons its DRAM bytes and is not narrowed (R125); a line of which every byte has been
overwritten is written whole and loses its poison (R122). The line stays, clean. -/
def writeBack (s : State) (line : Nat) : State :=
  match s.llc.get? line with
  | none => s
  | some l =>
    if l.dirty.isEmpty then s
    else
      let s1 := { s with llc := s.llc.set line { l with dirty := [] } }
      if !regionOk s l.part (64 * line) then Events.partViolation s1 l.part
      else if isView (64 * line) then
        match fmtwOf s (64 * line), backing s (64 * line) with
        | some (k, w), some a =>
          let n := 8 * w.m.toNat
          if s.poison.contains line && l.cured.length < 64 then
            { s1 with poison8 := NSet.addAll s1.poison8 ((List.range w.m.toNat).map (fun i => a / 8 + i)) }
          else
            let p := packView w.m.toNat l.bytes
            let s2 := curePoison (dramPutAll s1 a (toBytes n p.1)) a n
            { s2 with
              poison := s2.poison.del line
              fmtw := if p.2 then s2.fmtw.modify k (fun w => { w with range := true }) else s2.fmtw }
        | _, _ => s1
      else
        let s2 := l.dirty.foldl (fun s i => dramPut s (64 * line + i) (l.bytes.getD i 0)) s1
        if l.cured.length < 64 then s2 else curePoison s2 (64 * line) 64

/-- Drop an LLC line after writing it back; the poison of a view line stands in LPDDR-6. -/
def dropLine (s : State) (line : Nat) : State :=
  let s := writeBack s line
  { s with llc := s.llc.erase line, poison := if isView (64 * line) then s.poison.del line else s.poison }

/-- Write bytes of a line at its home: into the LLC where it holds the line, else through it to memory. -/
def homePut (s : State) (part line o : Nat) (b : List Byte) (good : Bool) : State :=
  if (s.llc.get? line).isSome then llcPut s line o b good
  else dropLine (llcPut (setLine s part line 16) line o b good) line

/-- Write a word of a line at its home. -/
def wordPut (s : State) (part w : Nat) (x : Word) (good : Bool) : State :=
  homePut s part (w / 16) (4 * (w % 16)) (toBytes 4 x.toNat) good

/-! ### L1 words and ownership (R128 to R134) -/

def l1? (s : State) (c w : Nat) : Option L1Word := (s.core c).l1.get? w
def setL1 (s : State) (c w : Nat) (x : L1Word) : State := s.modCore c (fun k => { k with l1 := k.l1.set w x })
def delL1 (s : State) (c w : Nat) : State := s.modCore c (fun k => { k with l1 := k.l1.erase w })

/-- Whether a core's copy of a word is in P. -/
def inP (s : State) (c w : Nat) : Bool :=
  match l1? s c w with
  | some x => x.st == L1State.P
  | none => false

/-- A line that an engine's command owns, or owns or pins (R139, R140). -/
def engineOwns (s : State) (line : Nat) : Bool := s.holds.any (fun h => h.own.contains line)
def engineHolds (s : State) (line : Nat) : Bool := s.holds.any (fun h => h.own.contains line || h.pin.contains line)

/-- The core that holds a line exclusively for the rest of its 64 core cycles (R150). -/
def holder (s : State) (line : Nat) : Option Nat :=
  (s.exclTill.get? line).bind (fun x => if s.now < x.2 then some x.1 else none)

/-- A line that a cross-die atomic of another core holds exclusively (R150). -/
def exclHeld (s : State) (c line : Nat) : Bool :=
  s.excl.any (fun e => e.2.line == line && e.2.core != c && e.2.st == ExclState.held)
    || (match holder s line with
      | some k => k != c
      | none => false)

/-- The partition that owns a core (R440). -/
def partOfCore (s : State) (c : Nat) : Nat :=
  match s.parts.find? (fun p => p.2.cores.getLsbD c) with
  | some p => p.1
  | none => 0

/-- The acknowledgement of a registration reaches its core: the word enters O with the merged value (R132). A partial store
into a poisoned line leaves the word poisoned. -/
def ackNow (s : State) (id : Nat) : State :=
  match s.regs.get? id with
  | none => s
  | some r =>
    if !r.acked then s
    else
      let s := { s with regs := s.regs.erase id }
      match l1? s r.core r.word with
      | some x =>
        if x.st = L1State.P && x.reg == id then
          setL1 s r.core r.word
            { st := .O, val := r.val, mask := 0xF, writers := [], reg := 0
              poison := r.mask != 0xF && s.poison.contains (r.word / 16) }
        else s
      | none => s

/-- Recall a word from its owner core: its value goes home, the copy stays in S (R134). An acknowledgement on its way to the
owner arrives first. -/
def recallWord (s : State) (w : Nat) : State :=
  match s.owner.get? w with
  | none => s
  | some c =>
    let s := match l1? s c w with
      | some x => if x.st = L1State.P then ackNow s x.reg else s
      | none => s
    let s := { s with owner := s.owner.erase w }.cross (coreDie c) (homeDie (4 * w))
    let s := if coreDie c = homeDie (4 * w) then s else s.countHub 0x101 (partOfCore s c) 1
    match l1? s c w with
    | some x => setL1 (wordPut s (partOfCore s c) w x.val (!x.poison)) c w { x with st := .S }
    | none => s

/-! ### Reduce state (R142, R143) -/

/-- Combine an operand into a value by a reduce operation of Table 05.18, 32-bit operations on the low word. -/
def combine (op : Nat) (old x : DWord) : DWord :=
  let a : Word := old.setWidth 32
  let b : Word := x.setWidth 32
  let w (r : Word) : DWord := r.setWidth 64
  match op with
  | 0 => w (a + b)
  | 1 => old + x
  | 2 => w (Flags.addRne a b).1
  | 3 => w (if a.toInt ≤ b.toInt then a else b)
  | 4 => w (if a.toInt ≤ b.toInt then b else a)
  | 5 => w (if a.toNat ≤ b.toNat then a else b)
  | _ => w (if a.toNat ≤ b.toNat then b else a)

/-- Take the elements of a list in the order that free choices give. DESIGN CHOICE, log 30. -/
def pickOrder {α : Type} (free : Nat) : Nat → List α → List α
  | 0, l => l
  | k + 1, l =>
    let i := Config.freeChoice (free + k) % (max l.length 1)
    match l[i]? with
    | some x => x :: pickOrder free k (l.eraseIdx i)
    | none => l

/-- Combine one partial into the home's value; a poisoned word stays poisoned (R152). -/
def applyPartial (s : State) (line : Nat) (r : Reduce) (p : Nat × Nat × DWord) : State :=
  let w := 16 * line + p.2.1
  let part := ((r.entries.find? (fun e => e.1 == p.1)).map (fun e => e.2.1)).getD 0
  if r.op = 1 then
    let x := combine r.op (homeWord s (w + 1) ++ homeWord s w) p.2.2
    wordPut (wordPut s part w (x.extractLsb' 0 32) false) part (w + 1) (x.extractLsb' 32 32) false
  else wordPut s part w ((combine r.op ((homeWord s w).setWidth 64) p.2.2).setWidth 32) false

/-- Combine the partials of a line in the slices that satisfy p, in an order that is not defined, and free their entries; reduce
state ends with the last (R143). DESIGN CHOICE, log 30. -/
def mergeSome (s : State) (line : Nat) (p : Nat → Bool) : State :=
  match s.reduce.get? line with
  | none => s
  | some r =>
    let (out, stay) := r.partials.partition (fun x => p x.1)
    let ps := pickOrder s.free out.length out
    let s := { s with
      free := s.free + out.length
      reduce := if stay.isEmpty then s.reduce.erase line
        else s.reduce.set line { r with partials := stay, entries := r.entries.filter (fun e => !p e.1) } }
    ps.foldl (fun s x => applyPartial s line r x) s

/-- Merge a line: every partial is combined into the memory value, and reduce state ends. -/
def mergeLine (s : State) (line : Nat) : State := mergeSome s line (fun _ => true)

/-- Recall every word of a line. -/
def recallLine (s : State) (line : Nat) : State := (List.range 16).foldl (fun s i => recallWord s (16 * line + i)) s

/-- The home evicts a line: owned words are recalled and reduce state ends first (R130, R143). -/
def evictHome (s : State) (line : Nat) : State := dropLine (mergeLine (recallLine s line) line) line

/-! ### The ways of a slice (R129, R441) -/

/-- The set of a line in its slice: host physical bits [16:6]. DESIGN CHOICE, log 14. -/
def llcSet (line : Nat) : Nat := line % 2048

/-- The home line, or the partial entry's line, that stands in a way of a set of a slice. -/
def lineIn (s : State) (slice set way : Nat) : Option Nat :=
  (s.llc.find? (fun l => l.2.way == way && llcSet l.1 == set && homeSlice (64 * l.1) == slice)).map Prod.fst
def partialIn (s : State) (slice set way : Nat) : Option Nat :=
  (s.reduce.find? (fun r => llcSet r.1 == set && r.2.entries.any (fun e => e.1 == slice && e.2.2 == way))).map Prod.fst

/-- The ways of a slice in which a partition's lines and partials are allocated: its way set on a die where it owns cores, but
for gated ways (R129, R397, R441). -/
def ways (s : State) (slice part : Nat) : List Nat :=
  if (List.range 48).any (fun i => s.partOwns part (slice / 48 * 48 + i)) then
    (List.range 16).filter (fun w => (s.part part).waymask.getLsbD w && !s.gated.contains (slice, w))
  else []

/-- Whether a line cannot leave its home now: an engine owns it or a cross-die atomic holds it. -/
def locked (s : State) (line : Nat) : Bool := engineOwns s line || exclHeld s Config.cores line

/-- Free a way of a set: what stands in it is evicted. -/
def clearWay (s : State) (slice set way : Nat) : State :=
  let s := match lineIn s slice set way with
    | some l => evictHome s l
    | none => s
  match partialIn s slice set way with
  | some l => mergeSome s l (fun x => x == slice)
  | none => s

/-- A way for one more entry of a set: an empty one, else one whose entry is evicted, which of them is not defined; none where
the partition has no way there or every one is locked. DESIGN CHOICE, log 14. -/
def room (s : State) (part slice set : Nat) : Option (Nat × State) :=
  let ws := ways s slice part
  match ws.find? (fun w => (lineIn s slice set w).isNone && (partialIn s slice set w).isNone) with
  | some w => some (w, s)
  | none =>
    let vs := ws.filter (fun w => match lineIn s slice set w with
      | some l => !locked s l
      | none => true)
    (vs[Config.freeChoice s.free % max vs.length 1]?).map (fun w => (w, clearWay s slice set w))

/-- Fill a line into its home slice for a partition; where no way can take it, it passes through. DESIGN CHOICE, log 14. -/
def fill (s : State) (part line : Nat) : State :=
  match s.llc.get? line with
  | some _ => s
  | none =>
    match room s part (homeSlice (64 * line)) (llcSet line) with
    | some (w, s) => setLine s part line w
    | none => s

/-- Write bytes within one line at its home: held there, dirty (R129). -/
def homeWrite (s : State) (part pa : Nat) (b : List Byte) : State :=
  homePut (fill s part (pa / 64)) part (pa / 64) (pa % 64) b true

/-- Write a word at its home, the bytes that a mask names. -/
def homeWriteWord (s : State) (part w : Nat) (x : Word) (mask : BitVec 4) : State :=
  if mask = 0xF then homeWrite s part (4 * w) (toBytes 4 x.toNat)
  else (List.range 4).foldl (fun s i =>
    if mask.getLsbD i then homeWrite s part (4 * w + i) [BitVec.ofNat 8 (x.toNat / 256 ^ i)] else s) s

/-- The home serves a word: its line is merged and the word recalled. -/
def serve (s : State) (w : Nat) : State := recallWord (mergeLine s (w / 16)) w

/-- A registration reaches its home (R132), which holds the line from then on (R130): the line is merged; another owner loses the word, its copy set to I by a store
of all four bytes and its value recalled by a smaller one; the home makes the core the owner and acknowledges the merged
word. -/
def registerNow (s : State) (id : Nat) : State :=
  match s.regs.get? id with
  | none => s
  | some r =>
    if r.acked then s
    else
      let s := s.cross (coreDie r.core) (homeDie (4 * r.word))
      let s := recallWord (mergeLine (fill s r.part (r.word / 16)) (r.word / 16)) r.word |> fun t =>
        match s.owner.get? r.word with
        | some o => if r.mask = 0xF && o != r.core then delL1 t o r.word else t
        | none => t
      { s with
        owner := s.owner.set r.word r.core
        regs := s.regs.set id { r with val := merge (homeWord s r.word) r.val r.mask, acked := true } }

/-- Settle a core's own copy of a word in P: its registration and acknowledgement take place. -/
def settleP (s : State) (c w : Nat) : State :=
  match l1? s c w with
  | some x => if x.st = L1State.P then ackNow (registerNow s x.reg) x.reg else s
  | none => s

/-- Serve every word that n bytes at pa touch. -/
def serveRange (s : State) (pa n : Nat) : State :=
  (List.range ((pa + n + 3) / 4 - pa / 4)).foldl (fun s i => serve s (pa / 4 + i)) s

/-- The latest registered value of a word, without changing anything (R141). -/
def latestWord (s : State) (w : Nat) : Word :=
  match s.owner.get? w with
  | some c =>
    match l1? s c w with
    | some x => if x.st = L1State.P then ((s.regs.get? x.reg).map Registration.val).getD x.val else x.val
    | none => homeWord s w
  | none => match s.reduce.get? (w / 16) with
    | none => homeWord s w
    | some _ => homeWord (mergeLine s (w / 16)) w

/-- The latest registered byte. -/
def latestByte (s : State) (pa : Nat) : Byte := BitVec.ofNat 8 ((latestWord s (pa / 4)).toNat / 256 ^ (pa % 4))

def latestBytes (s : State) (pa n : Nat) : List Byte := (List.range n).map (fun i => latestByte s (pa + i))

def latest8 (s : State) (pa : Nat) : DWord := latestWord s (pa / 4 + 1) ++ latestWord s (pa / 4)

/-- A coherent write by an agent at the home: owners are recalled first (R139). -/
def agentWrite (s : State) (part pa : Nat) (b : List Byte) : State :=
  (List.range b.length).foldl (fun s i =>
    match b[i]? with
    | some x => homeWrite s part (pa + i) [x]
    | none => s) (serveRange s pa b.length)

/-! ### Two-stage translation (R103 to R109) -/

/-- What an access wants of a leaf; `owner` is the translation of R189. -/
inductive Acc where
  | rd | wr | atom | fetch | owner
  deriving DecidableEq, Repr

namespace Acc
def writes (a : Acc) : Bool := a == .wr || a == .atom
def isFetch (a : Acc) : Bool := a == .fetch
end Acc

/-- The syndrome word (Table 04.5). -/
def syndrome (stage level kind : Nat) (a : Acc) : Word :=
  BitVec.ofNat 32 (stage + 4 * level + 16 * kind + (if a.writes then 128 else 0) + (if a.isFetch then 256 else 0))

/-- A translation fault. -/
def xfault (code stage level kind : Nat) (a : Acc) (ea : DWord) (gpa : Nat) : Cause :=
  { code := code, sub := 0, eaddr := ea, syn := syndrome stage level kind a, gpa := BitVec.ofNat 64 gpa }

/-- The fault of Table 04.1. -/
def mapFault (a : Acc) (ea : DWord) : Cause := xfault 0x11 0 0 6 a ea 0

/-- A leaf found by one stage: output address, level, permissions, attribute, page size, and the tables read. -/
structure Leaf where
  pa   : Nat
  lev  : Nat
  rd   : Bool
  wr   : Bool
  ex   : Bool
  unc  : Bool
  size : Nat
  ran  : Bool
  /-- level and host physical address of each table entry read -/
  tabs : List (Nat × Nat)
  deriving DecidableEq, Repr

/-- A bypassed stage. -/
def Leaf.bypass (a : Nat) : Leaf :=
  { pa := a, lev := 0, rd := true, wr := true, ex := true, unc := false, size := 2 ^ 48, ran := false, tabs := [] }

/-- What is wrong with a table entry at a level (R104): kind 0 NV or 1 RSV. -/
def entryFault (e : DWord) (lev : Nat) : Option Nat :=
  let n := e.toNat
  let tb := n.testBit 1
  let c := n.testBit 5
  let adr := n / 4096 % 2 ^ 40
  if !n.testBit 0 then some 0
  else if n / 256 % 16 ≠ 0 || n / 2 ^ 52 % 16 ≠ 0 then some 1
  else if tb then (if c || lev == 3 then some 1 else none)
  else if lev = 0 then some 1
  else if c && lev != 3 then some 1
  else if 2 ≤ n / 64 % 4 then some 1
  else if lev = 1 && adr % 2 ^ 18 ≠ 0 then some 1
  else if lev = 2 && adr % 2 ^ 9 ≠ 0 then some 1
  else none

def entryAddr (e : DWord) : Nat := e.toNat / 4096 % 2 ^ 40 * 4096

/-- The leaf of an entry for an input address. For a 64 KiB page whose sixteen entries disagree, one of them translates
(R112); `group` gives the sixteen. The chosen entry's ADDR, rounded down to 64 KiB, is the page's address, whatever its V and C.
DESIGN CHOICE, log 30. -/
def leafOf (s : State) (group : Nat → DWord) (e : DWord) (lev a : Nat) : Leaf :=
  let n := e.toNat
  let mk (e : DWord) (base size : Nat) : Leaf :=
    let n := e.toNat
    { pa := base + a % size, lev := lev, rd := n.testBit 2, wr := n.testBit 3, ex := n.testBit 4, unc := n / 64 % 4 == 1
      size := size, ran := true, tabs := [] }
  if n.testBit 5 then
    let e0 := group 0
    let base := entryAddr e0
    let attrs (x : DWord) : Nat := x.toNat % 4096
    let ok := base % 65536 == 0 && (List.range 16).all (fun i =>
      attrs (group i) == attrs e && entryAddr (group i) == base + 4096 * i)
    if ok then mk e base 65536
    else
      let x := group (Config.freeChoice s.free % 16)
      mk x (entryAddr x / 65536 * 65536) 65536
  else mk e (entryAddr e) (if lev = 1 then 2 ^ 30 else if lev = 2 then 2 ^ 21 else 4096)

/-- The index of a level. -/
def tableIndex (a lev : Nat) : Nat := a / 2 ^ (39 - 9 * lev) % 512

/-- A table entry as a walk reads it: at levels 0 to 2 from its walker's cache, if that holds it (R110). Which of the 64 walkers
makes a walk is not defined. DEDUCED, log 8. -/
def tableEntry (s : State) (lev a : Nat) : DWord :=
  if lev = 3 || s.walkers.isEmpty then latest8 s a
  else match s.walkers.find? (fun e => e.walker == Config.freeChoice s.free % 64 && e.addr == a) with
    | some e => e.entry
    | none => latest8 s a

/-- Stage 2 from level `lev` on: the level and kind of a failure, or the leaf. -/
def walk2 (s : State) (a : Nat) : List Nat → Nat → Except (Nat × Nat) Leaf
  | [], _ => .error (3, 1)
  | lev :: rest, t =>
    let i := tableIndex a lev
    let e := tableEntry s lev (t + 8 * i)
    match entryFault e lev with
    | some k => .error (lev, k)
    | none =>
      if e.toNat.testBit 1 then
        match walk2 s a rest (entryAddr e) with
        | .ok l => .ok { l with tabs := (lev, t + 8 * i) :: l.tabs }
        | .error x => .error x
      else .ok { leafOf s (fun j => latest8 s (t + 8 * (i / 16 * 16 + j))) e lev a with tabs := [(lev, t + 8 * i)] }

/-- The root's base and whether it is enabled (Table 04.3). -/
def rootBase (r : BitVec 64) : Nat := r.toNat / 4096 % 2 ^ 40 * 4096

/-- Stage 2 of a guest physical address for a partition (R105, R106). Outside partition 0, EN = 0 raises PAGE at STAGE 2, LEVEL 0,
KIND NV, with the guest physical address that stage 2 was given. DESIGN CHOICE, log 99. -/
def stage2 (s : State) (p : Nat) (acc : Acc) (ea : DWord) (a : Nat) : Except Cause Leaf :=
  let r := (s.part p).s2root
  if !r.getLsbD 0 then
    if p = 0 then .ok (Leaf.bypass a) else .error (xfault 0x10 2 0 0 acc ea a)
  else if 2 ^ 48 ≤ a then .error (xfault 0x11 2 0 3 acc ea a)
  else match walk2 s a [0, 1, 2, 3] (rootBase r) with
    | .ok l => .ok l
    | .error (lev, k) => .error (xfault 0x10 2 lev k acc ea a)

/-- Stage 1 from level `lev` on: every table read is translated by stage 2. -/
def walk1 (s : State) (p : Nat) (acc : Acc) (ea : DWord) (a : Nat) : List Nat → Nat → Except Cause Leaf
  | [], _ => .error (xfault 0x10 1 3 1 acc ea 0)
  | lev :: rest, t =>
    let i := tableIndex a lev
    match stage2 s p acc ea (t + 8 * i) with
    | .error c => .error c
    | .ok l2 =>
      let e := tableEntry s lev l2.pa
      match entryFault e lev with
      | some k => .error (xfault 0x10 1 lev k acc ea 0)
      | none =>
        if e.toNat.testBit 1 then
          match walk1 s p acc ea a rest (entryAddr e) with
          | .ok l => .ok { l with tabs := l2.tabs ++ (lev, l2.pa) :: l.tabs }
          | .error x => .error x
        else
          let base := l2.pa - l2.pa % 128
          .ok { leafOf s (fun j => latest8 s (base + 8 * j)) e lev a with tabs := l2.tabs ++ [(lev, l2.pa)] }

/-- Whether a leaf grants an access (R107). -/
def grants (l : Leaf) (a : Acc) : Bool :=
  match a with
  | .rd => l.rd
  | .wr => l.wr
  | .atom => l.rd && l.wr
  | .fetch => l.ex
  | .owner => true

/-- A translated access. -/
structure Phys where
  pa   : Nat
  unc  : Bool
  /-- it waits for a scrub or a flush -/
  wait : Bool
  /-- it came through a stale cached translation for a region whose owner changed (R115) -/
  stale : Bool
  /-- the table entries that its walk read -/
  tabs : List (Nat × Nat)
  /-- the translation to be cached, from a walk or from the die's TLB (R110) -/
  entry : Option TlbEntry
  deriving DecidableEq, Repr

/-- Both walks of one global address, without the checks of its final address. DEDUCED, log 8. -/
def walk (s : State) (ctx va : Nat) (acc : Acc) (ea : DWord) : Except Cause (Leaf × Leaf) :=
  let p := s.ctxPart ctx
  let r := ((s.ctxs.get? ctx).map Ctx.s1root).getD 0
  let l1 := if r.getLsbD 0 then walk1 s p acc ea va [0, 1, 2, 3] (rootBase r) else .ok (Leaf.bypass va)
  match l1 with
  | .error c => .error c
  | .ok l1 =>
    match stage2 s p acc ea l1.pa with
    | .error c => .error c
    | .ok l2 => .ok (l1, l2)

/-- The checks of the final address, after both walks (R107, R114, R124), and the loss of its die, which finding an owner does
not ask for (R189, R424). DEDUCED, log 85. -/
def finalCheck (s : State) (p pa : Nat) (stage lev : Nat) (acc : Acc) (ea : DWord) (gpa : Nat) : Option Cause :=
  let g := if stage = 2 then gpa else 0
  if !(isDram pa || isView pa || isHost pa) then some (xfault 0x11 stage lev 3 acc ea g)
  else if isView pa && (fmtwOf s pa).isNone then some (xfault 0x11 stage lev 5 acc ea g)
  else if !regionOk s p pa then some (xfault 0x11 stage lev 4 acc ea g)
  else if acc != Acc.owner && s.lost.contains (homeDie pa) then some { code := 0x50, sub := 0, eaddr := ea, syn := 0, gpa := 0 }
  else none

/-! ### Cached translations (R110, R111) -/

/-- The translation that a walk gives, as it is cached: the smaller page, the permissions of both leaves, and the owner check. -/
def entryOf (s : State) (ctx va : Nat) (l1 l2 : Leaf) : TlbEntry :=
  let size := min l1.size l2.size
  { ctx := ctx, base := va / size * size, size := size, pa := l2.pa - va % size, rd := l1.rd && l2.rd, wr := l1.wr && l2.wr
    ex := l1.ex && l2.ex, unc := l1.unc || l2.unc, lvl1 := l1.lev, lvl2 := l2.lev, okOwn := regionOk s (s.ctxPart ctx) l2.pa }

/-- Whether a cached translation grants an access. The address that it gives must pass the checks that do not look at its region,
for a page may reach further than its kind of memory and a window may have gone (R107, R124). -/
def covers (s : State) (e : TlbEntry) (ctx va : Nat) (acc : Acc) : Bool :=
  e.ctx == ctx && decide (e.base ≤ va) && decide (va < e.base + e.size) && e.okOwn && (match acc with
    | .rd => e.rd
    | .wr => e.wr
    | .atom => e.rd && e.wr
    | .fetch => e.ex
    | .owner => true)
  && (finalCheck s (if isView (e.pa + (va - e.base)) then s.ctxPart ctx else 0) (e.pa + (va - e.base)) 0 0 acc 0 0).isNone

/-- The TLB of a core, and the shared TLB of its die; an agent at the hub is no core and has none. -/
def coreHit (s : State) (core ctx va : Nat) (acc : Acc) : Option TlbEntry := (s.core core).tlb.find? (fun e => covers s e ctx va acc)
def dieHit (s : State) (core ctx va : Nat) (acc : Acc) : Option TlbEntry :=
  (s.dieTlb.getD (coreDie core) []).find? (fun e => covers s e ctx va acc)

/-- A TLB of some entries takes one more; which entry a full one gives up is not defined. DESIGN CHOICE, log 14. -/
def learn (free cap : Nat) (l : List TlbEntry) (e : TlbEntry) : List TlbEntry :=
  let l := l.filter (fun x => !(x.ctx == e.ctx && x.base == e.base && x.size == e.size))
  e :: (if l.length < cap then l else l.eraseIdx (Config.freeChoice free % l.length))

/-- Install a translation in a core's TLB of 2,048 entries, and in a die's of 65,536 (R110). -/
def learnCore (s : State) (core : Nat) (e : TlbEntry) : State :=
  if core < Config.cores then s.modCore core (fun k => { k with tlb := learn s.free 2048 k.tlb e }) else s
def learnDie (s : State) (core : Nat) (e : TlbEntry) : State :=
  if core < Config.cores then
    { s with dieTlb := s.dieTlb.set (coreDie core) (learn s.free 65536 (s.dieTlb.getD (coreDie core) []) e) }
  else s

/-- The access that a cached translation gives; a region whose owner has changed since makes it stale (R115). -/
def byEntry (s : State) (p : Nat) (e : TlbEntry) (va : Nat) (add : Option TlbEntry) : Phys :=
  let pa := e.pa + (va - e.base)
  { pa := pa, unc := e.unc, wait := mustWait s pa, stale := !regionOk s p pa, tabs := [], entry := add }

/-- Translate a global address for an access from a core: by its TLB, by its die's, else by the tables (R110).
DEDUCED, log 8. -/
def translate (s : State) (core ctx va : Nat) (acc : Acc) (ea : DWord) : Except Cause Phys :=
  let p := s.ctxPart ctx
  match coreHit s core ctx va acc with
  | some e => .ok (byEntry s p e va none)
  | none =>
    match dieHit s core ctx va acc with
    | some e => .ok (byEntry s p e va (some e))
    | none =>
      match walk s ctx va acc ea with
      | .error c => .error c
      | .ok (l1, l2) =>
        if !grants l1 acc then .error (xfault 0x11 1 l1.lev 2 acc ea 0)
        else if !grants l2 acc then .error (xfault 0x11 2 l2.lev 2 acc ea l1.pa)
        else
          let st := if l2.ran then (2, l2.lev) else if l1.ran then (1, l1.lev) else (0, 0)
          match finalCheck s p l2.pa st.1 st.2 acc ea l1.pa with
          | some c => .error c
          | none =>
            .ok { pa := l2.pa, unc := l1.unc || l2.unc, wait := mustWait s l2.pa, stale := false
                  tabs := l1.tabs ++ l2.tabs, entry := some (entryOf s ctx va l1 l2) }

/-- Translate a guest physical address through the partition's stage 2 alone, as the telemetry writer does (R433). -/
def translate2 (s : State) (p gpa : Nat) (acc : Acc) : Option Leaf :=
  match stage2 s p acc 0 gpa with
  | .error _ => none
  | .ok l => if grants l acc && (finalCheck s p l.pa 2 l.lev acc 0 gpa).isNone then some l else none

/-- The dies that an access of a context has reached (R423); host memory adds no bit (chapter 16). DEDUCED, log 63. -/
def touchPas (s : State) (ctx : Nat) (pas : List Nat) : State :=
  pas.foldl (fun s pa => if isHost pa then s else s.touch ctx (homeDie pa)) s

/-- The stage-2 tables that a walk reads, up to its leaf or its fault. -/
def tables2 (s : State) (a : Nat) : List Nat → Nat → List (Nat × Nat)
  | [], _ => []
  | lev :: rest, t =>
    let e := tableEntry s lev (t + 8 * tableIndex a lev)
    (lev, t + 8 * tableIndex a lev) ::
      (if (entryFault e lev).isNone && e.toNat.testBit 1 then tables2 s a rest (entryAddr e) else [])

def stage2Tables (s : State) (p a : Nat) : List (Nat × Nat) :=
  let r := (s.part p).s2root
  if r.getLsbD 0 && decide (a < 2 ^ 48) then tables2 s a [0, 1, 2, 3] (rootBase r) else []

/-- The tables of both stages that a stage-1 walk reads, up to its leaf or its fault. -/
def tables1 (s : State) (p a : Nat) : List Nat → Nat → List (Nat × Nat)
  | [], _ => []
  | lev :: rest, t =>
    let g := t + 8 * tableIndex a lev
    stage2Tables s p g ++ (match stage2 s p .owner 0 g with
      | .error _ => []
      | .ok l2 =>
        let e := tableEntry s lev l2.pa
        (lev, l2.pa) :: (if (entryFault e lev).isNone && e.toNat.testBit 1 then tables1 s p a rest (entryAddr e) else []))

/-- The tables that a walk for a global address reads, whether it faults or not (R423). DEDUCED, log 86. -/
def walkTables (s : State) (ctx va : Nat) : List (Nat × Nat) :=
  let p := s.ctxPart ctx
  let r := ((s.ctxs.get? ctx).map Ctx.s1root).getD 0
  if !r.getLsbD 0 then stage2Tables s p va
  else tables1 s p va [0, 1, 2, 3] (rootBase r) ++ (match walk1 s p .owner 0 va [0, 1, 2, 3] (rootBase r) with
    | .ok l => stage2Tables s p l.pa
    | .error _ => [])

/-- The page of an address, as walks in flight are named. -/
def page (va : Nat) : Nat := va / 4096 * 4096

/-- Whether a table entry cannot be read now: its line is owned by an engine or held exclusively, or not yet zero-filled (R116, R140,
R150). -/
def heldBack (s : State) (pa : Nat) : Bool := engineOwns s (pa / 64) || exclHeld s Config.cores (pa / 64) || mustWait s pa

/-- Whether an access has to wait for a walk (R110): no TLB grants it, and a walk for its page is in flight, the 64 walkers are busy,
or a table entry of its own walk cannot be read yet. -/
def walking (s : State) (core ctx va : Nat) (acc : Acc) : Bool :=
  (coreHit s core ctx va acc).isNone && (dieHit s core ctx va acc).isNone
    && (s.walks.any (fun w => w.ctx == ctx && w.page == page va) || decide (64 ≤ s.walks.length)
      || (walkTables s ctx va).any (fun x => heldBack s x.2))

/-- A walker has read table entries: each is a coherent read at its home (R106, R141), reaches its die (R423), and is cached at levels
0 to 2, 4,096 entries in all (R110). -/
def readTables (s : State) (ctx : Nat) (tabs : List (Nat × Nat)) : State :=
  let s := touchPas (tabs.foldl (fun s x => serveRange s x.2 8) s) ctx (tabs.map Prod.snd)
  let w := Config.freeChoice s.free % 64
  let keep := tabs.filter (fun x => decide (x.1 < 3))
  if keep.isEmpty then s
  else { s with walkers := ((keep.map (fun x => { walker := w, addr := x.2, entry := tableEntry s x.1 x.2 : WalkerEntry }))
      ++ s.walkers.filter (fun e => !(e.walker == w && keep.any (fun x => x.2 == e.addr)))).take 4096 }

/-- An access has used a translation: its die is reached (R423); a walk is counted (R455) and has read its tables; and what the core's
TLB lacked is cached in it, and in its die's (R110). -/
def translated (s : State) (core ctx : Nat) (q : Phys) : State :=
  let s := touchPas s ctx [q.pa]
  match q.entry with
  | none => s
  | some e =>
    if (s.core core).tlb.contains e then s
    else if (s.dieTlb.getD (coreDie core) []).contains e then learnCore s core e
    else learnCore (learnDie (readTables (s.countHub 0x102 (s.ctxPart ctx) 1) ctx q.tabs) core e) core e

/-- A walk of a thread that faults has reached its tables (R423). DEDUCED, log 86. -/
def faultWalk (s : State) (tid : Nat) (c : Cause) : State :=
  if (c.code = 0x10 || c.code = 0x11) && c.syn.extractLsb' 0 2 != 0 then
    readTables (s.countHub 0x102 (s.ctxPart (s.ctxOf tid)) 1) (s.ctxOf tid) (walkTables s (s.ctxOf tid) c.eaddr.toNat)
  else s

/-- Traps of accesses, with the walks of those that fault. -/
def takeFaults (s : State) (trs : List (Nat × Trap)) : State :=
  Ops.takeTraps (trs.foldl (fun s x => match x.2 with
    | .fault c => faultWalk s x.1 c
    | _ => s) s) trs

/-! ### The scratchpad and the vaults -/

/-- What an unwritten scratchpad byte reads as: a free value in an allocation of the same context (R186), else 0 (R185). -/
def spadDefault (k : Core) (o : Nat) : Byte :=
  match k.spadUndef.find? (fun r => decide (r.1 ≤ o) && decide (o < r.1 + r.2.1)) with
  | some r => Config.freeByte (r.2.2 + (o - r.1))
  | none => 0

def spadUndefined (k : Core) (o : Nat) : Bool :=
  k.spadUndef.any (fun r => decide (r.1 ≤ o) && decide (o < r.1 + r.2.1))

def spadByte (k : Core) (o : Nat) : Byte :=
  match k.spad.get? o with
  | some b => b
  | none => spadDefault k o

/-- Write one scratchpad byte; a zero where zero is the default is not listed. -/
def spadPut (k : Core) (o : Nat) (b : Byte) : Core :=
  { k with spad := if spadUndefined k o then k.spad.set o b else Tab.put 0 k.spad o b }

/-- Write bytes; whole words lose their poison. -/
def spadWrite (s : State) (c o : Nat) (b : List Byte) : State :=
  s.modCore c (fun k =>
    let k := (List.range b.length).foldl (fun k i =>
      match b[i]? with
      | some x => spadPut k (o + i) x
      | none => k) k
    if k.spoison.isEmpty then k
    else { k with spoison := k.spoison.filter (fun w => !(decide (o ≤ 4 * w) && decide (4 * w + 4 ≤ o + b.length))) })

def spadBytes (s : State) (c o n : Nat) : List Byte := (List.range n).map (fun i => spadByte (s.core c) (o + i))

/-- The absent 128-byte lines that n bytes touch (R166). -/
def absentLines (s : State) (c o n : Nat) : List (Nat × Nat) :=
  ((List.range ((o + n + 127) / 128 - o / 128)).filter (fun i => (s.core c).absent.contains (o / 128 + i))).map (fun i => (c, o / 128 + i))

/-- Whether a line that n bytes touch is absent. -/
def spadAbsent (s : State) (c o n : Nat) : Bool := !(absentLines s c o n).isEmpty

/-! ### One access of one lane -/

/-- Where an access is performed (Table 05.13). -/
inductive Target where
  | cached (pa : Nat)
  | port (pa : Nat)
  | host (pa : Nat)
  | spad (core off : Nat)
  | vault (a : Nat)
  deriving DecidableEq, Repr

/-- The die that performs an access made away from the L1s: cached memory at its home, a port, a scratchpad, a vault; the host's lie
beyond the hub. -/
def Target.die (t : Target) : Nat :=
  match t with
  | .cached pa => homeDie pa
  | .port pa => homeDie pa
  | .host _ => 20
  | .spad k _ => coreDie k
  | .vault a => coreDie (a / 0x800000)

/-- A checked access of a lane. -/
structure Access where
  ea    : DWord
  tgt   : Target
  /-- the whole instruction waits: a scrub, a flush, a line that an engine holds, or an earlier access of the thread -/
  wait  : Bool
  /-- it waits for a walk: neither its fault nor its place is known yet -/
  walk  : Bool
  /-- the absent scratchpad lines on which the lane parks -/
  park  : List (Nat × Nat)
  stale : Bool
  /-- the translation that it uses -/
  phys  : Option Phys
  deriving DecidableEq, Repr

/-- Atomics that host memory accepts (Table 05.13). -/
def hostAtom (red : Bool) (op : Nat) : Bool := if red then op == 0 || op == 1 else op == 0 || op == 9 || op == 10

/-- Whether an earlier access of the thread to a word of cached memory is still to be performed: a load that has not returned,
an atomic that has not executed or a `red` that has not been accepted. A later access to the word takes its place in program
order after it (R54, R145, R147, R466). DEDUCED, log 93. -/
def behind (s : State) (tid : Nat) (t : Thread) (pa n : Nat) : Bool :=
  let hit (w k : Nat) : Bool := decide (w < (pa + n + 3) / 4) && decide (pa / 4 < w + k)
  t.longs.any (fun o => o.parts.any (fun p => p.val.isNone && hit p.word 1))
    || s.excl.any (fun e => e.2.tid == tid && hit (e.2.addr / 4) (if e.2.w64 then 2 else 1))
    || s.reds.any (fun r => r.2.tid == tid && hit r.2.word (if r.2.op = 1 then 2 else 1))

/-- An access with no translation to make: the scratchpad waits for its core to wake (R383), and an absent line parks the lane
(R166). -/
def Access.plain (ea : DWord) (tgt : Target) (wait : Bool) (park : List (Nat × Nat)) : Access :=
  { ea := ea, tgt := tgt, wait := wait, walk := false, park := park, stale := false, phys := none }

/-- A request to the scratchpad of a core in retention wakes it (R383). -/
def ask (s : State) (c : Nat) : State := if (s.core c).ret == Retention.awake then s else s.modCore c (fun k => { k with asked := true })
def askFor (s : State) (a : Access) : State :=
  match a.tgt with
  | .spad c _ => ask s c
  | _ => s

/-- The checks 1 to 4 of R152 for one lane: map, alignment, translation, operation. `aop` is an atomic's operation, with
whether it is a `red`. Atomics of host memory are performed by the host, whatever the page's ATTR (Table 05.13). -/
def check (s : State) (tid : Nat) (t : Thread) (ea : DWord) (n : Nat) (acc : Acc) (aop : Option (Bool × Nat)) :
    Except Cause Access :=
  match classify s tid t ea n false with
  | none => .error (mapFault acc ea)
  | some pl =>
    if ea.toNat % n ≠ 0 then .error { code := 0x12, sub := 0, eaddr := ea, syn := 0, gpa := 0 }
    else match pl with
      | .spad c o => .ok (Access.plain ea (.spad c o) ((s.core c).ret != Retention.awake) (absentLines s c o n))
      | .vault a => .ok (Access.plain ea (.vault a) false [])
      | .glob va =>
        let core := coreOf tid t
        if walking s core (s.ctxOf tid) va acc then
          .ok { ea := ea, tgt := .port 0, wait := true, walk := true, park := [], stale := false, phys := none }
        else match translate s core (s.ctxOf tid) va acc ea with
        | .error c => .error c
        | .ok p =>
          let bad : Bool := match aop with
            | some (red, op) => isHost p.pa && !hostAtom red op
            | none => false
          if bad then .error { code := 0x14, sub := 0, eaddr := ea, syn := 0, gpa := 0 }
          else
            let tgt : Target :=
              if isHost p.pa && (p.unc || aop.isSome) then .host p.pa else if p.unc then .port p.pa else .cached p.pa
            .ok { ea := ea, tgt := tgt
                  wait := p.wait || (if p.unc then engineHolds s (p.pa / 64) else behind s tid t p.pa n)
                  walk := false, park := [], stale := p.stale, phys := some p }

/-- The bytes at a place other than cached memory, or the latest registered ones of cached memory. -/
def readAt (s : State) (tgt : Target) (n : Nat) : List Byte :=
  match tgt with
  | .cached pa => latestBytes s pa n
  | .port pa => (List.range n).map (fun i => homeByte s (pa + i))
  | .host pa => bytes s.mem pa n
  | .spad c o => spadBytes s c o n
  | .vault a => bytes s.vault a n

/-- Write bytes at a place that performs its own accesses, or at the home of cached memory. Nothing is written through a
stale translation (R115). Each place performs an access when it is made, and so never reorders two of one thread, which R138 would
leave unordered where they target different words. DESIGN CHOICE, log 100. -/
def writeAt (s : State) (part : Nat) (stale : Bool) (tgt : Target) (b : List Byte) : State :=
  if stale then s else
  match tgt with
  | .cached pa => agentWrite s part pa b
  | .port pa =>
    let held := (s.llc.get? (pa / 64)).isSome
    let s := homePut s part (pa / 64) (pa % 64) b true
    if held then writeBack s (pa / 64) else s
  | .host pa => { s with mem := Memory.writeAll s.mem pa b }
  | .spad c o => spadWrite s c o b
  | .vault a => { s with vault := Memory.writeAll s.vault a b }

/-- Whether a read of n bytes at a place finds poison (R122, R152). -/
def poisoned (s : State) (c : Nat) (a : Access) (n : Nat) : Bool :=
  a.stale || (match a.tgt with
    | .cached pa => (List.range ((pa + n + 3) / 4 - pa / 4)).any (fun i =>
        match l1? s c (pa / 4 + i) with
        | some x => x.poison
        | none => linePoisoned s (pa / 64))
    | .port pa => linePoisoned s (pa / 64)
    | .host _ => false
    | .spad k o => (List.range ((o + n + 3) / 4 - o / 4)).any (fun i => (s.core k).spoison.contains (o / 4 + i))
    | .vault _ => false)

/-! ### Loads of cached memory -/

/-- What a thread's L1 gives for the bytes of a word that a mask names: a value, a wait for another thread's registration, or
a miss (R133). -/
inductive L1Read where
  | hit (v : Word) | wait | miss
  deriving DecidableEq, Repr

def l1Read (s : State) (c tid w : Nat) (mask : BitVec 4) : L1Read :=
  match l1? s c w with
  | none => .miss
  | some x =>
    if x.st = L1State.P then
      if x.writers = [tid] && x.mask &&& mask == mask then .hit x.val else .wait
    else .hit x.val

/-- The mask of bytes o to o + n − 1 within a word. -/
def byteMask (o n : Nat) : BitVec 4 := BitVec.ofNat 4 ((2 ^ n - 1) * 2 ^ o)

/-! ### The sets of an L1 (R127) -/

/-- The lines of an L1 that stand in the set of a line, 128 sets by host physical bits [12:6]. -/
def l1Set (s : State) (c line : Nat) : NSet :=
  NSet.addAll [] (((s.core c).l1.keys.map (· / 16)).filter (fun l => l % 128 == line % 128))

/-- Whether a line can leave an L1: no cross-die atomic holds it there, and its words in P can be acknowledged (R134, R150). -/
def l1Free (s : State) (c line : Nat) : Bool :=
  holder s line != some c && !s.excl.any (fun e => e.2.line == line && e.2.core == c && e.2.st == ExclState.held)
    && ((List.range 16).all (fun i => !inP s c (16 * line + i)) || (!engineHolds s line && !exclHeld s c line))

/-- Evict a line from an L1 (R134): words in P are acknowledged first, O words go home, S words are dropped. -/
def l1Evict (s : State) (c line : Nat) : State :=
  (List.range 16).foldl (fun s i =>
    let w := 16 * line + i
    let s := settleP s c w
    let s := if s.owner.get? w = some c then recallWord s w else s
    delL1 s c w) s

/-- Whether an L1 of 16 ways can take a line, and room made for it: which line a full set gives up is not defined.
DESIGN CHOICE, log 14. -/
def l1Room (s : State) (c line : Nat) : Bool :=
  let l := l1Set s c line
  l.contains line || decide (l.length < 16) || l.any (l1Free s c)
def l1Make (s : State) (c line : Nat) : State :=
  let l := l1Set s c line
  if l.contains line || decide (l.length < 16) then s
  else
    let vs := l.filter (l1Free s c)
    match vs[Config.freeChoice s.free % max vs.length 1]? with
    | some v => l1Evict s c v
    | none => s

/-- Install a line after a read at its home (R133): words that no core owns become S copies; words this core holds in P or O
stay. -/
def install (s : State) (c line : Nat) : State :=
  let s := l1Make s c line
  let p := linePoisoned s line
  (List.range 16).foldl (fun s i =>
    let w := 16 * line + i
    let keep : Bool := match l1? s c w with
      | some x => x.st != L1State.S
      | none => false
    if keep || (s.owner.get? w).isSome then s
    else setL1 s c w { st := .S, val := homeWord s w, mask := 0xF, writers := [], reg := 0, poison := p }) s

/-- Read a word at its home for a core (R133, HOME_READ): merge, recall, fill, install. -/
def readHome (s : State) (c part w : Nat) : Word × State :=
  let s := fill (serve (s.cross (coreDie c) (homeDie (4 * w))) w) part (w / 16)
  let v := homeWord s w
  (v, install s c (w / 16))

/-- Whether the home can serve a word to a core now. -/
def servable (s : State) (c w : Nat) : Bool :=
  !engineOwns s (w / 16) && !exclHeld s c (w / 16) && l1Room s c (w / 16)

/-! ### Stores to cached memory (R132) -/

/-- Whether a word can take a new store of a core: an earlier registration of it that is in flight can reach its home, and the L1
has room for its line. -/
def storable (s : State) (c w : Nat) : Bool :=
  (!inP s c w || (!engineHolds s (w / 16) && !exclHeld s c (w / 16))) && l1Room s c (w / 16)

/-- Store bytes of a word into the core's L1: the word enters P and its registration leaves for the home. A word that the
core owned is written home first, so that P holds the stored bytes alone. -/
def storeWord (s : State) (c part : Nat) (tids : NSet) (w : Nat) (x : Word) (mask : BitVec 4) : State :=
  let s := settleP s c w
  let s := match l1? s c w with
    | some y => if y.st = L1State.O then recallWord s w else s
    | none => s
  let s := l1Make s c (w / 16)
  let id := s.nextId
  let s := setL1 { s with nextId := id + 1 } c w
    { st := .P, val := x, mask := mask, writers := tids, reg := id, poison := false }
  let r : Registration := { core := c, tids := tids, part := part, word := w, val := x, mask := mask, acked := false }
  { s with regs := s.regs.set id r }

/-! ### A core's own copies before an operation at the home (R466) -/

/-- Words in P are acknowledged, owned words are written back, and every one is set to I. -/
def dropOwn (s : State) (c pa n : Nat) : State :=
  (List.range ((pa + n + 3) / 4 - pa / 4)).foldl (fun s i =>
    let w := pa / 4 + i
    let s := settleP s c w
    let s := if s.owner.get? w = some c then recallWord s w else s
    delL1 s c w) s

/-! ### Owners of addresses (Table 07.1) -/

/-- The owner core of an address, or the fault that finding it raises (R188, R189). -/
def ownerOf (s : State) (tid : Nat) (t : Thread) (ea : DWord) (acc : Acc) : Except Cause (Nat × Place × Option Phys) :=
  match classify s tid t ea 1 true with
  | none => .error (mapFault acc ea)
  | some (.spad c o) =>
    let own := decide (ea.toNat < 0xFF0100000000)
    .ok (if own then coreOf tid t else c, .spad c o, none)
  | some (.vault a) => .ok (a / 0x800000, .vault a, none)
  | some (.glob va) =>
    match translate s (coreOf tid t) (s.ctxOf tid) va .owner ea with
    | .error c => .error c
    | .ok p => .ok (homeSlice p.pa, .glob va, some p)

/-- Whether finding the owner of an address has to wait for a walk (R110). -/
def ownerWalks (s : State) (tid : Nat) (t : Thread) (ea : DWord) : Bool :=
  match classify s tid t ea 1 true with
  | some (.glob va) => walking s (coreOf tid t) (s.ctxOf tid) va .owner
  | _ => false

/-- Finding an owner has used a translation (R110, R423). -/
def foundOwner (s : State) (tid : Nat) (t : Thread) (q : Option Phys) : State :=
  match q with
  | some q => translated s (coreOf tid t) (s.ctxOf tid) q
  | none => s

end Mem

end Sys2Proof.Machine
end

