-- ==== Sys2Proof/Machine/Engine.lean ====
section
/-! DEFINITION. Engines as caching agents: the places of a command's ranges, the ownership step, reading and writing, and the
release of lines (R139 to R141, R174). -/

namespace Sys2Proof.Machine

open Sys2Proof

namespace Engine

/-- The place of n bytes for an engine command of a team. -/
def place (s : State) (tm : Team) (ea : DWord) (n : Nat) : Option Mem.Place :=
  Mem.classifyFor s tm (some tm) (some (coreDie tm.core)) ea n

/-- A place some bytes further on. -/
def shift (p : Mem.Place) (k : Nat) : Mem.Place :=
  match p with
  | .glob a => .glob (a + k)
  | .spad c o => .spad c (o + k)
  | .vault a => .vault (a + k)

/-- Cut n bytes from a into pieces that do not cross a boundary of g: offset from a, and length. -/
def pieces (g a : Nat) : Nat → Nat → Nat → List (Nat × Nat)
  | 0, _, _ => []
  | fuel + 1, off, n =>
    if n = 0 then []
    else
      let k := min n (g - (a + off) % g)
      (off, k) :: pieces g a fuel (off + k) (n - k)

/-- The position that decides a place's lines, and their size. -/
def position (p : Mem.Place) : Nat :=
  match p with
  | .glob a => a
  | .spad _ o => o
  | .vault a => a

/-- The pieces of n bytes at a place, each within one line. -/
def linePieces (p : Mem.Place) (n : Nat) : List (Nat × Nat) := pieces 64 (position p) (n / 64 + 2) 0 n

/-- The physical lines of n bytes at a place, where they translate (R139). An agent translates by the TLBs of the core it works for, or
by the walkers (R110); 192 stands for an agent of the hub or of an Orangery die. DEDUCED, log 8. -/
def lines (s : State) (core ctx : Nat) (p : Mem.Place) (n : Nat) (acc : Mem.Acc) : NSet :=
  match p with
  | .glob a =>
    (linePieces p n).foldl (fun l x =>
      match Mem.translate s core ctx (a + x.1) acc 0 with
      | .ok q => NSet.add l (q.pa / 64)
      | .error _ => l) []
  | _ => []

/-- Whether an agent has to wait for a walk before it knows these lines (R110). -/
def walks (s : State) (core ctx : Nat) (p : Mem.Place) (n : Nat) (acc : Mem.Acc) : Bool :=
  match p with
  | .glob a => (linePieces p n).any (fun x => Mem.walking s core ctx (a + x.1) acc)
  | _ => false

/-- An agent has used the translations of n bytes: their dies join the touched dies (R300, R423). -/
def use (s : State) (core ctx : Nat) (p : Mem.Place) (n : Nat) (acc : Mem.Acc) : State :=
  match p with
  | .glob a =>
    (linePieces p n).foldl (fun s x =>
      match Mem.translate s core ctx (a + x.1) acc 0 with
      | .ok q => Mem.translated s core ctx q
      | .error _ => s) s
  | _ => s

/-- Whether a line is held against an agent: a command other than its own owns it, or pins it against a write, or a cross-die atomic
holds it (R139, R140, R150). -/
def busy (s : State) (cmd : Option Nat) (line : Nat) (wr : Bool) : Bool :=
  s.holds.any (fun h => some h.cmd != cmd && (h.own.contains line || (wr && h.pin.contains line))) || Mem.exclHeld s Config.cores line

/-- Whether an agent's access to n bytes has to wait: for a walk, a zero fill or a flush, or a line that is held against it (R110,
R116, R124, R140), or for the scratchpad's core to wake (R383). -/
def blocked (s : State) (core ctx : Nat) (cmd : Option Nat) (p : Mem.Place) (n : Nat) (wr : Bool) : Bool :=
  match p with
  | .glob a => (linePieces p n).any (fun x =>
      let acc : Mem.Acc := if wr then .wr else .rd
      Mem.walking s core ctx (a + x.1) acc || (match Mem.translate s core ctx (a + x.1) acc 0 with
        | .ok q => q.wait || busy s cmd (q.pa / 64) wr
        | .error _ => false))
  | .spad c _ => (s.core c).ret != Retention.awake
  | .vault _ => false

/-- A request to the scratchpad of a core in retention wakes it (R383). -/
def ask (s : State) (p : Mem.Place) : State :=
  match p with
  | .spad c _ => Mem.ask s c
  | _ => s

/-- Whether a command can make its ownership step: no other command owns a line it needs, nor pins one it will write, no
cross-die atomic holds one, and none lies in a region being scrubbed or a window being flushed (R116, R124). -/
def canHold (s : State) (own pin : NSet) : Bool :=
  (own ++ pin).all (fun l => !Mem.engineOwns s l && !Mem.exclHeld s Config.cores l && !Mem.mustWait s (64 * l))
    && own.all (fun l => !Mem.engineHolds s l)

/-- The ownership step (R139): core owners are recalled, the issuing core's own copies of the destination lines are set to I
(R466), and the lines are held, the destination lines by their homes (R130). -/
def hold (s : State) (cmd core part : Nat) (own pin : NSet) : State :=
  let s := own.foldl (fun s l => Mem.fill (Mem.serveRange (Mem.dropOwn s core (64 * l) 64) (64 * l) 64) part l) s
  let s := pin.foldl (fun s l => Mem.serveRange s (64 * l) 64) s
  if own.isEmpty && pin.isEmpty then s else { s with holds := s.holds ++ [{ cmd := cmd, own := own, pin := pin }] }

/-- A command keeps only some of its lines. -/
def keepHold (s : State) (cmd : Nat) (own pin : NSet) : State :=
  { s with holds := s.holds.map (fun h => if h.cmd = cmd then
      { h with own := h.own.filter (fun l => own.contains l), pin := h.pin.filter (fun l => pin.contains l) } else h) }

/-- A command releases every line. -/
def release (s : State) (cmd : Nat) : State := { s with holds := s.holds.filter (fun h => h.cmd ≠ cmd) }

/-- An error of an engine's access: its code (R174), and the state that it leaves. -/
abbrev Err := Nat × State

/-- The die of an agent: of the core that it works for, or the hub. -/
def dieOf (core : Nat) : Nat := if core < Config.cores then coreDie core else 20

/-- An access of an agent to a scratchpad or a vault passes the joins between (R17). -/
def reach (s : State) (core : Nat) (p : Mem.Place) : State :=
  match p with
  | .glob _ => s
  | .spad c _ => s.cross (dieOf core) (coreDie c)
  | .vault a => s.cross (dieOf core) (coreDie (a / 0x800000))

/-- Read n bytes of one line at a place: the bytes, or the error code (R174); a stale translation raises a region violation (R115).
DEDUCED, log 42. -/
def readPiece (s : State) (core ctx : Nat) (p : Mem.Place) (n : Nat) : Except Err (List Byte × State) :=
  let s := reach s core p
  match p with
  | .glob a =>
    match Mem.translate s core ctx a .rd 0 with
    | .error c => .error (c.code, s)
    | .ok q =>
      let s := (Mem.translated s core ctx q).cross (dieOf core) (Mem.homeDie q.pa)
      if q.stale then .error (0x52, Events.violation s ctx 0 0)
      else if Mem.linePoisoned s (q.pa / 64) then .error (0x52, s)
      else if q.unc then .ok (Mem.readAt s (if Mem.isHost q.pa then .host q.pa else .port q.pa) n, s)
      else
        let s := Mem.serveRange s q.pa n
        .ok ((List.range n).map (fun i => Mem.homeByte s (q.pa + i)), s)
  | .spad c o =>
    if (List.range n).any (fun i => (s.core c).spoison.contains ((o + i) / 4)) then .error (0x52, s)
    else .ok (Mem.spadBytes s c o n, s)
  | .vault a => .ok (Mem.bytes s.vault a n, s)

/-- Read a run of bytes. -/
def read (s : State) (core ctx : Nat) (p : Mem.Place) (n : Nat) : Except Err (List Byte × State) :=
  (linePieces p n).foldl (fun r x =>
    match r with
    | .error e => .error e
    | .ok (b, s) =>
      match readPiece s core ctx (shift p x.1) x.2 with
      | .error e => .error e
      | .ok (b', s') => .ok (b ++ b', s')) (.ok ([], s))

/-- Write bytes within one line at a place; a whole line clears its poison (R122). DEDUCED, log 42. -/
def writePiece (s : State) (core ctx : Nat) (p : Mem.Place) (b : List Byte) : Except Err State :=
  let s := reach s core p
  match p with
  | .glob a =>
    match Mem.translate s core ctx a .wr 0 with
    | .error c => .error (c.code, s)
    | .ok q =>
      let s := (Mem.translated s core ctx q).cross (dieOf core) (Mem.homeDie q.pa)
      let s := if q.stale then Events.violation s ctx 0 0 else s
      let tgt : Mem.Target := if !q.unc then .cached q.pa else if Mem.isHost q.pa then .host q.pa else .port q.pa
      let s := Mem.writeAt s (s.ctxPart ctx) q.stale tgt b
      .ok (if b.length = 64 && !q.stale then Mem.curePoison s (q.pa / 64 * 64) 64 else s)
  | .spad c o => .ok (Mem.spadWrite s c o b)
  | .vault a => .ok (Mem.writeAt s 0 false (.vault a) b)

/-- Write a run of bytes. -/
def write (s : State) (core ctx : Nat) (p : Mem.Place) (b : List Byte) : Except Err State :=
  (linePieces p b.length).foldl (fun r x =>
    match r with
    | .error e => .error e
    | .ok s => writePiece s core ctx (shift p x.1) ((b.drop x.1).take x.2)) (.ok s)

/-- Write free values to n bytes, as far as they translate: the undefined bytes of a command that ended early (R140, R169).
DESIGN CHOICE, log 4. -/
def scramble (s : State) (core ctx : Nat) (p : Mem.Place) (n : Nat) : State :=
  let s' := s.takeFree n
  (linePieces p n).foldl (fun st x =>
    match writePiece st core ctx (shift p x.1) ((List.range x.2).map (fun i => Config.freeByte (s.free + x.1 + i))) with
    | .ok st => st
    | .error _ => st) s'

/-- Read n bytes at a global address as a context, as an agent of the hub does (R141): none where the translation fails. -/
def readGlobal (s : State) (ctx : Nat) (ea : DWord) (n : Nat) : Except Err (List Byte × State) :=
  if 0x800000000000 < ea.toNat + n then .error (0x11, s) else read s Config.cores ctx (.glob ea.toNat) n

/-- Write bytes at a global address as a context. -/
def writeGlobal (s : State) (ctx : Nat) (ea : DWord) (b : List Byte) : Except Err State :=
  if 0x800000000000 < ea.toNat + b.length then .error (0x11, s) else write s Config.cores ctx (.glob ea.toNat) b

/-- Whether such an access has to wait. -/
def blockedGlobal (s : State) (ctx : Nat) (ea : DWord) (n : Nat) (wr : Bool) : Bool :=
  decide (ea.toNat + n ≤ 0x800000000000) && blocked s Config.cores ctx none (.glob ea.toNat) n wr

/-- Whether n bytes at a place lie on a die, in memory homed there or in a core's scratchpad or vault (R424). -/
def onDie (s : State) (core ctx : Nat) (p : Mem.Place) (n die : Nat) : Bool :=
  match p with
  | .glob a => (linePieces p n).any (fun x => match Mem.translate s core ctx (a + x.1) .owner 0 with
      | .ok q => !Mem.isHost q.pa && Mem.homeDie q.pa == die
      | .error _ => false)
  | .spad c _ => coreDie c == die
  | .vault a => coreDie (a / 0x800000) == die

/-- A little-endian field of a byte list. -/
def field (b : List Byte) (o n : Nat) : Nat := Mem.ofBytes ((b.drop o).take n)

/-- Whether any 128-byte line of a scratchpad range is absent. -/
def absent (s : State) (p : Mem.Place) (n : Nat) : Bool :=
  match p with
  | .spad c o => Mem.spadAbsent s c o n
  | _ => false

end Engine

end Sys2Proof.Machine
end

