-- ==== Sys2Proof/Machine/Life.lean ====
section
/-! DEFINITION. The end of threads, groups, teams and clusters: what is freed, and when (R187, R362). -/

namespace Sys2Proof.Machine

open Sys2Proof

namespace Life

/-- The threads of a group. -/
def threadsOf (s : State) (gid : Nat) : List Nat := (s.threads.filter (fun x => tidGid x.1 == gid)).map Prod.fst

/-- Whether a group slot is freed: every thread has retired and no handle pends (R362). DEDUCED, log 45. -/
def groupDone (s : State) (gid : Nat) (g : Group) : Bool :=
  s.threads.all (fun x => tidGid x.1 != gid || x.2.status == Status.retired)
    && g.handles.all (fun h => h.2.pend.isNone)

/-- Whether a team holds a group. -/
def hasGroup (s : State) (team : Nat) : Bool := s.groups.any (fun g => g.2.team == team)

/-- Whether a command of a team stands in the matrix unit, and whether one stands in a copy queue. -/
def inMatrix (s : State) (team : Nat) : Bool := s.cores.any (fun c => c.2.matq.any (fun m => m.team == team))
def inCopy (s : State) (team : Nat) : Bool := s.cores.any (fun c => c.2.copyq.any (fun m => m.team == team))

/-- Whether a team's register words, slots and tiles are freed. -/
def teamDone (s : State) (team : Nat) : Bool := !hasGroup s team && !inMatrix s team

/-- The poisoned words that groups leave behind in the main and scalar files of their core (R237). -/
def leaveWords (s : State) (gone : List Nat) (c : Nat) (k : Core) : Core :=
  { k with
    spareV := k.spareV ++ (s.threads.filter (fun t => gone.contains (tidGid t.1) && gidCore (tidGid t.1) == c)).flatMap (fun t =>
      t.2.vpoison.map (fun x => (t.1, x)))
    spareS := k.spareS ++ (s.groups.filter (fun g => gone.contains g.1 && gidCore g.1 == c)).flatMap (fun g =>
      g.2.spoison.map (fun x => (g.1, x))) }

/-- Free every group slot whose threads have all retired, the tiles of the teams that ended with them, and the clusters whose
last team ended, with their scratchpad; a core is idle from then on, if it holds no team (R383). DEDUCED, log 45. -/
def reap (s : State) : State :=
  let gone := (s.groups.filter (fun g => groupDone s g.1 g.2)).map Prod.fst
  let s := if gone.isEmpty then s else { s with
    cores := s.cores.update (fun c => gone.any (fun g => gidCore g == c)) (fun c k => leaveWords s gone c k)
    groups := s.groups.keep (fun k _ => !gone.contains k)
    threads := s.threads.keep (fun k _ => !gone.contains (tidGid k)) }
  let s := { s with teams := s.teams.update (fun k => teamDone s k) (fun _ t => { t with tiles := [] }) }
  let ended := s.clusters.filter (fun c => c.2.teams.all (fun t => teamDone s t && !inCopy s t))
  if ended.isEmpty then s
  else
    let teams := ended.flatMap (fun c => c.2.teams)
    let cores := teams.filterMap (fun t => (s.teams.get? t).map Team.core)
    { s with
      cores := s.cores.update (fun c => cores.contains c) (fun _ k => { k with idleFrom := some s.now })
      clusters := s.clusters.keep (fun k _ => !(ended.map Prod.fst).contains k)
      teams := s.teams.keep (fun k _ => !teams.contains k) }

/-- A command of an engine has completed: its handle receives the status, and what waited for it is freed. -/
def complete (s : State) (cmd : Nat) (status : Word) : State := reap (Ops.completeCmd s cmd status)

end Life

end Sys2Proof.Machine
end

