-- ==== Sys2Proof/WellFormed.lean ====
section
/-! DEFINITION. Which instructions are legal: the checks of step 4 of R59, as a list of named breaches for each instruction.
An instruction is well-formed when the list is empty. -/

namespace Sys2Proof

/-- Why a slot is refused at decode. Each is the precise fault ILL_OP (R34 to R37, R41, R42, R48, R31). -/
inductive Reject where
  /-- a predicate field of 96 or more (R36) -/
  | predicate
  /-- an operand code of a class the form does not accept, or an unaligned pair, quad or block (R34, R35) -/
  | operand
  /-- an s destination with a v source (R227, R240) -/
  | scalarDest
  /-- a SUB or modifier value the instruction leaves reserved (R37) -/
  | modifier
  /-- an immediate outside the instruction's range -/
  | immediate
  /-- a nonzero LA on an instruction that is not long-latency (R48) -/
  | lookahead
  /-- the slot field of an FB target is 5, 6 or 7 (R31) -/
  | branchSlot
  /-- D is not a handle code where one is needed (R42) -/
  | handle
  /-- MIG = 1 on an instruction that does not accept it (R41) -/
  | migrate
  /-- a field the instruction does not use is not zero (R37) -/
  | unusedField
  deriving DecidableEq, Repr

/-- A breach unless the condition holds. -/
def need (ok : Bool) (r : Reject) : List Reject := if ok then [] else [r]

namespace Reg

def isV : Reg → Bool
  | .v _ => true
  | _ => false

def isS : Reg → Bool
  | .s _ => true
  | _ => false

def isVS (r : Reg) : Bool := r.isV || r.isS

def isK : Reg → Bool
  | .k _ => true
  | _ => false

def isH : Reg → Bool
  | .h _ => true
  | _ => false

def isM : Reg → Bool
  | .m _ => true
  | _ => false

/-- The register's number in its class. -/
def num : Reg → Nat
  | .v i => i.val
  | .k i => i.val
  | .h i => i.val
  | .m i => i.val
  | .s i => i.val

/-- A v- or s-register, even where a pair is named (R35). -/
def okVS (r : Reg) (pair : Bool) : Bool := r.isVS && (!pair || r.num % 2 == 0)

/-- An s-register whose number is a multiple of n and whose block of n lies in the file. -/
def okS (r : Reg) (n : Nat) : Bool := r.isS && r.num % n == 0 && decide (r.num + n ≤ 384)

/-- A v-register whose number is a multiple of n. -/
def okV (r : Reg) (n : Nat) : Bool := r.isV && r.num % n == 0

end Reg

/-- A predicate number below 96 (R36). -/
def okP (p : BitVec 7) : Bool := decide (p.toNat < 96)

namespace Src

def isVS (s : Src) : Bool :=
  match s with
  | .reg r => r.isVS
  | .imm _ => true

def okVS (s : Src) (pair : Bool) : Bool :=
  match s with
  | .reg r => r.okVS pair
  | .imm _ => true

/-- An s-register or an immediate. -/
def isScalar (s : Src) : Bool :=
  match s with
  | .reg r => r.isS
  | .imm _ => true

def okImm (s : Src) (f : BitVec 32 → Bool) : Bool :=
  match s with
  | .reg _ => true
  | .imm w => f w

/-- No operand at all: field B is zero and I is 0. -/
def absent (s : Src) : Bool := s == .reg .zero

end Src

namespace SrcP

def okVS (s : SrcP) (pair : Bool) : Bool :=
  match s with
  | .reg r => r.okVS pair
  | .imm _ => true

def isScalar (s : SrcP) : Bool :=
  match s with
  | .reg r => r.isS
  | .imm _ => true

end SrcP

/-- The common header: GP below 96, and LA zero unless the instruction is long-latency (R36, R48). -/
def Hdr.problems (h : Hdr) (long : Bool) : List Reject :=
  need (okP h.gp) .predicate ++ need (long || h.la == 0) .lookahead

/-- A memory operand of FM: base an even v or s pair, index a v or s register (R41, R151). -/
def Addr.problems (a : Addr) : List Reject :=
  need (a.base.okVS true) .operand
    ++ need (match a.idx with | none => true | some (r, _) => r.isVS) .operand

def Addr20.problems (a : Addr20) : List Reject :=
  need (a.base.okVS true) .operand
    ++ need (match a.idx with | none => true | some (r, _) => r.isVS) .operand

/-- Which SUB bits and operands an integer instruction accepts: one row of Table 09.2. -/
structure IntForm where
  useB  : Bool
  useC  : Bool
  sat   : Bool
  u     : Bool
  w64   : Bool
  xop   : BitVec 4
  /-- the destination is single under W64 (clz, popc) -/
  dOne  : Bool := false
  /-- the B operand is single under W64 (shift counts) -/
  bOne  : Bool := false
  /-- D and A are pairs always (lea) -/
  addr  : Bool := false
  /-- the largest FI immediate, for narrower fields (R248, R249) -/
  immLim : Nat := 4294967296
  deriving DecidableEq, Repr

def IntOps.problems (o : IntOps) (f : IntForm) : List Reject :=
  let wide := f.xop == 1 && f.u && o.xop == 1
  let dp := (o.w64 && !f.dOne) || wide || f.addr
  let ap := o.w64 || f.addr
  let bp := o.w64 && !f.bOne
  let cp := o.w64 || wide
  need ((!o.sat || f.sat) && (!o.u || f.u) && (!o.w64 || f.w64) && (o.xop &&& ~~~f.xop == 0) && !(wide && o.w64)) .modifier
    ++ need (o.d.okVS dp) .operand
    ++ need (o.a.okVS ap) .operand
    ++ need (if f.useB then o.b.okVS bp else o.b.absent) .operand
    ++ need (if f.useC then o.c.okVS cp else o.c == .zero) .operand
    ++ need (o.b.okImm (fun w => decide (w.toNat < f.immLim))) .immediate
    ++ need (!o.d.isS || (o.a.isS && (!f.useB || o.b.isScalar) && (!f.useC || o.c.isS))) .scalarDest

/-- icmp: no destination register, condition 0 to 5 (R250). -/
def IntPOps.icmpProblems (o : IntPOps) : List Reject :=
  need (decide (o.xop.toNat ≤ 5)) .modifier
    ++ need (o.d == .zero) .unusedField
    ++ need (o.a.okVS o.w64) .operand
    ++ need (o.b.okVS o.w64) .operand
    ++ need (okP o.p) .predicate

/-- iaddc and isubb (R246). -/
def IntPOps.carryProblems (o : IntPOps) : List Reject :=
  need (o.xop == 0 && !o.u && !o.w64) .modifier
    ++ need (o.d.okVS false) .operand
    ++ need (o.a.okVS false) .operand
    ++ need (o.b.okVS false) .operand
    ++ need (okP o.p) .predicate
    ++ need (!o.d.isS || (o.a.isS && o.b.isScalar)) .scalarDest

/-- One row of Table 09.4. -/
structure FpForm where
  useB : Bool
  useC : Bool
  ftz  : Bool
  rm   : Bool
  xop  : BitVec 4
  deriving DecidableEq, Repr

def FpOps.problems (o : FpOps) (f : FpForm) : List Reject :=
  need ((!o.ftz || f.ftz) && (f.rm || o.rm == 0) && (o.xop &&& ~~~f.xop == 0)) .modifier
    ++ need (o.d.okVS false) .operand
    ++ need (o.a.okVS false) .operand
    ++ need (if f.useB then o.b.okVS false else o.b.absent) .operand
    ++ need (if f.useC then o.c.okVS false else o.c == .zero) .operand
    ++ need (!o.d.isS || (o.a.isS && (!f.useB || o.b.isScalar) && (!f.useC || o.c.isS))) .scalarDest

def FcmpOps.problems (o : FcmpOps) : List Reject :=
  need (decide (o.xop.toNat ≤ 13)) .modifier
    ++ need (o.a.okVS false) .operand
    ++ need (o.b.okVS false) .operand
    ++ need (okP o.p) .predicate

/-- One row of Table 09.8: useC, and whether BF and NAN are accepted. -/
def HalfOps.problems (o : HalfOps) (useC sel : Bool) : List Reject :=
  need (sel || (!o.bf && !o.nan)) .modifier
    ++ need (o.d.okVS false) .operand
    ++ need (o.a.okVS false) .operand
    ++ need (o.b.okVS false) .operand
    ++ need (if useC then o.c.okVS false else o.c == .zero) .operand
    ++ need (!o.d.isS || (o.a.isS && o.b.isScalar && (!useC || o.c.isS))) .scalarDest

/-- Type codes of Table 09.9: floating-point codes. -/
def CvtOps.isFloat (t : BitVec 4) : Bool := decide (t.toNat ≤ 2) || t == 0xB || t == 0xC

/-- The sixteen-bit pair types f16x2 and bf16x2. -/
def CvtOps.isPacked (t : BitVec 4) : Bool := t == 0xB || t == 0xC

/-- s64 and u64 live in a pair. -/
def CvtOps.isPair (t : BitVec 4) : Bool := t == 0x9 || t == 0xA

def CvtOps.problems (o : CvtOps) : List Reject :=
  let df := CvtOps.isFloat o.dt
  let sf := CvtOps.isFloat o.st
  need (decide (o.dt.toNat ≤ 12) && decide (o.st.toNat ≤ 10)) .immediate
    ++ need (!o.hi || o.st == 1 || o.st == 2) .modifier
    ++ need (!CvtOps.isPacked o.dt || o.st == 0) .modifier
    ++ need (!o.sat || (!df && !sf)) .modifier
    ++ need (!o.ftz || o.dt == 0 || o.st == 0 || o.dt == 1 || o.st == 1 || o.dt == 0xB) .modifier
    ++ need (o.rm == 0 || df || sf) .modifier
    ++ need (o.d.okVS (CvtOps.isPair o.dt)) .operand
    ++ need (o.a.okVS (CvtOps.isPair o.st)) .operand
    ++ need (if CvtOps.isPacked o.dt then o.b.okVS false else o.b == .zero) .operand
    ++ need (!o.d.isS || (o.a.isS && (!CvtOps.isPacked o.dt || o.b.isS))) .scalarDest

def FroundOps.problems (o : FroundOps) : List Reject :=
  need (o.d.okVS false) .operand ++ need (o.a.okVS false) .operand
    ++ need (!o.d.isS || o.a.isS) .scalarDest

/-- A participation mask: v0 for all lanes, or an s quad (R265). -/
def okMask (r : Reg) : Bool := r == .zero || r.okS 4

def BfpOps.problems (o : BfpOps) (mask : Bool) : List Reject :=
  need (o.n != 7) .modifier
    ++ need (o.d.isV && o.a.isV) .operand
    ++ need (if mask then okMask o.c else o.c == .zero) .operand

def BallotOps.problems (o : BallotOps) : List Reject :=
  need (okP o.p) .predicate
    ++ need (!o.x4 || o.wsel == 0) .modifier
    ++ need (if o.x4 then o.d.okVS false && o.d.num % 4 == 0 else o.d.okVS false) .operand
    ++ need (okMask o.mask) .operand

def VoteOps.problems (o : VoteOps) : List Reject :=
  need (okP o.dp && okP o.xp) .predicate ++ need (o.seg != 7) .modifier ++ need (okMask o.mask) .operand

def Src7.okVS (s : Src7) : Bool :=
  match s with
  | .reg r => r.isVS
  | .imm _ => true

def ShflOps.problems (o : ShflOps) : List Reject :=
  need (o.seg != 7) .modifier
    ++ need (o.d.okV (if o.b64 then 2 else 1)) .operand
    ++ need (o.a.okV (if o.b64 then 2 else 1)) .operand
    ++ need o.b.okVS .operand
    ++ need (okMask o.mask) .operand

def MatchOps.problems (o : MatchOps) : List Reject :=
  need (o.seg != 7) .modifier
    ++ need (!o.x4 || o.wsel == 0) .modifier
    ++ need (o.d.okV (if o.x4 then 4 else 1)) .operand
    ++ need (o.a.okV (if o.b64 then 2 else 1)) .operand
    ++ need (okMask o.mask) .operand

def RedxOps.problems (o : RedxOps) : List Reject :=
  let pair := o.op == 11
  need (decide (o.op.toNat ≤ 11) && o.seg != 7) .modifier
    ++ need (o.d.okVS pair) .operand
    ++ need (!o.d.isS || o.seg == 0) .modifier
    ++ need (o.a.okV (if pair then 2 else 1)) .operand
    ++ need (okMask o.mask) .operand

def ScanOps.problems (o : ScanOps) : List Reject :=
  need (o.seg != 7) .modifier
    ++ need (o.d.isV && o.a.isV) .operand
    ++ need (okMask o.mask) .operand

def LmaskOps.problems (o : LmaskOps) : List Reject :=
  need (decide (o.rel.toNat ≤ 4) && (!o.x4 || o.wsel == 0)) .modifier
    ++ need (o.d.okV (if o.x4 then 4 else 1)) .operand

def LdOps.problems (o : LdOps) : List Reject :=
  need (!o.sgn || o.sz == 2 || o.sz == 3) .modifier
    ++ need (o.d.okV (if o.sz == 1 then 2 else 1)) .operand ++ o.addr.problems

def StOps.problems (o : StOps) : List Reject :=
  need (o.d.okV (if o.sz == 1 then 2 else 1)) .operand ++ o.addr.problems

def AtomOps.problems (o : AtomOps) : List Reject :=
  need (decide (o.op.toNat ≤ 11) && !(o.w64 && o.op == 11)) .modifier
    ++ need (o.d.okV (if o.w64 then 2 else 1)) .operand
    ++ need (o.c.okVS o.w64) .operand ++ o.addr.problems

def RedOps.problems (o : RedOps) : List Reject :=
  need (decide (o.op.toNat ≤ 6)) .modifier
    ++ need (o.d.okVS (o.op == 1)) .operand ++ o.addr.problems

/-- gath and scat: blocks of K registers; a gath whose destinations overlap its indexes or its base is refused (R160). -/
def GathOps.problems (o : GathOps) (gather : Bool) : List Reject :=
  let k := o.n.toNat + 1
  let meets (x n : Nat) : Bool := decide (x < o.d.num + k) && decide (o.d.num < x + n)
  need (o.base.okVS true) .operand
    ++ need (o.idx.isV && decide (o.idx.num + k ≤ 64)) .operand
    ++ need (o.d.isV && decide (o.d.num + k ≤ 64)) .operand
    ++ need (!gather || (!meets o.idx.num k && !(o.base.isV && meets o.base.num 2))) .operand

def LdsOps.problems (o : LdsOps) : List Reject :=
  need (o.d.okS (2 ^ o.n.toNat)) .operand
    ++ need (o.addr.base.okS 2) .operand
    ++ need (match o.addr.idx with | none => true | some (r, _) => r.isS) .operand

def PldOps.problems (o : PldOps) : List Reject :=
  need (o.n != 3) .modifier ++ o.addr.problems

def SelOps.problems (o : SelOps) : List Reject :=
  need (okP o.p) .predicate
    ++ need (o.d.okV (if o.b64 then 2 else 1)) .operand
    ++ need (o.a.okVS o.b64) .operand ++ need (o.b.okVS o.b64) .operand

def PmovOps.problems (o : PmovOps) : List Reject :=
  need (okP o.p && okP o.x && okP o.y) .predicate

/-- The valid entries of an rgn, by register number, in order. -/
def RgnOps.entries (o : RgnOps) : List Nat :=
  [o.e0, o.e1, o.e2, o.e3].filterMap (fun e => e.map Reg.num)
    ++ [o.e4, o.e5, o.e6, o.e7].filterMap (fun e => e.map BitVec.toNat)

/-- Whether a list of numbers repeats none. -/
def noRepeat : List Nat → Bool
  | [] => true
  | x :: xs => !xs.contains x && noRepeat xs

def RgnOps.problems (o : RgnOps) : List Reject :=
  need ([o.e0, o.e1, o.e2, o.e3].all (fun e => match e with | none => true | some r => r.isV)) .operand
    ++ need (o.entries.all (fun n => decide (16 ≤ n))) .operand
    ++ need (noRepeat o.entries) .operand

/-- cpy and cfill: pair tells whether B is an address (R177). -/
def CpyOps.problems (o : CpyOps) (pairB : Bool) : List Reject :=
  need o.d.isH .handle
    ++ need (o.a.okS 2) .operand
    ++ need (o.b.okS (if pairB then 2 else 1)) .operand
    ++ need o.len.isScalar .operand
    ++ need (o.len.okImm (fun w => decide (w.toNat ≤ 16777216))) .immediate

/-- A matrix command: quad is the multiple its descriptor's s-register needs, 0 for none (R280). -/
def matProblems (d t k c : Reg) (block : Nat) (handleOnly : Bool) : List Reject :=
  need (d.isH || (!handleOnly && d == .zero)) .handle
    ++ need (t.isM && k.isK) .operand
    ++ need (if block == 0 then c == .zero else c.okS block) .operand

/-- The width of a special register in words, and whether swr may write it (Table 08.10). -/
def srWide (n : BitVec 8) : Bool :=
  n == 6 || n == 7 || n == 9 || n == 11 || n == 14 || n == 15 || n == 16

def srRW (n : BitVec 8) : Bool :=
  n == 9 || n == 10 || n == 11 || n == 12 || n == 13 || n == 14 || n == 16

/-- The sampling intervals of R432: 0 or a power of two up to 2^20. -/
def okInterval (w : BitVec 32) : Bool :=
  w == 0 || (List.range 21).any (fun k => w.toNat == 2 ^ k)

/-- The number of one bits of a word. -/
def popCount (w : BitVec 32) : Nat := (List.range 32).foldl (fun n i => n + (w.getLsbD i).toNat) 0

namespace Instr

/-- The long-latency instructions of Table 02.5. -/
def isLong : Instr → Bool
  | .idiv .. | .irem .. | .frcp .. | .frsq .. | .fsqrt .. | .fdiv .. | .fexp2 .. | .flog2 .. | .fsin .. | .fcos ..
  | .ld .. | .atom .. | .gath .. | .scat .. | .lds .. | .go .. | .back .. => true
  | _ => false

/-- The header of an instruction row; an event row has none. -/
def hdr? : Instr → Option Hdr
  | .nop h | .bra h _ | .brx h _ | .call h _ | .callx h _ | .ret h | .exit h | .yield h | .sleep h _ | .trap h _ _
  | .tfence h | .meet h _ | .kset h _ _ _ | .bar h | .cbar h | .wait h _ | .htest h _ _ | .hcancel h _ | .hmov h _ _
  | .hmovTok h _ _ | .rgn h _ | .brk h _ | .mov h _ _ _ | .movi h _ _ _ | .sel h _ | .pmov h _ | .pld h _ | .pst h _
  | .srd h _ _ | .swr h _ _ | .rdl h _ _ _ | .wrl h _ _ _ | .iadd h _ | .isub h _ | .imul h _ | .imulh h _ | .imad h _
  | .idiv h _ | .irem h _ | .imin h _ | .imax h _ | .iabs h _ | .iand h _ | .ior h _ | .ixor h _ | .inot h _ | .shl h _
  | .shr h _ | .sar h _ | .rotl h _ | .clz h _ | .popc h _ | .brev h _ | .bfx h _ | .bfi h _ | .icmp h _ | .iaddc h _
  | .isubb h _ | .lea h _ | .dot4 h _ | .prmt h _ | .fadd h _ | .fsub h _ | .fmul h _ | .ffma h _ | .fmin h _
  | .fmax h _ | .fcmp h _ | .fclass h _ | .frcp h _ | .frsq h _ | .fsqrt h _ | .fdiv h _ | .fexp2 h _ | .flog2 h _
  | .fsin h _ | .fcos h _ | .hadd2 h _ | .hmul2 h _ | .hfma2 h _ | .hmax2 h _ | .hmin2 h _ | .cvt h _ | .fround h _
  | .bfpq h _ | .bfpx h _ | .ballot h _ | .vote h _ | .shfl h _ | .matchx h _ | .redx h _ | .scan h _ | .lmask h _
  | .ld h _ | .st h _ | .atom h _ | .red h _ | .fence h | .fenceAcq h | .fenceRel h | .prefl h _ _ | .gath h _
  | .scat h _ | .lds h _ | .sts h _ | .cpy h _ | .cpy2 h _ _ _ _ | .cfill h _ | .pres h _ _ _ _ | .sgive h _ _
  | .stake h _ _ _ _ | .stakeTry h _ _ _ _ _ | .sfree h _ _ | .go h _ | .back h | .carry h _ _ | .whereIs h _ _
  | .mzero h _ _ _ | .mma h _ _ _ | .mmab h _ _ _ | .mld h _ _ | .mst h _ _ | .mscl h _ | .msclU h _ _ _ _
  | .acall h _ _ _ _ | .acorr h _ _ _ | .astat h _ _ | .tenq h _ _ | .tdeq h _ _ _ | .dcnew h _ _ | .dcadd h _ _
  | .dcdec h _ _ | .dcrd h _ _ | .launch h _ _ | .dcfree h _ | .dln h _ _ | .dprog h _ | .dend h | .dslack h _
  | .coll h _ _ _ _ | .fput h _ _ | .fget h _ _ | .fsig h _ _ | .eret h | .sysrd h _ _ | .syswr h _ _ | .tlbiVa h _
  | .tlbiCtx h | .tlbiOth h _ | .tlbiPart h _ | .tlbiAll h | .cmaintWb h _ | .cmaintWbi h _ | .cmaintIc h _ | .halt h
  | .chkset h _ _ => some h
  | _ => none

/-- The breaches in an instruction's own operands. -/
def bodyProblems : Instr → List Reject
  | .nop _ | .ret _ | .exit _ | .yield _ | .sleep _ _ | .trap _ _ _ | .tfence _ | .bar _ | .cbar _ | .brk _ _
  | .fence _ | .fenceAcq _ | .fenceRel _ | .back _ | .dend _ | .eret _ | .tlbiCtx _ | .tlbiAll _ | .halt _ => []
  | .bra _ t | .call _ t => need (decide (t.slot.toNat ≤ 4)) .branchSlot
  | .brx _ a | .callx _ a => need (a.okVS true) .operand
  | .meet _ k => need k.isK .operand
  | .kset _ k m n => need k.isK .operand ++ need (m.isS || m == .zero) .operand
      ++ need (decide (1 ≤ n.toNat) && decide (n.toNat ≤ 4096)) .immediate
  | .wait _ a | .hcancel _ a => need (a.isH || a.isS) .operand
  | .htest _ a p => need (a.isH || a.isS) .operand ++ need (okP p) .predicate
  | .hmov _ d a | .hmovTok _ d a => need (d.isS && a.isH) .operand
  | .rgn _ o => o.problems
  | .mov _ d a b64 => need (d.okVS b64 && a.okVS b64) .operand ++ need (!d.isS || a.isS) .scalarDest
  | .movi _ d _ b64 => need (d.okVS b64) .operand
  | .sel _ o => o.problems
  | .pmov _ o => o.problems
  | .pld _ o | .pst _ o => o.problems
  | .srd _ d n => need (decide (n.toNat ≤ 0x10)) .immediate ++ need (d.okVS (srWide n)) .operand
  | .swr _ a n => need (decide (n.toNat ≤ 0x10) && srRW n) .immediate ++ need (a.okVS (srWide n)) .operand
  | .rdl _ d a b => need (d.isS && a.isV && (match b with | .reg r => r.isS | .imm _ => true)) .operand
  | .wrl _ d a b => need (d.isV && a.isS && (match b with | .reg r => r.isS | .imm _ => true)) .operand
  | .iadd _ o | .isub _ o => o.problems { useB := true, useC := false, sat := true, u := true, w64 := true, xop := 0 }
  | .imul _ o => o.problems { useB := true, useC := false, sat := false, u := true, w64 := true, xop := 1 }
  | .imad _ o => o.problems { useB := true, useC := true, sat := false, u := true, w64 := true, xop := 1 }
  | .imulh _ o | .idiv _ o | .irem _ o | .imin _ o | .imax _ o =>
      o.problems { useB := true, useC := false, sat := false, u := true, w64 := true, xop := 0 }
  | .iabs _ o => o.problems { useB := false, useC := false, sat := true, u := false, w64 := true, xop := 0 }
  | .iand _ o | .ior _ o | .ixor _ o =>
      o.problems { useB := true, useC := false, sat := false, u := false, w64 := true, xop := 0 }
  | .inot _ o | .brev _ o => o.problems { useB := false, useC := false, sat := false, u := false, w64 := true, xop := 0 }
  | .shl _ o | .shr _ o | .sar _ o | .rotl _ o =>
      o.problems { useB := true, useC := false, sat := false, u := false, w64 := true, xop := 0, bOne := true, immLim := 256 }
  | .clz _ o | .popc _ o =>
      o.problems { useB := false, useC := false, sat := false, u := false, w64 := true, xop := 0, dOne := true }
  | .bfx _ o => o.problems { useB := true, useC := false, sat := false, u := false, w64 := false, xop := 1, immLim := 65536 }
  | .bfi _ o => o.problems { useB := true, useC := true, sat := false, u := false, w64 := false, xop := 0, immLim := 65536 }
  | .icmp _ o => o.icmpProblems
  | .iaddc _ o | .isubb _ o => o.carryProblems
  | .lea _ o => o.problems { useB := true, useC := false, sat := false, u := true, w64 := false, xop := 7, addr := true }
  | .dot4 _ o => o.problems { useB := true, useC := true, sat := true, u := false, w64 := false, xop := 3 }
  | .prmt _ o => o.problems { useB := true, useC := true, sat := false, u := false, w64 := false, xop := 0 }
  | .fadd _ o | .fmul _ o | .fdiv _ o => o.problems { useB := true, useC := false, ftz := true, rm := true, xop := 0 }
  | .fsub _ o => o.problems { useB := true, useC := false, ftz := true, rm := false, xop := 0 }
  | .ffma _ o => o.problems { useB := true, useC := true, ftz := true, rm := true, xop := 0 }
  | .fmin _ o | .fmax _ o => o.problems { useB := true, useC := false, ftz := true, rm := false, xop := 1 }
  | .fcmp _ o => o.problems
  | .fclass _ o => o.problems { useB := false, useC := false, ftz := false, rm := false, xop := 0 }
  | .frcp _ o | .frsq _ o | .fexp2 _ o | .flog2 _ o | .fsin _ o | .fcos _ o =>
      o.problems { useB := false, useC := false, ftz := true, rm := false, xop := 0 }
  | .fsqrt _ o => o.problems { useB := false, useC := false, ftz := true, rm := true, xop := 0 }
  | .hadd2 _ o | .hmul2 _ o => o.problems false false
  | .hfma2 _ o => o.problems true false
  | .hmax2 _ o | .hmin2 _ o => o.problems false true
  | .cvt _ o => o.problems
  | .fround _ o => o.problems
  | .bfpq _ o => o.problems true
  | .bfpx _ o => o.problems false
  | .ballot _ o => o.problems
  | .vote _ o => o.problems
  | .shfl _ o => o.problems
  | .matchx _ o => o.problems
  | .redx _ o => o.problems
  | .scan _ o => o.problems
  | .lmask _ o => o.problems
  | .ld _ o => o.problems
  | .st _ o => o.problems
  | .atom _ o => o.problems
  | .red _ o => o.problems
  | .prefl _ a _ => a.problems
  | .gath _ o => o.problems true
  | .scat _ o => o.problems false
  | .lds _ o | .sts _ o => o.problems
  | .cpy _ o => o.problems true
  | .cpy2 _ d a b c => need d.isH .handle ++ need (a.okS 2 && b.okS 2 && c.okS 4) .operand
  | .cfill _ o => o.problems false
  | .pres _ base idx _ p => need (base.okVS true) .operand
      ++ need (match idx with | none => true | some (r, _) => r.isVS) .operand ++ need (okP p) .predicate
  | .sgive _ a d | .sfree _ a d | .stake _ a d _ _ => need (a.okS 2 && d.isS) .operand
  | .stakeTry _ a d _ _ p => need (a.okS 2 && d.isS) .operand ++ need (okP p) .predicate
  | .go _ a => a.problems
  | .carry _ m _ => need m.isVS .operand ++ need (m.okImm (fun w => decide (popCount w ≤ 12))) .immediate
  | .whereIs _ d a => need d.isV .operand ++ a.problems
  | .mzero _ d t k => matProblems d t k .zero 0 false
  | .mma _ o ty _ => matProblems o.d o.t o.k o.c 8 false ++ need (ty != 3) .modifier
  | .mmab _ o m _ => matProblems o.d o.t o.k o.c 16 false ++ need (m != 7) .modifier
  | .mld _ o ty => matProblems o.d o.t o.k o.c 4 false ++ need (ty != 3) .modifier
  | .mst _ o ty => matProblems o.d o.t o.k o.c 4 true ++ need (decide (ty.toNat ≤ 5)) .modifier
  | .mscl _ o => matProblems o.d o.t o.k o.c 4 false
  | .msclU _ d t k _ => matProblems d t k .zero 0 false
  | .acall _ d a t _ => need d.isH .handle ++ need (a.okS 2) .operand
      ++ need (match t with | .imm _ _ _ => true | .reg r => r.isS) .operand
  | .acorr _ d a b => need d.isH .handle ++ need (a.okS 2 && b.isS) .operand
  | .astat _ d b => need d.isH .handle ++ need b.isS .operand
  | .tenq _ a t => need (a.okS 8) .operand ++ need (match t with | none => true | some p => okP p) .predicate
  | .tdeq _ a p _ => need (a.okS 8) .operand ++ need (okP p) .predicate
  | .dcnew _ a n | .dcadd _ a n | .dcdec _ a n => need (a.isS && n.isScalar) .operand
  | .dcrd _ a b => need (a.isS && b.isS) .operand
  | .launch _ d a => need (d.isH || d == .zero) .handle ++ need (a.okS 2) .operand
  | .dcfree _ a | .dslack _ a => need a.isS .operand
  | .dln _ n b => need (n.isScalar && b.isS) .operand ++ need (n.okImm (fun w => w != 0)) .immediate
  | .dprog _ n => need n.isScalar .operand
  | .coll _ d a kind op => need d.isH .handle ++ need (a.okS 8) .operand
      ++ need (decide (kind.toNat ≤ 4) && decide (op.toNat ≤ 5)
          && (op == 0 || !(kind == 1 || kind == 3 || kind == 4))) .modifier
  | .fput _ d a | .fget _ d a => need d.isH .handle ++ need (a.okS 8) .operand
  | .fsig _ d a => need d.isH .handle ++ need (a.okS 4) .operand
  | .sysrd _ d a => need d.isS .operand ++ need (a.toNat % 4 == 0) .immediate
  | .syswr _ d a => need d.isS .operand ++ need (a.toNat % 4 == 0) .immediate
  | .tlbiVa _ a => need (a.okS 2) .operand
  | .tlbiOth _ a | .tlbiPart _ a => need a.isS .operand
  | .cmaintWb _ a | .cmaintWbi _ a | .cmaintIc _ a => a.problems
  | .chkset _ a n => need (a.isS && n.isScalar) .operand ++ need (n.okImm okInterval) .immediate
  | _ => []

/-- Every breach of step 4 of R59 in an instruction. -/
def problems (i : Instr) : List Reject :=
  (match i.hdr? with
   | some h => h.problems i.isLong
   | none => []) ++ i.bodyProblems

/-- A legal instruction. -/
def wellFormed (i : Instr) : Bool := i.problems.isEmpty

end Instr

end Sys2Proof
end

