-- ==== Sys2Proof/Machine/Operands.lean ====
section
/-! DEFINITION. Operand forms: the value of every operand in a lane, the writing of results, the registers that an
instruction reads and writes, and its port. -/

namespace Sys2Proof.Machine

open Sys2Proof

namespace Operands

/-- The 32-bit value of an operand register in a lane: the group's value for an s-register (R245). -/
def val (s : State) (gid : Nat) (t : Thread) (r : Reg) : Word :=
  match r with
  | .v i => t.v i.val
  | .s i => s.s gid i.val
  | _ => 0

/-- The 64-bit value of a pair named by its even register (R35). -/
def val64 (s : State) (gid : Nat) (t : Thread) (r : Reg) : DWord :=
  match r with
  | .v i => t.v (i.val + 1) ++ t.v i.val
  | .s i => s.sPair gid i.val
  | _ => 0

/-- B or IMM, 32 bits (R40, R239). -/
def src (s : State) (gid : Nat) (t : Thread) (x : Src) : Word :=
  match x with
  | .reg r => val s gid t r
  | .imm w => w

/-- B or IMM, sign-extended to 64 bits (R241). -/
def src64 (s : State) (gid : Nat) (t : Thread) (x : Src) : DWord :=
  match x with
  | .reg r => val64 s gid t r
  | .imm w => w.signExtend 64

/-- B, or SX(IMM[31:7], 25) (R246, R250). -/
def srcP (s : State) (gid : Nat) (t : Thread) (x : SrcP) : Word :=
  match x with
  | .reg r => val s gid t r
  | .imm w => w.signExtend 32

def srcP64 (s : State) (gid : Nat) (t : Thread) (x : SrcP) : DWord :=
  match x with
  | .reg r => val64 s gid t r
  | .imm w => w.signExtend 64

/-- B, or IMM[31:7] << 7: the top of an FP32 pattern (R255). -/
def srcF (s : State) (gid : Nat) (t : Thread) (x : SrcP) : Word :=
  match x with
  | .reg r => val s gid t r
  | .imm w => w ++ (0 : BitVec 7)

/-- A lane number from IMM[6:0] or from the low seven bits of a register (R229, R272). -/
def src7 (s : State) (gid : Nat) (t : Thread) (x : Src7) : Nat :=
  match x with
  | .reg r => (val s gid t r).toNat % 128
  | .imm n => n.toNat

/-- A wide operand: 64 bits under W64, else 32 bits, as an unsigned number. -/
def wide (s : State) (gid : Nat) (t : Thread) (w64 : Bool) (r : Reg) : Nat :=
  if w64 then (val64 s gid t r).toNat else (val s gid t r).toNat

def wideSrc (s : State) (gid : Nat) (t : Thread) (w64 : Bool) (x : Src) : Nat :=
  if w64 then (src64 s gid t x).toNat else (src s gid t x).toNat

def wideSrcP (s : State) (gid : Nat) (t : Thread) (w64 : Bool) (x : SrcP) : Nat :=
  if w64 then (srcP64 s gid t x).toNat else (srcP s gid t x).toNat

/-- The effective address of a memory operand (R41). DEDUCED, log 82. -/
def addr (s : State) (gid : Nat) (t : Thread) (a : Addr) : DWord :=
  let i := match a.idx with
    | none => 0
    | some (r, sh) => ((val s gid t r).signExtend 64) <<< sh.toNat
  val64 s gid t a.base + i + a.off.signExtend 64

/-- The effective address of `atom` and `red`, whose offset is 20 bits (R155). -/
def addr20 (s : State) (gid : Nat) (t : Thread) (a : Addr20) : DWord :=
  let i := match a.idx with
    | none => 0
    | some (r, sh) => ((val s gid t r).signExtend 64) <<< sh.toNat
  val64 s gid t a.base + i + a.off.signExtend 64

/-- What an instruction gives one lane: words for registers, predicates, and floating-point flags. -/
structure LaneOut where
  d     : List (Reg × Word) := []
  p     : List (Nat × Bool) := []
  flags : BitVec 5 := 0

/-- A 32-bit result. -/
def out32 (d : Reg) (w : Word) : LaneOut := { d := [(d, w)] }

/-- The register after a register, for the high half of a pair. -/
def next (r : Reg) (k : Nat) : Reg :=
  match r with
  | .v i => if h : i.val + k < 64 then .v ⟨i.val + k, h⟩ else r
  | .s i => if h : i.val + k < 384 then .s ⟨i.val + k, h⟩ else r
  | r => r

/-- A 64-bit result in a pair: the low half in the even register (R35). -/
def out64 (d : Reg) (w : DWord) : LaneOut :=
  { d := [(d, w.extractLsb' 0 32), (next d 1, w.extractLsb' 32 32)] }

/-- A result of 32 or 64 bits from a number, taken modulo 2^w. -/
def outW (d : Reg) (w64 : Bool) (n : Nat) : LaneOut :=
  if w64 then out64 d (BitVec.ofNat 64 n) else out32 d (BitVec.ofNat 32 n)

/-- Write a lane's results into its own registers; s-registers are written once for the group. -/
def commitLane (t : Thread) (o : LaneOut) : Thread :=
  let t := o.d.foldl (fun t x => match x.1 with
    | .v i => Ops.writeV t i.val x.2
    | _ => t) t
  let t := o.p.foldl (fun t x => Ops.writeQ t x.1 x.2) t
  { t with flags := t.flags ||| o.flags }

/-- Write the s-registers of a group from one lane's results (R43). -/
def commitGroup (s : State) (gid : Nat) (o : LaneOut) : State :=
  o.d.foldl (fun s x => match x.1 with
    | .s i => s.setS gid i.val x.2
    | _ => s) s

/-- The results of an instruction in each active lane, written at once; then every lane of the cohort goes on. Every lane
computes from the state before the instruction; an s destination is written once for each home group with an active lane,
with the flags in every active lane of the group (R43, R240). -/
def commit (s : State) (c : Cohort) (h : Hdr) (f : Nat → Thread → LaneOut) : State :=
  let act := Ops.active s c h
  let s1 := s.mapThreads act (fun tid t => commitLane t (f (tidGid tid) t))
  let s2 := (Ops.groupsOf act).foldl (fun st gid =>
    match (Ops.lanesOf gid act).head?.bind s.thread? with
    | some t => commitGroup st gid (f gid t)
    | none => st) s1
  Ops.advance s2 c.tids

/-- The place of a register of a lane, as a destination of a long result. -/
def destOf (t : Thread) (r : Reg) : Option Dest :=
  match r with
  | .v i => some (Ops.vplace t i.val)
  | .s i => some (.s i.val)
  | _ => none

/-- The long operation that holds a lane's results until its shadow ends and they arrive (R49, R50). -/
def longOf (t : Thread) (la : BitVec 4) (o : LaneOut) : LongOp where
  id := 0
  inst := none
  left := la.toNat
  arrived := la == 0
  kind := .value
  dests := (List.range o.d.length).filterMap (fun i =>
    (o.d[i]?).bind (fun x => (destOf t x.1).map (fun d => (i, d))))
  parts := []
  vals := some (o.d.map Prod.snd)
  flags := o.flags
  acq := false
  pc := t.pc
  eas := 0

/-- The results of a long arithmetic instruction: with LA = 0 as `commit`, else held under a shadow of LA instructions. In an
all-scalar form the lowest active lane of each home group carries the result and every active lane its flags. -/
def commitLong (s : State) (c : Cohort) (h : Hdr) (f : Nat → Thread → LaneOut) : State :=
  if h.la = 0 then commit s c h f
  else
    let act := Ops.active s c h
    let outs := act.filterMap (fun tid => (s.thread? tid).map (fun t => (tid, t, f (tidGid tid) t)))
    let s1 := Ops.advance s c.tids
    outs.foldl (fun st x =>
      let lead := decide ((Ops.lanesOf (tidGid x.1) act).head? = some x.1)
      let o := longOf x.2.1 h.la x.2.2
      let o := if lead then o else { o with dests := o.dests.filter (fun d => match d.2 with | .s _ => false | _ => true) }
      Ops.openLong st x.1 o) s1

/-! ### Registers that an instruction reads and writes -/

/-- A register, predicate or special register as an operand. -/
inductive Loc where
  | reg (code : Nat)
  | pred (n : Nat)
  | special (n : Nat)
  deriving DecidableEq, Repr

/-- One operand: whether it is read, and whether it is written. -/
structure Use where
  loc : Loc
  rd  : Bool
  wr  : Bool
  deriving DecidableEq, Repr

/-- The 9-bit operand code of a register (Table 02.3). -/
def code (r : Reg) : Nat :=
  match r with
  | .v i => i.val
  | .k i => 0x40 + i.val
  | .h i => 0x50 + i.val
  | .m i => 0x70 + i.val
  | .s i => 0x80 + i.val

/-- n consecutive registers from r. -/
def block (r : Reg) (n : Nat) (rd wr : Bool) : List Use :=
  (List.range n).map (fun i => { loc := .reg (code r + i), rd := rd, wr := wr })

def rds (r : Reg) (n : Nat := 1) : List Use := block r n true false
def wrs (r : Reg) (n : Nat := 1) : List Use := block r n false true
def pair (b : Bool) : Nat := if b then 2 else 1

def rdSrc (x : Src) (n : Nat := 1) : List Use :=
  match x with
  | .reg r => rds r n
  | .imm _ => []

def rdSrcP (x : SrcP) (n : Nat := 1) : List Use :=
  match x with
  | .reg r => rds r n
  | .imm _ => []

def rdSrc7 (x : Src7) : List Use :=
  match x with
  | .reg r => rds r
  | .imm _ => []

def rdP (p : BitVec 7) : List Use := [{ loc := .pred p.toNat, rd := true, wr := false }]
def wrP (p : BitVec 7) : List Use := [{ loc := .pred p.toNat, rd := false, wr := true }]

def rdIdx (i : Option (Reg × BitVec 2)) : List Use :=
  match i with
  | none => []
  | some (r, _) => rds r

def rdAddr (a : Addr) : List Use := rds a.base 2 ++ rdIdx a.idx
def rdAddr20 (a : Addr20) : List Use := rds a.base 2 ++ rdIdx a.idx

def rdMask (m : Reg) : List Use := if m = .zero then [] else rds m 4

/-- The predicate word N: q(32N) to q(32N + 31). -/
def predWord (n : Nat) (rd wr : Bool) : List Use :=
  (List.range 32).map (fun i => { loc := .pred (32 * n + i), rd := rd, wr := wr })

def intUses (o : IntOps) (useB useC : Bool) (dn an bn cn : Nat) : List Use :=
  wrs o.d dn ++ rds o.a an ++ (if useB then rdSrc o.b bn else []) ++ (if useC then rds o.c cn else [])

/-- An integer form with every operand of width w. -/
def intStd (o : IntOps) (useB useC : Bool) : List Use :=
  let n := pair o.w64
  intUses o useB useC n n n n

def fpUses (o : FpOps) (useB useC : Bool) : List Use :=
  wrs o.d ++ rds o.a ++ (if useB then rdSrc o.b else []) ++ (if useC then rds o.c else [])

def matUses (d t k : Reg) (c : List Use) : List Use :=
  (if d = .zero then [] else wrs d) ++ block t 1 true true ++ rds k ++ c

/-- The operands of an instruction in field order D, A, B, C, then its predicate and special-register operands; the guard is
apart (R47, R201). Legal values are not required: every code names a register. -/
def uses : Instr → List Use
  | .brx _ a | .callx _ a => rds a 2
  | .meet _ k => rds k
  | .kset _ k m _ => wrs k ++ (if m = .zero then [] else rds m)
  | .wait _ a | .hcancel _ a => rds a
  | .htest _ a p => rds a ++ wrP p
  | .hmov _ d a | .hmovTok _ d a => wrs d ++ rds a
  | .rgn _ o =>
      [o.e0, o.e1, o.e2, o.e3].flatMap (fun e => match e with | none => [] | some r => rds r)
        ++ [o.e4, o.e5, o.e6, o.e7].flatMap (fun e => match e with
            | none => []
            | some n => [{ loc := .reg n.toNat, rd := true, wr := false }])
  | .mov _ d a b => wrs d (pair b) ++ rds a (pair b)
  | .movi _ d _ b => wrs d (pair b)
  | .sel _ o => wrs o.d (pair o.b64) ++ rds o.a (pair o.b64) ++ rds o.b (pair o.b64) ++ rdP o.p
  | .pmov _ o => wrP o.p ++ rdP o.x ++ rdP o.y
  | .pld _ o => rdAddr o.addr ++ predWord o.n.toNat false true
  | .pst _ o => rdAddr o.addr ++ predWord o.n.toNat true false
  | .srd _ d n => wrs d (pair (srWide n)) ++ [{ loc := .special n.toNat, rd := true, wr := false }]
  | .swr _ a n => rds a (pair (srWide n)) ++ [{ loc := .special n.toNat, rd := false, wr := true }]
  | .rdl _ d a b | .wrl _ d a b => wrs d ++ rds a ++ rdSrc7 b
  | .iadd _ o | .isub _ o | .imulh _ o | .idiv _ o | .irem _ o | .imin _ o | .imax _ o | .iand _ o | .ior _ o
  | .ixor _ o => intStd o true false
  | .imul _ o => intUses o true false (if o.xop = 1 then 2 else pair o.w64) (pair o.w64) (pair o.w64) 1
  | .imad _ o => intUses o true true (if o.xop = 1 then 2 else pair o.w64) (pair o.w64) (pair o.w64)
      (if o.xop = 1 then 2 else pair o.w64)
  | .iabs _ o | .inot _ o | .brev _ o => intStd o false false
  | .shl _ o | .shr _ o | .sar _ o | .rotl _ o => intUses o true false (pair o.w64) (pair o.w64) 1 1
  | .clz _ o | .popc _ o => intUses o false false 1 (pair o.w64) 1 1
  | .bfx _ o => intUses o true false 1 1 1 1
  | .bfi _ o | .dot4 _ o | .prmt _ o => intUses o true true 1 1 1 1
  | .icmp _ o => rds o.a (pair o.w64) ++ rdSrcP o.b (pair o.w64) ++ wrP o.p
  | .iaddc _ o | .isubb _ o => wrs o.d ++ rds o.a ++ rdSrcP o.b ++ rdP o.p ++ wrP o.p
  | .lea _ o => intUses o true false 2 2 1 1
  | .fadd _ o | .fsub _ o | .fmul _ o | .fmin _ o | .fmax _ o | .fdiv _ o => fpUses o true false
  | .ffma _ o => fpUses o true true
  | .fclass _ o | .frcp _ o | .frsq _ o | .fsqrt _ o | .fexp2 _ o | .flog2 _ o | .fsin _ o | .fcos _ o =>
      fpUses o false false
  | .fcmp _ o => rds o.a ++ rdSrcP o.b ++ wrP o.p
  | .hadd2 _ o | .hmul2 _ o | .hmax2 _ o | .hmin2 _ o => wrs o.d ++ rds o.a ++ rdSrc o.b
  | .hfma2 _ o => wrs o.d ++ rds o.a ++ rdSrc o.b ++ rds o.c
  | .cvt _ o => wrs o.d (pair (CvtOps.isPair o.dt)) ++ rds o.a (pair (CvtOps.isPair o.st))
      ++ (if CvtOps.isPacked o.dt then rds o.b else [])
  | .fround _ o => wrs o.d ++ rds o.a
  | .bfpq _ o => wrs o.d ++ rds o.a ++ rdMask o.c
  | .bfpx _ o => wrs o.d ++ rds o.a
  | .ballot _ o => wrs o.d (if o.x4 then 4 else 1) ++ rdMask o.mask ++ rdP o.p
  | .vote _ o => rdMask o.mask ++ wrP o.dp ++ rdP o.xp
  | .shfl _ o => wrs o.d (pair o.b64) ++ rds o.a (pair o.b64) ++ rdSrc7 o.b ++ rdMask o.mask
  | .matchx _ o => wrs o.d (if o.x4 then 4 else 1) ++ rds o.a (pair o.b64) ++ rdMask o.mask
  | .redx _ o => wrs o.d (pair (o.op == 11)) ++ rds o.a (pair (o.op == 11)) ++ rdMask o.mask
  | .scan _ o => wrs o.d ++ rds o.a ++ rdMask o.mask
  | .lmask _ o => wrs o.d (if o.x4 then 4 else 1)
  | .ld _ o => wrs o.d (pair (o.sz == 1)) ++ rdAddr o.addr
  | .st _ o => rds o.d (pair (o.sz == 1)) ++ rdAddr o.addr
  | .atom _ o => block o.d (pair o.w64) (o.op == 10) true ++ rdAddr20 o.addr ++ rds o.c (pair o.w64)
  | .red _ o => rds o.d (pair (o.op == 1)) ++ rdAddr20 o.addr
  | .prefl _ a _ | .go _ a | .cmaintWb _ a | .cmaintWbi _ a | .cmaintIc _ a => rdAddr a
  | .gath _ o => wrs o.d (o.n.toNat + 1) ++ rds o.base 2 ++ rds o.idx (o.n.toNat + 1)
  | .scat _ o => rds o.d (o.n.toNat + 1) ++ rds o.base 2 ++ rds o.idx (o.n.toNat + 1)
  | .lds _ o => wrs o.d (2 ^ o.n.toNat) ++ rdAddr o.addr
  | .sts _ o => rds o.d (2 ^ o.n.toNat) ++ rdAddr o.addr
  | .cpy _ o => wrs o.d ++ rds o.a 2 ++ rds o.b 2 ++ rdSrc o.len
  | .cfill _ o => wrs o.d ++ rds o.a 2 ++ rds o.b ++ rdSrc o.len
  | .cpy2 _ d a b c => wrs d ++ rds a 2 ++ rds b 2 ++ rds c 4
  | .pres _ b i _ p => rds b 2 ++ rdIdx i ++ wrP p
  | .sgive _ a d | .sfree _ a d | .stake _ a d _ _ => rds d ++ rds a 2
  | .stakeTry _ a d _ _ p => rds d ++ rds a 2 ++ wrP p
  | .carry _ m _ => rdSrc m
  | .whereIs _ d a => wrs d ++ rdAddr a
  | .mzero _ d t k | .msclU _ d t k _ => matUses d t k []
  | .mma _ o _ _ => matUses o.d o.t o.k (rds o.c 8)
  | .mmab _ o _ _ => matUses o.d o.t o.k (rds o.c 16)
  | .mld _ o _ | .mst _ o _ | .mscl _ o => matUses o.d o.t o.k (rds o.c 4)
  | .acall _ d a t _ => wrs d ++ rds a 2 ++ (match t with | .imm _ _ _ => [] | .reg r => rds r)
  | .acorr _ d a b => wrs d ++ rds a 2 ++ rds b
  | .astat _ d b => wrs d ++ rds b
  | .tenq _ a t => rds a 8 ++ (match t with | none => [] | some p => wrP p)
  | .tdeq _ a p _ => wrs a 8 ++ wrP p
  | .dcnew _ a n => wrs a ++ rdSrc n
  | .dcadd _ a n | .dcdec _ a n => rds a ++ rdSrc n
  | .dcrd _ a b => wrs a ++ rds b
  | .launch _ d a => (if d = .zero then [] else wrs d) ++ rds a 2
  | .dcfree _ a => rds a
  | .dln _ n b => rdSrc n ++ rds b
  | .dprog _ n => rdSrc n
  | .dslack _ a => wrs a
  | .coll _ d a _ _ | .fput _ d a | .fget _ d a => wrs d ++ rds a 8
  | .fsig _ d a => wrs d ++ rds a 4
  | .sysrd _ d _ => wrs d
  | .syswr _ a _ | .tlbiOth _ a | .tlbiPart _ a => rds a
  | .tlbiVa _ a => rds a 2
  | .chkset _ a n => rds a ++ rdSrc n
  | _ => []

/-- The operands with the guard last (R201). -/
def usesG (i : Instr) : List Use :=
  uses i ++ (match i.hdr? with
    | some h => rdP h.gp
    | none => [])

/-! ### Ports and kinds (Table 02.8, R43, R44) -/

/-- The issue ports of a sector. -/
inductive Port where
  | V | S | M | E
  deriving DecidableEq, Repr

/-- The port of Table 02.8 of an OP. -/
def portOf (op : Nat) : Port :=
  if op < 0x20 then .S
  else if op = 0x24 || op = 0x25 then .M
  else if op = 0x26 || op = 0x27 then .S
  else if op < 0x80 then .V
  else if op < 0x90 then .M
  else if op < 0x93 then .E
  else if op < 0xA8 then .M
  else if op < 0xF0 then .E
  else if op = 0xF3 || op = 0xF4 then .M
  else .S

/-- An instruction on V whose operands are all s-registers or immediates and that writes no predicate issues on S (R43). -/
def port (op : Nat) (i : Instr) : Port :=
  let p := portOf op
  if p = .V && (uses i).all (fun u => match u.loc with
      | .reg c => decide (0x80 ≤ c)
      | _ => false) then .S else p

/-- The control transfers (R44). -/
def isControl : Instr → Bool
  | .bra .. | .brx .. | .call .. | .callx .. | .ret _ | .exit _ | .trap .. | .brk .. | .eret _ => true
  | _ => false

/-- bra and brx. -/
def isBranch : Instr → Bool
  | .bra .. | .brx .. => true
  | _ => false

/-- The shadow-ending instructions (R44, R358); of the FM instructions only those for which MIG is no decode fault can have
MIG = 1. DEDUCED, log 16. -/
def endsShadows : Instr → Bool
  | .call .. | .callx .. | .ret _ | .exit _ | .trap .. | .brk .. | .eret _ | .yield _ | .sleep .. | .tfence _ | .meet ..
  | .kset .. | .bar _ | .cbar _ | .wait .. | .go .. | .back _ | .halt _ => true
  | .ld _ o => o.mig
  | .st _ o => o.mig
  | .atom _ o => o.mig
  | .red _ o => o.mig
  | _ => false

end Operands

end Sys2Proof.Machine
end

