-- ==== Sys2Proof/Machine/Telemetry.lean ====
section
/-! DEFINITION. The telemetry ring of a partition and its writer (R433, R434). -/

namespace Sys2Proof.Machine

open Sys2Proof

namespace Telemetry

/-- Where the writer performs an access of a translated address: in the home of a cached line, else at its port or host. -/
def target (l : Mem.Leaf) : Mem.Target :=
  if !l.unc then .cached l.pa else if Mem.isHost l.pa then .host l.pa else .port l.pa

/-- A 32-bit word of memory as the writer reads it: any owned copy is recalled and any partial merged first (R141, R143). -/
def word (s : State) (l : Mem.Leaf) (o : Nat) : Nat × State :=
  let l := { l with pa := l.pa + o }
  let s := if l.unc then s else Mem.serveRange s l.pa 4
  (Mem.ofBytes (Mem.readAt s (target l) 4), s)

/-- Write bytes at an offset from a translated address, as the partition. -/
def put (s : State) (p : Nat) (l : Mem.Leaf) (o : Nat) (b : List Byte) : State :=
  Mem.writeAt s p false (target { l with pa := l.pa + o }) b

/-- The writer's walks have read their tables; it belongs to no context (R433). -/
def walked (s : State) (l : Mem.Leaf) : State := l.tabs.foldl (fun s x => Mem.serveRange s x.2 8) s

/-- Whether a line that the writer needs is held back, a table's or the ring's own (R116, R140, R150). -/
def held (s : State) (l : Mem.Leaf) : Bool :=
  (l.pa :: l.tabs.map Prod.snd).any (fun a => Mem.heldBack s a || Mem.engineHolds s (a / 64))

/-- Whether the writer has to wait before it writes a record for a partition. -/
def waits (s : State) (p : Nat) : Bool :=
  let base := (s.part p).trbase.toNat
  match Mem.translate2 s p base .wr with
  | none => false
  | some h => held s h || (match Mem.translate2 s p (base + 64 + 32 * ((word s h 0).1 % 2 ^ (s.part p).log2nrec.toNat)) .wr with
      | some l => held s l
      | none => false)

/-- Write a check record of 32 bytes to the ring of a partition, or count a drop, or lose it. -/
def write (s : State) (p : Nat) (rec : List Byte) : State :=
  let base := (s.part p).trbase.toNat
  let nrec := 2 ^ (s.part p).log2nrec.toNat
  let lost := s.countHub 0x105 p 1
  match Mem.translate2 s p base .wr with
  | none => lost
  | some h =>
    let (tail, s1) := word (walked s h) h 4
    let (head, s1) := word s1 h 0
    if (head + 2 ^ 32 - tail) % 2 ^ 32 < nrec then
      match Mem.translate2 s p (base + 64 + 32 * (head % nrec)) .wr with
      | none => lost
      | some a => put (put (walked s1 a) p a 0 rec) p h 0 (Mem.toBytes 4 (head + 1))
    else
      let (drop, s1) := word s1 h 8
      put s1 p h 8 (Mem.toBytes 4 (drop + 1))

end Telemetry

end Sys2Proof.Machine
end

