-- ==== Sys2Proof/Machine/Matrix.lean ====
section
/-! DEFINITION. The matrix unit: tiles, what each command reads, computes and writes, its queue, and the events of the unit
(R277 to R300, sums by R95 to R97). -/

namespace Sys2Proof.Machine

open Sys2Proof

namespace Matrix

/-! ### Tiles -/

/-- A tile of a core. -/
def tile (k : Core) (n : Nat) : Tile := k.tiles.getD n Tile.reset

/-- Word 64 i + j of a tile (R277). -/
def word (t : Tile) (n : Nat) : Word :=
  match t.words.get? n with
  | some w => w
  | none => match t.undef with
    | none => 0
    | some k => Config.freeWord (k + n)

/-- Replace every word of a tile. -/
def setWords (t : Tile) (f : Nat → Word) : Tile :=
  { t with words := ((List.range 4096).map (fun n => (n, f n))).filter (fun x => x.2 != 0), undef := none }

/-- The column scale of column j; +1.0 where none was set. -/
def scaleAt (m : Tab Word) (j : Nat) : Word := m.getD j 0x3F800000

/-- A tile whose words are free values. DESIGN CHOICE, log 4. -/
def undefine (s : State) (t : Tile) : Tile × State := ({ t with words := [], undef := some s.free }, s.takeFree 4096)

/-! ### Descriptors and operands -/

/-- Word i of a descriptor. -/
def d (l : List Word) (i : Nat) : Word := l.getD i 0

/-- The address in a pair of descriptor words. -/
def base (l : List Word) (i : Nat) : DWord := d l (i + 1) ++ d l i

/-- The depth K of mma and mmab. -/
def depth (k16 : BitVec 8) : Nat := 16 * (k16.toNat + 1)

/-- Element size of the mma operands. -/
def mmaSize (ty : BitVec 2) : Nat := if ty = 2 then 1 else 2

/-- Element sizes of mld and mst (R290, Table 10.6). -/
def mldSize (ty : BitVec 2) : Nat := if ty = 0 then 4 else 2
def mstSize (ty : BitVec 3) : Nat := [4, 4, 2, 2, 1, 4].getD ty.toNat 4

/-- A block of rows of memory: base, stride, number of rows, bytes of a row, and element size. -/
structure Rows where
  base   : DWord
  stride : Nat
  n      : Nat
  len    : Nat
  es     : Nat

/-- The address of row i. -/
def Rows.addr (r : Rows) (i : Nat) : DWord := r.base + BitVec.ofNat 64 (i * r.stride)

/-- What a command reads: A, B, and their scales for mmab; the operand of mld and mscl. -/
def sources (i : Instr) (l : List Word) : List Rows :=
  match i with
  | .mma _ _ ty k16 =>
    let k := depth k16
    let es := mmaSize ty
    let lay := d l 3
    [if lay.getLsbD 0 then { base := base l 0, stride := (d l 2).toNat, n := k, len := 64 * es, es := es }
      else { base := base l 0, stride := (d l 2).toNat, n := 64, len := k * es, es := es },
     if lay.getLsbD 1 then { base := base l 4, stride := (d l 6).toNat, n := 64, len := k * es, es := es }
      else { base := base l 4, stride := (d l 6).toNat, n := k, len := 64 * es, es := es }]
  | .mmab _ _ _ k16 =>
    let k := depth k16
    [{ base := base l 0, stride := (d l 2).toNat, n := 64, len := k, es := 1 },
     { base := base l 4, stride := (d l 6).toNat, n := 64, len := k, es := 1 },
     { base := base l 8, stride := (d l 10).toNat, n := 64, len := k / 16, es := 1 },
     { base := base l 12, stride := (d l 14).toNat, n := 64, len := k / 16, es := 1 }]
  | .mld _ _ ty => [{ base := base l 0, stride := (d l 2).toNat, n := 64, len := 64 * mldSize ty, es := mldSize ty }]
  | .mscl _ _ => [{ base := base l 0, stride := 0, n := 1, len := 256, es := 4 }]
  | _ => []

/-- What a command writes to memory. -/
def dests (i : Instr) (l : List Word) : List Rows :=
  match i with
  | .mst _ _ ty => [{ base := base l 0, stride := (d l 2).toNat, n := 64, len := 64 * mstSize ty, es := mstSize ty }]
  | _ => []

/-- Rows p to p + n − 1 of a block, and n bytes from byte o of every row. -/
def Rows.rows (r : Rows) (p n : Nat) : Rows := { r with base := r.addr p, n := n }
def Rows.cols (r : Rows) (o n : Nat) : Rows := { r with base := r.base + BitVec.ofNat 64 o, len := n }

/-- The number of k-steps of a product. -/
def steps (i : Instr) : Nat :=
  match i with
  | .mma _ _ _ k | .mmab _ _ _ k => k.toNat + 1
  | _ => 0

/-- The units of work of a command: the k-steps of a product (R294), the rows of mld and mst, one for the others. -/
def units (i : Instr) : Nat :=
  match i with
  | .mma _ _ _ _ | .mmab _ _ _ _ => steps i
  | .mld _ _ _ | .mst _ _ _ => 64
  | _ => 1

/-- What units p to q − 1 of a command read, and what they write. -/
def sourcesIn (i : Instr) (l : List Word) (p q : Nat) : List Rows :=
  match i, sources i l with
  | .mma _ _ ty _, [a, b] =>
    let es := mmaSize ty
    let part (byRow : Bool) (r : Rows) : Rows :=
      if byRow then r.rows (16 * p) (16 * (q - p)) else r.cols (16 * p * es) (16 * (q - p) * es)
    [part ((d l 3).getLsbD 0) a, part (!(d l 3).getLsbD 1) b]
  | .mmab _ _ _ _, [a, b, sa, sb] =>
    [a.cols (16 * p) (16 * (q - p)), b.cols (16 * p) (16 * (q - p)), sa.cols p (q - p), sb.cols p (q - p)]
  | .mld _ _ _, [r] => [r.rows p (q - p)]
  | _, rs => rs

def destsIn (i : Instr) (l : List Word) (p q : Nat) : List Rows := (dests i l).map (fun r => r.rows p (q - p))

/-- Whether every reserved descriptor word is zero (R285). -/
def reservedOk (i : Instr) (l : List Word) : Bool :=
  match i with
  | .mma _ _ _ _ => d l 3 &&& 0xFFFFFFFC == 0 && d l 7 == 0
  | .mmab _ _ _ _ => d l 3 == 0 && d l 7 == 0 && d l 11 == 0 && d l 15 == 0
  | .mld _ _ _ | .mst _ _ _ => d l 3 == 0
  | .mscl _ _ => d l 2 == 0 && d l 3 == 0
  | _ => true

/-- The extra alignment of mmab (R295). -/
def blocksOk (i : Instr) (l : List Word) : Bool :=
  match i with
  | .mmab _ _ _ _ => (d l 0).toNat % 16 == 0 && (d l 4).toNat % 16 == 0 && (d l 2).toNat % 16 == 0 && (d l 6).toNat % 16 == 0
  | _ => true

/-- The number of descriptor words, and the register that holds the first. -/
def descRegs (i : Instr) : Option (Reg × Nat) :=
  match i with
  | .mma _ o _ _ => some (o.c, 8)
  | .mmab _ o _ _ => some (o.c, 16)
  | .mld _ o _ => some (o.c, 4)
  | .mst _ o _ => some (o.c, 4)
  | .mscl _ o => some (o.c, 4)
  | _ => none

/-- The handle, the tile and the meet register of a command. -/
def operands (i : Instr) : Option (Option Nat × Nat × Nat) :=
  let pick (d t k : Reg) : Option (Option Nat × Nat × Nat) :=
    match t, k with
    | .m m, .k k => some ((match d with | .h h => some h.val | _ => none), m.val, k.val)
    | _, _ => none
  match i with
  | .mzero _ d t k | .msclU _ d t k _ => pick d t k
  | .mma _ o _ _ | .mmab _ o _ _ | .mld _ o _ | .mst _ o _ | .mscl _ o => pick o.d o.t o.k
  | _ => none

/-- The three resources of the unit (R283): 0 the multiplier array, 1 the tile port, 2 the scale port. -/
def resource (i : Instr) : Nat :=
  match i with
  | .mma _ _ _ _ | .mmab _ _ _ _ => 0
  | .mscl _ _ | .msclU _ _ _ _ _ => 2
  | _ => 1

def isScale (i : Instr) : Bool := resource i == 2

def isStore (i : Instr) : Bool :=
  match i with
  | .mst _ _ _ => true
  | _ => false

/-! ### Places and lines -/

/-- A place that a matrix operand may lie in: not a vault (R285). -/
def place (s : State) (tm : Team) (ea : DWord) (n : Nat) : Option Mem.Place :=
  match Engine.place s tm ea n with
  | some (.vault _) => none
  | p => p

/-- Every row of a block as a place, or none where one row has none. -/
def places (s : State) (tm : Team) (r : Rows) : Option (List Mem.Place) := (List.range r.n).mapM (fun i => place s tm (r.addr i) r.len)

/-- The physical lines of a list of blocks. -/
def linesOf (s : State) (ctx : Nat) (tm : Team) (rs : List Rows) (acc : Mem.Acc) : NSet :=
  rs.foldl (fun l r => (List.range r.n).foldl (fun l i =>
    match place s tm (r.addr i) r.len with
    | some p => NSet.addAll l (Engine.lines s tm.core ctx p r.len acc)
    | none => l) l) []

/-- Whether some row satisfies a test of its place and length. -/
def anyRow (s : State) (tm : Team) (rs : List Rows) (f : Mem.Place → Nat → Bool) : Bool :=
  rs.any (fun r => (List.range r.n).any (fun i => match place s tm (r.addr i) r.len with
    | some p => f p r.len
    | none => false))

/-- Whether rows have to wait for a walk (R110), and whether an access to them by a command has to wait. -/
def walksAt (s : State) (ctx : Nat) (tm : Team) (rs : List Rows) (acc : Mem.Acc) : Bool :=
  anyRow s tm rs (fun p n => Engine.walks s tm.core ctx p n acc)
def blockedAt (s : State) (ctx : Nat) (tm : Team) (id : Nat) (rs : List Rows) (wr : Bool) : Bool :=
  anyRow s tm rs (fun p n => Engine.blocked s tm.core ctx (some id) p n wr)

/-- Every row as a place with its length. -/
def rowPlaces (s : State) (tm : Team) (rs : List Rows) : List (Mem.Place × Nat) :=
  rs.flatMap (fun r => (List.range r.n).filterMap (fun i => (place s tm (r.addr i) r.len).map (fun p => (p, r.len))))

/-- The error of the checks of R285, 0 for none: reserved words, places and limits, alignment, then translation and the
attribute cached. -/
def rowError (s : State) (ctx : Nat) (tm : Team) (i : Instr) (l : List Word) : Nat :=
  let all := sources i l ++ dests i l
  if !reservedOk i l then 0x01
  else if !all.all (fun r => (places s tm r).isSome) then 0x11
  else if !blocksOk i l || !all.all (fun r => (List.range r.n).all (fun k => (r.addr k).toNat % r.es == 0)) then 0x12
  else
    let one (acc : Mem.Acc) (e : Nat) (p : Mem.Place) (n : Nat) : Nat :=
      if e ≠ 0 then e
      else match p with
        | .glob a => (Engine.pieces 64 a (n / 64 + 2) 0 n).foldl (fun e x =>
            if e ≠ 0 then e
            else match Mem.translate s tm.core ctx (a + x.1) acc 0 with
              | .error c => c.code
              | .ok q => if q.unc then 0x11 else 0) 0
        | _ => 0
    let scan (acc : Mem.Acc) (rs : List Rows) (e : Nat) : Nat :=
      rs.foldl (fun e r => ((places s tm r).getD []).foldl (fun e p => one acc e p r.len) e) e
    scan .wr (dests i l) (scan .rd (sources i l) 0)

/-- Read the rows of a block. -/
def readRows (s : State) (ctx : Nat) (tm : Team) (r : Rows) : Except Engine.Err (List (List Byte) × State) :=
  (List.range r.n).foldl (fun acc i =>
    match acc with
    | .error e => .error e
    | .ok (l, s) =>
      match place s tm (r.addr i) r.len with
      | none => .error (0x11, s)
      | some p =>
        match Engine.read s tm.core ctx p r.len with
        | .error e => .error e
        | .ok (b, s') => .ok (l ++ [b], s')) (.ok ([], s))

/-- Read several blocks. -/
def readAll (s : State) (ctx : Nat) (tm : Team) (rs : List Rows) : Except Engine.Err (List (List (List Byte)) × State) :=
  rs.foldl (fun acc r =>
    match acc with
    | .error e => .error e
    | .ok (l, s) =>
      match readRows s ctx tm r with
      | .error e => .error e
      | .ok (b, s') => .ok (l ++ [b], s')) (.ok ([], s))

/-- Element c of row r of a block, es bytes wide. -/
def elem (b : List (List Byte)) (r c es : Nat) : Nat := Mem.ofBytes (((b.getD r []).drop (c * es)).take es)

/-! ### Sums (R95 to R97) -/

/-- The exact group sum of R95: terms in no order, then one rounding. -/
def groupSum (c : Flags.Fp) (ps : List (Flags.Fp × Flags.Fl)) : Word × Flags.Fl :=
  let terms := c :: ps.map Prod.fst
  let fl := ps.foldl (fun f p => f ||| p.2) (Flags.sig c)
  let pos := terms.any (fun x => x == Flags.Fp.inf false)
  let neg := terms.any (fun x => x == Flags.Fp.inf true)
  if pos && neg then (Flags.qnan32, fl ||| Flags.iv)
  else if terms.any Flags.isNan then (Flags.qnan32, fl)
  else
    let r := Flags.deliver Flags.f32 0 false (ps.foldl (fun a p => (Flags.addX 0 a p.1).1) c)
    (BitVec.ofNat 32 r.1, fl ||| r.2)

/-- One k-step of 16 of a BF16 or FP16 element: two groups of eight. -/
def fpStep (fmt : Flags.Fmt) (a b : Nat → Nat) (k0 : Nat) (c : Word × Flags.Fl) : Word × Flags.Fl :=
  let group (k : Nat) (c : Word × Flags.Fl) : Word × Flags.Fl :=
    let ps := (List.range 8).map (fun j =>
      Flags.mulX (Flags.unpack fmt false (a (k + j))) (Flags.unpack fmt false (b (k + j))))
    let r := groupSum (Flags.unpack Flags.f32 false c.1.toNat) ps
    (r.1, c.2 ||| r.2)
  group (k0 + 8) (group k0 c)

/-- A signed byte. -/
def sbyte (n : Nat) : Int := (BitVec.ofNat 8 n).toInt

/-- One k-step of an INT8 element. -/
def intStep (a b : Nat → Nat) (k0 : Nat) (c : Word × Flags.Fl) : Word × Flags.Fl :=
  (BitVec.ofInt 32 ((List.range 16).foldl (fun x j => x + sbyte (a (k0 + j)) * sbyte (b (k0 + j))) c.1.toInt), c.2)

/-- The mantissa that a unit of width n reads of a byte: its top n bits. -/
def top (n x : Nat) : Int := sbyte (x / 2 ^ (8 - n) * 2 ^ (8 - n))

/-- One block pair (R97). -/
def bfpStep (n : Nat) (a b : Nat → Nat) (ea eb k0 : Nat) (c : Word × Flags.Fl) : Word × Flags.Fl :=
  let p : Word × Flags.Fl :=
    if ea = 255 || eb = 255 then (Flags.qnan32, 0)
    else if ea = 0 || eb = 0 then (0, 0)
    else
      let x := (List.range 16).foldl (fun x j => x + top n (a (k0 + j)) * top n (b (k0 + j))) (0 : Int)
      let r := Flags.round Flags.f32 0 false (decide (x < 0)) x.natAbs ((ea : Int) + (eb : Int) - 268)
      (BitVec.ofNat 32 r.1, r.2)
  let r := Flags.addRne c.1 p.1
  (r.1, c.2 ||| p.2 ||| r.2)

/-- The element accessors of mma's operands, by LAYOUT. -/
def mmaA (l : List Word) (es : Nat) (a : List (List Byte)) (i k : Nat) : Nat :=
  if (d l 3).getLsbD 0 then elem a k i es else elem a i k es

def mmaB (l : List Word) (es : Nat) (b : List (List Byte)) (k j : Nat) : Nat :=
  if (d l 3).getLsbD 1 then elem b j k es else elem b k j es

/-- Element (i, j) after k-steps p0 to p1 − 1. -/
def product (ins : Instr) (l : List Word) (bs : List (List (List Byte))) (p0 p1 : Nat) (i j : Nat) (c : Word) :
    Word × Flags.Fl :=
  let a := bs.getD 0 []
  let b := bs.getD 1 []
  let steps := (List.range (p1 - p0)).map (p0 + ·)
  match ins with
  | .mma _ _ ty _ =>
    let es := mmaSize ty
    let fa := mmaA l es a i
    let fb (k : Nat) : Nat := mmaB l es b k j
    steps.foldl (fun c p =>
      match ty.toNat with
      | 0 => fpStep Flags.bf16 fa fb (16 * p) c
      | 1 => fpStep Flags.f16 fa fb (16 * p) c
      | _ => intStep fa fb (16 * p) c) (c, 0)
  | .mmab _ _ m _ =>
    steps.foldl (fun c p =>
      bfpStep (m.toNat + 2) (fun k => elem a i k 1) (fun k => elem b j k 1) (elem (bs.getD 2 []) i p 1)
        (elem (bs.getD 3 []) j p 1) (16 * p) c) (c, 0)
  | _ => (c, 0)

/-- Apply k-steps to every element of a tile. -/
def accumulate (t : Tile) (ins : Instr) (l : List Word) (bs : List (List (List Byte))) (p0 p1 : Nat) : Tile × Flags.Fl :=
  let rs := (List.range 4096).map (fun n => product ins l bs p0 p1 (n / 64) (n % 64) (word t n))
  (setWords t (fun n => (rs.getD n (0, 0)).1), rs.foldl (fun f r => f ||| r.2) 0)

/-! ### mld, mst -/

/-- An element as mld stores it in a tile (R290). -/
def loadElem (ty : BitVec 2) (x : Nat) : Word × Flags.Fl :=
  match ty.toNat with
  | 0 => (BitVec.ofNat 32 x, 0)
  | 1 => (BitVec.ofNat 32 (x * 65536), 0)
  | _ =>
    let v := Flags.unpack Flags.f16 false x
    let r := Flags.deliver Flags.f32 0 false v
    (BitVec.ofNat 32 r.1, Flags.sig v ||| r.2)

/-- An element as mst writes it (Table 10.6). -/
def storeElem (ty : BitVec 3) (c s : Word) : Nat × Flags.Fl :=
  let sv := Flags.unpack Flags.f32 false s.toNat
  let x := Flags.mulX (Flags.unpack Flags.f32 false c.toNat) sv
  match ty.toNat with
  | 0 => (c.toNat, 0)
  | 1 => Flags.rounded Flags.f32 0 false x
  | 2 => Flags.rounded Flags.bf16 0 false x
  | 3 => Flags.rounded Flags.f16 0 false x
  | 4 =>
    let r := Flags.fpToInt 0 true 8 x.1
    ((BitVec.ofInt 8 r.1).toNat, x.2 ||| r.2)
  | _ => Flags.rounded Flags.f32 0 false (Flags.mulX (Flags.ofInt c.toInt 0 false) sv)

/-- The bytes that mst writes for rows p to q − 1, and the flags of the conversion. -/
def storeRows (t : Tile) (scale : Tab Word) (ty : BitVec 3) (p q : Nat) : List (List Byte) × Flags.Fl :=
  let es := mstSize ty
  let row (i : Nat) : List (Nat × Flags.Fl) :=
    (List.range 64).map (fun j => storeElem ty (word t (64 * i + j)) (scaleAt scale j))
  let rows := (List.range (q - p)).map (fun i => row (p + i))
  (rows.map (fun r => r.flatMap (fun x => Mem.toBytes es x.1)),
   rows.foldl (fun f r => r.foldl (fun f x => f ||| x.2) f) 0)

/-- Write rows in ascending order. -/
def writeRows (s : State) (ctx : Nat) (tm : Team) (r : Rows) (b : List (List Byte)) : Except Engine.Err State :=
  (List.range r.n).foldl (fun acc i =>
    match acc with
    | .error e => .error e
    | .ok s =>
      match place s tm (r.addr i) r.len with
      | none => .error (0x11, s)
      | some p => Engine.write s tm.core ctx p (b.getD i [])) (.ok s)

/-- Put rows of words into a tile from row p on, as mld does. -/
def putRows (t : Tile) (p : Nat) (ws : List Word) : Tile :=
  { t with words := (List.range ws.length).foldl (fun m i =>
      if t.undef.isNone then m.put 0 (64 * p + i) (ws.getD i 0) else m.set (64 * p + i) (ws.getD i 0)) t.words }

/-! ### The queue -/

/-- A command of a core. -/
def find? (s : State) (core id : Nat) : Option MatCmd := (s.core core).matq.find? (fun c => c.id == id)

/-- Commands that wait in the queue. -/
def queued (k : Core) : Nat := (k.matq.filter (fun c => !c.started)).length

/-- Whether every scratchpad line that a command reads is present. -/
def present (s : State) (tm : Team) (c : MatCmd) : Bool :=
  (sources c.instr c.desc).all (fun r => (List.range r.n).all (fun i =>
    match place s tm (r.addr i) r.len with
    | some p => !Engine.absent s p r.len
    | none => true))

/-- Whether an unstarted command may start but for older commands that wait for its resource (R283, R292). -/
def couldStart (s : State) (k : Core) (c : MatCmd) : Bool :=
  let earlier := k.matq.takeWhile (fun x => x.id != c.id)
  (earlier.all (fun e => e.phys != c.phys || (isScale c.instr && isStore e.instr)))
    && k.matq.all (fun e => !e.started || resource e.instr != resource c.instr)
    && (match s.teams.get? c.team with
      | some tm => present s tm c
      | none => true)

/-- Whether a command starts now. -/
def mayStart (s : State) (k : Core) (c : MatCmd) : Bool :=
  couldStart s k c
    && (k.matq.takeWhile (fun x => x.id != c.id)).all (fun e =>
      e.started || resource e.instr != resource c.instr || !couldStart s k e)

/-- Change a queued command. -/
def modify (s : State) (core id : Nat) (f : MatCmd → MatCmd) : State :=
  s.modCore core (fun k => { k with matq := k.matq.map (fun c => if c.id = id then f c else c) })

def setTile (s : State) (core n : Nat) (t : Tile) : State :=
  s.modCore core (fun k => { k with tiles := k.tiles.set n t })

/-- The status word (Table 10.3). -/
def status (code : Nat) (canc : Bool) (fl : Flags.Fl) : Word :=
  BitVec.ofNat 32 (code + (if canc then 256 else 0) + 512 * fl.toNat)

/-- The commands of a command's tile that were issued before it and are still in the unit. -/
def before (k : Core) (c : MatCmd) : List MatCmd :=
  (k.matq.takeWhile (fun e => e.id != c.id)).filter (fun e => e.phys == c.phys)

/-- What a command that ended with an error, or was cancelled, leaves in its tile: undefined words, the first ERR, CANC (R287).
Commands on one tile take effect in issue order (R283): an earlier one that is still in the unit does not see it, and the tile
takes it when that one leaves. -/
def mark (s : State) (core : Nat) (c : MatCmd) (m : Nat × Bool) : State :=
  match (before (s.core core) c).getLast? with
  | some e => modify s core e.id (fun e => { e with marks := e.marks ++ [m] })
  | none =>
    let (t, s) := undefine s (tile (s.core core) c.phys)
    setTile s core c.phys { t with err := if t.err = 0 then m.1 else t.err, canc := t.canc || m.2 }

/-- A command leaves the unit with its status; later commands' marks on its tile come after it. -/
def leave (s : State) (core : Nat) (c : MatCmd) (st : Word) : State :=
  let s := Engine.release s c.id
  let s := ((find? s core c.id).getD c).marks.foldl (fun s m => mark s core c m) s
  let s := s.modCore core (fun k => { k with matq := k.matq.filter (fun x => x.id ≠ c.id) })
  Life.complete s c.id st

/-- The global lines that a command still holds for its destination are released with bytes that are undefined (R140); what it has
written to a scratchpad stands. -/
def scrambleDest (s : State) (c : MatCmd) : State :=
  match s.teams.get? c.team with
  | none => s
  | some tm => (rowPlaces s tm (destsIn c.instr c.desc c.kstep (units c.instr))).foldl (fun s x => match x.1 with
      | .glob _ => Engine.scramble s tm.core c.ctx x.1 x.2
      | _ => s) s

/-- The scales of a tile change for the commands of the tile that were issued after this one (R292). -/
def rescale (s : State) (core : Nat) (c : MatCmd) (m : Tab Word) : State :=
  let s := setTile s core c.phys { tile (s.core core) c.phys with scale := m }
  s.modCore core (fun k => { k with
    matq := k.matq.takeWhile (fun e => e.id != c.id) ++ (k.matq.dropWhile (fun e => e.id != c.id)).map (fun e =>
      if e.phys = c.phys then { e with scale := m } else e) })

/-- The FLAGS of a status: the flags that the command raised, and for mst the tile's too (Table 10.3). -/
def raised (s : State) (core : Nat) (c : MatCmd) : Flags.Fl :=
  if isStore c.instr then (tile (s.core core) c.phys).flags ||| c.flags else c.flags

/-- A command that ends with an error: a failing mld has cleared the tile's state, a failed mscl leaves its scales undefined, the
tile's words are undefined and ERR takes the first code (R287, R292). -/
def fail (s : State) (core : Nat) (c : MatCmd) (code : Nat) : State :=
  let fl := raised s core c
  let s := match c.instr with
    | .mld _ _ _ => setTile s core c.phys { tile (s.core core) c.phys with flags := c.flags, err := 0, canc := false }
    | _ => s
  let s :=
    if isScale c.instr then
      rescale (s.takeFree 64) core c ((List.range 64).foldl (fun m j => m.put 0x3F800000 j (Config.freeWord (s.free + j))) [])
    else s
  leave (mark (scrambleDest s c) core c (code, c.cancel)) core c (status code c.cancel fl)

/-- A command that is cancelled before it has started, or a product at a k-step boundary: its tile's words are undefined and CANC is
set (R287). -/
def cancelled (s : State) (core : Nat) (c : MatCmd) : State :=
  let fl := raised s core c
  leave (mark (scrambleDest s c) core c (0, true)) core c (status 0 true fl)

/-! ### Check sampling (R297, R298) -/

/-- The reference of an element over n k-steps whose operands are given: one rounding at each product and each sum, or the exact
integer sum. -/
def reference (ins : Instr) (l : List Word) (bs : List (List (List Byte))) (n i j : Nat) (c : Word) : Word :=
  let a := bs.getD 0 []
  let b := bs.getD 1 []
  let ks := List.range (16 * n)
  match ins with
  | .mma _ _ ty _ =>
    if ty = 2 then (product ins l bs 0 n i j c).1
    else
      let fmt := if ty = 0 then Flags.bf16 else Flags.f16
      let wide (x : Nat) : Word := BitVec.ofNat 32 (Flags.deliver Flags.f32 0 false (Flags.unpack fmt false x)).1
      ks.foldl (fun c k =>
        (Flags.addRne c (Flags.mulRne (wide (mmaA l (mmaSize ty) a i k)) (wide (mmaB l (mmaSize ty) b k j))).1).1) c
  | .mmab _ _ m _ =>
    let n := m.toNat + 2
    ks.foldl (fun c k =>
      let x := Flags.expand (top n (elem a i k 1)) (elem (bs.getD 2 []) i (k / 16) 1)
      let y := Flags.expand (top n (elem b j k 1)) (elem (bs.getD 3 []) j (k / 16) 1)
      (Flags.addRne c (Flags.mulRne x y).1).1) c
  | _ => c

/-- The references of a product after n more k-steps; they begin with the tile as it stood before the command (R297). -/
def refer (t : Tile) (c : MatCmd) (bs : List (List (List Byte))) (n : Nat) : List Word :=
  let r := c.ref.getD ((List.range 4096).map (word t))
  (List.range 4096).map (fun e => reference c.instr c.desc bs n (e / 64) (e % 64) (r.getD e 0))

/-- |a − b| as FP32, a NaN for a NaN. -/
def deviation (a b : Word) : Word :=
  BitVec.ofNat 32 ((Flags.sub Flags.f32 0 false a.toNat b.toNat).1 % 2 ^ 31)

/-- The largest deviation of a list; any NaN makes it the canonical NaN. -/
def largest (l : List Word) : Word :=
  if l.any (fun w => decide (0x7F800000 < w.toNat)) then Flags.qnan32
  else l.foldl (fun m w => if m.toNat < w.toNat then w else m) 0

/-- The integer deviation of mma.s8 as FP32. -/
def intDeviation (a b : Word) : Word :=
  let x := (a - b).toInt
  BitVec.ofNat 32 (Flags.round Flags.f32 0 false false x.natAbs 0).1

/-- The OP and SUB of a checked command. -/
def opSub (i : Instr) : Nat × Nat :=
  match i with
  | .mma _ _ ty _ => (0xA9, ty.toNat)
  | .mmab _ _ m _ => (0xAA, m.toNat)
  | _ => (0, 0)

/-- The check record (Table 10.9) of a command, from its reference and its tile after it. -/
def record (s : State) (core : Nat) (c : MatCmd) (ref : List Word) (after : Tile) : List Byte :=
  let isInt : Bool := match c.instr with
    | .mma _ _ ty _ => ty == 2
    | _ => false
  let devs := (List.range 4096).map (fun n =>
    let r := ref.getD n 0
    if isInt then intDeviation (word after n) r else deviation (word after n) r)
  let os := opSub c.instr
  Mem.toBytes 1 1 ++ Mem.toBytes 1 core ++ Mem.toBytes 1 c.tile ++ Mem.toBytes 1 os.1 ++ Mem.toBytes 4 (largest devs).toNat
    ++ Mem.toBytes 8 s.now ++ Mem.toBytes 2 (16 * steps c.instr) ++ Mem.toBytes 1 os.2 ++ Mem.toBytes 1 0
    ++ Mem.toBytes 4 c.ctx ++ Mem.toBytes 8 0

/-- Count a completed product, and sample it when the count reaches N. A command that was stopped part-way is not checked. -/
def sample (s : State) (core : Nat) (c : MatCmd) : State :=
  let p := s.ctxPart c.ctx
  let n := (s.part p).interval
  let k := (s.core core).matCount + 1
  if n ≠ 0 && decide (n ≤ k) && !c.parted then
    s.modCore core (fun x => { x with
      matCount := 0, matChecks := x.matChecks ++ [(p, record s core c (c.ref.getD []) (tile x c.phys))] })
  else s.modCore core (fun x => { x with matCount := k })

/-! ### Work and completion -/

/-- The lines of units q on stay held; a line that no later unit reads or writes is released (R284). -/
def releaseDone (s : State) (tm : Team) (c : MatCmd) (q : Nat) : State :=
  let u := units c.instr
  Engine.keepHold s c.id (linesOf s c.ctx tm (destsIn c.instr c.desc q u) .wr) (linesOf s c.ctx tm (sourcesIn c.instr c.desc q u) .rd)

/-- Whether a command finds a failing tile word: a product and an mst read every word of their tile (R384). -/
def tileFails (k : Core) (c : MatCmd) : Bool := (resource c.instr == 0 || isStore c.instr) && k.tilePoison.contains c.phys

/-- Units kstep to q − 1 of a started command: its reads, its words or bytes, the flags it raises, its progress, and the lines that it
no longer needs. An error ends it at once. -/
def advanceTo (s : State) (core : Nat) (tm : Team) (c : MatCmd) (q : Nat) : Except Engine.Err State :=
  if q ≤ c.kstep then .ok s
  else if tileFails (s.core core) c then .error (0x52, s)
  else match readAll s c.ctx tm (sourcesIn c.instr c.desc c.kstep q) with
  | .error e => .error e
  | .ok (bs, s) =>
    let n := q - c.kstep
    let t := tile (s.core core) c.phys
    let went (s : State) (t : Tile) (fl : Flags.Fl) (ref : Option (List Word)) : State :=
      releaseDone (modify (setTile s core c.phys t) core c.id
        (fun c => { c with kstep := q, flags := c.flags ||| fl, ref := ref })) tm c q
    match c.instr with
    | .mzero _ _ _ _ => .ok (went s { t with words := [], undef := none } 0 none)
    | .msclU _ _ _ _ f => .ok (went (rescale s core c ((List.range 64).foldl (fun m j => m.put 0x3F800000 j f) []))
        { t with scale := (List.range 64).foldl (fun m j => m.put 0x3F800000 j f) [] } 0 none)
    | .mscl _ _ =>
      let m : Tab Word := (List.range 64).foldl (fun m j =>
        m.put 0x3F800000 j (BitVec.ofNat 32 (elem (bs.getD 0 []) 0 j 4))) []
      .ok (went (rescale s core c m) { t with scale := m } 0 none)
    | .mld _ _ ty =>
      let xs := (List.range (64 * n)).map (fun e => loadElem ty (elem (bs.getD 0 []) (e / 64) (e % 64) (mldSize ty)))
      .ok (went s (putRows t c.kstep (xs.map Prod.fst)) (xs.foldl (fun f x => f ||| x.2) 0) none)
    | .mst _ _ ty =>
      let r := storeRows t c.scale ty c.kstep q
      let out := (destsIn c.instr c.desc c.kstep q).foldl (fun (acc : Except Engine.Err State) x =>
        match acc with
        | .error e => .error e
        | .ok s => writeRows s c.ctx tm x r.1) (.ok s)
      match out with
      | .error e => .error e
      | .ok s => .ok (went s t r.2 none)
    | _ =>
      let r := accumulate t c.instr c.desc bs 0 n
      .ok (went s { r.1 with flags := t.flags ||| r.2 } r.2 (some (refer t c bs n)))

/-- A command whose units are all done: what it leaves in its tile, and its status. A running command that is not a product completes
although it was cancelled, and then its tile's words are undefined and CANC is set; the global lines of its destination are released
with undefined bytes (R140, R287). -/
def finish (s : State) (core : Nat) (c : MatCmd) : State :=
  let t := tile (s.core core) c.phys
  let clear (fl : Flags.Fl) (s : State) : State :=
    (setTile s core c.phys { t with flags := fl, err := 0, canc := false, undef := none }).modCore core (fun k =>
      { k with tilePoison := k.tilePoison.del c.phys })
  let s := match c.instr with
    | .mzero _ _ _ _ => clear 0 s
    | .mld _ _ _ => clear c.flags s
    | .mma _ _ _ _ | .mmab _ _ _ _ => if c.cancel then s else sample s core c
    | _ => s
  let fl := raised s core c
  let s := if c.cancel then mark (scrambleDest s { c with kstep := 0 }) core c (0, true) else s
  leave s core c (status 0 c.cancel fl)

/-- An mst of a tile with ERR or CANC writes nothing and reports them (R287). -/
def refuse (s : State) (core : Nat) (c : MatCmd) : State :=
  let t := tile (s.core core) c.phys
  let s := if c.cancel then mark s core c (0, true) else s
  leave s core c (status t.err (t.canc || c.cancel) t.flags)

/-- A started command works up to a unit: it ends with its error, is cancelled at a k-step boundary, completes, or goes on. -/
def runTo (s : State) (core : Nat) (tm : Team) (c : MatCmd) (upto : Nat) : State :=
  let t := tile (s.core core) c.phys
  let q := min upto (units c.instr)
  if isStore c.instr && c.kstep == 0 && (t.err != 0 || t.canc) then refuse s core c
  else if c.err ≠ 0 then fail s core c c.err
  else match advanceTo s core tm c q with
  | .error e => fail e.2 core ((find? e.2 core c.id).getD c) e.1
  | .ok s =>
    let c := (find? s core c.id).getD c
    if c.cancel && resource c.instr == 0 then cancelled s core c
    else if units c.instr ≤ c.kstep then finish s core c
    else s

/-! ### Entry into the queue -/

/-- Put a command of a team into the queue of its core: ownership step, captured scales (R284, R291). Its lines' dies are touched
(R300). -/
def enter (s : State) (core team : Nat) (tm : Team) (id : Nat) (i : Instr) (tileName : Nat) (desc : List Word) : State :=
  let phys := tm.tiles.getD tileName 0
  let own := linesOf s tm.ctx tm (dests i desc) .wr
  let pin := linesOf s tm.ctx tm (sources i desc) .rd
  let s := (rowPlaces s tm (dests i desc)).foldl (fun s x => Engine.use s core tm.ctx x.1 x.2 .wr) s
  let s := (rowPlaces s tm (sources i desc)).foldl (fun s x => Engine.use s core tm.ctx x.1 x.2 .rd) s
  let s := Engine.hold s id core (s.ctxPart tm.ctx) own pin
  let c : MatCmd :=
    { id := id, ctx := tm.ctx, team := team, tile := tileName, phys := phys, instr := i, desc := desc, started := false
      cancel := false, scale := (tile (s.core core) phys).scale, kstep := 0, err := 0, flags := 0, ref := none, parted := false
      marks := [] }
  s.modCore core (fun k => { k with matq := k.matq ++ [c] })

/-- Whether a command has operands or a destination on a die (R300, R424). -/
def touches (s : State) (ctx : Nat) (tm : Team) (c : MatCmd) (die : Nat) : Bool :=
  (rowPlaces s tm (sources c.instr c.desc) ++ rowPlaces s tm (dests c.instr c.desc)).any (fun x => Engine.onDie s tm.core ctx x.1 x.2 die)

/-- Whether a command may make its ownership step and enter the queue now. -/
def mayEnter (s : State) (core : Nat) (tm : Team) (i : Instr) (desc : List Word) : Bool :=
  decide (queued (s.core core) < 16)
    && !walksAt s tm.ctx tm (dests i desc) .wr && !walksAt s tm.ctx tm (sources i desc) .rd
    && Engine.canHold s (linesOf s tm.ctx tm (dests i desc) .wr) (linesOf s tm.ctx tm (sources i desc) .rd)

end Matrix

end Sys2Proof.Machine
end

