-- ==== Sys2Proof/Machine/ArrayOps.lean ====
section
/-! DEFINITION. What the array sequencers share: tiles and permissions, argument blocks and their checks, the arithmetic of a
layer, the journal, and how commands are chosen and end (R301 to R341, R98). -/

namespace Sys2Proof.Machine

open Sys2Proof

namespace Arrays

/-! ### Tiles and permissions -/

def tile (o : Orng) (n : Nat) : ATile := o.tiles.getD n ATile.reset

def modTile (o : Orng) (n : Nat) (f : ATile → ATile) : Orng := { o with tiles := o.tiles.set n (f (tile o n)) }

/-- The code of a tile state (Table 11.2). -/
def stateCode (t : TileState) : Nat :=
  match t with
  | .empty => 0
  | .ready => 1
  | .commit => 2
  | .probe => 3
  | .failed => 4

/-- The permission entry of a tile's row and a VF (R331). -/
def perm (o : Orng) (n vf : Nat) : Word := o.perm.getD (128 * (n / 128) + vf) 0
def mayRead (o : Orng) (n vf : Nat) : Bool := (perm o n vf).getLsbD 0
def mayProgram (o : Orng) (n vf : Nat) : Bool := (perm o n vf).getLsbD 1

/-- A correction bank of a tile. -/
def bank (t : ATile) (one : Bool) : Bank := if one then t.bank1 else t.bank0

/-- Gain and offset of a column (R325). -/
def gain (b : Bank) (j : Nat) : Word := b.gain.getD j 0x3F800000
def off (b : Bank) (j : Nat) : Word := b.off.getD j 0

/-- Publish a bank as the tile's next version (R326). -/
def publish (t : ATile) (b : Bank) (now : Nat) : ATile :=
  let t := if t.cur1 then { t with bank0 := b } else { t with bank1 := b }
  { t with cur1 := !t.cur1, ver := t.ver + 1, lastPub := some now }

/-- The level of a cell. -/
def level (t : ATile) (i j : Nat) : Int := t.w.getD (1024 * i + j) 0

/-! ### Commands -/

def find? (s : State) (die id : Nat) : Option ACmd := (s.die die).cmds.find? (fun c => c.id == id)

def modify (s : State) (die id : Nat) (f : ACmd → ACmd) : State :=
  s.modDie die (fun o => { o with cmds := o.cmds.map (fun c => if c.id = id then f c else c) })

def isLayer (c : ACmd) : Bool := c.entry == 0 || c.entry == 1

/-- Whether a command uses a staging tile: a running stage or commit. -/
def stgOf (b : List Byte) : Nat := Engine.field b 2 1 % 64
def usesStg (c : ACmd) (stg : Nat) : Bool := c.started && (c.entry == 3 || c.entry == 4) && stgOf c.block == stg

/-- The completion status (Table 11.8). -/
def status (c : ACmd) : Word :=
  BitVec.ofNat 32 (c.err + (if c.cancel then 256 else 0) + 512 * c.flags.toNat + (if c.clipx then 2 ^ 14 else 0)
    + (if c.clipc then 2 ^ 15 else 0) + 2 ^ 16 * c.detail)

/-- A command leaves its die with a status. -/
def leave (s : State) (die id : Nat) (st : Word) : State :=
  let s := Engine.release s id
  Life.complete (s.modDie die (fun o => { o with cmds := o.cmds.filter (fun c => c.id ≠ id) })) id st

/-- A command ends with a code and a detail, having written nothing. -/
def fail (s : State) (die id code detail : Nat) : State := leave s die id (BitVec.ofNat 32 (code + 2 ^ 16 * detail))

/-! ### Places and translations (R313) -/

/-- A place in global memory or in the issuing team's own scratchpad. -/
def place (s : State) (tm : Team) (ea : DWord) (n : Nat) : Option Mem.Place :=
  match Engine.place s tm ea n with
  | some (.glob a) => some (.glob a)
  | some (.spad c o) =>
    if c = tm.core && tm.spadBase ≤ o && o + n ≤ tm.spadBase + tm.kernel.spad then some (.spad c o) else none
  | _ => none

/-- A range that a command reads or writes. -/
structure Range where
  ea : DWord
  n  : Nat
  wr : Bool

/-- The code of a range that lies outside, 0 for none. -/
def outside (s : State) (tm : Team) (r : Range) : Nat := if (place s tm r.ea r.n).isSome then 0 else 0x11

/-- An array sequencer is an agent of its die: it has no TLB of a core (R110). -/
abbrev agent : Nat := Config.cores

/-- The code of a range whose translation fails or which is not cached memory (R313). -/
def untranslated (s : State) (ctx : Nat) (tm : Team) (r : Range) : Nat :=
  match place s tm r.ea r.n with
  | some (.glob a) => (Engine.pieces 64 a (r.n / 64 + 2) 0 r.n).foldl (fun e x =>
      if e ≠ 0 then e
      else match Mem.translate s agent ctx (a + x.1) (if r.wr then .wr else .rd) 0 with
        | .error c => c.code
        | .ok q => if q.unc then 0x11 else 0) 0
  | _ => 0

/-- The first nonzero code of a list. -/
def firstCode (l : List Nat) : Nat := (l.find? (· ≠ 0)).getD 0

/-- Places first, then translations. -/
def rangesError (s : State) (ctx : Nat) (tm : Team) (rs : List Range) : Nat :=
  firstCode (rs.map (outside s tm) ++ rs.map (untranslated s ctx tm))

/-- Whether accesses to ranges have to wait: for a walk, a fill, a flush, a line held by another command, or a core in retention. -/
def blocked (s : State) (ctx : Nat) (cmd : Option Nat) (tm : Team) (rs : List Range) : Bool :=
  rs.any (fun r => match place s tm r.ea r.n with
    | some p => Engine.blocked s agent ctx cmd p r.n r.wr
    | none => false)

/-- Whether the translations of ranges have to wait for a walk (R110). -/
def walks (s : State) (ctx : Nat) (tm : Team) (rs : List Range) : Bool :=
  rs.any (fun r => match place s tm r.ea r.n with
    | some p => Engine.walks s agent ctx p r.n (if r.wr then .wr else .rd)
    | none => false)

/-- The translations of ranges are used: their dies join the touched dies (R423). -/
def use (s : State) (ctx : Nat) (tm : Team) (rs : List Range) : State :=
  rs.foldl (fun s r => match place s tm r.ea r.n with
    | some p => Engine.use s agent ctx p r.n (if r.wr then .wr else .rd)
    | none => s) s

/-- Whether some range lies on a die (R424). -/
def touches (s : State) (ctx : Nat) (tm : Team) (rs : List Range) (die : Nat) : Bool :=
  rs.any (fun r => match place s tm r.ea r.n with
    | some p => Engine.onDie s agent ctx p r.n die
    | none => false)

/-- A command that waits for a scratchpad in retention wakes its core (R383). -/
def ask (s : State) (tm : Team) (rs : List Range) : State :=
  rs.foldl (fun s r => match place s tm r.ea r.n with
    | some p => Engine.ask s p
    | none => s) s

/-- The physical lines of the ranges that are written, and of those that are read. -/
def linesOf (s : State) (ctx : Nat) (tm : Team) (rs : List Range) (wr : Bool) : NSet :=
  rs.foldl (fun l r =>
    if r.wr = wr then
      match place s tm r.ea r.n with
      | some p => NSet.addAll l (Engine.lines s agent ctx p r.n (if wr then .wr else .rd))
      | none => l
    else l) []

/-- Whether every scratchpad line that the ranges read is present. -/
def present (s : State) (tm : Team) (rs : List Range) : Bool :=
  rs.all (fun r => r.wr || (match place s tm r.ea r.n with
    | some p => !Engine.absent s p r.n
    | none => true))

def readRange (s : State) (ctx : Nat) (tm : Team) (ea : DWord) (n : Nat) : Except Engine.Err (List Byte × State) :=
  match place s tm ea n with
  | none => .error (0x11, s)
  | some p => Engine.read s agent ctx p n

def writeRange (s : State) (ctx : Nat) (tm : Team) (ea : DWord) (b : List Byte) : Except Engine.Err State :=
  match place s tm ea b.length with
  | none => .error (0x11, s)
  | some p => Engine.write s agent ctx p b

/-- The written ranges of a command that ended early hold free values (R140, R341). -/
def scramble (s : State) (ctx : Nat) (tm : Team) (rs : List Range) : State :=
  rs.foldl (fun s r =>
    if r.wr then
      match place s tm r.ea r.n with
      | some p => Engine.scramble s agent ctx p r.n
      | none => s
    else s) s

/-! ### The layer argument block (Table 11.7) -/

structure Layer where
  tile0 : Nat
  nt    : Nat
  tstep : Nat
  row0  : Nat
  rows  : Nat
  col0  : Nat
  cols  : Nat
  fp32  : Bool
  sxg   : Bool
  den   : Bool
  nv    : Nat
  sx    : Word
  xbase : DWord
  dbase : DWord
  ybase : DWord
  xstr  : Nat
  dstr  : Nat
  ystr  : Nat

def layerOf (b : List Byte) : Layer :=
  let w (o : Nat) : Nat := Engine.field b o 4
  let a (o : Nat) : DWord := BitVec.ofNat 64 (Engine.field b o 8)
  { tile0 := w 0 % 8192, nt := w 0 / 65536 % 16 + 1, tstep := w 4 % 8192, row0 := w 8 % 1024, rows := w 8 / 2048 % 1024 + 1
    col0 := w 12 % 1024, cols := w 12 / 2048 % 1024 + 1, fp32 := (w 16).testBit 0, sxg := (w 16).testBit 1
    den := (w 16).testBit 2, nv := w 16 / 16 % 16 + 1, sx := BitVec.ofNat 32 (w 20), xbase := a 24, dbase := a 32
    ybase := a 40, xstr := w 48, dstr := w 52, ystr := w 56 }

/-- Reserved bits of the window words, zero in every layer and verify block. -/
def windowReserved (b : List Byte) : Bool :=
  let w (o : Nat) : Nat := Engine.field b o 4
  w 0 / 8192 % 8 == 0 && w 0 / 2 ^ 20 == 0 && w 4 / 8192 == 0 && w 8 / 1024 % 2 == 0 && w 8 / 2 ^ 21 == 0
    && w 12 / 1024 % 2 == 0 && w 12 / 2 ^ 21 == 0 && w 16 / 8 % 2 == 0 && w 16 / 256 == 0 && w 60 == 0

/-- Whether the window lies in a tile. -/
def windowOk (l : Layer) : Bool := decide (l.row0 + l.rows ≤ 1024) && decide (l.col0 + l.cols ≤ 1024)

/-- Element size of the input. -/
def es (l : Layer) : Nat := if l.fp32 then 4 else 2

/-- Address of a vector. -/
def vec (base : DWord) (stride v : Nat) : DWord := base + BitVec.ofNat 64 (v * stride)

/-- Tile t of a command. -/
def tileNo (l : Layer) (t : Nat) : Nat := l.tile0 + t * l.tstep

/-- The ranges of a layer command: inputs, d vectors, outputs. -/
def xRange (l : Layer) (v : Nat) : Range := { ea := vec l.xbase l.xstr v, n := es l * (l.nt * l.rows), wr := false }
def dRanges (l : Layer) : List Range :=
  if l.den then (List.range l.nv).map (fun v => { ea := vec l.dbase l.dstr v, n := 4 * l.cols, wr := false }) else []
def yRanges (l : Layer) : List Range :=
  (List.range l.nv).map (fun v => { ea := vec l.ybase l.ystr v, n := 4 * l.cols, wr := true })
def layerRanges (l : Layer) : List Range := (List.range l.nv).map (xRange l) ++ dRanges l ++ yRanges l

/-- A positive finite FP32 value above zero, and a positive normal one. -/
def positive (w : Word) : Bool := decide (0 < w.toNat) && decide (w.toNat < 0x7F800000)
def positiveNormal (w : Word) : Bool := decide (0x00800000 ≤ w.toNat) && decide (w.toNat < 0x7F800000)

/-- The checks of R313 on a layer block, 0 for none. -/
def layerError (s : State) (ctx : Nat) (tm : Team) (entry : Nat) (b : List Byte) : Nat :=
  let l := layerOf b
  if !windowReserved b || !windowOk l || (l.nt != 1 && l.tstep == 0)
    || (decide (8191 < tileNo l (l.nt - 1))) || (entry == 0 && l.nv != 1) || (l.sxg && !positive l.sx) then 0x01
  else if 16 < l.nt * l.nv then 0x32
  else if l.xbase.toNat % es l ≠ 0 || !([l.dbase.toNat, l.ybase.toNat, l.xstr, l.dstr, l.ystr].all (· % 4 == 0)) then 0x12
  else rangesError s ctx tm (layerRanges l)

/-- The range of a verify read. -/
def verifyRanges (l : Layer) : List Range := [{ ea := l.ybase, n := l.cols * l.rows, wr := true }]

/-- The checks on a verify block (R339). -/
def verifyError (s : State) (ctx : Nat) (tm : Team) (b : List Byte) : Nat :=
  let l := layerOf b
  let zero (o n : Nat) : Bool := Engine.field b o n == 0
  if !windowReserved b || !windowOk l || 16 < l.rows || Engine.field b 0 4 / 65536 ≠ 0
    || !(zero 4 4 && zero 16 8 && zero 24 8 && zero 32 8 && zero 48 8 && zero 56 4) then 0x01
  else if l.ybase.toNat % 4 ≠ 0 then 0x12
  else rangesError s ctx tm (verifyRanges l)

/-! ### Stage, commit and status blocks (Table 11.14, R340) -/

def targetOf (b : List Byte) : Nat := Engine.field b 0 4 % 8192
def swOf (b : List Byte) : Word := BitVec.ofNat 32 (Engine.field b 4 4)
def rshOf (b : List Byte) : BitVec 4 := BitVec.ofNat 4 (Engine.field b 8 4)
def imgOf (b : List Byte) : DWord := BitVec.ofNat 64 (Engine.field b 16 8)
def imgBytes : Nat := 2 ^ 20

/-- The range of a stage's image. -/
def imgRanges (b : List Byte) : List Range := [{ ea := imgOf b, n := imgBytes, wr := false }]

/-- The checks of R313 on a stage or commit block. DEDUCED, log 54. -/
def stageError (s : State) (ctx : Nat) (tm : Team) (entry : Nat) (b : List Byte) : Nat :=
  let w0 := Engine.field b 0 4
  let common := w0 / 8192 % 8 == 0 && w0 / 2 ^ 22 == 0 && Engine.field b 12 4 == 0 && (b.drop 24).all (· == 0)
  if entry = 4 then (if common && (b.drop 4).all (· == 0) then 0 else 0x01)
  else if !common || Engine.field b 8 4 / 16 ≠ 0 || !positiveNormal (swOf b) then 0x01
  else if (imgOf b).toNat % 64 ≠ 0 then 0x12
  else rangesError s ctx tm (imgRanges b)

/-- The ranges of a status command. -/
def statusRanges (b : List Byte) : List Range := [{ ea := BitVec.ofNat 64 (Engine.field b 0 8), n := 64, wr := true }]

def statusError (s : State) (ctx : Nat) (tm : Team) (b : List Byte) : Nat :=
  if Engine.field b 0 8 % 64 ≠ 0 then 0x12 else rangesError s ctx tm (statusRanges b)

/-- The error of a command's block, by entry. DEDUCED, log 62. -/
def blockError (s : State) (ctx : Nat) (tm : Team) (entry : Nat) (b : List Byte) : Nat :=
  match entry with
  | 0 | 1 => layerError s ctx tm entry b
  | 3 | 4 => stageError s ctx tm entry b
  | 5 => verifyError s ctx tm b
  | _ => statusError s ctx tm b

/-- The bytes of an acorr report (R327). -/
abbrev corrBytes : Nat := 8208

/-- The ranges that a command reads and writes once its block is known. -/
def ranges (c : ACmd) : List Range :=
  match c.entry with
  | 0 | 1 => layerRanges (layerOf c.block)
  | 3 => imgRanges c.block
  | 5 => verifyRanges (layerOf c.block)
  | 7 => statusRanges c.block
  | 8 => [{ ea := c.argAddr, n := corrBytes, wr := true }]
  | _ => []

/-! ### Layer arithmetic (R98, R317 to R319) -/

/-- Whether an FP32 value is a NaN or an infinity. -/
def nonFinite (w : Word) : Bool := w.toNat / 2 ^ 23 % 256 == 255

/-- s_x and the flags of its rounding. DEDUCED, log 48. -/
def inputScale (l : Layer) (xs : List Word) : Word × Flags.Fl :=
  if l.sxg then (l.sx, 0)
  else
    let m := xs.foldl (fun m x => max m (x.toNat % 2 ^ 31)) 0
    if m = 0 then (0, 0)
    else
      let r := Flags.div Flags.f32 0 false m 0x42FE0000
      (BitVec.ofNat 32 r.1, r.2)

/-- q of one input, and whether it was clamped. -/
def quantiseOne (sx x : Word) : Int × Bool :=
  if sx = 0 then (0, false)
  else match (Flags.divX 80 (Flags.unpack Flags.f32 false x.toNat) (Flags.unpack Flags.f32 false sx.toNat)).1 with
    | .fin neg m e =>
      let q := Flags.rneInt neg m e
      (Flags.clamp (-127) 127 q, decide (q < -127) || decide (127 < q))
    | _ => (0, false)

/-- The code of a column: the ideal one (R318), moved by the converter's deviation (R320). DESIGN CHOICE, log 10. -/
def code (sum : Int) (rsh : Nat) (dev : Int) : Int :=
  Flags.clamp (-512) 511 (Flags.clamp (-512) 511 (Flags.rneInt (decide (sum < 0)) sum.natAbs (-(rsh : Int))) + dev)

/-- p_t of a column (R98). -/
def partialOf (c : Int) (b : Bank) (j : Nat) (sx sw : Word) : Word × Flags.Fl :=
  let cw : Word := BitVec.ofNat 32 (Flags.round Flags.f32 0 false (decide (c < 0)) c.natAbs 0).1
  let r1 := Flags.sub Flags.f32 0 false cw.toNat (off b j).toNat
  let r2 := Flags.mulRne (BitVec.ofNat 32 r1.1) (gain b j)
  let r3 := Flags.mulRne r2.1 sx
  let r4 := Flags.mulRne r3.1 sw
  (r4.1, r1.2 ||| r2.2 ||| r3.2 ||| r4.2)

/-- The passes of a layer command: vector and tile index; a vector with a NaN or an infinity has none. -/
def passes (l : Layer) (xq : List (Word × List Int × Bool)) : List (Nat × Nat) :=
  (List.range l.nv).flatMap (fun v =>
    if ((xq[v]?).map (fun x => x.2.2)).getD false then [] else (List.range l.nt).map (fun t => (v, t)))

def partKey (v t j : Nat) : Nat := (16 * v + t) * 1024 + j

/-- Output j of a vector, from its partials and d. -/
def output (c : ACmd) (l : Layer) (v j : Nat) (d : Word) : Word × Flags.Fl :=
  if ((c.xq[v]?).map (fun x => x.2.2)).getD false then (Flags.qnan32, 0)
  else
    let acc := (List.range (l.nt - 1)).foldl (fun (a : Word × Flags.Fl) t =>
      let r := Flags.addRne a.1 (c.parts.getD (partKey v (t + 1) j) 0)
      (r.1, a.2 ||| r.2)) (c.parts.getD (partKey v 0 j) 0, 0)
    let r := Flags.addRne acc.1 d
    (r.1, acc.2 ||| r.2)

/-! ### CRC-32C and the journal (R337) -/

/-- One bit of CRC-32C, reflected. PRESUMED, log 49. -/
def crcBit (x : Nat) : Nat := if x.testBit 0 then (x / 2) ^^^ 0x82F63B78 else x / 2

/-- CRC-32C of bytes. PRESUMED, log 49. -/
def crc32c (b : List Byte) : Word :=
  BitVec.ofNat 32 ((b.foldl (fun c x => crcBit (crcBit (crcBit (crcBit (crcBit (crcBit (crcBit (crcBit (c ^^^ x.toNat)))))))))
    0xFFFFFFFF) ^^^ 0xFFFFFFFF)

/-- Records of the journal ring. -/
abbrev journalSize : Nat := 4096

/-- The place of the last COMMIT of a tile. -/
def lastCommit (j : List JRec) (n : Nat) : Option Nat :=
  (List.range j.length).foldl (fun m i => match j[i]? with
    | some r => if r.type = 5 && r.tile = n then some i else m
    | none => m) none

/-- The usable STAGE_DONE of a tile and staging tile, and its place (R335). -/
def stageDone (j : List JRec) (n stg : Nat) : Option (Nat × JRec) :=
  (List.range j.length).foldl (fun m i => match j[i]? with
    | some r => if r.type = 2 && r.tile = n && r.stg = stg && !r.discarded then some (i, r) else m
    | none => m) none

/-- Whether a commit needs a copy of its STAGE_DONE, which precedes the tile's last COMMIT. -/
def needsCopy (j : List JRec) (n stg : Nat) : Bool :=
  match stageDone j n stg, lastCommit j n with
  | some (i, _), some k => decide (i < k)
  | _, _ => false

/-- Whether the record at a place may be overwritten (R337). DEDUCED, log 50. -/
def overwritable (o : Orng) (i : Nat) : Bool :=
  match o.journal[i]? with
  | none => false
  | some r =>
    let copied : Bool := r.type == 2 && o.cmds.any (fun c => c.started && c.entry == 4 && c.phase == 0
      && targetOf c.block == r.tile && stgOf c.block == r.stg
      && ((stageDone o.journal r.tile r.stg).map Prod.fst) == some i)
    (match lastCommit o.journal r.tile with
      | some k => decide (i < k) && !copied
      | none => false) || ((r.type == 1 || r.type == 2) && r.discarded)

/-- Mark the staging of a staging tile as discarded. -/
def discard (j : List JRec) (stg : Nat) : List JRec :=
  j.map (fun r => if r.stg = stg && (r.type = 1 || r.type = 2) then { r with discarded := true } else r)

/-- The 60 bytes of a record that its CRC covers (Table 11.15). -/
def recBytes (r : JRec) : List Byte :=
  Mem.toBytes 2 r.magic.toNat ++ Mem.toBytes 1 r.type ++ Mem.toBytes 1 0 ++ Mem.toBytes 4 r.seq
    ++ Mem.toBytes 4 (r.tile % 8192 + 65536 * (r.stg % 64)) ++ Mem.toBytes 4 (r.row % 1024) ++ Mem.toBytes 8 r.time
    ++ Mem.toBytes 4 r.sw.toNat ++ Mem.toBytes 4 r.rsh.toNat ++ Mem.toBytes 4 r.imgcrc.toNat ++ List.replicate 24 0

/-- Whether the MAGIC and the CRC of a record are right (R338). -/
def recOk (r : JRec) : Bool := r.magic == 0x4A4C && r.crc == crc32c (recBytes r)

/-- Give a record its sequence number and its CRC. -/
def sealed (r : JRec) (seq : Nat) : JRec :=
  let r := { r with magic := 0x4A4C, seq := seq % 2 ^ 32 }
  { r with crc := crc32c (recBytes r) }

/-- Add a record at the end; STAGE_BEGIN discards the earlier staging of its tile. -/
def push (o : Orng) (r : JRec) : Orng :=
  let j := if r.type = 1 then discard o.journal r.stg else o.journal
  { o with journal := j ++ [sealed r o.nextSeq], nextSeq := o.nextSeq + 1 }

/-- Append a record; none when the ring is full and nothing may be overwritten. DEDUCED, log 50. -/
def append (o : Orng) (r : JRec) : Option Orng :=
  if o.journal.length < journalSize then some (push o r)
  else ((List.range o.journal.length).find? (overwritable o)).map (fun i =>
    push { o with journal := o.journal.eraseIdx i } r)

/-- A record of a type. -/
def jrec (type n stg row now : Nat) : JRec :=
  { magic := 0x4A4C, type := type, seq := 0, tile := n, stg := stg, row := row, time := now, sw := 0, rsh := 0, imgcrc := 0, crc := 0
    discarded := false }

/-- A loss of power cuts off the write of a record: one stands at the end of the ring whose CRC is wrong, whatever else it holds.
DESIGN CHOICE, log 51. -/
def tear (o : Orng) (free : Nat) : Orng :=
  let w (i : Nat) : Word := Config.freeWord (free + i)
  let r : JRec :=
    { magic := (w 0).setWidth 16, type := (w 1).toNat % 256, seq := (w 2).toNat, tile := (w 3).toNat % 8192, stg := (w 4).toNat % 64
      row := (w 5).toNat % 1024, time := (w 6 ++ w 7).toNat, sw := w 8, rsh := (w 9).setWidth 4, imgcrc := w 10, crc := 0
      discarded := false }
  let r := { r with crc := crc32c (recBytes r) + BitVec.ofNat 32 (1 + (w 11).toNat % (2 ^ 32 - 1)) }
  let room := if o.journal.length < journalSize then some o else
    ((List.range o.journal.length).find? (overwritable o)).map (fun i => { o with journal := o.journal.eraseIdx i })
  (room.map (fun o => { o with journal := o.journal ++ [r] })).getD o

/-! ### Programming rows -/

/-- The levels of one row, as table entries. -/
def setRow (to_ : Tab Int) (src : Tab Int) (k : Nat) : Tab Int :=
  (List.range 1024).foldl (fun t j => t.put 0 (1024 * k + j) (src.getD (1024 * k + j) 0)) to_

def staging (o : Orng) (stg : Nat) : Tab Int := o.staging.getD stg []

/-- A commit ends: scale and shift from the STAGE_DONE, the identity version, and PROBE (R335, R338). DEDUCED, log 47. -/
def committed (t : ATile) (sw : Word) (rsh : BitVec 4) (now : Nat) : ATile :=
  publish { t with sw := sw, rsh := rsh, state := .probe } Bank.identity now

/-! ### Choosing work (R322) -/

/-- Lanes of a sequencer that are busy. An erase holds one of sequencer 0 (R334). -/
def busyLanes (o : Orng) (seq : Nat) : Nat :=
  (o.cmds.filter (fun c => c.started && c.seq == seq)).length
    + (if seq = 0 then (o.stgOwner.filter (fun x => x.2.erase)).length else 0)

/-- Whether a sequencer may start work: not stopped, a lane free, and replay has ended. -/
def open_ (o : Orng) (seq : Nat) : Bool :=
  o.replayed && !(o.seqrs.getD seq Seqr.reset).stop && decide (busyLanes o seq < 16)

/-- Tiles that a queued segment reads. -/
def segTiles (c : ACmd) : List Nat :=
  match c.entry with
  | 0 | 1 => (List.range (layerOf c.block).nt).map (tileNo (layerOf c.block))
  | 5 => [(layerOf c.block).tile0]
  | _ => []

/-- Whether a running commit keeps new segments off a tile that is still READY (R335 step 1). -/
def gated (o : Orng) (c : ACmd) : Bool :=
  (segTiles c).any (fun n => (tile o n).state == TileState.ready
    && o.cmds.any (fun x => x.started && x.entry == 4 && targetOf x.block == n))

/-- Whether the context of a command is in its place: the commands of one that pre-emption has taken out are withdrawn (R341). -/
def stands (s : State) (c : ACmd) : Bool :=
  match s.ctxs.get? c.ctx with
  | some x => x.phase == Phase.running
  | none => false

/-- The queued command that a lane of a sequencer takes next, probes apart: a stage or commit, else round-robin over the VFs. -/
def next (s : State) (o : Orng) (seq : Nat) : Option ACmd :=
  let mine := o.cmds.filter (fun c => c.queued && !c.started && !c.cancel && c.seq == seq && c.entry != 10 && stands s c)
  match mine.find? (fun c => c.entry == 3 || c.entry == 4) with
  | some c => some c
  | none =>
    let last := (o.seqrs.getD seq Seqr.reset).lastVf
    let dist (c : ACmd) : Nat := (c.vf + 255 - last) % 128
    (mine.filter (fun c => !gated o c)).foldl (fun (m : Option ACmd) c => match m with
      | none => some c
      | some b => if dist c < dist b then some c else some b) none

/-- Whether a probe that the RCE has requested waits for a lane of the die (R324). -/
def probeWaits (o : Orng) : Bool := o.cmds.any (fun c => c.entry == 10 && !c.started)

/-- The lanes of a sequencer that no command or probe holds. -/
def freeLanes (o : Orng) (seq : Nat) : List Nat :=
  (List.range 16).filter (fun k => !o.cmds.any (fun c => c.started && c.seq == seq && c.lane == k))

/-- The lane that takes a command: a requested probe goes first, but on a lane that has run one since its last command segment
(R322). -/
def laneFor (o : Orng) (seq : Nat) : Option Nat :=
  if open_ o seq then
    (freeLanes o seq).find? (fun k => !probeWaits o || (o.seqrs.getD seq Seqr.reset).probed.contains k)
  else none

/-- The lane that takes a probe: one that has run none since its last command segment, or any while no command waits.
DEDUCED, log 52. -/
def probeLane (s : State) (o : Orng) (seq : Nat) : Option Nat :=
  if open_ o seq then
    (freeLanes o seq).find? (fun k => !(o.seqrs.getD seq Seqr.reset).probed.contains k || (next s o seq).isNone)
  else none

/-- A segment has started, if only to fail its first check: the round-robin goes on from its VF (R322). -/
def startedVf (s : State) (die : Nat) (c : ACmd) : State :=
  if c.entry = 3 || c.entry = 4 then s
  else s.modDie die (fun o => { o with seqrs := o.seqrs.set c.seq { o.seqrs.getD c.seq Seqr.reset with lastVf := c.vf } })

/-- A command starts on its lane. -/
def begin_ (s : State) (die : Nat) (c : ACmd) (f : ACmd → ACmd) : State :=
  let s := modify s die c.id (fun x => { f x with started := true, lane := c.lane })
  let s := startedVf s die c
  s.modDie die (fun o =>
    let q := o.seqrs.getD c.seq Seqr.reset
    { o with seqrs := o.seqrs.set c.seq { q with probed := q.probed.del c.lane } })

/-- A segment fails its first check. -/
def failStart (s : State) (die : Nat) (c : ACmd) (code detail : Nat) : State := fail (startedVf s die c) die c.id code detail

/-- The latched versions of tiles (R325). -/
def latch (o : Orng) (ns : List Nat) : List (Nat × Bool × BitVec 16) :=
  ns.map (fun n => (n, (tile o n).cur1, (tile o n).ver))

/-- Note that a tile was activated. -/
def activate (o : Orng) (n now : Nat) : Orng := modTile o n (fun t => { t with lastAct := some now })

/-- The input elements of one vector, BF16 widened (R317). -/
def inputs (l : Layer) (b : List Byte) : List Word :=
  (List.range (l.nt * l.rows)).map (fun i =>
    if l.fp32 then BitVec.ofNat 32 (Engine.field b (4 * i) 4) else BitVec.ofNat 32 (Engine.field b (2 * i) 2 * 65536))

/-- The levels of an image or of a row of it, or none where a byte is no level (R333). -/
def levels (b : List Byte) : Option (Tab Int) :=
  if b.all (fun x => decide (-15 ≤ x.toInt) && decide (x.toInt ≤ 15)) then
    some ((b.zipIdx.filter (fun x => x.1 != 0)).map (fun x => (x.2, x.1.toInt)))
  else none

/-- The bytes of an image, for its CRC. -/
def imageBytes (img : Tab Int) : List Byte := (List.range imgBytes).map (fun i => BitVec.ofInt 8 (img.getD i 0))

/-- Change a command of a die. -/
def setCmd (o : Orng) (c : ACmd) : Orng := { o with cmds := o.cmds.map (fun x => if x.id = c.id then c else x) }

/-! ### Micro-words (R306, R307) -/

/-- A micro-word that a sequencer must not execute. DESIGN CHOICE, log 53. -/
def illegalMicro (w : BitVec 128) : Bool :=
  let f (o n : Nat) : Nat := w.toNat / 2 ^ o % 2 ^ n
  decide (6 ≤ f 8 3) || decide (9 ≤ f 11 4) || f 15 1 != 0 || decide (9 ≤ f 16 4) || decide (8 ≤ f 48 4) || decide (4 ≤ f 52 4)
    || decide (3 ≤ f 59 4) || decide (6 ≤ f 63 4) || decide (4 ≤ f 81 4) || w.toNat / 2 ^ 85 != 0

/-- The entry point of the control store that a command uses; acorr and astat use none (R308, R327). -/
def entryOf (c : ACmd) : Option Nat := if c.entry < 8 then some c.entry else if c.entry = 10 then some 2 else none

/-- The micro-address at which a command starts, when the management processor has loaded a micro-word there: the words of the shipped
firmware are not given, and where the store lists none the entry point behaves as this chapter says. DESIGN CHOICE, log 53. -/
def microStart (o : Orng) (c : ACmd) : Option Nat :=
  let q := o.seqrs.getD c.seq Seqr.reset
  if c.shipped then none
  else ((entryOf c).map (fun e => (q.evec.getD e 0).toNat)).filter (fun a => (q.store.get? a).isSome)

/-- A sequencer faults: its running and queued commands complete with ILL_OP (R307). -/
def seqFault (s : State) (die seq : Nat) : State :=
  let hit := (s.die die).cmds.filter (fun c => c.seq == seq && (c.started || c.queued) && c.entry != 10)
  let s := s.modDie die (fun o => { o with cmds := o.cmds.map (fun c =>
    if c.seq = seq && c.entry = 10 then { c with started := false, micro := none, shipped := false, pass := 0 } else c) })
  let s := s.modDie die (fun o => { o with
    seqrs := o.seqrs.set seq { o.seqrs.getD seq Seqr.reset with stop := true, fault := true, halted := true } })
  hit.foldl (fun s c =>
    let s := match s.teams.get? c.team with
      | some tm => if c.started then scramble s c.ctx tm (ranges c) else s
      | none => s
    fail s die c.id 0x01 0xFFFF) s

/-! ### Issue (R309 to R311, R327) -/

/-- The entries of a VF's queue at a die (R311). -/
def entries (o : Orng) (vf : Nat) : Nat := (o.cmds.filter (fun c => c.vf == vf && c.queued && !c.started && c.entry != 10)).length

/-- Commands of a VF that have an entry of its queue or are on their way to one; the withdrawn ones are neither. -/
def waiting (s : State) (o : Orng) (vf : Nat) : Nat :=
  (o.cmds.filter (fun c => c.vf == vf && !c.started && c.entry != 10 && (c.queued || stands s c))).length

/-- A new command of a group. -/
def new (s : State) (tm : Team) (team gid id seq entry : Nat) (arg : DWord) (n : Nat) : ACmd where
  id := id
  ctx := tm.ctx
  vf := ((s.ctxs.get? tm.ctx).map Ctx.vf).getD 0
  gid := gid
  team := team
  seq := seq
  entry := entry
  argAddr := arg
  tile := n
  block := []
  queued := false
  started := false
  lane := 0
  micro := none
  shipped := false
  pass := 0
  latched := []
  parts := []
  xq := []
  flags := 0
  clipx := false
  clipc := false
  err := 0
  detail := 0
  cancel := false
  phase := 0
  row := 0
  begun := false
  img := []

/-- Issue a command to a die: it waits for its handle and for room in its VF's queue. -/
def issue (s : State) (gid : Nat) (lanes : List Nat) (d : Reg) (trap : Bool) (die seq entry : Nat) (arg : DWord) (n : Nat) :
    Ops.GroupOut :=
  match s.group? gid, d with
  | some g, .h hr =>
    match s.teams.get? g.team with
    | none => .go s
    | some tm => Ops.readDest s gid hr.val lanes fun s =>
        let (id, s1) := s.fresh
        let c := new s tm g.team gid id seq entry arg n
        if 16 ≤ waiting s (s.die die) c.vf then .wait s
        else
          let s2 := (Ops.issueHandle s1 gid hr.val id trap).touch tm.ctx (4 + die)
          .go (s2.modDie die (fun o => { o with cmds := o.cmds ++ [c] }))
  | _, _ => .go s

/-- DIE_LOST at issue; no rule gives %eaddr. DESIGN CHOICE, log 41. -/
def dieLost (s : State) : Ops.GroupOut :=
  .trap (s.takeFree 2) (fun _ => Ops.plain 0x50 (Config.freeWord (s.free + 1) ++ Config.freeWord s.free))

/-- The fault of an argument block's address (R310). -/
def argFault (s : State) (gid : Nat) (ea : DWord) : Option Trap :=
  let a := ea.toNat
  let own := decide (0xFF0000000000 ≤ a) && decide (a < 0xFF0100000000)
  let ok : Bool := match (s.group? gid).bind (fun g => s.teams.get? g.team) with
    | none => false
    | some tm => (decide (a + 64 ≤ 0x800000000000) || own) && (place s tm ea 64).isSome
  if a % 64 ≠ 0 then some (Ops.plain 0x12 ea)
  else if ok then none
  else some (.fault (Mem.mapFault .rd ea))

end Arrays

end Sys2Proof.Machine
end

