-- ==== Sys2Proof/Machine/Micro.lean ====
section
/-! DEFINITION. Micro-words of a sequencer's control store, as a lane executes them (R306, R307). The words of the shipped firmware are not
given; where the store lists a word that the management processor has loaded, a lane executes it, and where it lists none the shipped
firmware goes on. What a chunk holds, and in which order the parts of one word act, no rule gives. DESIGN CHOICE, log 53. -/

namespace Sys2Proof.Machine

open Sys2Proof

namespace Arrays

namespace Micro

/-- A lane at the start of a command. -/
def fresh (pc : Nat) : MicroLane where
  pc := pc
  work := []
  lc := 0
  last := 0
  verified := false
  clipped := false
  on := none
  vec := 0
  x := []
  sx := 0
  q := []
  d := []
  charge := []
  codes := []
  pipe := []
  part := []
  y := none
  img := []

/-- Field of n bits from bit o of a micro-word. -/
def field (w : BitVec 128) (o n : Nat) : Nat := w.toNat / 2 ^ o % 2 ^ n

/-- A work register. -/
def reg (u : MicroLane) (k : Nat) : Word := u.work.getD k 0
def setReg (u : MicroLane) (k : Nat) (v : Word) : MicroLane := { u with work := u.work.put 0 k v }

/-- The source work registers, and the tile, of a micro-word (Table 11.4). -/
def ws (u : MicroLane) (w : BitVec 128) : Word := reg u (field w 24 4)
def wt (u : MicroLane) (w : BitVec 128) : Word := reg u (field w 28 4)
def tileOf (u : MicroLane) (w : BitVec 128) : Nat := if w.getLsbD 80 then (ws u w).toNat % 8192 else field w 67 13

/-- Whether another command's charge stands on a tile's columns (R323). -/
def busy (o : Orng) (c : ACmd) (n : Nat) : Bool :=
  o.cmds.any (fun x => x.id != c.id && (x.micro.bind MicroLane.on) == some n)

/-- COND (Table 11.4). -/
def cond (o : Orng) (c : ACmd) (u : MicroLane) (w : BitVec 128) : Bool :=
  let n := tileOf u w
  match field w 11 4 with
  | 0 => u.lc == 0
  | 1 => u.last == 0
  | 2 => u.last.msb
  | 3 => busy o c n
  | 4 => u.verified
  | 5 => u.clipped
  | 6 => (tile o n).state == TileState.ready
  | 7 => mayRead o n c.vf
  | _ => mayProgram o n c.vf

/-- ALU (Table 11.4). A shift by 32 or more, for which nothing gives a result, gives a free value. -/
def alu (u : MicroLane) (w : BitVec 128) (free : Nat) : MicroLane :=
  let a := ws u w
  let b := wt u w
  let put (v : Word) : MicroLane := { setReg u (field w 20 4) v with last := v }
  let shift (v : Word) : MicroLane := put (if b.toNat < 32 then v else Config.freeWord free)
  match field w 16 4 with
  | 1 => put (a + b)
  | 2 => put (a - b)
  | 3 => put (a &&& b)
  | 4 => put (a ||| b)
  | 5 => shift (a <<< b.toNat)
  | 6 => shift (a >>> b.toNat)
  | 7 => put (BitVec.ofNat 32 (field w 32 16))
  | 8 => { u with lc := a.toNat }
  | _ => u

/-- What a part of a micro-word comes to: done, a wait of the whole word, or an error that ends the command. -/
inductive Out where
  | ok (u : MicroLane) (s : State)
  | wait (s : State)
  | bad (code : Nat) (s : State)

/-- Read a chunk of a command. -/
def read (s : State) (c : ACmd) (tm : Team) (r : Range) (f : List Byte → State → Out) : Out :=
  if !present s tm [r] then .wait s
  else if blocked s c.ctx (some c.id) tm [r] then .wait (ask s tm [r])
  else match readRange s c.ctx tm r.ea r.n with
    | .error e => .bad e.1 e.2
    | .ok (b, s) => f b s

/-- A journal record of a type for a command (Table 11.15). -/
def record (o : Orng) (c : ACmd) (type row now : Nat) : JRec :=
  let r := jrec type (targetOf c.block) (stgOf c.block) (if type = 3 || type = 4 then row else 0) now
  if type = 2 then { r with sw := swOf c.block, rsh := rshOf c.block, imgcrc := crc32c (imageBytes (staging o (stgOf c.block))) } else r

/-- What a record says of its tile: the first ROW_BEGIN enters COMMIT, and COMMIT writes SW and RSH and enters PROBE (Table 11.2,
R335). -/
def recorded (o : Orng) (c : ACmd) (type : Nat) : Orng :=
  let n := targetOf c.block
  if type = 3 then modTile o n (fun t => { t with state := .commit })
  else if type = 5 then
    match stageDone o.journal n (stgOf c.block) with
    | some (_, r) => modTile o n (fun t => { t with sw := r.sw, rsh := r.rsh, state := .probe })
    | none => o
  else o

/-- MEM (Table 11.4). -/
def mem (s : State) (die : Nat) (c : ACmd) (tm : Team) (u : MicroLane) (w : BitVec 128) : Out :=
  let l := layerOf c.block
  let o := s.die die
  match field w 48 4 with
  | 1 => .ok (setReg u (field w 20 4) (BitVec.ofNat 32 (Engine.field c.block (4 * field w 32 4) 4))) s
  | 2 => read s c tm (xRange l u.vec) (fun b s => .ok { u with x := inputs l b } s)
  | 3 => read s c tm { ea := vec l.dbase l.dstr u.vec, n := 4 * l.cols, wr := false } (fun b s =>
      .ok { u with d := (List.range l.cols).map (fun j => BitVec.ofNat 32 (Engine.field b (4 * j) 4)) } s)
  | 4 =>
    let r : Range := { ea := vec l.ybase l.ystr u.vec, n := 4 * l.cols, wr := true }
    let y := u.y.getD []
    if blocked s c.ctx (some c.id) tm [r] then .wait (ask s tm [r])
    else match writeRange s c.ctx tm r.ea ((List.range l.cols).flatMap (fun j => Mem.toBytes 4 (y.getD j 0).toNat)) with
      | .error e => .bad e.1 e.2
      | .ok s => .ok { u with vec := u.vec + 1, y := none } s
  | 5 => read s c tm { ea := imgOf c.block + BitVec.ofNat 64 (1024 * ((wt u w).toNat % 1024)), n := 1024, wr := false } (fun b s =>
      match levels b with
      | none => .bad 0x01 s
      | some img => .ok { u with img := img } s)
  | 6 =>
    let type := field w 32 3
    match append o (record o c type ((wt u w).toNat % 1024) s.now) with
    | none => .wait s
    | some o => .ok u (s.setDie die (recorded o c type))
  | 7 =>
    let n := tileOf u w
    let m : ASample :=
      { part := s.ctxPart c.ctx, tile := n, seq := c.seq, ctx := c.ctx, ver := ((c.latched.find? (fun x => x.1 == n)).map (·.2.2)).getD 0
        row0 := l.row0, col0 := l.col0, time := s.now, sx := u.sx
        q := (u.q.drop (((segTiles c).idxOf n) * l.rows)).take l.rows
        p := (List.range l.cols).map (fun j => u.part.getD j 0) }
    .ok u (s.setDie die { o with samples := o.samples ++ [m] })
  | _ => .ok u s

/-- Change the command and its lane. -/
def keep (s : State) (die : Nat) (c : ACmd) (f : ACmd → ACmd) : State := modify s die c.id f

/-- DRV: quantise, or drive one bit-plane of the inputs of a tile onto its columns (R317, R318). -/
def drv (s : State) (die : Nat) (c : ACmd) (u : MicroLane) (w : BitVec 128) : MicroLane × State :=
  let l := layerOf c.block
  let o := s.die die
  let n := tileOf u w
  match field w 52 4 with
  | 1 =>
    let sx := inputScale l u.x
    let qs := u.x.map (quantiseOne sx.1)
    ({ u with sx := sx.1, q := qs.map Prod.fst },
      keep s die c (fun c => { c with flags := c.flags ||| sx.2, clipx := c.clipx || qs.any Prod.snd }))
  | 2 =>
    let k := field w 56 3
    let a := tile o n
    let t := (segTiles c).idxOf n
    let bit (i : Nat) : Bool := (BitVec.ofInt 8 (u.q.getD (t * l.rows + i) 0)).getLsbD k
    let weight : Int := if k = 7 then -128 else 2 ^ k
    let charge := (List.range l.cols).foldl (fun (m : Tab Int) j =>
      m.put 0 j (m.getD j 0 + weight * (List.range l.rows).foldl (fun (x : Int) i =>
        if bit i then x + level a (l.row0 + i) (l.col0 + j) else x) 0)) u.charge
    ({ u with charge := charge, on := some n }, s.setDie die (activate o n s.now))
  | 3 => (u, s.setDie die (activate o n s.now))
  | _ => (u, s)

/-- ADC: convert the charges, or pass the codes on (R318, R320). DESIGN CHOICE, log 10. -/
def adc (s : State) (die : Nat) (c : ACmd) (u : MicroLane) (w : BitVec 128) : MicroLane × State :=
  let l := layerOf c.block
  match field w 59 4 with
  | 1 =>
    let rsh := (tile (s.die die) (tileOf u w)).rsh.toNat
    let ks := (List.range l.cols).map (fun j => code (u.charge.getD j 0) rsh (Config.adcDeviation (s.free + j)))
    let clip := ks.any (fun k => k == -512 || k == 511)
    ({ u with codes := (List.range l.cols).zip ks, charge := [], on := none, clipped := clip },
      keep (s.takeFree l.cols) die c (fun c => { c with clipc := c.clipc || clip }))
  | 2 => ({ u with pipe := u.codes }, s)
  | _ => (u, s)

/-- CORR: the correction pipe (R319, R325, R326). -/
def corr (s : State) (die : Nat) (c : ACmd) (u : MicroLane) (w : BitVec 128) : MicroLane × State :=
  let l := layerOf c.block
  let o := s.die die
  let n := tileOf u w
  let add (f : Nat → Word × Flags.Fl) : Tab Word × Flags.Fl :=
    ((List.range l.cols).map (fun j => (j, (f j).1)), (List.range l.cols).foldl (fun a j => a ||| (f j).2) 0)
  let flag (f : Flags.Fl) : State := keep s die c (fun c => { c with flags := c.flags ||| f })
  match field w 63 4 with
  | 1 => (u, keep s die c (fun c => { c with latched := latch o (segTiles c) }))
  | 2 =>
    let a := tile o n
    let b := bank a (((c.latched.find? (fun x => x.1 == n)).map (·.2.1)).getD a.cur1)
    let r := add (fun j => partialOf (u.pipe.getD j 0) b (l.col0 + j) u.sx a.sw)
    ({ u with part := r.1 }, flag r.2)
  | 3 => match u.y with
    | none => ({ u with y := some u.part }, s)
    | some y =>
      let r := add (fun j => Flags.addRne (y.getD j 0) (u.part.getD j 0))
      ({ u with y := some r.1 }, flag r.2)
  | 4 =>
    let r := add (fun j => Flags.addRne ((u.y.getD []).getD j 0) (u.d.getD j 0))
    ({ u with y := some r.1 }, flag r.2)
  | 5 => (u, s.setDie die (modTile o n (fun t => publish t Bank.identity s.now)))
  | _ => (u, s)

/-- PRG: program or verify a row of the tile, or program a row of the staging tile (R333, R335). -/
def prg (s : State) (die : Nat) (c : ACmd) (u : MicroLane) (w : BitVec 128) (ok : Bool) : MicroLane × State :=
  let o := s.die die
  let stg := stgOf c.block
  let k := (wt u w).toNat % 1024
  match field w 81 4 with
  | 1 => (u, s.setDie die (modTile o (tileOf u w) (fun t => { t with w := setRow t.w (staging o stg) k })))
  | 2 => ({ u with verified := ok }, s)
  | 3 =>
    let row := (List.range 1024).foldl (fun (t : Tab Int) j => t.put 0 (1024 * k + j) (u.img.getD j 0)) (staging o stg)
    (u, s.setDie die { o with staging := o.staging.set stg row })
  | _ => (u, s)

/-- FLOW: the next micro-address, and LC (Table 11.4). -/
def flow (o : Orng) (c : ACmd) (u : MicroLane) (w : BitVec 128) : MicroLane :=
  let on := (u.pc + 1) % 256
  let to_ := field w 0 8
  match field w 8 3 with
  | 1 => { u with pc := to_ }
  | 2 => { u with pc := if cond o c u w then to_ else on }
  | 3 =>
    let n := (u.lc + 2 ^ 32 - 1) % 2 ^ 32
    { u with lc := n, pc := if n ≠ 0 then to_ else on }
  | _ => { u with pc := on }

/-- A probe's end: the first one after a commit makes its tile READY (R303, R324). -/
def endProbe (s : State) (die : Nat) (c : ACmd) : State :=
  s.modDie die (fun o => modTile { o with cmds := o.cmds.filter (fun x => x.id ≠ c.id) } c.tile (fun t =>
    if t.state = .probe then { t with state := .ready } else t))

/-- A legal micro-word: its parts in the order of Table 11.4 after FLOW, then FLOW. FLOW 5 ends the command. -/
def legal (s : State) (die : Nat) (c : ACmd) (tm : Team) (u : MicroLane) (w : BitVec 128) (ok : Bool) : State :=
  match mem (s.takeFree 1) die c tm (alu u w s.free) w with
  | .wait s => s
  | .bad code s => fail (scramble s c.ctx tm (ranges c)) die c.id code 0
  | .ok u s =>
    let (u, s) := drv s die c u w
    let (u, s) := adc s die c u w
    let (u, s) := corr s die c u w
    let (u, s) := prg s die c u w ok
    if field w 8 3 = 5 then (if c.entry = 10 then endProbe s die c else leave s die c.id (ws u w))
    else keep s die c (fun x => { x with micro := some (flow (s.die die) c u w) })

/-- The next micro-word of a command: an illegal one faults the sequencer (R307); where the store lists none the command goes on as the
shipped firmware's entry point has it, from its beginning. -/
def next (s : State) (die : Nat) (c : ACmd) (ok : Bool) : State :=
  match c.micro with
  | none => s
  | some u =>
    match ((s.die die).seqrs.getD c.seq Seqr.reset).store.get? u.pc with
    | none => keep s die c (fun x => { x with
        micro := none, shipped := true, started := x.entry == 10, latched := [], flags := 0, clipx := false, clipc := false })
    | some w =>
      if illegalMicro w then seqFault s die c.seq
      else if c.entry = 10 then
        (if field w 8 3 = 5 then endProbe s die c
        else keep (s.takeFree 1) die c (fun x => { x with micro := some (flow (s.die die) c (alu u w s.free) w) }))
      else match s.teams.get? c.team with
        | some tm => legal s die c tm u w ok
        | none => s

end Micro

end Arrays

end Sys2Proof.Machine
end

