-- ==== Sys2Proof/Machine/Arrays.lean ====
section
/-! DEFINITION. Array commands: acall, acorr and astat, and the events of the array sequencers, the residual-calibration engine and
the journal (R301 to R341). -/

namespace Sys2Proof.Machine

open Sys2Proof

namespace Arrays

/-- The target word of an acall, for %eaddr and its fields. -/
def targetWord (s : State) (gid : Nat) (t : Thread) (x : ATarget) : Word :=
  match x with
  | .imm d q e => BitVec.ofNat 32 (d.toNat + 16 * q.toNat + 256 * e.toNat)
  | .reg r => Operands.val s gid t r

/-- The partition of a group. -/
def partOf (s : State) (gid : Nat) : Nat :=
  s.ctxPart ((((s.group? gid).bind (fun g => s.teams.get? g.team)).map Team.ctx).getD 0)

/-- Issue acorr or astat for a tile word; a reserved bit that is not zero is ILL_OP, whose %eaddr is the PC as R59 has it where a rule
names no other value (R327). -/
def issueTile (s : State) (gid : Nat) (lanes : List Nat) (d : Reg) (w : Word) (entry : Nat) (arg : DWord) : Ops.GroupOut :=
  let n := w.toNat
  let die := n / 65536 % 16
  if n / 8192 % 8 ≠ 0 || n / 2 ^ 20 ≠ 0 then .trap s Ops.illOp
  else if s.lost.contains (4 + die) then dieLost s
  else issue s gid lanes d false die 0 entry arg (n % 8192)

/-! ### Segments -/

/-- Run a start event of a sequencer: its next command, if its entry is one of a list and a lane may take it. A command whose entry point
holds a loaded micro-word executes micro-words (R306). -/
def startNext (s : State) (die seq : Nat) (entries : List Nat) (f : ACmd → Team → State) : State :=
  let o := s.die die
  match laneFor o seq, next s o seq with
  | some k, some c =>
    let c := { c with lane := k }
    if !entries.contains c.entry then s
    else match microStart o c with
      | some a => begin_ s die c (fun x => { x with micro := some (Micro.fresh a) })
      | none => match s.teams.get? c.team with
        | none => s
        | some tm => f c tm
  | _, _ => s

/-- The check of R332 on the tiles of a segment: the code and index of the first that fails. DEDUCED, log 62. -/
def tileCheck (o : Orng) (c : ACmd) (ns : List Nat) : Option (Nat × Nat) :=
  (List.range ns.length).findSome? (fun t =>
    let n := ns.getD t 0
    if !mayRead o n c.vf then some (0x30, t)
    else if (tile o n).state != TileState.ready then some (0x31, t)
    else none)

/-- Read and quantise the input of one vector. DEDUCED, log 48. -/
def readVector (s : State) (c : ACmd) (tm : Team) (l : Layer) (v : Nat) :
    Except Engine.Err ((Word × List Int × Bool) × Flags.Fl × Bool × State) :=
  match readRange s c.ctx tm (xRange l v).ea (xRange l v).n with
  | .error e => .error e
  | .ok (b, s) =>
    let xs := inputs l b
    if xs.any nonFinite then .ok ((0, [], true), Flags.iv, false, s)
    else
      let sx := inputScale l xs
      let q := xs.map (quantiseOne sx.1)
      .ok ((sx.1, q.map Prod.fst, false), sx.2, q.any Prod.snd, s)

/-- Read and quantise every vector. -/
def readVectors (s : State) (c : ACmd) (tm : Team) (l : Layer) :
    Except Engine.Err (List (Word × List Int × Bool) × Flags.Fl × Bool × State) :=
  (List.range l.nv).foldl (fun (r : Except Engine.Err (List (Word × List Int × Bool) × Flags.Fl × Bool × State)) v =>
    match r with
    | .error e => .error e
    | .ok (xs, fl, cx, s) =>
      match readVector s c tm l v with
      | .error e => .error e
      | .ok (x, f, k, s) => .ok (xs ++ [x], fl ||| f, cx || k, s)) (.ok ([], 0, false, s))

/-- A layer segment starts: tile checks, latched versions, input read and quantised (R317, R321, R325, R332). -/
def startLayer (s : State) (die : Nat) (c : ACmd) (tm : Team) : State :=
  let o := s.die die
  let l := layerOf c.block
  let ns := segTiles c
  match tileCheck o c ns with
  | some (e, t) => failStart s die c e t
  | none =>
    let ins := (List.range l.nv).map (xRange l)
    if !present s tm (layerRanges l) then s
    else if blocked s c.ctx (some c.id) tm ins then ask s tm ins
    else match readVectors s c tm l with
      | .error e => fail (scramble (startedVf e.2 die c) c.ctx tm (ranges c)) die c.id e.1 0
      | .ok (xs, fl, cx, s) =>
        let s := Engine.keepHold s c.id (linesOf s c.ctx tm (yRanges l) true) (linesOf s c.ctx tm (dRanges l) false)
        begin_ s die c (fun c => { c with latched := latch o ns, xq := xs, flags := fl, clipx := cx })

/-- One pass of a layer: codes, partials and flags (R318 to R320). DESIGN CHOICE, log 10. -/
def drive (o : Orng) (c : ACmd) (l : Layer) (v t free : Nat) : ACmd :=
  let lat := c.latched.getD t (0, false, 0)
  let a := tile o lat.1
  let b := bank a lat.2.1
  let x := c.xq.getD v (0, [], false)
  let q (i : Nat) : Int := x.2.1.getD (t * l.rows + i) 0
  (List.range l.cols).foldl (fun c j =>
    let col := l.col0 + j
    let sum := (List.range l.rows).foldl (fun (n : Int) i => n + q i * level a (l.row0 + i) col) 0
    let k := code sum a.rsh.toNat (Config.adcDeviation (free + j))
    let p := partialOf k b col x.1 a.sw
    { c with
      parts := c.parts.set (partKey v t j) p.1, flags := c.flags ||| p.2
      clipc := c.clipc || k == -512 || k == 511 }) c

/-- Write the outputs of a layer that has driven every pass. -/
def writeOutputs (s : State) (c : ACmd) (tm : Team) (l : Layer) : Except Engine.Err (Flags.Fl × State) :=
  (List.range l.nv).foldl (fun (r : Except Engine.Err (Flags.Fl × State)) v =>
    match r with
    | .error e => .error e
    | .ok (fl, s) =>
      let d : Except Engine.Err (List Byte × State) :=
        if l.den then readRange s c.ctx tm (vec l.dbase l.dstr v) (4 * l.cols) else .ok ([], s)
      match d with
      | .error e => .error e
      | .ok (d, s) =>
        let ys := (List.range l.cols).map (fun j => output c l v j (BitVec.ofNat 32 (Engine.field d (4 * j) 4)))
        match writeRange s c.ctx tm (vec l.ybase l.ystr v) (ys.flatMap (fun y => Mem.toBytes 4 y.1.toNat)) with
        | .error e => .error e
        | .ok s => .ok (ys.foldl (fun f y => f ||| y.2) fl, s)) (.ok (0, s))

/-- Count the passes of a layer that completed with CODE 0, and keep the data of those that are sampled (R328). -/
def sample (s : State) (die : Nat) (c : ACmd) (l : Layer) : State :=
  let p := s.ctxPart c.ctx
  let n := (s.part p).interval
  (passes l c.xq).foldl (fun s vt =>
    let o := s.die die
    let k := o.passCount.getD p 0 + 1
    if n ≠ 0 && decide (n ≤ k) then
      let lat := c.latched.getD vt.2 (0, false, 0)
      let x := c.xq.getD vt.1 (0, [], false)
      let m : ASample :=
        { part := p, tile := lat.1, seq := c.seq, ctx := c.ctx, ver := lat.2.2, row0 := l.row0, col0 := l.col0, time := s.now
          sx := x.1, q := (x.2.1.drop (vt.2 * l.rows)).take l.rows
          p := (List.range l.cols).map (fun j => c.parts.getD (partKey vt.1 vt.2 j) 0) }
      s.setDie die { o with passCount := o.passCount.put 0 p 0, samples := o.samples ++ [m] }
    else s.setDie die { o with passCount := o.passCount.put 0 p k }) s

/-- A layer command completes. -/
def endLayer (s : State) (die : Nat) (c : ACmd) (tm : Team) : State :=
  let l := layerOf c.block
  let rs := dRanges l ++ yRanges l
  if blocked s c.ctx (some c.id) tm rs then ask s tm rs
  else match writeOutputs s c tm l with
  | .error e => leave (scramble e.2 c.ctx tm (ranges c)) die c.id (status { c with err := e.1 })
  | .ok (fl, s) => leave (sample s die c l) die c.id (status { c with flags := c.flags ||| fl })

/-! ### Check sampling (R328 to R330) -/

/-- One shadow weight (R90, Table 11.16). -/
def shadow (s : State) (base row col : Nat) : Flags.Fp :=
  let m := (Mem.homeByte s (base + 1024 * col + row)).toInt
  let e := (Mem.homeByte s (base + 0x100000 + 64 * col + row / 16)).toNat
  if e = 255 then .nan false
  else if e = 0 then .fin false 0 0
  else Flags.ofInt m ((e : Int) - 134) false

/-- The bytes of a tile's shadow that the recomputation of a pass reads: address and length. -/
def shadowParts (base : Nat) (m : ASample) : List (Nat × Nat) :=
  (List.range m.p.length).flatMap (fun j =>
    [(base + 1024 * (m.col0 + j) + m.row0, m.q.length), (base + 0x100000 + 64 * (m.col0 + j), 64)])

/-- ref_j of a sampled pass. -/
def reference (s : State) (base : Nat) (m : ASample) (j : Nat) : Word :=
  let sum := (List.range m.q.length).foldl (fun (a : Flags.Fp) i =>
    (Flags.addX 0 a (Flags.mulX (Flags.ofInt (m.q.getD i 0) 0 false) (shadow s base (m.row0 + i) (m.col0 + j))).1).1)
    (.fin false 0 0)
  BitVec.ofNat 32 (Flags.deliver Flags.f32 0 false (Flags.mulX (Flags.unpack Flags.f32 false m.sx.toNat) sum).1).1

/-- The base of the shadow of a tile (R329). -/
def shadowBase (s : State) (die : Nat) (m : ASample) : Nat := (s.die die).shbase.toNat + 0x110000 * m.tile

/-- The array check record (Table 11.12). -/
def record (s : State) (die : Nat) (m : ASample) : List Byte :=
  let base := shadowBase s die m
  let devs := (List.range m.p.length).map (fun j => Matrix.deviation (m.p.getD j 0) (reference s base m j))
  Mem.toBytes 1 2 ++ Mem.toBytes 1 (16 * die + m.seq) ++ Mem.toBytes 2 m.tile ++ Mem.toBytes 4 (Matrix.largest devs).toNat
    ++ Mem.toBytes 8 m.time ++ Mem.toBytes 2 m.ver.toNat ++ Mem.toBytes 2 (m.p.length % 2048) ++ Mem.toBytes 4 m.ctx
    ++ Mem.toBytes 8 0

/-! ### Stage and commit -/

/-- The check of PG and of the staging-owner entry (R333 to R335): a code and a detail. -/
def stagingCheck (s : State) (die : Nat) (c : ACmd) : Option (Nat × Nat) :=
  let o := s.die die
  let stg := stgOf c.block
  let e := o.stgOwner.getD stg StgOwner.reset
  if !mayProgram o (targetOf c.block) c.vf then some (0x30, 0)
  else if !e.valid || e.owner ≠ s.ctxPart c.ctx then some (0x30, stg)
  else if e.erase then some (0x31, stg)
  else none

/-- Append a record for a command, then go on; without room in the ring the command waits. -/
def withRecord (s : State) (die : Nat) (r : JRec) (f : Orng → Orng) : State :=
  match append (s.die die) r with
  | none => s
  | some o => s.setDie die (f o)

/-- One move of a stage write: STAGE_BEGIN, a row, STAGE_DONE (R333). -/
def stageMove (s : State) (die : Nat) (c : ACmd) : State :=
  let o := s.die die
  let n := targetOf c.block
  let stg := stgOf c.block
  match c.phase with
  | 0 =>
    if o.cmds.any (fun x => x.entry == 4 && usesStg x stg) then s
    else withRecord s die (jrec 1 n stg 0 s.now) (fun o => setCmd o { c with phase := 1 })
  | 1 =>
    let o := { o with staging := o.staging.set stg (setRow (staging o stg) c.img c.row) }
    s.setDie die (setCmd o { c with row := c.row + 1, phase := if c.row = 1023 then 2 else 1 })
  | 2 =>
    let r := { jrec 2 n stg 0 s.now with sw := swOf c.block, rsh := rshOf c.block, imgcrc := crc32c (imageBytes c.img) }
    withRecord s die r (fun o => setCmd o { c with phase := 3 })
  | _ => s

/-- One move of a commit, which waits for an earlier commit of its tile: the wait for segments and the copied STAGE_DONE, then ROW_BEGIN, the row and ROW_DONE, then COMMIT (R335). -/
def commitMove (s : State) (die : Nat) (c : ACmd) (ok : Bool) : State :=
  let o := s.die die
  let n := targetOf c.block
  let stg := stgOf c.block
  match c.phase with
  | 0 =>
    let earlier := o.cmds.takeWhile (fun x => x.id != c.id)
    if o.cmds.any (fun x => x.started && x.latched.any (fun y => y.1 == n))
      || o.cmds.any (fun x => x.id != c.id && x.started && x.entry == 4 && targetOf x.block == n && x.phase != 3
        && (x.phase != 0 || earlier.contains x)) then s
    else match stageDone o.journal n stg with
      | some (_, r) =>
        if needsCopy o.journal n stg then
          withRecord s die { r with time := s.now, discarded := false } (fun o => setCmd o { c with phase := 1 })
        else s.setDie die (setCmd o { c with phase := 1 })
      | none => s
  | 1 =>
    if !c.begun then
      withRecord s die (jrec 3 n stg c.row s.now) (fun o =>
        setCmd (modTile o n (fun t => { t with state := .commit })) { c with begun := true })
    else if !ok then
      s.setDie die (setCmd (modTile o n (fun t => { t with state := .failed })) { c with phase := 3, err := 0x52, detail := c.row })
    else
      withRecord s die (jrec 4 n stg c.row s.now) (fun o =>
        setCmd (modTile o n (fun t => { t with w := setRow t.w (staging o stg) c.row }))
          { c with begun := false, row := c.row + 1, phase := if c.row = 1023 then 2 else 1 })
  | 2 =>
    match stageDone o.journal n stg with
    | none => s
    | some (_, r) =>
      withRecord s die (jrec 5 n stg 0 s.now) (fun o =>
        setCmd (modTile o n (fun t => committed t r.sw r.rsh s.now)) { c with phase := 3 })
  | _ => s

/-! ### Replay (R338) -/

/-- Redo the rows from k of a tile, and commit it; none when the ring has no room for a record. DEDUCED, log 50. -/
def redo (o : Orng) (n stg now k : Nat) (sw : Word) (rsh : BitVec 4) : Option Orng :=
  let start := modTile o n (fun t => { t with state := .commit })
  let rows := (List.range (1024 - k)).foldl (fun (r : Option Orng) i =>
    r.bind fun o =>
      (append o (jrec 3 n stg (k + i) now)).bind fun o =>
        append (modTile o n (fun t => { t with w := setRow t.w (staging o stg) (k + i) })) (jrec 4 n stg (k + i) now)) (some start)
  rows.bind fun o => (append o (jrec 5 n stg 0 now)).map fun o => modTile o n (fun t => committed t sw rsh now)

/-- The rules of R338 for one tile. -/
def replayTile (o : Orng) (n now : Nat) : Option Orng :=
  let tail : List JRec := match lastCommit o.journal n with
    | some k => o.journal.drop (k + 1)
    | none => o.journal
  let recs := tail.filter (fun r => r.tile == n)
  let openBegin := recs.zipIdx.find? (fun x => x.1.type == 1 && !(recs.drop x.2).any (fun r => r.type == 2))
  match openBegin with
  | some (r, _) => some { o with journal := o.journal.map (fun x => if x = r then { x with discarded := true } else x) }
  | none =>
    match (recs.filter (fun r => r.type == 2)).getLast? with
    | none => some o
    | some d =>
      let later := (recs.reverse.takeWhile (fun r => r != d)).reverse
      match (later.filter (fun r => r.type == 3)).getLast? with
      | none => some o
      | some b =>
        let after := later.reverse.takeWhile (fun r => r != b)
        let k := if after.any (fun r => r.type == 4 && r.row == b.row) then b.row + 1 else b.row
        redo o n d.stg now k d.sw d.rsh

/-! ### The end of a command -/

/-- A command that is cancelled before its queue entry has not had its block read; the bytes that it would have written are undefined
all the same, as far as the block that stands there now names any (R341). DEDUCED, log 106. -/
def asEntered (s : State) (c : ACmd) (tm : Team) : ACmd :=
  if c.queued || 8 ≤ c.entry then c
  else match readRange s c.ctx tm c.argAddr 64 with
    | .error _ => { c with entry := 9 }
    | .ok (b, s) => if blockError s c.ctx tm c.entry b = 0 then { c with block := b } else { c with entry := 9 }

/-- The destination bytes of a command that ends early hold free values (R140, R341). -/
def undefine (s : State) (c : ACmd) : State :=
  match s.teams.get? c.team with
  | some tm => scramble s c.ctx tm (ranges (asEntered s c tm))
  | none => s

end Arrays

/-- acall (R309 to R311). -/
def execAcall (h : Hdr) (d a : Reg) (x : ATarget) (trap : Bool) (s : State) : Result := Ops.withCohort s fun c =>
  Ops.perGroup s c h true fun s gid t lanes =>
    let w := Arrays.targetWord s gid t x
    let n := w.toNat
    let wide : DWord := w.setWidth 64
    let die := n % 16
    let entry := n / 256 % 8
    let arg := Operands.val64 s gid t a
    if n / 2048 ≠ 0 then .trap s (fun _ => Ops.plain 0x01 wide)
    else if entry = 2 || entry = 6 || ((entry = 3 || entry = 4) && Arrays.partOf s gid ≠ 0) then
      .trap s (fun _ => Ops.plain 0x30 wide)
    else if s.lost.contains (4 + die) then Arrays.dieLost s
    else match Arrays.argFault s gid arg with
      | some f => .trap s (fun _ => f)
      | none => Arrays.issue s gid lanes d trap die (n / 16 % 16) entry arg 0

/-- acorr (R327). -/
def execAcorr (h : Hdr) (d a b : Reg) (s : State) : Result := Ops.withCohort s fun c =>
  Ops.perGroup s c h true fun s gid t lanes =>
    Arrays.issueTile s gid lanes d (Operands.val s gid t b) 8 (Operands.val64 s gid t a)

/-- astat (R327). -/
def execAstat (h : Hdr) (d b : Reg) (s : State) : Result := Ops.withCohort s fun c =>
  Ops.perGroup s c h true fun s gid t lanes => Arrays.issueTile s gid lanes d (Operands.val s gid t b) 9 0

/-- ARRAY_QUEUE_ENTRY: the oldest command of its VF on its way enters the queue, when the queue has room: its block is read and checked,
its input and d lines are pinned and its output lines owned (R311 to R314). A command of a context that is not in its place is
withdrawn, and holds no other back (R341). -/
def execArrayQueueEntry (die id : Nat) (s : State) : Result := .next <|
  let o := s.die die
  match Arrays.find? s die id with
  | none => s
  | some c =>
    let first := (o.cmds.find? (fun x => x.vf == c.vf && !x.queued && x.entry != 10 && !x.cancel && Arrays.stands s x)).map ACmd.id
    match s.teams.get? c.team with
    | none => s
    | some tm =>
      if c.queued || c.cancel || first != some id || 16 ≤ Arrays.entries o c.vf then s
      else if !o.replayed then Arrays.fail s die id 0x31 0
      else if (o.seqrs.getD c.seq Seqr.reset).halted then Arrays.fail s die id 0x01 0xFFFF
      else
        let s := s.cross (coreDie tm.core) (4 + die)
        let enter (s : State) (b : List Byte) : State := Arrays.modify s die id (fun c => { c with queued := true, block := b })
        let arg : List Arrays.Range := [{ ea := c.argAddr, n := 64, wr := false }]
        if 8 ≤ c.entry then enter s []
        else if Arrays.blocked s c.ctx none tm arg then Arrays.ask s tm arg
        else match Arrays.readRange s c.ctx tm c.argAddr 64 with
          | .error e => Arrays.fail e.2 die id e.1 0
          | .ok (b, s1) =>
            let rs := Arrays.ranges { c with block := b }
            if Arrays.walks s1 c.ctx tm rs then s
            else
              let e := Arrays.blockError s1 c.ctx tm c.entry b
              if e ≠ 0 then Arrays.fail s1 die id e 0
              else
                let own := Arrays.linesOf s1 c.ctx tm rs true
                let pin := Arrays.linesOf s1 c.ctx tm rs false
                if !Engine.canHold s1 own pin then s
                else enter (Engine.hold (Arrays.use s1 c.ctx tm rs) id tm.core (s.ctxPart c.ctx) own pin) b

/-- ALAY: a free lane starts the sequencer's next command, a single-vector layer (R317, R321, R332). -/
def execAlay (die seq : Nat) (s : State) : Result := .next <|
  Arrays.startNext s die seq [0] (fun c tm => Arrays.startLayer s die c tm)

/-- ABAT: the same for a batched layer. -/
def execAbat (die seq : Nat) (s : State) : Result := .next <|
  Arrays.startNext s die seq [1] (fun c tm => Arrays.startLayer s die c tm)

/-- AVFY: a free lane starts a verify read (R339). -/
def execAvfy (die seq : Nat) (s : State) : Result := .next <|
  Arrays.startNext s die seq [5] (fun c _ =>
    match Arrays.tileCheck (s.die die) c (Arrays.segTiles c) with
    | some (e, t) => Arrays.failStart s die c e t
    | none => Arrays.begin_ s die c (fun c => { c with latched := Arrays.latch (s.die die) (Arrays.segTiles c) }))

/-- ASTG: a free lane starts a stage write: permission, staging owner, then the levels of its image (R333, R334). -/
def execAstg (die seq : Nat) (s : State) : Result := .next <|
  Arrays.startNext s die seq [3] (fun c tm =>
    match Arrays.stagingCheck s die c with
    | some (e, t) => Arrays.fail s die c.id e t
    | none =>
      let rs := Arrays.imgRanges c.block
      if !Arrays.present s tm rs then s
      else if Arrays.blocked s c.ctx (some c.id) tm rs then Arrays.ask s tm rs
      else match Arrays.readRange s c.ctx tm (Arrays.imgOf c.block) Arrays.imgBytes with
        | .error e => Arrays.fail e.2 die c.id e.1 0
        | .ok (b, s) =>
          match Arrays.levels b with
          | none => Arrays.fail s die c.id 0x01 0
          | some img => Arrays.begin_ (Engine.release s c.id) die c (fun c => { c with img := img }))

/-- ACMT: a free lane starts a commit of a usable staging (R334, R335). -/
def execAcmt (die seq : Nat) (s : State) : Result := .next <|
  Arrays.startNext s die seq [4] (fun c _ =>
    let o := s.die die
    let n := Arrays.targetOf c.block
    match Arrays.stagingCheck s die c with
    | some (e, t) => Arrays.fail s die c.id e t
    | none =>
      if (Arrays.stageDone o.journal n (Arrays.stgOf c.block)).isNone then Arrays.fail s die c.id 0x01 0
      else Arrays.begin_ s die c id)

/-- AQRY: a lane writes the status block (R340). -/
def execAqry (die seq : Nat) (s : State) : Result := .next <|
  Arrays.startNext s die seq [7] (fun c tm =>
    let o := s.die die
    let rs := Arrays.statusRanges c.block
    let b := Mem.toBytes 1 (die + 16 * seq) ++ Mem.toBytes 1 (Arrays.busyLanes o seq + 1) ++ Mem.toBytes 1 (if o.replayed then 1 else 0)
      ++ Mem.toBytes 1 (Arrays.entries o c.vf - 1) ++ Mem.toBytes 4 0 ++ Mem.toBytes 8 s.now ++ List.replicate 48 0
    if Arrays.blocked s c.ctx (some c.id) tm rs then Arrays.ask s tm rs
    else match Arrays.writeRange (Arrays.startedVf s die c) c.ctx tm (BitVec.ofNat 64 (Engine.field c.block 0 8)) b with
    | .error e => Arrays.fail e.2 die c.id e.1 0
    | .ok s => Arrays.leave s die c.id 0)

/-- ACORR_ASTAT_RUN: a free lane of sequencer 0 runs a pending acorr or astat; acorr takes its destination lines first, and the issuing
core loses its copies of them (R327, R139, R466). -/
def execAcorrAstatRun (die id : Nat) (s : State) : Result := .next <|
  Arrays.startNext s die 0 [8, 9] (fun c tm =>
    let o := s.die die
    let t := Arrays.tile o c.tile
    if c.id ≠ id then s
    else if !Arrays.mayRead o c.tile c.vf then Arrays.failStart s die c 0x30 0
    else if c.entry = 9 then
      Arrays.leave (Arrays.startedVf s die c) die id (BitVec.ofNat 32 (256 * Arrays.stateCode t.state + 2048 * t.ver.toNat))
    else if t.state != TileState.ready && t.state != TileState.probe then Arrays.failStart s die c 0x31 0
    else if c.argAddr.toNat % 16 ≠ 0 then Arrays.failStart s die c 0x12 0
    else
      let rs := Arrays.ranges c
      if Arrays.walks s c.ctx tm rs then s
      else
        let e := Arrays.rangesError s c.ctx tm rs
        let own := Arrays.linesOf s c.ctx tm rs true
        if e ≠ 0 then Arrays.failStart s die c e 0
        else if !Engine.canHold s own [] || Arrays.blocked s c.ctx (some id) tm rs then Arrays.ask s tm rs
        else
          let k := Arrays.bank t t.cur1
          let words (f : Nat → Word) : List Byte := (List.range 1024).flatMap (fun j => Mem.toBytes 4 (f j).toNat)
          let b := Mem.toBytes 4 t.ver.toNat ++ List.replicate 12 0 ++ words (Arrays.gain k) ++ words (Arrays.off k)
          let s := Engine.hold (Arrays.use (Arrays.startedVf s die c) c.ctx tm rs) id tm.core (s.ctxPart c.ctx) own []
          match Arrays.writeRange s c.ctx tm c.argAddr b with
          | .error e => Arrays.fail e.2 die id e.1 0
          | .ok s => Arrays.leave s die id 0)

/-- TILE_PASS: a started segment drives its next pass, when its tile still permits it (R318, R332, R339); a probe drives its one pass
(R324); a command that executes micro-words executes its next one (R306). -/
def execTilePass (die id : Nat) (s : State) : Result := .next <|
  let o := s.die die
  match Arrays.find? s die id with
  | none => s
  | some c =>
    let l := Arrays.layerOf c.block
    if !c.started || c.cancel || c.err ≠ 0 then s
    else if c.micro.isSome then Arrays.Micro.next s die c false
    else if c.entry = 10 then Arrays.modify s die id (fun c => { c with pass := 1 })
    else if Arrays.isLayer c then
      match (Arrays.passes l c.xq)[c.pass]? with
      | none => s
      | some (v, t) =>
        let n := (c.latched.getD t (0, false, 0)).1
        if !Arrays.mayRead o n c.vf then Arrays.modify s die id (fun c => { c with err := 0x30, detail := t })
        else
          let c' := Arrays.drive o c l v t s.free
          (s.setDie die (Arrays.setCmd (Arrays.activate o n s.now) { c' with pass := c.pass + 1 })).takeFree l.cols
    else if c.entry = 5 && c.pass < l.rows then
      if !Arrays.mayRead o l.tile0 c.vf then Arrays.modify s die id (fun c => { c with err := 0x30, detail := 0 })
      else
        let a := Arrays.tile o l.tile0
        let parts := (List.range l.cols).foldl (fun m j =>
          m.set (c.pass * 1024 + j) (BitVec.ofInt 32 (Arrays.level a (l.row0 + c.pass) (l.col0 + j)))) c.parts
        s.setDie die (Arrays.setCmd (Arrays.activate o l.tile0 s.now) { c with pass := c.pass + 1, parts := parts })
    else s

/-- ROW_PROGRAM_VERIFY: a started stage or commit makes its next move (R333, R335). `ok` tells whether a commit's row
passed, or one that micro-words verify (R306). -/
def execRowProgramVerify (die id : Nat) (ok : Bool) (s : State) : Result := .next <|
  match Arrays.find? s die id with
  | none => s
  | some c =>
    if !c.started then s
    else if c.micro.isSome then Arrays.Micro.next s die c ok
    else match c.entry with
      | 3 => Arrays.stageMove s die c
      | 4 => Arrays.commitMove s die c ok
      | _ => s

/-- ARRAY_COMPLETION: a command ends: cancelled, with its error, or with its results (R315, R341); a probe ends, and the first one after a
commit makes the tile READY (R303, R324). -/
def execArrayCompletion (die id : Nat) (s : State) : Result := .next <|
  match Arrays.find? s die id with
  | none => s
  | some c =>
    let l := Arrays.layerOf c.block
    if c.entry = 10 then (if c.started && c.micro.isNone && c.pass = 1 then Arrays.Micro.endProbe s die c else s)
    else if c.cancel then Arrays.leave (Arrays.undefine s c) die id (Arrays.status c)
    else if !c.started || c.micro.isSome then s
    else if c.entry = 3 || c.entry = 4 then (if c.phase = 3 then Arrays.leave s die id (Arrays.status c) else s)
    else if c.err ≠ 0 then Arrays.leave (Arrays.undefine s c) die id (Arrays.status c)
    else match s.teams.get? c.team with
      | none => s
      | some tm =>
        if Arrays.isLayer c then
          (if c.pass = (Arrays.passes l c.xq).length then Arrays.endLayer (s.cross (coreDie tm.core) (4 + die)) die c tm else s)
        else if c.entry = 5 && c.pass = l.rows then
          let b := (List.range l.rows).flatMap (fun i => (List.range l.cols).map (fun j =>
            BitVec.ofNat 8 (c.parts.getD (i * 1024 + j) 0).toNat))
          let rs := Arrays.verifyRanges l
          if Arrays.blocked s c.ctx (some id) tm rs then Arrays.ask s tm rs
          else match Arrays.writeRange s c.ctx tm l.ybase b with
          | .error e => Arrays.leave (Arrays.undefine e.2 c) die id (Arrays.status { c with err := e.1 })
          | .ok s => Arrays.leave s die id (Arrays.status c)
        else s

/-- PROBE_REQUEST: the RCE asks a die for a probe of a READY tile activated in the last 50 ms, or of a tile in PROBE (R324). -/
def execProbeRequest (die n : Nat) (s : State) : Result := .next <|
  let o := s.die die
  let t := Arrays.tile o n
  let due : Bool := t.state == TileState.probe || (t.state == TileState.ready && (match t.lastAct with
    | some x => decide (s.now ≤ x + 50000000)
    | none => false))
  if !o.replayed || !due || o.cmds.any (fun c => c.entry == 10 && c.tile == n) then s
  else
    let (id, s) := s.fresh
    let c : ACmd :=
      { id := id, ctx := 0, vf := 0, gid := 0, team := 0, seq := 0, entry := 10, argAddr := 0, tile := n, block := []
        queued := true, started := false, lane := 0, micro := none, shipped := false, pass := 0, latched := [], parts := [], xq := [], flags := 0, clipx := false, clipc := false
        err := 0, detail := 0, cancel := false, phase := 0, row := 0, begun := false, img := [] }
    s.setDie die { o with cmds := o.cmds ++ [c] }

/-- CALIBRATION_PROBE: a free lane of any sequencer of the die takes the oldest requested probe, which holds it until its pass is done
(R322, R324). -/
def execCalibrationProbe (die seq : Nat) (s : State) : Result := .next <|
  let o := s.die die
  match o.cmds.find? (fun c => c.entry == 10 && !c.started), Arrays.probeLane s o seq with
  | some c, some k =>
    let o := Arrays.setCmd o { c with
      started := true, seq := seq, lane := k, micro := (Arrays.microStart o { c with seq := seq }).map Arrays.Micro.fresh }
    let q := o.seqrs.getD seq Seqr.reset
    s.setDie die { o with seqrs := o.seqrs.set seq { q with probed := q.probed.add k } }
  | _, _ => s

/-- CORRECTION_PUBLISH: the RCE publishes a version of a READY tile in which it has refit some columns, at most once in a
millisecond, and not into a bank that a segment has latched (R326). -/
def execCorrectionPublish (die n : Nat) (cols : List (Nat × Word × Word)) (s : State) : Result := .next <|
  let o := s.die die
  let t := Arrays.tile o n
  let soon : Bool := match t.lastPub with
    | some x => decide (s.now < x + 1000000)
    | none => false
  let held := o.cmds.any (fun c => c.started && c.latched.any (fun y => y.1 == n && y.2.1 != t.cur1))
  if t.state != TileState.ready || soon || held then s
  else
    let b := cols.foldl (fun (b : Bank) x =>
      if x.1 < 1024 then { gain := b.gain.put 0x3F800000 x.1 x.2.1, off := b.off.put 0 x.1 x.2.2 } else b) (Arrays.bank t t.cur1)
    s.setDie die (Arrays.modTile o n (fun t => Arrays.publish t b s.now))

/-- ARRAY_CHECK: the RCE recomputes the oldest sampled pass and writes its record (R328 to R330); its reads recall owned copies, and wait
for a line that is held back (R141). -/
def execArrayCheck (die : Nat) (s : State) : Result := .next <|
  let o := s.die die
  match o.samples with
  | [] => s
  | m :: rest =>
    let ps := Arrays.shadowParts (Arrays.shadowBase s die m) m
    if Telemetry.waits s m.part || ps.any (fun x => (List.range (x.2 / 64 + 2)).any (fun i => Mem.heldBack s (x.1 + min (64 * i) x.2))) then s
    else
      let s := ps.foldl (fun s x => Mem.serveRange s x.1 x.2) s
      Telemetry.write (s.setDie die { s.die die with samples := rest }) m.part (Arrays.record s die m)

/-- JOURNAL_REPLAY: the management processor replays a die's journal: records whose MAGIC or CRC is wrong are dropped, then
each tile is put right, in ascending number (R338). A ring without room for a record that replay appends leaves the die unreplayed.
DEDUCED, log 50; DEDUCED, log 62. -/
def execJournalReplay (die : Nat) (s : State) : Result := .next <|
  let o := s.die die
  if o.replayed then s
  else
    let o := { o with journal := o.journal.filter Arrays.recOk }
    let tiles := o.journal.foldl (fun l r => NSet.add l r.tile) []
    match tiles.foldl (fun (r : Option Orng) n => r.bind (fun o => Arrays.replayTile o n s.now)) (some o) with
    | some o => s.setDie die { o with replayed := true }
    | none => s

/-- STAGING_OWNER_WRITE: a change of OWNER or a cleared VALID erases the staging tile; it is ignored while a stage or commit uses
the tile (R334). -/
def execStagingOwnerWrite (die stg : Nat) (v : BitVec 32) (s : State) : Result := .next <|
  let o := s.die die
  let e := o.stgOwner.getD stg StgOwner.reset
  let w := (v.extractLsb' 2 5).toNat
  let owner := if w < 24 then w else e.owner
  let valid := v.getLsbD 0
  let passes := decide (owner ≠ e.owner) || (e.valid && !valid)
  if 64 ≤ stg || (passes && o.cmds.any (fun c => Arrays.usesStg c stg)) then s
  else
    let o := { o with stgOwner := o.stgOwner.set stg { valid := valid, erase := e.erase || passes, owner := owner } }
    s.setDie die (if passes then { o with journal := Arrays.discard o.journal stg } else o)

/-- STAGING_ERASE_END: every cell of the staging tile is at level 0 and ERASE clears (R334). -/
def execStagingEraseEnd (die stg : Nat) (s : State) : Result := .next <|
  let o := s.die die
  let e := o.stgOwner.getD stg StgOwner.reset
  if !e.erase || !o.replayed then s
  else s.setDie die { o with staging := o.staging.erase stg, stgOwner := o.stgOwner.set stg { e with erase := false } }

/-- PERMISSION_ENTRY_WRITE: a write that would give PG to a VF that partition 0 does not own is refused whole (R331). -/
def execPermissionEntryWrite (die row vf : Nat) (v : BitVec 32) (s : State) : Result := .next <|
  if 64 ≤ row || 128 ≤ vf || (v.getLsbD 1 && (s.vf vf).part ≠ some 0) then s
  else s.modDie die (fun o => { o with perm := o.perm.put 0 (128 * row + vf) (v &&& 3) })

/-- SEQUENCER_CTL_WRITE: STOP is written and a one clears FAULT; clearing STOP ends the refusals after a fault (R305, R307). -/
def execSequencerCtlWrite (die seq : Nat) (v : BitVec 32) (s : State) : Result := .next <|
  if 16 ≤ seq then s
  else s.modDie die (fun o =>
    let q := o.seqrs.getD seq Seqr.reset
    { o with seqrs := o.seqrs.set seq { q with
        stop := v.getLsbD 0, fault := q.fault && !v.getLsbD 2, halted := q.halted && v.getLsbD 0 } })

/-- CWD3_WRITE: with STOPPED, CWD0 to CWD3 become micro-word CADDR, and CADDR counts (R305). DESIGN CHOICE, log 53. -/
def execCwd3Write (die seq : Nat) (v : BitVec 32) (s : State) : Result := .next <|
  let o := s.die die
  let q := o.seqrs.getD seq Seqr.reset
  if 16 ≤ seq || !q.stop || Arrays.busyLanes o seq ≠ 0 then s
  else
    let w (k : Nat) : BitVec 32 := q.cwd.getD k 0
    let q := { q with
      cwd := q.cwd.put 0 3 v, store := q.store.set q.caddr.toNat (v ++ w 2 ++ w 1 ++ w 0), caddr := q.caddr + 1 }
    s.setDie die { o with seqrs := o.seqrs.set seq q }

end Sys2Proof.Machine
end

