-- ==== Sys2Proof/Machine/CrossLane.lean ====
section
/-! DEFINITION. The cross-lane instructions, OP 0x67, 0x70 to 0x76, and rdl and wrl: the implicit meet of a home group's
lanes, and what an instance computes (R229, R265 to R275). -/

namespace Sys2Proof.Machine

open Sys2Proof

namespace CrossLane

/-! ### Segments and masks -/

/-- The segment width of SEG (R268). -/
def width (seg : BitVec 3) : Nat := [128, 2, 4, 8, 16, 32, 64].getD seg.toNat 128

/-- The participation mask of C (R265). -/
def maskOf (g : Group) (m : Reg) : NSet :=
  match m with
  | .s i => (List.range 128).filter (fun l => (g.s (i.val + l / 32)).getLsbD (l % 32))
  | _ => List.range 128

/-- Word k of a 128-bit mask. -/
def maskWord (m k : Nat) : Word := BitVec.ofNat 32 (m / 2 ^ (32 * k))

/-- The words of a mask that WSEL and X4 select, to consecutive registers from D. -/
def selectWords (d : Reg) (wsel : BitVec 2) (x4 : Bool) (m : Nat) : Operands.LaneOut :=
  if x4 then { d := (List.range 4).map (fun k => (Operands.next d k, maskWord m k)) }
  else { d := [(d, maskWord m wsel.toNat)] }

/-! ### Reductions (Table 09.13) -/

/-- One step of a reduction. -/
def redOp (op : Nat) (a b : DWord) : DWord × Flags.Fl :=
  let x : Word := a.setWidth 32
  let y : Word := b.setWidth 32
  let w (r : Word) : DWord × Flags.Fl := (r.setWidth 64, 0)
  match op with
  | 0 => w (x + y)
  | 1 => let r := Flags.addRne x y; (r.1.setWidth 64, r.2)
  | 2 => w (if x.toInt ≤ y.toInt then x else y)
  | 3 => w (if x.toInt ≤ y.toInt then y else x)
  | 4 => w (if x.toNat ≤ y.toNat then x else y)
  | 5 => w (if x.toNat ≤ y.toNat then y else x)
  | 6 => w (x &&& y)
  | 7 => w (x ||| y)
  | 8 => w (x ^^^ y)
  | 9 => let r := Flags.minmax Flags.f32 false false false x.toNat y.toNat; (BitVec.ofNat 64 r.1, r.2)
  | 10 => let r := Flags.minmax Flags.f32 false false true x.toNat y.toNat; (BitVec.ofNat 64 r.1, r.2)
  | _ => (a + b, 0)

/-- The identity of an operation. -/
def identity (op : Nat) : DWord :=
  [0, 0x80000000, 0x7FFFFFFF, 0x80000000, 0xFFFFFFFF, 0, 0xFFFFFFFF, 0, 0, 0x7F800000, 0xFF800000, 0].getD op 0

/-- One level of the tree: neighbours combine. -/
def pairUp (op : Nat) : List DWord → List DWord × Flags.Fl
  | a :: b :: r =>
    let x := redOp op a b
    let y := pairUp op r
    (x.1 :: y.1, x.2 ||| y.2)
  | l => (l, 0)

/-- The tree of R274, at most `fuel` levels. -/
def tree (op : Nat) : Nat → List DWord → DWord × Flags.Fl
  | 0, l => (l.headD 0, 0)
  | fuel + 1, l =>
    match l with
    | [a] => (a, 0)
    | l =>
      let x := pairUp op l
      let y := tree op fuel x.1
      (y.1, x.2 ||| y.2)

/-- The running folds of a list, one step at a time (R275): the fold up to each place, with the flags of all steps. -/
def folds (op : Nat) (acc : DWord) : List DWord → List DWord × Flags.Fl
  | [] => ([], 0)
  | x :: r =>
    let y := redOp op acc x
    let z := folds op y.1 r
    (y.1 :: z.1, y.2 ||| z.2)

/-- The inclusive folds of a segment. -/
def scanAll (op : Nat) (l : List DWord) : List DWord × Flags.Fl :=
  match l with
  | [] => ([], 0)
  | x :: r => let z := folds op x r; (x :: z.1, z.2)

/-! ### One instance -/

/-- The arrival of a lane. -/
def at? (arr : List Arrival) (l : Nat) : Option Arrival := arr.find? (fun a => a.lane == l)

/-- The 64-bit value of a recorded operand. -/
def val64 (a : Arrival) : DWord := a.vals.getD 1 0 ++ a.vals.getD 0 0

/-- The contributed value of a lane, or the identity. -/
def contributed (arr : List Arrival) (op : Nat) (wide : Bool) (l : Nat) : DWord :=
  match at? arr l with
  | some a => if a.guard then (if wide then val64 a else (a.vals.getD 0 0).setWidth 64) else identity op
  | none => identity op

/-- The segment base of a lane. -/
def base (w l : Nat) : Nat := l / w * w

/-- The contributing lanes of a segment. -/
def segment (arr : List Arrival) (w l : Nat) : List Arrival :=
  arr.filter (fun a => a.guard && base w a.lane == base w l)

/-- The lane that shfl reads (R272). -/
def shflLane (mode : BitVec 2) (w l b : Nat) : Nat :=
  let s := base w l
  let o := l - s
  match mode.toNat with
  | 0 => s + b % w
  | 1 => s + (o + b) % w
  | 2 => s + (b + (w - o)) % w
  | _ => s + (o ^^^ (b % w))

/-- The FP32 values of a BFP block, +0 where a lane does not contribute. -/
def blockValues (arr : List Arrival) (b : Nat) : List Word :=
  (List.range 16).map (fun j => match at? arr (16 * b + j) with
    | some a => if a.guard then a.vals.getD 0 0 else 0
    | none => 0)

/-- What an instance gives one of its active participating lanes. -/
def laneOut (i : Instr) (arr : List Arrival) (a : Arrival) : Operands.LaneOut :=
  match i with
  | .ballot _ o =>
    selectWords o.d o.wsel o.x4 (NSet.toMask ((arr.filter (fun x => x.guard && x.pred)).map Arrival.lane))
  | .vote _ o =>
    let seg := segment arr (width o.seg) a.lane
    let n := seg.length
    let k := (seg.filter Arrival.pred).length
    let r : Bool := match o.kind.toNat with
      | 0 => decide (1 ≤ k)
      | 1 => decide (k = n)
      | 2 => decide (k = 0) || decide (k = n)
      | _ => decide (n < 2 * k)
    { p := [(o.dp.toNat, r)] }
  | .shfl _ o =>
    let t := shflLane o.mode (width o.seg) a.lane ((a.vals.getD 2 0).toNat % 128)
    let x : DWord := match at? arr t with
      | some y => val64 y
      | none => 0
    if o.b64 then Operands.out64 o.d x else Operands.out32 o.d (x.setWidth 32)
  | .matchx _ o =>
    let same (x : Arrival) : Bool := if o.b64 then val64 x == val64 a else x.vals.getD 0 0 == a.vals.getD 0 0
    selectWords o.d o.wsel o.x4 (NSet.toMask (((segment arr (width o.seg) a.lane).filter same).map Arrival.lane))
  | .redx _ o =>
    let w := width o.seg
    let s := base w a.lane
    let r := tree o.op.toNat 8 ((List.range w).map (fun k => contributed arr o.op.toNat (o.op = 11) (s + k)))
    { (if o.op = 11 then Operands.out64 o.d r.1 else Operands.out32 o.d (r.1.setWidth 32)) with flags := r.2 }
  | .scan _ o =>
    let w := width o.seg
    let s := base w a.lane
    let vs := (List.range w).map (fun k => contributed arr o.op.toNat false (s + k))
    if o.excl then
      let r := scanAll o.op.toNat vs.dropLast
      let x := (identity o.op.toNat :: r.1).getD (a.lane - s) 0
      { Operands.out32 o.d (x.setWidth 32) with flags := r.2 }
    else
      let r := scanAll o.op.toNat vs
      { Operands.out32 o.d ((r.1.getD (a.lane - s) 0).setWidth 32) with flags := r.2 }
  | .bfpq _ o =>
    let n := o.n.toNat + 2
    let b := a.lane / 16
    let r := Flags.quantise n (blockValues arr b)
    let m := r.2.1.getD (a.lane % 16) 0
    let byte := (m * 2 ^ (8 - n) % 256).toNat
    { d := [(o.d, BitVec.ofNat 32 (256 * r.1 + byte))], flags := r.2.2 }
  | _ => {}

/-- The lane that rdl and wrl name (R229). -/
def namedLane (g : Group) (b : Src7) : Nat :=
  match b with
  | .imm n => n.toNat
  | .reg (.s i) => (g.s i.val).toNat % 128
  | .reg _ => 0

/-- Execute an instance: every active participating lane receives its result, an s destination is written once, and every
lane that arrived goes on. -/
def executeInst (s : State) (gid : Nat) (x : XInst) : State :=
  let arr := x.arrived
  let act := arr.filter Arrival.guard
  let tids := arr.map (fun a => tidOf gid a.lane)
  let s1 := act.foldl (fun st a => st.modThread (tidOf gid a.lane) (fun t => Operands.commitLane t (laneOut x.instr arr a))) s
  let s2 := match act.head? with
    | some a => Operands.commitGroup s1 gid (laneOut x.instr arr a)
    | none => s1
  let s3 := match x.instr, s.group? gid, act.isEmpty with
    | .rdl _ (.s d) _ b, some g, false =>
      s2.setS gid d.val (match at? arr (namedLane g b) with
        | some a => a.vals.getD 0 0
        | none => 0)
    | .wrl _ (.v d) (.s a) b, some g, false =>
      let l := namedLane g b
      if (at? arr l).isSome then s2.modThread (tidOf gid l) (fun t => Ops.writeV t d.val (g.s a.val)) else s2
    | _, _, _ => s2
  let s4 := s3.modGroup gid (fun g => { g with xinsts := g.xinsts.filter (fun y => y.pc ≠ x.pc) })
  Ops.advance s4 tids

/-- Whether an instance executes: every participant has arrived, has exited, or is absent (R266). -/
def executable (s : State) (gid : Nat) (x : XInst) : Bool :=
  x.mask.all (fun l =>
    (at? x.arrived l).isSome || (match s.thread? (tidOf gid l) with
      | none => true
      | some t => match t.status with
        | .retired | .bar | .cbar | .meet _ _ => true
        | .xlane => t.pc != x.pc
        | _ => false))

/-- Execute every instance of a group that can; which those are is decided together (R266). -/
def settle (s : State) (gid : Nat) : State :=
  match s.group? gid with
  | none => s
  | some g => (g.xinsts.filter (executable s gid)).foldl (fun s x => executeInst s gid x) s

/-- A lane arrives at the instance at its PC, which it opens if there is none. -/
def arriveLane (s : State) (gid : Nat) (i : Instr) (mask : NSet) (pc : BitVec 48) (a : Arrival) : State :=
  s.modGroup gid (fun g =>
    if g.xinsts.any (fun x => x.pc == pc) then
      { g with xinsts := g.xinsts.map (fun x => if x.pc = pc then { x with arrived := x.arrived ++ [a] } else x) }
    else { g with xinsts := g.xinsts ++ [{ pc := pc, instr := i, mask := mask, arrived := [a] }] })

/-- The cohort reaches a cross-lane instruction: its participants arrive and are parked, the other lanes go on, and the
instances that can execute do. `ops` gives the operands of a lane as they stand now: values, and a predicate. -/
def arrive (s : State) (c : Cohort) (h : Hdr) (i : Instr) (mask : Reg) (ops : Nat → Thread → List Word × Bool) : State :=
  let gids := Ops.groupsOf c.tids
  let s := gids.foldl (fun s gid =>
    match s.group? gid with
    | none => s
    | some g =>
      let m := match g.xinsts.find? (fun x => x.pc == c.pc) with
        | some x => x.mask
        | none => maskOf g mask
      let lanes := Ops.lanesOf gid c.tids
      let (ins, outs) := lanes.partition (fun tid => m.contains (tidLane tid))
      let s := Ops.advance s outs
      ins.foldl (fun s tid =>
        match s.thread? tid with
        | none => s
        | some t =>
          let (vs, p) := ops gid t
          let a : Arrival := { lane := tidLane tid, guard := t.guard h, vals := vs, pred := p }
          (arriveLane s gid i m c.pc a).setThread tid { t with status := .xlane }) s) s
  gids.foldl settle s

/-- The recorded A operand, both halves of a pair where the form names one. -/
def recordA (s : State) (gid : Nat) (t : Thread) (a : Reg) (wide : Bool) : List Word :=
  if wide then
    let x := Operands.val64 s gid t a
    [x.extractLsb' 0 32, x.extractLsb' 32 32]
  else [Operands.val s gid t a, 0]

end CrossLane

open CrossLane

/-- bfpq: quantise the sixteen lanes of a block (R264). -/
def execBfpq (h : Hdr) (o : BfpOps) (s : State) : Result := Ops.withCohort s fun c =>
  arrive s c h (.bfpq h o) o.c (fun gid t => (recordA s gid t o.a false, false))

/-- ballot (R269). -/
def execBallot (h : Hdr) (o : BallotOps) (s : State) : Result := Ops.withCohort s fun c =>
  arrive s c h (.ballot h o) o.mask (fun _ t => ([], t.q o.p.toNat))

/-- vote (R270). -/
def execVote (h : Hdr) (o : VoteOps) (s : State) : Result := Ops.withCohort s fun c =>
  arrive s c h (.vote h o) o.mask (fun _ t => ([], t.q o.xp.toNat))

/-- shfl (R272). -/
def execShfl (h : Hdr) (o : ShflOps) (s : State) : Result := Ops.withCohort s fun c =>
  arrive s c h (.shfl h o) o.mask (fun gid t =>
    (recordA s gid t o.a o.b64 ++ [BitVec.ofNat 32 (Operands.src7 s gid t o.b)], false))

/-- match (R273). -/
def execMatchx (h : Hdr) (o : MatchOps) (s : State) : Result := Ops.withCohort s fun c =>
  arrive s c h (.matchx h o) o.mask (fun gid t => (recordA s gid t o.a o.b64, false))

/-- redx (R274). -/
def execRedx (h : Hdr) (o : RedxOps) (s : State) : Result := Ops.withCohort s fun c =>
  arrive s c h (.redx h o) o.mask (fun gid t => (recordA s gid t o.a (o.op = 11), false))

/-- scan (R275). -/
def execScan (h : Hdr) (o : ScanOps) (s : State) : Result := Ops.withCohort s fun c =>
  arrive s c h (.scan h o) o.mask (fun gid t => (recordA s gid t o.a false, false))

/-- lmask: a mask of lane numbers, without a meet (R271). -/
def execLmask (h : Hdr) (o : LmaskOps) (s : State) : Result := Ops.withCohort s fun c =>
  let rel (j l : Nat) : Bool := match o.rel.toNat with
    | 0 => decide (j = l)
    | 1 => decide (j < l)
    | 2 => decide (j ≤ l)
    | 3 => decide (l < j)
    | _ => decide (l ≤ j)
  let outs (l : Nat) : Operands.LaneOut := selectWords o.d o.wsel o.x4 (NSet.toMask ((List.range 128).filter (fun j => rel j l)))
  let act := Ops.active s c h
  Ops.advance (s.mapThreads act (fun tid t => Operands.commitLane t (outs (tidLane tid)))) c.tids

/-- rdl: read one lane into an s-register, at the implicit meet of all 128 lanes (R229). -/
def execRdl (h : Hdr) (d a : Reg) (b : Src7) (s : State) : Result := Ops.withCohort s fun c =>
  arrive s c h (.rdl h d a b) .zero (fun gid t => (recordA s gid t a false, false))

/-- wrl: write an s-register into one lane (R229). -/
def execWrl (h : Hdr) (d a : Reg) (b : Src7) (s : State) : Result := Ops.withCohort s fun c =>
  arrive s c h (.wrl h d a b) .zero (fun _ _ => ([], false))

end Sys2Proof.Machine
end

