-- ==== Sys2Proof/Machine/Meets.lean ====
section
/-! DEFINITION. Meet registers, and the matrix commands that threads sign through them (R281, R282, R365 to R367); the events of
the matrix unit. -/

namespace Sys2Proof.Machine

open Sys2Proof

namespace Meets

/-- A k register of a team: at launch its count is every thread of the team and its mask is empty (R349). -/
def kreg (t : Team) (k : Nat) : KReg := t.kregs.getD k { n := t.kernel.groups * 128, m := 0, inst := none }

/-- Change a k register. -/
def modK (s : State) (team k : Nat) (f : KReg → KReg) : State :=
  s.modTeam team (fun t => { t with kregs := t.kregs.set k (f (kreg t k)) })

/-- Set or clear the open instance of a k register. -/
def setInst (s : State) (team k : Nat) (i : Option KInst) : State := modK s team k (fun r => { r with inst := i })

/-- Whether an instance proceeds (R366). -/
def proceeds (s : State) (team : Nat) (i : KInst) : Bool := decide (i.n ≤ i.signed.length + Ops.retiredSigners s team i)

/-- The descriptor of a command, from the lowest-numbered home group that holds a signer (R282). -/
def descOf (s : State) (i : Instr) (signed : NSet) : List Word :=
  match Matrix.descRegs i, signed.head? with
  | some (.s c, n), some tid => (List.range n).map (fun k => s.s (tidGid tid) (c.val + k))
  | _, _ => []

/-- The core of a team. -/
def coreOf (s : State) (team : Nat) : Nat := ((s.teams.get? team).map Team.core).getD 0

/-- Threads that waited for an instance to proceed try again, and sign the next one (R281, R366). -/
def unpark (s : State) (team k : Nat) : State :=
  s.mapThreads (Ops.liveOf s team) (fun _ t =>
    if t.status = .meet k false || t.status = .held k then { t with status := .ready } else t)

/-- An instance that proceeds: the threads parked at a meet depart; a command enters the matrix queue if it can. -/
def settleK (s : State) (team k : Nat) : State :=
  match s.teams.get? team with
  | none => s
  | some tm =>
    match (kreg tm k).inst with
    | none => s
    | some i =>
      if !proceeds s team i then s
      else match i.cmd with
        | none =>
          let go := i.signed.filter (fun tid => match s.thread? tid with
            | some t => t.status == Status.meet k true
            | none => false)
          Ops.depart (unpark (setInst s team k none) team k) go
        | some q =>
          let desc := descOf s q.instr i.signed
          if Matrix.mayEnter s tm.core tm q.instr desc then
            Matrix.enter (unpark (setInst s team k none) team k) tm.core team tm q.id q.instr q.tile desc
          else s

/-- Settle every open instance of a team. -/
def settleTeam (s : State) (team : Nat) : State :=
  match s.teams.get? team with
  | none => s
  | some tm => tm.kregs.foldl (fun s r => if r.2.inst.isSome then settleK s team r.1 else s) s

/-- Settle every instance whose command waits for room or for lines. -/
def resettle (s : State) : State :=
  s.teams.foldl (fun s t =>
    if t.2.kregs.any (fun r => match r.2.inst with
        | some i => i.cmd.isSome
        | none => false) then settleTeam s t.1 else s) s

/-- Park a thread at a k register. -/
def park (s : State) (tid k : Nat) (signed : Bool) : State :=
  s.modThread tid (fun t => { t with status := .meet k signed })

/-- Lanes have parked: cross-lane instances of their groups that no longer wait for them execute (R266). -/
def settleLanes (s : State) (tids : List Nat) : State := (Ops.groupsOf tids).foldl CrossLane.settle s

/-- One active lane reaches a meet (R367). -/
def meetLane (s : State) (pc : BitVec 48) (k : Nat) (tid : Nat) : State :=
  if !Ops.drained s tid then Ops.stall s [tid]
  else match s.teamOf? tid with
    | none => s
    | some (n, tm) =>
      let r := kreg tm k
      let i : KInst := r.inst.getD { pc := pc, n := r.n, m := r.m, signed := [], cmd := none }
      if i.pc ≠ pc || i.signed.contains tid then park s tid k false
      else settleK (park (setInst s n k (some { i with signed := NSet.add i.signed tid })) tid k true) n k

/-- One active lane reaches a matrix command (R281 to R283). -/
def signLane (s : State) (pc : BitVec 48) (ins : Instr) (h : Option Nat) (tile k : Nat) (tid : Nat) : State :=
  if !Ops.drained s tid then Ops.stall s [tid]
  else match s.teamOf? tid with
    | none => s
    | some (n, tm) =>
      let r := kreg tm k
      let new := r.inst.isNone
      let i : KInst := r.inst.getD
        { pc := pc, n := r.n, m := r.m, signed := [], cmd := some { instr := ins, tile := tile, id := s.nextId } }
      let gid := tidGid tid
      if i.pc ≠ pc || i.signed.contains tid then s.modThread tid (fun t => { t with status := .held k })
      else
        let sign (s : State) (first : Bool) : Ops.GroupOut :=
          let i' := { i with signed := NSet.add i.signed tid }
          let full := proceeds s n i'
          if full && !Matrix.mayEnter s tm.core tm ins (descOf s ins i'.signed) then .wait s
          else
            let s := if new then { s with nextId := s.nextId + 1 } else s
            let s := match h, first, i.cmd with
              | some h, true, some q => Ops.issueHandle s gid h q.id false
              | _, _, _ => s
            .go (settleK (Ops.advance (setInst s n k (some i')) [tid]) n k)
        let first := !i.signed.any (fun x => tidGid x == gid)
        let out := match h, first with
          | some h, true => Ops.readDest s gid h [tid] (fun s => sign s true)
          | _, _ => sign s first
        match out with
        | .go s | .stay s => s
        | .wait s => Ops.stall s [tid]
        | .trap s f => Ops.trapAll s [tid] f

/-- Sign a matrix command in every active lane; a tile that the team does not hold raises ILL_OP before the signature (R277). -/
def signAll (h : Hdr) (ins : Instr) (s : State) : Result := Ops.withCohort s fun c =>
  let act := Ops.active s c h
  match Matrix.operands ins with
  | none => s
  | some (hd, tile, k) =>
    let outside := act.filter (fun tid => match s.teamOf? tid with
      | some (_, tm) => decide (tm.kernel.tiles ≤ tile)
      | none => true)
    if !outside.isEmpty then Ops.trapAll s outside (fun _ => Ops.plain 0x01 (BitVec.ofNat 64 (0x70 + tile)))
    else
      let s := act.foldl (fun s tid => signLane s c.pc ins hd tile k tid) s
      settleLanes (Ops.advance s (c.tids.filter (fun t => !act.contains t))) act

end Meets

/-- meet (R367). -/
def execMeet (h : Hdr) (k : Reg) (s : State) : Result := Ops.withCohort s fun c =>
  let act := Ops.active s c h
  match k with
  | .k k =>
    let s := act.foldl (fun s tid => Meets.meetLane s c.pc k.val tid) s
    Meets.settleLanes (Ops.advance s (c.tids.filter (fun t => !act.contains t))) act
  | _ => s

/-- kset: the count and the mask for the instances opened after it (R365). -/
def execKset (h : Hdr) (k : Reg) (m : Reg) (n : BitVec 13) (s : State) : Result := Ops.withCohort s fun c =>
  Ops.perGroup s c h false fun s gid t _ =>
    match k, s.group? gid with
    | .k k, some g =>
      let mask := if m = .zero then 0 else Operands.val s gid t m
      .go (Meets.modK s g.team k.val (fun r => { r with n := n.toNat, m := mask }))
    | _, _ => .go s

/-- mzero (R289). -/
def execMzero (h : Hdr) (d t k : Reg) (s : State) : Result := Meets.signAll h (.mzero h d t k) s

/-- mma (R293). -/
def execMma (h : Hdr) (o : MatOps) (ty : BitVec 2) (k16 : BitVec 8) (s : State) : Result := Meets.signAll h (.mma h o ty k16) s

/-- mmab (R295). -/
def execMmab (h : Hdr) (o : MatOps) (m : BitVec 3) (k16 : BitVec 8) (s : State) : Result :=
  Meets.signAll h (.mmab h o m k16) s

/-- mld (R290). -/
def execMld (h : Hdr) (o : MatOps) (ty : BitVec 2) (s : State) : Result := Meets.signAll h (.mld h o ty) s

/-- mst (R291). -/
def execMst (h : Hdr) (o : MatOps) (ty : BitVec 3) (s : State) : Result := Meets.signAll h (.mst h o ty) s

/-- mscl (R292). -/
def execMscl (h : Hdr) (o : MatOps) (s : State) : Result := Meets.signAll h (.mscl h o) s

/-- mscl.u (R292). -/
def execMsclU (h : Hdr) (d t k : Reg) (scale : BitVec 32) (s : State) : Result := Meets.signAll h (.msclU h d t k scale) s

/-- MATRIX_COMMAND_START: a queued command of a context that runs starts, and its rows are checked (R283, R285, R299). -/
def execMatrixCommandStart (core id : Nat) (s : State) : Result :=
  let k := s.core core
  match Matrix.find? s core id with
  | none => .next s
  | some c =>
    match s.teams.get? c.team with
    | none => .next s
    | some tm =>
      if !c.started && Matrix.mayStart s k c && ((s.ctxs.get? c.ctx).map Ctx.phase).getD .running == Phase.running
          && !Matrix.walksAt s c.ctx tm (Matrix.sources c.instr c.desc) .rd
          && !Matrix.walksAt s c.ctx tm (Matrix.dests c.instr c.desc) .wr then
        let bad := if c.err = 0 then Matrix.rowError s c.ctx tm c.instr c.desc else c.err
        .next (Meets.resettle (Matrix.modify s core id (fun c => { c with started := true, err := bad })))
      else .next s

/-- MATRIX_COMPLETION: a started command works up to k-step or row `upto`, releasing each line that it no longer needs (R284); with the
last it completes. It ends with its error, and a cancelled product ends there (R286, R287). It waits while another agent holds a line
against it, and wakes the cores in retention whose scratchpads it needs (R383). DEDUCED, log 56. -/
def execMatrixCompletion (core : Nat) (reached : MatrixReach) (s : State) : Result :=
  match Matrix.find? s core reached.id with
  | none => .next s
  | some c =>
    match s.teams.get? c.team with
    | none => .next s
    | some tm =>
      let q := min reached.upto (Matrix.units c.instr)
      let src := Matrix.sourcesIn c.instr c.desc c.kstep q
      let dst := Matrix.destsIn c.instr c.desc c.kstep q
      if !c.started then .next s
      else if Matrix.blockedAt s c.ctx tm reached.id src false || Matrix.blockedAt s c.ctx tm reached.id dst true then
        .next ((Matrix.rowPlaces s tm (src ++ dst)).foldl (fun s x => Engine.ask s x.1) s)
      else .next (Meets.resettle (Matrix.runTo s core tm c reached.upto))

/-- MATRIX_CHECK: the record of a sampled command goes to the telemetry ring (R297, R434), which an engine may
hold back. -/
def execMatrixCheck (core : Nat) (s : State) : Result :=
  match (s.core core).matChecks with
  | [] => .next s
  | (p, r) :: rest => if Telemetry.waits s p then .next s else .next (Telemetry.write (s.modCore core (fun k => { k with matChecks := rest })) p r)

end Sys2Proof.Machine
end

