-- ==== Sys2Proof/Machine/Copy.lean ====
section
/-! DEFINITION. The copy commands and the copy engines (R166 to R179). A command moves its destination piece by piece, a piece
being the part of one row that lies in one line; LINE_LANDED lands one piece. -/

namespace Sys2Proof.Machine

open Sys2Proof

namespace Copy

/-- What a copy command asks for, before it has a name. -/
structure Req where
  kind : Nat
  dst  : DWord
  src  : DWord
  fill : Word
  rb   : Nat
  rows : Nat
  ss   : Int
  ds   : Int

/-- The address of a row. -/
def rowAddr (base : DWord) (stride : Int) (r : Nat) : DWord := base + BitVec.ofInt 64 (stride * (r : Int))

/-- The line size that cuts a place. -/
def grain (p : Mem.Place) : Nat :=
  match p with
  | .spad _ _ => 128
  | _ => 64

/-- The pieces of one row: offset within the row, and length. -/
def rowPieces (p : Mem.Place) (rb : Nat) : List (Nat × Nat) :=
  Engine.pieces (grain p) (Engine.position p) (rb / grain p + 2) 0 rb

/-- One piece of a command: row, offset in the row, length, and the place of its destination. -/
structure Piece where
  row : Nat
  off : Nat
  len : Nat
  dst : Mem.Place

/-- The pieces of a command in order of rows. -/
def pieces (s : State) (tm : Team) (q : Req) : List Piece :=
  (List.range q.rows).flatMap (fun r =>
    match Engine.place s tm (rowAddr q.dst q.ds r) q.rb with
    | none => []
    | some p => (rowPieces p q.rb).map (fun x => { row := r, off := x.1, len := x.2, dst := Engine.shift p x.1 }))

/-- The place of n source bytes. -/
def srcPlace (s : State) (tm : Team) (q : Req) (r off n : Nat) : Option Mem.Place :=
  Engine.place s tm (rowAddr q.src q.ss r + BitVec.ofNat 64 off) n

/-- The request of a queued command. -/
def reqOf (c : CopyCmd) : Req :=
  { kind := c.kind, dst := c.dst, src := c.src, fill := c.fill, rb := c.rb, rows := c.rows, ss := c.ss, ds := c.ds }

/-- The scratchpad lines that a piece touches, as core and line. -/
def spadLines (p : Piece) : List (Nat × Nat) :=
  match p.dst with
  | .spad c o => [(c, o / 128)]
  | _ => []

/-- The physical lines of the destination of a list of pieces, and of their sources. -/
def ownLines (s : State) (tm : Team) (l : List Piece) : NSet :=
  l.foldl (fun n p => NSet.addAll n (Engine.lines s tm.core tm.ctx p.dst p.len .wr)) []

def pinLines (s : State) (tm : Team) (q : Req) (l : List Piece) : NSet :=
  if q.kind = 2 then [] else
  l.foldl (fun n p =>
    match srcPlace s tm q p.row p.off p.len with
    | some x => NSet.addAll n (Engine.lines s tm.core tm.ctx x p.len .rd)
    | none => n) []

/-- The sources and destinations of a list of pieces satisfy a test somewhere. -/
def anyPlace (s : State) (tm : Team) (q : Req) (l : List Piece) (f : Mem.Acc → Mem.Place → Nat → Bool) : Bool :=
  l.any (fun p => f .wr p.dst p.len || (q.kind != 2 && (match srcPlace s tm q p.row p.off p.len with
    | some x => f .rd x p.len
    | none => false)))

/-- Whether the ownership step has to wait for a walk (R110). -/
def walks (s : State) (tm : Team) (q : Req) (l : List Piece) : Bool :=
  anyPlace s tm q l (fun acc p n => Engine.walks s tm.core tm.ctx p n acc)

/-- The ownership step has used its translations (R110, R423). -/
def use (s : State) (tm : Team) (q : Req) (l : List Piece) : State :=
  l.foldl (fun s p =>
    let s := Engine.use s tm.core tm.ctx p.dst p.len .wr
    if q.kind = 2 then s else match srcPlace s tm q p.row p.off p.len with
      | some x => Engine.use s tm.core tm.ctx x p.len .rd
      | none => s) s

/-- Whether a command has bytes homed on a die (R174, R424): its commands are ended by the loss of the die. -/
def touches (s : State) (tm : Team) (q : Req) (die : Nat) : Bool :=
  anyPlace s tm q (pieces s tm q) (fun _ p n => Engine.onDie s tm.core tm.ctx p n die)

/-! ### Issue -/

/-- Which row of Table 04.1 an address lies in. -/
def mapRow (ea : DWord) : Nat :=
  let a := ea.toNat
  if a < 0x800000000000 then 0 else if a < 0xFF0100000000 then 1 else if a < 0xFF0200000000 then 2 else 3

/-- Every row of a range lies in one row of Table 04.1, within its limits. -/
def rangeOk (s : State) (tm : Team) (base : DWord) (stride : Int) (rb rows : Nat) : Bool :=
  (List.range rows).all (fun r =>
    let a := rowAddr base stride r
    (Engine.place s tm a rb).isSome && mapRow a == mapRow base)

/-- The first value of a list that is not a multiple of 4. -/
def misaligned (l : List DWord) : Option DWord := l.find? (fun x => x.toNat % 4 != 0)

/-- The fault of the checks of R178. -/
def checks (s : State) (tm : Team) (q : Req) (lens : List DWord) : Option (Thread → Trap) :=
  let lenOk : Bool :=
    if q.kind = 1 then decide (4 ≤ q.rb) && decide (q.rb ≤ 16777216) && decide (1 ≤ q.rows) && decide (q.rows ≤ 65536)
      && decide (q.rb * q.rows ≤ 2 ^ 28)
    else decide (q.rb ≤ 16777216)
  if !lenOk then some Ops.illOp
  else match misaligned (q.dst :: (if q.kind = 2 then [] else [q.src]) ++ lens) with
    | some a => some (fun _ => Ops.plain 0x12 a)
    | none =>
      if q.rb = 0 then none
      else if !rangeOk s tm q.dst q.ds q.rb q.rows then some (fun _ => .fault (Mem.mapFault .wr q.dst))
      else if q.kind ≠ 2 && !rangeOk s tm q.src q.ss q.rb q.rows then some (fun _ => .fault (Mem.mapFault .rd q.src))
      else none

/-- The commands of a core's threads that no engine has taken yet, and those that a restore has put back (R380). -/
def queued (k : Core) : Nat := (k.copyq.filter (fun c => !c.started && !c.restored)).length
def replayed (k : Core) : Nat := (k.copyq.filter (fun c => !c.started && c.restored)).length

/-- Mark lines of scratchpads absent, or present. DEDUCED, log 26. -/
def setAbsent (s : State) (l : List (Nat × Nat)) (on : Bool) : State :=
  l.foldl (fun s x => s.modCore x.1 (fun k =>
    { k with absent := if on then NSet.add k.absent x.2 else NSet.del k.absent x.2 })) s

/-- Issue a copy command into a handle of a group: its checks, its waits, the ownership step, and its place in the queue.
DEDUCED, log 26. -/
def issue (s : State) (gid : Nat) (lanes : List Nat) (d : Reg) (q : Req) (lens : List DWord) : Ops.GroupOut :=
  match s.group? gid, d with
  | some g, .h hr =>
    match s.teams.get? g.team with
    | none => .go s
    | some tm =>
      match checks s tm q lens with
      | some f => .trap s f
      | none => Ops.readDest s gid hr.val lanes fun s =>
        let (id, s1) := s.fresh
        if q.rb = 0 then .go (Ops.completeCmd (Ops.issueHandle s1 gid hr.val id false) id 0)
        else
          let ps := pieces s tm q
          let core := gidCore gid
          let spads := ps.flatMap spadLines
          let own := ownLines s tm ps
          let pin := pinLines s tm q ps
          if spads.any (fun x => (s.core x.1).absent.contains x.2) || decide (32 ≤ queued (s.core core))
            || walks s tm q ps || !Engine.canHold s own pin then .wait s
          else
            let c : CopyCmd :=
              { id := id, ctx := tm.ctx, team := g.team, gid := gid, kind := q.kind, dst := q.dst, src := q.src
                fill := q.fill, rb := q.rb, rows := q.rows, ss := q.ss, ds := q.ds, started := false, cancel := false, restored := false
                landed := [], pix := 0, err := 0 }
            let s2 := use (Ops.issueHandle s1 gid hr.val id false) tm q ps
            let s3 := setAbsent (Engine.hold s2 id core (s.ctxPart tm.ctx) own pin) spads true
            .go (s3.modCore core (fun k => { k with copyq := k.copyq ++ [c] }))
  | _, _ => .go s

/-! ### The engines -/

/-- A queued command of a core. -/
def find? (s : State) (core id : Nat) : Option CopyCmd := (s.core core).copyq.find? (fun c => c.id == id)

/-- Change a queued command. -/
def modify (s : State) (core id : Nat) (f : CopyCmd → CopyCmd) : State :=
  s.modCore core (fun k => { k with copyq := k.copyq.map (fun c => if c.id = id then f c else c) })

/-- Whether two places share a byte. -/
def overlaps (p : Mem.Place) (n : Nat) (q : Mem.Place) (m : Nat) : Bool :=
  let meet (a b : Nat) : Bool := decide (a < b + m) && decide (b < a + n)
  match p, q with
  | .glob a, .glob b => meet a b
  | .spad c a, .spad d b => c == d && meet a b
  | .vault a, .vault b => meet a b
  | _, _ => false

/-- Whether a destination byte is a source byte of the same command (R175). -/
def shared (s : State) (tm : Team) (q : Req) (p : Mem.Place) : Bool :=
  q.kind != 2 && (List.range q.rows).any (fun r =>
    match srcPlace s tm q r 0 q.rb with
    | some x => overlaps p 1 x q.rb
    | none => false)

/-- The pieces of a command that have not landed. -/
def left (c : CopyCmd) (ps : List Piece) : List Piece :=
  (List.range ps.length).filterMap (fun i => if c.landed.contains i then none else ps[i]?)

/-- Whether a source line is absent by another command's doing: a line that the command itself will write is read as it stands (R170,
R175). -/
def srcAbsent (s : State) (c : CopyCmd) (ps : List Piece) (x : Mem.Place) (n : Nat) : Bool :=
  match x with
  | .spad k o =>
    let mine := (left c ps).flatMap spadLines
    (List.range ((o + n + 127) / 128 - o / 128)).any (fun i => (s.core k).absent.contains (o / 128 + i) && !mine.contains (k, o / 128 + i))
  | _ => false

/-- Whether a piece may land now: overlapping destination rows land in order, an absent source line is waited for, an earlier command of
the core whose destination shares a byte has landed it, and no walk, fill, flush or other holder of a line keeps it back (R110, R116,
R140, R170, R175, R179). -/
def mayLand (s : State) (core : Nat) (tm : Team) (c : CopyCmd) (ps : List Piece) (p : Piece) : Bool :=
  let q := reqOf c
  let rowsMeet := decide (c.ds.natAbs < c.rb)
  let ordered := !rowsMeet || (left c ps).all (fun x => decide (p.row ≤ x.row))
  let srcHere : Bool := c.kind == 2 || (match srcPlace s tm q p.row p.off p.len with
    | some x => !srcAbsent s c ps x p.len && !Engine.blocked s tm.core c.ctx (some c.id) x p.len false
    | none => true)
  let earlier := (s.core core).copyq.takeWhile (fun x => x.id != c.id)
  let clear := earlier.all (fun e =>
    match s.teams.get? e.team with
    | none => true
    | some tm' => (left e (pieces s tm' (reqOf e))).all (fun x => !overlaps p.dst p.len x.dst x.len))
  ordered && srcHere && clear && !Engine.blocked s tm.core c.ctx (some c.id) p.dst p.len true

/-- The bytes of the pattern of a cfill. -/
def fillBytes (w : Word) (n : Nat) : List Byte := (List.range n).map (fun i => BitVec.ofNat 8 (w.toNat / 256 ^ (i % 4)))

/-- The bytes a piece writes: the source's, or the pattern; those that are source bytes too are free values.
DESIGN CHOICE, log 4. -/
def pieceBytes (s : State) (tm : Team) (c : CopyCmd) (p : Piece) : Except Engine.Err (List Byte × State) :=
  let q := reqOf c
  if c.kind = 2 then .ok (fillBytes c.fill p.len, s)
  else match srcPlace s tm q p.row p.off p.len with
    | none => .error (0x11, s)
    | some x =>
      match Engine.read s tm.core c.ctx x p.len with
      | .error e => .error e
      | .ok (b, s1) =>
        let b' := (List.range p.len).map (fun i =>
          if shared s tm q (Engine.shift p.dst i) then Config.freeByte (s.free + i) else b.getD i 0)
        .ok (b', s1.takeFree p.len)

/-- Land piece i of a command: read, write, release the lines that no later piece needs, and set the presence bit of a
scratchpad line that is complete, and with it what was parked on it (R166, R167). A failure ends the command (R174). -/
def land (s : State) (core : Nat) (tm : Team) (c : CopyCmd) (ps : List Piece) (i : Nat) (p : Piece) : State :=
  match pieceBytes s tm c p with
  | .error e => modify e.2 core c.id (fun c => { c with err := e.1 })
  | .ok (b, s1) =>
    match Engine.write s1 tm.core c.ctx p.dst b with
    | .error e => modify e.2 core c.id (fun c => { c with err := e.1 })
    | .ok s2 =>
      let c' := { c with landed := NSet.add c.landed i }
      let rest := left c' ps
      let pix := (List.range c.rows).findIdx (fun r => rest.any (fun x => x.row == r))
      let s3 := modify s2 core c.id (fun _ => { c' with pix := pix })
      let s4 := Engine.keepHold s3 c.id (ownLines s tm rest) (pinLines s tm (reqOf c) rest)
      Ops.wakeParked (setAbsent s4 ((spadLines p).filter (fun x => !(rest.flatMap spadLines).contains x)) false)

/-- A running command asks for the cores whose scratchpads a piece needs (R383). -/
def ask (s : State) (tm : Team) (c : CopyCmd) (p : Piece) : State :=
  let s := if c.started then Engine.ask s p.dst else s
  if !c.started || c.kind = 2 then s else match srcPlace s tm (reqOf c) p.row p.off p.len with
    | some x => Engine.ask s x
    | none => s

/-- End a command: on an error or a cancellation its unlanded bytes are free values; every line is released and present, and
its handle completes; what was parked on its lines is performed (R140, R169, R173). -/
def finish (s : State) (core : Nat) (c : CopyCmd) : State :=
  let ps := match s.teams.get? c.team with
    | some tm => pieces s tm (reqOf c)
    | none => []
  let rest := left c ps
  let s1 := rest.foldl (fun s p => Engine.scramble s core c.ctx p.dst p.len) s
  let s2 := Ops.wakeParked (setAbsent (Engine.release s1 c.id) (rest.flatMap spadLines) false)
  let s3 := s2.modCore core (fun k => { k with copyq := k.copyq.filter (fun x => x.id ≠ c.id) })
  Life.complete s3 c.id (BitVec.ofNat 32 (c.err + if c.cancel then 256 else 0))

end Copy

/-- cpy (R177 to R179). -/
def execCpy (h : Hdr) (o : CpyOps) (s : State) : Result := Ops.withCohort s fun c =>
  Ops.perGroup s c h true fun s gid t lanes =>
    let len := Operands.src s gid t o.len
    Copy.issue s gid lanes o.d
      { kind := 0, dst := Operands.val64 s gid t o.a, src := Operands.val64 s gid t o.b, fill := 0, rb := len.toNat, rows := 1
        ss := 0, ds := 0 } [len.setWidth 64]

/-- cpy2 (R177 to R179). -/
def execCpy2 (h : Hdr) (d a b cc : Reg) (s : State) : Result := Ops.withCohort s fun c =>
  Ops.perGroup s c h true fun s gid t lanes =>
    let w (i : Nat) : Word := Operands.val s gid t (Operands.next cc i)
    Copy.issue s gid lanes d
      { kind := 1, dst := Operands.val64 s gid t a, src := Operands.val64 s gid t b, fill := 0, rb := (w 0).toNat
        rows := (w 1).toNat, ss := (w 2).toInt, ds := (w 3).toInt }
      [(w 0).setWidth 64, (w 2).signExtend 64, (w 3).signExtend 64]

/-- cfill (R177 to R179). DEDUCED, log 26. -/
def execCfill (h : Hdr) (o : CpyOps) (s : State) : Result := Ops.withCohort s fun c =>
  Ops.perGroup s c h true fun s gid t lanes =>
    let len := Operands.src s gid t o.len
    Copy.issue s gid lanes o.d
      { kind := 2, dst := Operands.val64 s gid t o.a, src := 0, fill := Operands.val s gid t o.b, rb := len.toNat, rows := 1
        ss := 0, ds := 0 } [len.setWidth 64]

/-- Whether a command's context runs: one that is being pre-empted starts none of its queued commands (R417). -/
def Copy.runs (s : State) (c : CopyCmd) : Bool := ((s.ctxs.get? c.ctx).map Ctx.phase).getD .running == Phase.running

/-- COPY_COMMAND_START: an idle engine takes the oldest queued command, one that a restore has put back before a thread's (R171, R379,
R380). -/
def execCopyCommandStart (core : Nat) (s : State) : Result :=
  let k := s.core core
  let mine := k.copyq.filter (fun c => !c.started && Copy.runs s c)
  if 4 ≤ (k.copyq.filter CopyCmd.started).length then .next s
  else match (mine.find? CopyCmd.restored).or mine.head? with
    | none => .next s
    | some c => .next (Copy.modify s core c.id (fun c => { c with started := true }))

/-- LINE_LANDED: a running command moves one piece (R166, R179). -/
def execLineLanded (core id line : Nat) (s : State) : Result :=
  match Copy.find? s core id with
  | none => .next s
  | some c =>
    match s.teams.get? c.team with
    | none => .next s
    | some tm =>
      let ps := Copy.pieces s tm (Copy.reqOf c)
      match ps[line]? with
      | none => .next s
      | some p =>
        if c.started && c.err == 0 && !c.cancel && !c.landed.contains line && Copy.mayLand s core tm c ps p then
          .next (Meets.resettle (Copy.land s core tm c ps line p))
        else .next (Copy.ask s tm c p)

/-- COPY_COMPLETION: every piece has landed, or the command ended with an error or was cancelled (R173, R174). -/
def execCopyCompletion (core id : Nat) (s : State) : Result :=
  match Copy.find? s core id with
  | none => .next s
  | some c =>
    let ps := match s.teams.get? c.team with
      | some tm => Copy.pieces s tm (Copy.reqOf c)
      | none => []
    if c.cancel || (c.started && (c.err ≠ 0 || (Copy.left c ps).isEmpty)) then .next (Meets.resettle (Copy.finish s core c))
    else .next s

end Sys2Proof.Machine
end

