-- ==== Sys2Proof/Decode.lean ====
section
/-! DEFINITION. The 96-bit instruction slot (R24, R33): its fields, the decoder, total on any slot, and the encoder, both
written from Tables 02.2 to 02.4, 02.7 and the form tables of the unit chapters. -/

namespace Sys2Proof

/-- The fields of Table 02.2, in the order of their bits. -/
structure Fields where
  op  : BitVec 8
  la  : BitVec 4 := 0
  gp  : BitVec 7 := 0
  gn  : BitVec 1 := 0
  d   : BitVec 9 := 0
  a   : BitVec 9 := 0
  b   : BitVec 9 := 0
  c   : BitVec 9 := 0
  sub : BitVec 8 := 0
  imm : BitVec 32 := 0
  deriving DecidableEq, Repr

/-- The slot of a set of fields: IMM is the highest, OP the lowest (Table 02.2). -/
def Fields.pack (f : Fields) : Slot :=
  f.imm ++ f.sub ++ f.c ++ f.b ++ f.a ++ f.d ++ f.gn ++ f.gp ++ f.la ++ f.op

/-- The fields of a slot (Table 02.2). -/
def Fields.unpack (w : Slot) : Fields where
  op  := w.extractLsb' 0 8
  la  := w.extractLsb' 8 4
  gp  := w.extractLsb' 12 7
  gn  := w.extractLsb' 19 1
  d   := w.extractLsb' 20 9
  a   := w.extractLsb' 29 9
  b   := w.extractLsb' 38 9
  c   := w.extractLsb' 47 9
  sub := w.extractLsb' 56 8
  imm := w.extractLsb' 64 32

/-- The operand code of a register (Table 02.3). -/
def Reg.code : Reg → BitVec 9
  | .v i => BitVec.ofNat 9 i.val
  | .k i => BitVec.ofNat 9 (0x40 + i.val)
  | .h i => BitVec.ofNat 9 (0x50 + i.val)
  | .m i => BitVec.ofNat 9 (0x70 + i.val)
  | .s i => BitVec.ofNat 9 (0x80 + i.val)

/-- The register of an operand code: every code names one (R34, Table 02.3). -/
def Reg.ofCode (c : BitVec 9) : Reg :=
  if h : c.toNat < 0x40 then .v ⟨c.toNat, h⟩
  else if h : c.toNat < 0x50 then .k ⟨c.toNat - 0x40, by omega⟩
  else if h : c.toNat < 0x70 then .h ⟨c.toNat - 0x50, by omega⟩
  else if h : c.toNat < 0x80 then .m ⟨c.toNat - 0x70, by omega⟩
  else .s ⟨c.toNat - 0x80, by have := c.isLt; omega⟩

/-- One bit as a truth value. -/
def bit (b : BitVec 1) : Bool := b == 1

/-- A truth value as one bit. -/
def ofBit (b : Bool) : BitVec 1 := if b then 1 else 0

namespace Fields

/-- The common header (R33). -/
def hdr (f : Fields) : Hdr := { la := f.la, gp := f.gp, gn := bit f.gn }

/-- The fields of a header with an opcode. -/
def ofHdr (op : BitVec 8) (h : Hdr) : Fields := { op := op, la := h.la, gp := h.gp, gn := ofBit h.gn }

def rd (f : Fields) : Reg := .ofCode f.d
def ra (f : Fields) : Reg := .ofCode f.a
def rb (f : Fields) : Reg := .ofCode f.b
def rc (f : Fields) : Reg := .ofCode f.c

/-- Bits [lo+n-1:lo] of SUB. -/
def subBits (f : Fields) (lo n : Nat) : BitVec n := f.sub.extractLsb' lo n

/-- One bit of SUB. -/
def subBit (f : Fields) (i : Nat) : Bool := bit (f.subBits i 1)

/-- Bits [lo+n-1:lo] of IMM. -/
def immBits (f : Fields) (lo n : Nat) : BitVec n := f.imm.extractLsb' lo n

/-- The predicate field IMM[6:0]. -/
def immP (f : Fields) : BitVec 7 := f.immBits 0 7

/-- The B operand of an FR/FI opcode: I is SUB[7] (R40). -/
def src (f : Fields) : Src := if f.subBit 7 then .imm f.imm else .reg f.rb

/-- The operand that a field or, under LI in SUB[0], IMM supplies (R177, R372, R391). -/
def srcLI (f : Fields) (r : Reg) : Src := if f.subBit 0 then .imm f.imm else .reg r

/-- The B operand beside a predicate in IMM[6:0] (R246, R250, R255). -/
def srcP (f : Fields) : SrcP := if f.subBit 7 then .imm (f.immBits 7 25) else .reg f.rb

/-- Field B of an operand: its code, or zero under an immediate (R40). -/
def bOf : Src → BitVec 9
  | .reg r => r.code
  | .imm _ => 0

/-- IMM of an operand: zero in the register form (R40). -/
def immOf : Src → BitVec 32
  | .reg _ => 0
  | .imm w => w

/-- The I or LI bit of an operand. -/
def iOf : Src → BitVec 1
  | .reg _ => 0
  | .imm _ => 1

def bOfP : SrcP → BitVec 9
  | .reg r => r.code
  | .imm _ => 0

def immOfP (s : SrcP) (p : BitVec 7) : BitVec 32 :=
  match s with
  | .reg _ => (0 : BitVec 25) ++ p
  | .imm w => w ++ p

def iOfP : SrcP → BitVec 1
  | .reg _ => 0
  | .imm _ => 1

def bOf7 : Src7 → BitVec 9
  | .reg r => r.code
  | .imm _ => 0

def immOf7 : Src7 → BitVec 32
  | .reg _ => 0
  | .imm n => (0 : BitVec 25) ++ n

/-- The index of an FM operand: field B under X with the shift SH (R41). -/
def index (f : Fields) : Option (Reg × BitVec 2) := if f.subBit 7 then some (f.rb, f.subBits 5 2) else none

def addr (f : Fields) : Addr := { base := f.ra, idx := f.index, off := f.imm }

def addr20 (f : Fields) : Addr20 := { base := f.ra, idx := f.index, off := f.immBits 0 20 }

/-- X and SH of an index. DEDUCED, log 82. -/
def xshOf : Option (Reg × BitVec 2) → BitVec 3
  | none => 0
  | some (_, sh) => (1 : BitVec 1) ++ sh

def bOfIdx : Option (Reg × BitVec 2) → BitVec 9
  | none => 0
  | some (r, _) => r.code

def target (f : Fields) : FbTarget := { lines := f.immBits 3 29, slot := f.immBits 0 3 }

def intOps (f : Fields) : IntOps where
  d := f.rd
  a := f.ra
  b := f.src
  c := f.rc
  sat := f.subBit 6
  u := f.subBit 5
  w64 := f.subBit 4
  xop := f.subBits 0 4

def intPOps (f : Fields) : IntPOps where
  d := f.rd
  a := f.ra
  b := f.srcP
  p := f.immP
  u := f.subBit 5
  w64 := f.subBit 4
  xop := f.subBits 0 4

def fpOps (f : Fields) : FpOps where
  d := f.rd
  a := f.ra
  b := f.src
  c := f.rc
  ftz := f.subBit 6
  rm := f.subBits 4 2
  xop := f.subBits 0 4

def halfOps (f : Fields) : HalfOps where
  d := f.rd
  a := f.ra
  b := f.src
  c := f.rc
  ftz := f.subBit 6
  bf := f.subBit 1
  nan := f.subBit 0

def ldsOps (f : Fields) : LdsOps := { d := f.rd, addr := f.addr, n := f.subBits 0 2, ord := f.subBit 3 }

def pldOps (f : Fields) : PldOps := { addr := f.addr, n := f.subBits 0 2 }

def gathOps (f : Fields) : GathOps where
  d := f.rd
  base := f.ra
  idx := f.rb
  sh := f.subBits 5 2
  off := f.imm
  n := f.subBits 0 3

def cpyOps (f : Fields) : CpyOps := { d := f.rd, a := f.ra, b := f.rb, len := f.srcLI f.rc }

def matOps (f : Fields) : MatOps := { d := f.rd, t := f.ra, k := f.rb, c := f.rc }

/-- One entry of rgn: its operand code under its valid bit in SUB (Table 08.3). -/
def rgnReg (f : Fields) (i : Nat) (r : Reg) : Option Reg := if f.subBit i then some r else none

def rgnNum (f : Fields) (i : Nat) : Option (BitVec 6) :=
  if f.subBit i then some (f.immBits (8 * (i - 4)) 6) else none

def rgnOps (f : Fields) : RgnOps where
  e0 := f.rgnReg 0 f.rd
  e1 := f.rgnReg 1 f.ra
  e2 := f.rgnReg 2 f.rb
  e3 := f.rgnReg 3 f.rc
  e4 := f.rgnNum 4
  e5 := f.rgnNum 5
  e6 := f.rgnNum 6
  e7 := f.rgnNum 7

def codeOf : Option Reg → BitVec 9
  | none => 0
  | some r => r.code

def byteOf : Option (BitVec 6) → BitVec 8
  | none => 0
  | some n => (0 : BitVec 2) ++ n

end Fields

namespace Decode

open Fields

/-- OP 0x01 to 0x0F. -/
def row0 (f : Fields) : Nat → Option Instr
  | 0x1 => some (.nop f.hdr)
  | 0x2 => some (.bra f.hdr f.target)
  | 0x3 => some (.brx f.hdr f.ra)
  | 0x4 => some (.call f.hdr f.target)
  | 0x5 => some (.callx f.hdr f.ra)
  | 0x6 => some (.ret f.hdr)
  | 0x7 => some (.exit f.hdr)
  | 0x8 => some (.yield f.hdr)
  | 0x9 => some (.sleep f.hdr f.imm)
  | 0xA => some (.trap f.hdr (f.immBits 0 3) (f.immBits 8 8))
  | 0xB => some (.tfence f.hdr)
  | 0xC => some (.meet f.hdr f.ra)
  | 0xD => some (.kset f.hdr f.rd f.ra (f.immBits 0 13))
  | 0xE => some (.bar f.hdr)
  | 0xF => some (.cbar f.hdr)
  | _ => none

/-- OP 0x10 to 0x15. -/
def row1 (f : Fields) : Nat → Option Instr
  | 0x0 => some (.wait f.hdr f.ra)
  | 0x1 => some (.htest f.hdr f.ra f.immP)
  | 0x2 => some (.hcancel f.hdr f.ra)
  | 0x3 => some (if f.sub = 1 then .hmovTok f.hdr f.rd f.ra else .hmov f.hdr f.rd f.ra)
  | 0x4 => some (.rgn f.hdr f.rgnOps)
  | 0x5 => some (.brk f.hdr (f.immBits 0 16))
  | _ => none

/-- OP 0x20 to 0x29. -/
def row2 (f : Fields) : Nat → Option Instr
  | 0x0 => some (.mov f.hdr f.rd f.ra (f.subBit 0))
  | 0x1 => some (.movi f.hdr f.rd f.imm (f.subBit 0))
  | 0x2 => some (.sel f.hdr { d := f.rd, a := f.ra, b := f.rb, p := f.immP, b64 := f.subBit 0 })
  | 0x3 => some (.pmov f.hdr { t := f.subBits 0 4, p := f.immP, x := f.immBits 7 7, y := f.immBits 14 7 })
  | 0x4 => some (.pld f.hdr f.pldOps)
  | 0x5 => some (.pst f.hdr f.pldOps)
  | 0x6 => some (.srd f.hdr f.rd (f.immBits 0 8))
  | 0x7 => some (.swr f.hdr f.ra (f.immBits 0 8))
  | 0x8 => some (.rdl f.hdr f.rd f.ra (if f.subBit 0 then .reg f.rb else .imm f.immP))
  | 0x9 => some (.wrl f.hdr f.rd f.ra (if f.subBit 0 then .reg f.rb else .imm f.immP))
  | _ => none

/-- OP 0x30 to 0x3F. -/
def row3 (f : Fields) : Nat → Option Instr
  | 0x0 => some (.iadd f.hdr f.intOps)
  | 0x1 => some (.isub f.hdr f.intOps)
  | 0x2 => some (.imul f.hdr f.intOps)
  | 0x3 => some (.imulh f.hdr f.intOps)
  | 0x4 => some (.imad f.hdr f.intOps)
  | 0x5 => some (.idiv f.hdr f.intOps)
  | 0x6 => some (.irem f.hdr f.intOps)
  | 0x7 => some (.imin f.hdr f.intOps)
  | 0x8 => some (.imax f.hdr f.intOps)
  | 0x9 => some (.iabs f.hdr f.intOps)
  | 0xA => some (.iand f.hdr f.intOps)
  | 0xB => some (.ior f.hdr f.intOps)
  | 0xC => some (.ixor f.hdr f.intOps)
  | 0xD => some (.inot f.hdr f.intOps)
  | 0xE => some (.shl f.hdr f.intOps)
  | 0xF => some (.shr f.hdr f.intOps)
  | _ => none

/-- OP 0x40 to 0x4C. -/
def row4 (f : Fields) : Nat → Option Instr
  | 0x0 => some (.sar f.hdr f.intOps)
  | 0x1 => some (.rotl f.hdr f.intOps)
  | 0x2 => some (.clz f.hdr f.intOps)
  | 0x3 => some (.popc f.hdr f.intOps)
  | 0x4 => some (.brev f.hdr f.intOps)
  | 0x5 => some (.bfx f.hdr f.intOps)
  | 0x6 => some (.bfi f.hdr f.intOps)
  | 0x7 => some (.icmp f.hdr f.intPOps)
  | 0x8 => some (.iaddc f.hdr f.intPOps)
  | 0x9 => some (.isubb f.hdr f.intPOps)
  | 0xA => some (.lea f.hdr f.intOps)
  | 0xB => some (.dot4 f.hdr f.intOps)
  | 0xC => some (.prmt f.hdr f.intOps)
  | _ => none

/-- OP 0x50 to 0x5F. -/
def row5 (f : Fields) : Nat → Option Instr
  | 0x0 => some (.fadd f.hdr f.fpOps)
  | 0x1 => some (.fsub f.hdr f.fpOps)
  | 0x2 => some (.fmul f.hdr f.fpOps)
  | 0x3 => some (.ffma f.hdr f.fpOps)
  | 0x4 => some (.fmin f.hdr f.fpOps)
  | 0x5 => some (.fmax f.hdr f.fpOps)
  | 0x6 => some (.fcmp f.hdr { a := f.ra, b := f.srcP, p := f.immP, ftz := f.subBit 6, xop := f.subBits 0 4 })
  | 0x7 => some (.fclass f.hdr f.fpOps)
  | 0x8 => some (.frcp f.hdr f.fpOps)
  | 0x9 => some (.frsq f.hdr f.fpOps)
  | 0xA => some (.fsqrt f.hdr f.fpOps)
  | 0xB => some (.fdiv f.hdr f.fpOps)
  | 0xC => some (.fexp2 f.hdr f.fpOps)
  | 0xD => some (.flog2 f.hdr f.fpOps)
  | 0xE => some (.fsin f.hdr f.fpOps)
  | 0xF => some (.fcos f.hdr f.fpOps)
  | _ => none

/-- OP 0x60 to 0x68. -/
def row6 (f : Fields) : Nat → Option Instr
  | 0x0 => some (.hadd2 f.hdr f.halfOps)
  | 0x1 => some (.hmul2 f.hdr f.halfOps)
  | 0x2 => some (.hfma2 f.hdr f.halfOps)
  | 0x3 => some (.hmax2 f.hdr f.halfOps)
  | 0x4 => some (.hmin2 f.hdr f.halfOps)
  | 0x5 => some (.cvt f.hdr
      { d := f.rd, a := f.ra, b := f.rb, ftz := f.subBit 6, rm := f.subBits 4 2, sat := f.subBit 3,
        hi := bit (f.immBits 8 1), st := f.immBits 4 4, dt := f.immBits 0 4 })
  | 0x6 => some (.fround f.hdr { d := f.rd, a := f.ra, ftz := f.subBit 6, mode := f.subBits 0 2 })
  | 0x7 => some (.bfpq f.hdr { d := f.rd, a := f.ra, c := f.rc, n := f.subBits 0 3 })
  | 0x8 => some (.bfpx f.hdr { d := f.rd, a := f.ra, c := f.rc, n := f.subBits 0 3 })
  | _ => none

/-- OP 0x70 to 0x76. -/
def row7 (f : Fields) : Nat → Option Instr
  | 0x0 => some (.ballot f.hdr { d := f.rd, mask := f.rc, wsel := f.subBits 0 2, x4 := f.subBit 2, p := f.immP })
  | 0x1 => some (.vote f.hdr
      { mask := f.rc, kind := f.subBits 0 2, seg := f.subBits 4 3, dp := f.immP, xp := f.immBits 7 7 })
  | 0x2 => some (.shfl f.hdr
      { d := f.rd, a := f.ra, b := if f.subBit 7 then .imm f.immP else .reg f.rb, mask := f.rc, mode := f.subBits 0 2,
        b64 := f.subBit 2, seg := f.subBits 4 3 })
  | 0x3 => some (.matchx f.hdr
      { d := f.rd, a := f.ra, mask := f.rc, wsel := f.subBits 0 2, x4 := f.subBit 2, b64 := f.subBit 3,
        seg := f.subBits 4 3 })
  | 0x4 => some (.redx f.hdr { d := f.rd, a := f.ra, mask := f.rc, op := f.subBits 0 4, seg := f.subBits 4 3 })
  | 0x5 => some (.scan f.hdr
      { d := f.rd, a := f.ra, mask := f.rc, op := f.subBits 0 3, excl := f.subBit 3, seg := f.subBits 4 3 })
  | 0x6 => some (.lmask f.hdr { d := f.rd, rel := f.subBits 0 3, x4 := f.subBit 3, wsel := f.subBits 4 2 })
  | _ => none

/-- OP 0x80 to 0x89. -/
def row8 (f : Fields) : Nat → Option Instr
  | 0x0 => some (.ld f.hdr
      { d := f.rd, addr := f.addr, mig := f.subBit 4, sz := f.subBits 0 2, sgn := f.subBit 2, acq := f.subBit 3 })
  | 0x1 => some (.st f.hdr { d := f.rd, addr := f.addr, mig := f.subBit 4, sz := f.subBits 0 2, rel := f.subBit 3 })
  | 0x2 => some (.atom f.hdr
      { d := f.rd, c := f.rc, addr := f.addr20, mig := f.subBit 4, op := f.subBits 0 4, w64 := bit (f.immBits 20 1),
        acq := bit (f.immBits 21 1), rel := bit (f.immBits 22 1) })
  | 0x3 => some (.red f.hdr
      { d := f.rd, addr := f.addr20, mig := f.subBit 4, op := f.subBits 0 4, rel := bit (f.immBits 22 1) })
  | 0x4 => some (if f.sub = 1 then .fenceAcq f.hdr else if f.sub = 2 then .fenceRel f.hdr else .fence f.hdr)
  | 0x5 => some (.prefl f.hdr f.addr (f.subBit 0))
  | 0x6 => some (.gath f.hdr f.gathOps)
  | 0x7 => some (.scat f.hdr f.gathOps)
  | 0x8 => some (.lds f.hdr f.ldsOps)
  | 0x9 => some (.sts f.hdr f.ldsOps)
  | _ => none

/-- OP 0x90 to 0x96. -/
def row9 (f : Fields) : Nat → Option Instr
  | 0x0 => some (.cpy f.hdr f.cpyOps)
  | 0x1 => some (.cpy2 f.hdr f.rd f.ra f.rb f.rc)
  | 0x2 => some (.cfill f.hdr f.cpyOps)
  | 0x3 => some (.pres f.hdr f.ra f.index (f.subBits 0 4) f.immP)
  | 0x4 => some (.sgive f.hdr f.ra f.rd)
  | 0x5 => some (if f.subBit 2 then .stakeTry f.hdr f.ra f.rd (f.subBit 0) (f.subBit 1) f.immP
      else .stake f.hdr f.ra f.rd (f.subBit 0) (f.subBit 1))
  | 0x6 => some (.sfree f.hdr f.ra f.rd)
  | _ => none

/-- OP 0xA0 to 0xAD. -/
def rowA (f : Fields) : Nat → Option Instr
  | 0x0 => some (.go f.hdr f.addr)
  | 0x1 => some (.back f.hdr)
  | 0x2 => some (.carry f.hdr (if f.subBit 7 then .imm f.imm else .reg f.ra) (f.subBit 0))
  | 0x3 => some (.whereIs f.hdr f.rd f.addr)
  | 0x8 => some (.mzero f.hdr f.rd f.ra f.rb)
  | 0x9 => some (.mma f.hdr f.matOps (f.subBits 0 2) (f.immBits 0 8))
  | 0xA => some (.mmab f.hdr f.matOps (f.subBits 0 3) (f.immBits 0 8))
  | 0xB => some (.mld f.hdr f.matOps (f.subBits 0 2))
  | 0xC => some (.mst f.hdr f.matOps (f.subBits 0 3))
  | 0xD => some (if f.subBit 0 then .msclU f.hdr f.rd f.ra f.rb f.imm else .mscl f.hdr f.matOps)
  | _ => none

/-- OP 0xB0 to 0xBF. -/
def rowB (f : Fields) : Nat → Option Instr
  | 0x0 => some (.acall f.hdr f.rd f.ra
      (if f.subBit 0 then .reg f.rb else .imm (f.immBits 0 4) (f.immBits 4 4) (f.immBits 8 3)) (f.subBit 1))
  | 0x1 => some (.acorr f.hdr f.rd f.ra f.rb)
  | 0x2 => some (.astat f.hdr f.rd f.rb)
  | 0x8 => some (.tenq f.hdr f.ra (if f.subBit 0 then some f.immP else none))
  | 0x9 => some (.tdeq f.hdr f.ra f.immP (f.immBits 7 3))
  | 0xA => some (.dcnew f.hdr f.ra (f.srcLI f.rb))
  | 0xB => some (.dcadd f.hdr f.ra (f.srcLI f.rb))
  | 0xC => some (.dcdec f.hdr f.ra (f.srcLI f.rb))
  | 0xD => some (.dcrd f.hdr f.ra f.rb)
  | 0xE => some (.launch f.hdr f.rd f.ra)
  | 0xF => some (.dcfree f.hdr f.ra)
  | _ => none

/-- OP 0xC0 to 0xCB. -/
def rowC (f : Fields) : Nat → Option Instr
  | 0x0 => some (.dln f.hdr (f.srcLI f.ra) f.rb)
  | 0x1 => some (.dprog f.hdr (f.srcLI f.ra))
  | 0x2 => some (.dend f.hdr)
  | 0x3 => some (.dslack f.hdr f.ra)
  | 0x8 => some (.coll f.hdr f.rd f.ra (f.subBits 0 3) (f.subBits 3 4))
  | 0x9 => some (.fput f.hdr f.rd f.ra)
  | 0xA => some (.fget f.hdr f.rd f.ra)
  | 0xB => some (.fsig f.hdr f.rd f.ra)
  | _ => none

/-- OP 0xF0 to 0xF6. -/
def rowF (f : Fields) : Nat → Option Instr
  | 0x0 => some (.eret f.hdr)
  | 0x1 => some (.sysrd f.hdr f.rd f.imm)
  | 0x2 => some (.syswr f.hdr f.ra f.imm)
  | 0x3 => some (if f.sub = 0 then .tlbiVa f.hdr f.ra else if f.sub = 1 then .tlbiCtx f.hdr
      else if f.sub = 2 then .tlbiOth f.hdr f.ra else if f.sub = 3 then .tlbiPart f.hdr f.ra else .tlbiAll f.hdr)
  | 0x4 => some (if f.subBits 0 4 = 0 then .cmaintWb f.hdr f.addr else if f.subBits 0 4 = 1 then .cmaintWbi f.hdr f.addr
      else .cmaintIc f.hdr f.addr)
  | 0x5 => some (.halt f.hdr)
  | 0x6 => some (.chkset f.hdr f.ra f.src)
  | _ => none

/-- The instruction that a slot's fields name, legal or not: none where OP is unassigned (Table 02.7). A field that the
instruction does not use is left out; the decoder finds it by encoding again. -/
def parse (f : Fields) : Option Instr :=
  let lo := f.op.toNat % 16
  match f.op.toNat / 16 with
  | 0x0 => row0 f lo
  | 0x1 => row1 f lo
  | 0x2 => row2 f lo
  | 0x3 => row3 f lo
  | 0x4 => row4 f lo
  | 0x5 => row5 f lo
  | 0x6 => row6 f lo
  | 0x7 => row7 f lo
  | 0x8 => row8 f lo
  | 0x9 => row9 f lo
  | 0xA => rowA f lo
  | 0xB => rowB f lo
  | 0xC => rowC f lo
  | 0xF => rowF f lo
  | _ => none

/-- The fields of an integer form. -/
def ofInt (op : BitVec 8) (h : Hdr) (o : IntOps) : Fields :=
  { ofHdr op h with
    d := o.d.code, a := o.a.code, b := bOf o.b, c := o.c.code, imm := immOf o.b
    sub := iOf o.b ++ ofBit o.sat ++ ofBit o.u ++ ofBit o.w64 ++ o.xop }

def ofIntP (op : BitVec 8) (h : Hdr) (o : IntPOps) : Fields :=
  { ofHdr op h with
    d := o.d.code, a := o.a.code, b := bOfP o.b, imm := immOfP o.b o.p
    sub := iOfP o.b ++ ofBit false ++ ofBit o.u ++ ofBit o.w64 ++ o.xop }

def ofFp (op : BitVec 8) (h : Hdr) (o : FpOps) : Fields :=
  { ofHdr op h with
    d := o.d.code, a := o.a.code, b := bOf o.b, c := o.c.code, imm := immOf o.b
    sub := iOf o.b ++ ofBit o.ftz ++ o.rm ++ o.xop }

def ofHalf (op : BitVec 8) (h : Hdr) (o : HalfOps) : Fields :=
  { ofHdr op h with
    d := o.d.code, a := o.a.code, b := bOf o.b, c := o.c.code, imm := immOf o.b
    sub := iOf o.b ++ ofBit o.ftz ++ (0 : BitVec 4) ++ ofBit o.bf ++ ofBit o.nan }

def ofBfp (op : BitVec 8) (h : Hdr) (o : BfpOps) : Fields :=
  { ofHdr op h with d := o.d.code, a := o.a.code, c := o.c.code, sub := (0 : BitVec 5) ++ o.n }

/-- The fields of an FM form: low is SUB[4:0] (R41). -/
def ofAddr (op : BitVec 8) (h : Hdr) (a : Addr) (low : BitVec 5) : Fields :=
  { ofHdr op h with a := a.base.code, b := bOfIdx a.idx, imm := a.off, sub := xshOf a.idx ++ low }

/-- atom and red: IMM[31:20] in top (Table 05.18). -/
def ofAddr20 (op : BitVec 8) (h : Hdr) (a : Addr20) (low : BitVec 5) (top : BitVec 12) : Fields :=
  { ofHdr op h with a := a.base.code, b := bOfIdx a.idx, imm := top ++ a.off, sub := xshOf a.idx ++ low }

def ofGath (op : BitVec 8) (h : Hdr) (o : GathOps) : Fields :=
  { ofHdr op h with
    d := o.d.code, a := o.base.code, b := o.idx.code, imm := o.off
    sub := (1 : BitVec 1) ++ o.sh ++ (0 : BitVec 2) ++ o.n }

def ofLds (op : BitVec 8) (h : Hdr) (o : LdsOps) : Fields :=
  { ofAddr op h o.addr ((0 : BitVec 1) ++ ofBit o.ord ++ (0 : BitVec 1) ++ o.n) with d := o.d.code }

def ofPld (op : BitVec 8) (h : Hdr) (o : PldOps) : Fields := ofAddr op h o.addr ((0 : BitVec 3) ++ o.n)

def ofCpy (op : BitVec 8) (h : Hdr) (o : CpyOps) : Fields :=
  { ofHdr op h with
    d := o.d.code, a := o.a.code, b := o.b.code, c := bOf o.len, imm := immOf o.len, sub := (0 : BitVec 7) ++ iOf o.len }

def ofMat (op : BitVec 8) (h : Hdr) (d t k c : Reg) (sub : BitVec 8) (imm : BitVec 32) : Fields :=
  { ofHdr op h with d := d.code, a := t.code, b := k.code, c := c.code, sub := sub, imm := imm }

/-- rdl and wrl: SUB[0] marks the register form (Table 08.7). -/
def ofLane (op : BitVec 8) (h : Hdr) (d a : Reg) (b : Src7) : Fields :=
  { ofHdr op h with
    d := d.code, a := a.code, b := bOf7 b, imm := immOf7 b
    sub := match b with | .reg _ => 1 | .imm _ => 0 }

def ofRing (op : BitVec 8) (h : Hdr) (a d : Reg) (sub : BitVec 8) (imm : BitVec 32) : Fields :=
  { ofHdr op h with d := d.code, a := a.code, sub := sub, imm := imm }

/-- A counter or step form with LI in SUB[0]: the register operand stands in B. -/
def ofLI (op : BitVec 8) (h : Hdr) (a : Reg) (n : Src) : Fields :=
  { ofHdr op h with a := a.code, b := bOf n, imm := immOf n, sub := (0 : BitVec 7) ++ iOf n }

/-- Only D and A. -/
def ofDA (op : BitVec 8) (h : Hdr) (d a : Reg) (sub : BitVec 8) : Fields :=
  { ofHdr op h with d := d.code, a := a.code, sub := sub }

/-- Only A, with a SUB and an IMM. -/
def ofA (op : BitVec 8) (h : Hdr) (a : Reg) (sub : BitVec 8) (imm : BitVec 32) : Fields :=
  { ofHdr op h with a := a.code, sub := sub, imm := imm }

/-- A predicate in IMM[6:0] with the rest of IMM zero. -/
def pImm (p : BitVec 7) : BitVec 32 := (0 : BitVec 25) ++ p

/-- SUB[7:1] zero and one bit. -/
def low1 (b : Bool) : BitVec 8 := (0 : BitVec 7) ++ ofBit b

/-- The fields of an instruction; an event row has none. -/
def toFields : Instr → Option Fields
  | .nop h => some (ofHdr 0x01 h)
  | .bra h t => some { ofHdr 0x02 h with imm := t.lines ++ t.slot }
  | .brx h a => some (ofA 0x03 h a 0 0)
  | .call h t => some { ofHdr 0x04 h with imm := t.lines ++ t.slot }
  | .callx h a => some (ofA 0x05 h a 0 0)
  | .ret h => some (ofHdr 0x06 h)
  | .exit h => some (ofHdr 0x07 h)
  | .yield h => some (ofHdr 0x08 h)
  | .sleep h n => some { ofHdr 0x09 h with imm := n }
  | .trap h v n => some { ofHdr 0x0A h with imm := (0 : BitVec 16) ++ n ++ (0 : BitVec 5) ++ v }
  | .tfence h => some (ofHdr 0x0B h)
  | .meet h k => some (ofA 0x0C h k 0 0)
  | .kset h k m n => some { ofHdr 0x0D h with d := k.code, a := m.code, imm := (0 : BitVec 19) ++ n }
  | .bar h => some (ofHdr 0x0E h)
  | .cbar h => some (ofHdr 0x0F h)
  | .wait h a => some (ofA 0x10 h a 0 0)
  | .htest h a p => some (ofA 0x11 h a 0 (pImm p))
  | .hcancel h a => some (ofA 0x12 h a 0 0)
  | .hmov h d a => some (ofDA 0x13 h d a 0)
  | .hmovTok h d a => some (ofDA 0x13 h d a 1)
  | .rgn h o => some
      { ofHdr 0x14 h with
        d := codeOf o.e0, a := codeOf o.e1, b := codeOf o.e2, c := codeOf o.e3
        sub := ofBit o.e7.isSome ++ ofBit o.e6.isSome ++ ofBit o.e5.isSome ++ ofBit o.e4.isSome
          ++ ofBit o.e3.isSome ++ ofBit o.e2.isSome ++ ofBit o.e1.isSome ++ ofBit o.e0.isSome
        imm := byteOf o.e7 ++ byteOf o.e6 ++ byteOf o.e5 ++ byteOf o.e4 }
  | .brk h n => some { ofHdr 0x15 h with imm := (0 : BitVec 16) ++ n }
  | .mov h d a b64 => some (ofDA 0x20 h d a (low1 b64))
  | .movi h d imm b64 => some { ofHdr 0x21 h with d := d.code, imm := imm, sub := low1 b64 }
  | .sel h o => some { ofDA 0x22 h o.d o.a (low1 o.b64) with b := o.b.code, imm := pImm o.p }
  | .pmov h o => some
      { ofHdr 0x23 h with sub := (0 : BitVec 4) ++ o.t, imm := (0 : BitVec 11) ++ o.y ++ o.x ++ o.p }
  | .pld h o => some (ofPld 0x24 h o)
  | .pst h o => some (ofPld 0x25 h o)
  | .srd h d n => some { ofHdr 0x26 h with d := d.code, imm := (0 : BitVec 24) ++ n }
  | .swr h a n => some (ofA 0x27 h a 0 ((0 : BitVec 24) ++ n))
  | .rdl h d a b => some (ofLane 0x28 h d a b)
  | .wrl h d a b => some (ofLane 0x29 h d a b)
  | .iadd h o => some (ofInt 0x30 h o)
  | .isub h o => some (ofInt 0x31 h o)
  | .imul h o => some (ofInt 0x32 h o)
  | .imulh h o => some (ofInt 0x33 h o)
  | .imad h o => some (ofInt 0x34 h o)
  | .idiv h o => some (ofInt 0x35 h o)
  | .irem h o => some (ofInt 0x36 h o)
  | .imin h o => some (ofInt 0x37 h o)
  | .imax h o => some (ofInt 0x38 h o)
  | .iabs h o => some (ofInt 0x39 h o)
  | .iand h o => some (ofInt 0x3A h o)
  | .ior h o => some (ofInt 0x3B h o)
  | .ixor h o => some (ofInt 0x3C h o)
  | .inot h o => some (ofInt 0x3D h o)
  | .shl h o => some (ofInt 0x3E h o)
  | .shr h o => some (ofInt 0x3F h o)
  | .sar h o => some (ofInt 0x40 h o)
  | .rotl h o => some (ofInt 0x41 h o)
  | .clz h o => some (ofInt 0x42 h o)
  | .popc h o => some (ofInt 0x43 h o)
  | .brev h o => some (ofInt 0x44 h o)
  | .bfx h o => some (ofInt 0x45 h o)
  | .bfi h o => some (ofInt 0x46 h o)
  | .icmp h o => some (ofIntP 0x47 h o)
  | .iaddc h o => some (ofIntP 0x48 h o)
  | .isubb h o => some (ofIntP 0x49 h o)
  | .lea h o => some (ofInt 0x4A h o)
  | .dot4 h o => some (ofInt 0x4B h o)
  | .prmt h o => some (ofInt 0x4C h o)
  | .fadd h o => some (ofFp 0x50 h o)
  | .fsub h o => some (ofFp 0x51 h o)
  | .fmul h o => some (ofFp 0x52 h o)
  | .ffma h o => some (ofFp 0x53 h o)
  | .fmin h o => some (ofFp 0x54 h o)
  | .fmax h o => some (ofFp 0x55 h o)
  | .fcmp h o => some
      { ofHdr 0x56 h with
        a := o.a.code, b := bOfP o.b, imm := immOfP o.b o.p
        sub := iOfP o.b ++ ofBit o.ftz ++ (0 : BitVec 2) ++ o.xop }
  | .fclass h o => some (ofFp 0x57 h o)
  | .frcp h o => some (ofFp 0x58 h o)
  | .frsq h o => some (ofFp 0x59 h o)
  | .fsqrt h o => some (ofFp 0x5A h o)
  | .fdiv h o => some (ofFp 0x5B h o)
  | .fexp2 h o => some (ofFp 0x5C h o)
  | .flog2 h o => some (ofFp 0x5D h o)
  | .fsin h o => some (ofFp 0x5E h o)
  | .fcos h o => some (ofFp 0x5F h o)
  | .hadd2 h o => some (ofHalf 0x60 h o)
  | .hmul2 h o => some (ofHalf 0x61 h o)
  | .hfma2 h o => some (ofHalf 0x62 h o)
  | .hmax2 h o => some (ofHalf 0x63 h o)
  | .hmin2 h o => some (ofHalf 0x64 h o)
  | .cvt h o => some
      { ofDA 0x65 h o.d o.a ((0 : BitVec 1) ++ ofBit o.ftz ++ o.rm ++ ofBit o.sat ++ (0 : BitVec 3)) with
        b := o.b.code, imm := (0 : BitVec 23) ++ ofBit o.hi ++ o.st ++ o.dt }
  | .fround h o => some (ofDA 0x66 h o.d o.a ((0 : BitVec 1) ++ ofBit o.ftz ++ (0 : BitVec 4) ++ o.mode))
  | .bfpq h o => some (ofBfp 0x67 h o)
  | .bfpx h o => some (ofBfp 0x68 h o)
  | .ballot h o => some
      { ofHdr 0x70 h with
        d := o.d.code, c := o.mask.code, imm := pImm o.p, sub := (0 : BitVec 5) ++ ofBit o.x4 ++ o.wsel }
  | .vote h o => some
      { ofHdr 0x71 h with
        c := o.mask.code, imm := (0 : BitVec 18) ++ o.xp ++ o.dp
        sub := (0 : BitVec 1) ++ o.seg ++ (0 : BitVec 2) ++ o.kind }
  | .shfl h o => some
      { ofHdr 0x72 h with
        d := o.d.code, a := o.a.code, b := bOf7 o.b, c := o.mask.code, imm := immOf7 o.b
        sub := (match o.b with | .reg _ => (0 : BitVec 1) | .imm _ => 1) ++ o.seg ++ (0 : BitVec 1) ++ ofBit o.b64
          ++ o.mode }
  | .matchx h o => some
      { ofHdr 0x73 h with
        d := o.d.code, a := o.a.code, c := o.mask.code
        sub := (0 : BitVec 1) ++ o.seg ++ ofBit o.b64 ++ ofBit o.x4 ++ o.wsel }
  | .redx h o => some
      { ofHdr 0x74 h with
        d := o.d.code, a := o.a.code, c := o.mask.code, sub := (0 : BitVec 1) ++ o.seg ++ o.op }
  | .scan h o => some
      { ofHdr 0x75 h with
        d := o.d.code, a := o.a.code, c := o.mask.code, sub := (0 : BitVec 1) ++ o.seg ++ ofBit o.excl ++ o.op }
  | .lmask h o => some
      { ofHdr 0x76 h with d := o.d.code, sub := (0 : BitVec 2) ++ o.wsel ++ ofBit o.x4 ++ o.rel }
  | .ld h o => some { ofAddr 0x80 h o.addr (ofBit o.mig ++ ofBit o.acq ++ ofBit o.sgn ++ o.sz) with d := o.d.code }
  | .st h o => some { ofAddr 0x81 h o.addr (ofBit o.mig ++ ofBit o.rel ++ (0 : BitVec 1) ++ o.sz) with d := o.d.code }
  | .atom h o => some
      { ofAddr20 0x82 h o.addr (ofBit o.mig ++ o.op) ((0 : BitVec 9) ++ ofBit o.rel ++ ofBit o.acq ++ ofBit o.w64) with
        d := o.d.code, c := o.c.code }
  | .red h o => some
      { ofAddr20 0x83 h o.addr (ofBit o.mig ++ o.op) ((0 : BitVec 9) ++ ofBit o.rel ++ (0 : BitVec 2)) with
        d := o.d.code }
  | .fence h => some { ofHdr 0x84 h with sub := 0 }
  | .fenceAcq h => some { ofHdr 0x84 h with sub := 1 }
  | .fenceRel h => some { ofHdr 0x84 h with sub := 2 }
  | .prefl h a l => some (ofAddr 0x85 h a ((0 : BitVec 4) ++ ofBit l))
  | .gath h o => some (ofGath 0x86 h o)
  | .scat h o => some (ofGath 0x87 h o)
  | .lds h o => some (ofLds 0x88 h o)
  | .sts h o => some (ofLds 0x89 h o)
  | .cpy h o => some (ofCpy 0x90 h o)
  | .cpy2 h d a b c => some (ofMat 0x91 h d a b c 0 0)
  | .cfill h o => some (ofCpy 0x92 h o)
  | .pres h base idx l p => some
      { ofHdr 0x93 h with a := base.code, b := bOfIdx idx, imm := pImm p, sub := xshOf idx ++ (0 : BitVec 1) ++ l }
  | .sgive h a d => some (ofRing 0x94 h a d 0 0)
  | .stake h a d ph fr => some (ofRing 0x95 h a d ((0 : BitVec 6) ++ ofBit fr ++ ofBit ph) 0)
  | .stakeTry h a d ph fr p => some (ofRing 0x95 h a d ((0 : BitVec 5) ++ (1 : BitVec 1) ++ ofBit fr ++ ofBit ph) (pImm p))
  | .sfree h a d => some (ofRing 0x96 h a d 0 0)
  | .go h a => some (ofAddr 0xA0 h a 0)
  | .back h => some (ofHdr 0xA1 h)
  | .carry h m q => some (ofA 0xA2 h (match m with | .reg r => r | .imm _ => .zero)
      (iOf m ++ (0 : BitVec 6) ++ ofBit q) (immOf m))
  | .whereIs h d a => some { ofAddr 0xA3 h a 0 with d := d.code }
  | .mzero h d t k => some (ofMat 0xA8 h d t k .zero 0 0)
  | .mma h o ty k16 => some (ofMat 0xA9 h o.d o.t o.k o.c ((0 : BitVec 6) ++ ty) ((0 : BitVec 24) ++ k16))
  | .mmab h o m k16 => some (ofMat 0xAA h o.d o.t o.k o.c ((0 : BitVec 5) ++ m) ((0 : BitVec 24) ++ k16))
  | .mld h o ty => some (ofMat 0xAB h o.d o.t o.k o.c ((0 : BitVec 6) ++ ty) 0)
  | .mst h o ty => some (ofMat 0xAC h o.d o.t o.k o.c ((0 : BitVec 5) ++ ty) 0)
  | .mscl h o => some (ofMat 0xAD h o.d o.t o.k o.c 0 0)
  | .msclU h d t k f => some (ofMat 0xAD h d t k .zero 1 f)
  | .acall h d a t tr => some
      (match t with
       | .imm die sq e => { ofDA 0xB0 h d a ((0 : BitVec 6) ++ ofBit tr ++ (0 : BitVec 1)) with
           imm := (0 : BitVec 21) ++ e ++ sq ++ die }
       | .reg r => { ofDA 0xB0 h d a ((0 : BitVec 6) ++ ofBit tr ++ (1 : BitVec 1)) with b := r.code })
  | .acorr h d a b => some { ofDA 0xB1 h d a 0 with b := b.code }
  | .astat h d b => some { ofHdr 0xB2 h with d := d.code, b := b.code }
  | .tenq h a t => some (ofA 0xB8 h a (low1 t.isSome) (match t with | none => 0 | some p => pImm p))
  | .tdeq h a p q => some (ofA 0xB9 h a 0 ((0 : BitVec 22) ++ q ++ p))
  | .dcnew h a n => some (ofLI 0xBA h a n)
  | .dcadd h a n => some (ofLI 0xBB h a n)
  | .dcdec h a n => some (ofLI 0xBC h a n)
  | .dcrd h a b => some { ofA 0xBD h a 0 0 with b := b.code }
  | .launch h d a => some (ofDA 0xBE h d a 0)
  | .dcfree h a => some (ofA 0xBF h a 0 0)
  | .dln h n b => some
      { ofHdr 0xC0 h with a := bOf n, b := b.code, imm := immOf n, sub := (0 : BitVec 7) ++ iOf n }
  | .dprog h n => some { ofHdr 0xC1 h with a := bOf n, imm := immOf n, sub := (0 : BitVec 7) ++ iOf n }
  | .dend h => some (ofHdr 0xC2 h)
  | .dslack h a => some (ofA 0xC3 h a 0 0)
  | .coll h d a kind op => some (ofDA 0xC8 h d a ((0 : BitVec 1) ++ op ++ kind))
  | .fput h d a => some (ofDA 0xC9 h d a 0)
  | .fget h d a => some (ofDA 0xCA h d a 0)
  | .fsig h d a => some (ofDA 0xCB h d a 0)
  | .eret h => some (ofHdr 0xF0 h)
  | .sysrd h d a => some { ofHdr 0xF1 h with d := d.code, imm := a }
  | .syswr h r a => some (ofA 0xF2 h r 0 a)
  | .tlbiVa h a => some (ofA 0xF3 h a 0 0)
  | .tlbiCtx h => some { ofHdr 0xF3 h with sub := 1 }
  | .tlbiOth h a => some (ofA 0xF3 h a 2 0)
  | .tlbiPart h a => some (ofA 0xF3 h a 3 0)
  | .tlbiAll h => some { ofHdr 0xF3 h with sub := 4 }
  | .cmaintWb h a => some (ofAddr 0xF4 h a 0)
  | .cmaintWbi h a => some (ofAddr 0xF4 h a 1)
  | .cmaintIc h a => some (ofAddr 0xF4 h a 2)
  | .halt h => some (ofHdr 0xF5 h)
  | .chkset h a n => some
      { ofHdr 0xF6 h with a := a.code, b := bOf n, imm := immOf n, sub := iOf n ++ (0 : BitVec 7) }
  | .unassignedOpcode w => some (Fields.unpack w)
  | _ => none

end Decode

/-- The decoder, total on any slot (R33, R58, R59). A slot whose OP is unassigned is the row of its own that raises ILL_OP
(step 3); any other slot is an instruction, or is refused by the first breach of step 4. A nonzero field that the
instruction does not use is found by encoding the instruction again. DEDUCED, log 82. -/
def decode (w : Slot) : Except Reject Instr :=
  let f := Fields.unpack w
  match Decode.parse f with
  | none => .ok (.unassignedOpcode w)
  | some i =>
    match i.problems with
    | r :: _ => .error r
    | [] => if Decode.toFields i = some f then .ok i else .error .unusedField

/-- The slot of an instruction; an event row has no encoding. -/
def encode (i : Instr) : Option Slot := (Decode.toFields i).map Fields.pack

/-- The instruction the decoder reads from an instruction whose bits are w: a slot is 96 bits (R24), stored little-endian,
so that bit 0 of w is bit 0 of OP; the bits above nbits are zero. Wider words and refused slots give none. -/
def decodeTableWord (nbits w : Nat) : Option Instr :=
  if nbits ≤ 96 ∧ w < 2 ^ nbits then
    match decode (BitVec.ofNat 96 w) with
    | .ok i => some i
    | .error _ => none
  else none

end Sys2Proof
end

