-- ==== Sys2Proof/Machine/Issue.lean ====
section
/-! DEFINITION. The issue of one cohort's next slot: which threads may issue together, the fetch of the line and its checks,
decode, the checks of steps 1 to 5 of R59, what a visiting thread may not do, interlocks and poison (chapters 2, 7, 8, 12). -/

namespace Sys2Proof.Machine

open Sys2Proof

namespace Issue

/-! ### Lines (R24 to R28) -/

/-- Whether the n low bits of a number hold an even number of ones. -/
def evenParity : Nat → Nat → Bool
  | 0, _ => true
  | n + 1, x => xor (x.testBit n) (evenParity n x)

/-- The 96 bits of slot i of a line. -/
def slotBits (line : Nat) (i : Nat) : Slot := BitVec.ofNat 96 (line / 2 ^ (96 * i))

/-- Parity over the whole line (R25, R27). -/
def parityOk (line : Nat) : Bool :=
  (List.range 5).all (fun i =>
    evenParity 97 ((slotBits line i).toNat + (if line.testBit (489 + i) then 2 ^ 96 else 0)))
    && evenParity 15 (line / 2 ^ 480 % 2 ^ 15)

/-- Whether slot i is a legal target. -/
def tgtBit (line i : Nat) : Bool := line.testBit (480 + i)

/-- Whether two operands name one thing. A write to q0 is discarded and is no register written. DEDUCED, log 16. -/
def clash (a b : Operands.Loc) : Bool := a == b && a != Operands.Loc.pred 0

/-- srd, swr and OP 0xF0 to 0xFF never pair (R47). -/
def neverPairs (op : Nat) : Bool := op == 0x26 || op == 0x27 || decide (0xF0 ≤ op)

/-- Whether slots a and b may pair (R47). DEDUCED, log 16. -/
def pairOk (a b : Slot) : Bool :=
  let fa := Fields.unpack a
  let fb := Fields.unpack b
  match Decode.parse fa, Decode.parse fb with
  | some x, some y =>
    let ua := Operands.usesG x
    let ub := Operands.usesG y
    (Operands.port fa.op.toNat x != Operands.port fb.op.toNat y)
      && !(Operands.isControl x || Operands.endsShadows x || Operands.isBranch x)
      && (Operands.isBranch y || !(Operands.isControl y || Operands.endsShadows y))
      && ua.all (fun p => !p.wr || ub.all (fun q => !clash p.loc q.loc))
      && ub.all (fun p => !p.wr || ua.all (fun q => !(q.rd && clash p.loc q.loc)))
      && !neverPairs fa.op.toNat && !neverPairs fb.op.toNat
  | _, _ => false

/-- The reserved bits and every set DUAL bit of a line (R26). DEDUCED, log 16. -/
def lineOk (line : Nat) : Bool :=
  line / 2 ^ 495 == 0
    && (List.range 4).all (fun i => !line.testBit (485 + i) || pairOk (slotBits line i) (slotBits line (i + 1)))

/-- What the fetch of a line gives a core: a fault, a wait, or the line's bits. -/
inductive Fetched where
  | fault (c : Cause) (s : State)
  | wait
  | line (bits : Nat) (s : State)

/-- Read a line for instruction fetch at its home, which recalls its words and merges it first (R143); a cached line is held there. -/
def homeFetch (s : State) (part : Nat) (p : Mem.Phys) : List Byte × State :=
  let pa := p.pa / 64 * 64
  if p.unc then (Mem.readAt s (if Mem.isHost pa then .host pa else .port pa) 64, s)
  else
    let s := Mem.fill (Mem.serveRange s pa 64) part (pa / 64)
    (Mem.homeLine s (pa / 64), s)

/-- Fetch the line of a PC for a context: the core's copy, else the home's (R28); a line that fails parity, or that is
poisoned, is fetched once more from its home, and then raises SOFT_ERR (R27, R408). A stale translation reads poison and raises a
region violation, for a thread by its home core and group (R115). `ea` is %eaddr of a translation fault. -/
def fetch (s : State) (core ctx : Nat) (who : Option Nat) (pc : BitVec 48) (ea : DWord) : Fetched :=
  let va := pcLine pc
  if 0x800000000000 ≤ va then .fault (Mem.mapFault .fetch ea) s
  else if Mem.walking s core ctx va .fetch then .wait
  else match Mem.translate s core ctx va .fetch ea with
    | .error c => .fault c s
    | .ok p =>
      let line := p.pa / 64
      let cached := (s.core core).ifetch.get? line
      let good := (cached.map (fun b => parityOk (Mem.ofBytes b))).getD false
      if p.wait || (!good && (Mem.engineOwns s line || Mem.exclHeld s core line)) then .wait
      else
        let s := Mem.translated s core ctx p
        match cached with
        | some b =>
          if good then .line (Mem.ofBytes b) s else again s p line va
        | none => again s p line va
where
  /-- From the home: twice, for a line that fails there fails again. -/
  again (s : State) (p : Mem.Phys) (line va : Nat) : Fetched :=
    let soft : Cause := { code := 0x52, sub := 1, eaddr := BitVec.ofNat 64 va, syn := 0, gpa := 0 }
    if p.stale then
      .fault soft (Events.violation s ctx ((who.map (fun x => gidCore (tidGid x))).getD 0) ((who.map (fun x => gidSlot (tidGid x))).getD 0))
    else
      let (b, s) := homeFetch s (s.ctxPart ctx) p
      if parityOk (Mem.ofBytes b) && !Mem.linePoisoned s line then
        .line (Mem.ofBytes b) (s.modCore core (fun k => { k with ifetch := k.ifetch.set line b }))
      else .fault soft s

/-! ### Cohorts (R352 to R356) -/

/-- Whether a thread's next instruction may issue: it is ready, or it may have become ready; or, parked, may be performed. -/
def canTry (t : Thread) : Bool :=
  match t.status with
  | .ready | .waiting | .parked [] | .acquires => true
  | _ => false

/-- Whether a thread's group and context let it issue. -/
def running (s : State) (tid : Nat) : Bool :=
  match s.group? (tidGid tid) with
  | none => false
  | some g => g.stop.isNone && (match s.ctxs.get? (s.ctxOf tid) with
    | some c => c.phase == Phase.running && !c.ending
    | none => false)

/-- Whether a list of threads is a cohort of a core: rising names, one PC, one bundle, all able to issue there.
DESIGN CHOICE, log 18. -/
def cohortOk (s : State) (core : Nat) (tids : List Nat) : Bool :=
  match tids with
  | [] => false
  | a :: _ =>
    match s.thread? a with
    | none => false
    | some ta =>
      decide (tids.length ≤ 128) && (tids.zip (tids.drop 1)).all (fun p => decide (p.1 < p.2))
        && (s.core core).ret == Retention.awake && !s.lost.contains (coreDie core)
        && (Ops.bundleKey s a ta).isSome
        && tids.all (fun tid => match s.thread? tid with
            | none => false
            | some t => t.pc == ta.pc && canTry t && (t.status == ta.status) && Mem.coreOf tid t == core && Ops.bundleKey s tid t == Ops.bundleKey s a ta
                && running s tid)

/-- The sector in which a thread issues. -/
def sectorOf (tid : Nat) (t : Thread) : Nat :=
  match t.visit with
  | none => gidSlot (tidGid tid) / 8
  | some x => x.guest / 2

/-- The threads of an offered cohort that are still ready at its PC. -/
def stillReady (s : State) (pc : Nat) (tids : List Nat) : List Nat :=
  tids.filter (fun tid => match s.thread? tid with
    | some t => t.status == .ready && t.pc.toNat == pc
    | none => false)

/-- The offer of the running cycle that a cohort is (R354). -/
def offerOf (s : State) (core sec pc : Nat) (tids : List Nat) : Option (Nat × Nat × List Nat) :=
  (s.sector core sec).offers.find? (fun o => o.2.1 == pc && stillReady s pc o.2.2 == tids)

/-- An offer is served: it is withdrawn. -/
def serve (s : State) (core sec : Nat) (o : Nat × Nat × List Nat) : State :=
  s.modCore core (fun k => { k with sectors := k.sectors.modify sec (fun x => { x with offers := x.offers.erase o }) })

/-- The DEADLINE trap of a thread. -/
def deadlineTrap (t : Thread) : Trap := .vector 1 0 (t.deadline.getD 0) false

/-- Deliver the pending DEADLINE of some threads. -/
def deliverDeadlines (s : State) (tids : List Nat) : State :=
  let trs := tids.filterMap (fun tid => (s.thread? tid).map (fun t => (tid, deadlineTrap t)))
  Ops.takeTraps (s.mapThreads tids (fun _ t => { t with deadline := none })) trs

/-- The first instruction of a thread is an acquire (R349), and that of team-group 0 opens the step that the launch asked for
(R73, R386). -/
def firstIssue (s : State) (core : Nat) (tids : List Nat) : State :=
  let new := tids.filter (fun tid => ((s.thread? tid).map Thread.fresh).getD false)
  if new.isEmpty then s
  else (Ops.groupsOf new).foldl (fun s gid => match s.group? gid with
    | some g => if g.index = 0 then s.modTeam g.team (fun tm => match tm.opens with
        | some (ns, w) => { tm with opens := none, step := tm.step.or (some
            { deadline := s.now + ns, work := w, done := 0, cycles := 0, owner := gid, risk := false }) }
        | none => tm) else s
    | none => s) (Ops.acquireCore s core)

/-! ### Roles (R357) -/

/-- Whether a role may issue an E-port OP (Table 12.5). -/
def roleOk (r : Role) (op : Nat) : Bool :=
  let inR (a b : Nat) : Bool := decide (a ≤ op) && decide (op ≤ b)
  let common := inR 0xB8 0xBF || inR 0xC0 0xC3
  match r with
  | .vector => common || inR 0xB0 0xB2
  | .copy => common || inR 0x90 0x92 || inR 0xC8 0xCB
  | .matrix => common || inR 0xA8 0xAD || inR 0xB0 0xB2

def roleNum : Role → Nat
  | .vector => 0
  | .copy => 1
  | .matrix => 2

/-! ### What a visiting thread may not do (R201, R202) -/

/-- Special registers that a visiting thread may read, and write. -/
def visitReads (n : Nat) : Bool := [0, 1, 2, 3, 4, 5, 6, 7, 0x0C, 0x0D, 0x0E].contains n
def visitWrites (n : Nat) : Bool := [0x0C, 0x0D, 0x0E].contains n

/-- The %eaddr number of an operand that offends while visiting, if it does. -/
def offends (t : Thread) (u : Operands.Use) : Option Nat :=
  match u.loc with
  | .reg c => if c < 32 && t.carryV.getLsbD c then none else some c
  | .pred n => if n = 0 || (t.carryQ && decide (n < 32)) then none else some (0x200 + n)
  | .special n =>
    if (!u.rd || visitReads n) && (!u.wr || visitWrites n) then none else some (0x300 + n)

/-- Instructions that a visiting thread is refused (R202). bfpq is a cross-lane instruction too. DEDUCED, log 95. -/
def refusedAway (op : Nat) : Bool :=
  let inR (a b : Nat) : Bool := decide (a ≤ op) && decide (op ≤ b)
  inR 4 6 || inR 0x0C 0x0F || inR 0x70 0x76 || op == 0x67 || op == 0x28 || op == 0x29 || op == 9 || inR 0x90 0x92
    || inR 0xA8 0xCB || decide (0xF0 ≤ op)

/-- Cross-lane instructions meet whatever their guard. -/
def meetsLanes (op : Nat) : Bool := (decide (0x70 ≤ op) && decide (op ≤ 0x75)) || op == 0x67 || op == 0x28 || op == 0x29

/-- The operands by which an instruction of a visiting thread can offend: rgn has no effect there (R202, R223). -/
def awayUses (i : Instr) : List Operands.Use :=
  match i with
  | .rgn .. => []
  | i => Operands.uses i

/-- The UNCARRIED fault of a visiting lane, by the number it puts in %eaddr: the first offending operand in the order of
Operands.uses, a pair by its first offending register. DEDUCED, log 95. -/
def uncarried (t : Thread) (op : Nat) (i : Instr) : Option Nat :=
  match t.visit, i.hdr? with
  | some _, some h =>
    let guardBad := offends t { loc := .pred h.gp.toNat, rd := true, wr := false }
    match guardBad with
    | some n => if refusedAway op then some 0x3FF else ((awayUses i).findSome? (offends t)).or (some n)
    | none =>
      if refusedAway op && (t.guard h || meetsLanes op) then some 0x3FF
      else if t.guard h then (awayUses i).findSome? (offends t)
      else none
  | _, _ => none

/-! ### Poison and interlocks (R52, R237, R238) -/

/-- The %eaddr number of a poisoned register word that an operand reads. -/
def poisonOf (g : Group) (t : Thread) (u : Operands.Use) : Option Nat :=
  if !u.rd then none
  else match u.loc with
    | .reg c =>
      if c < 64 then (if t.visit.isNone && t.vpoison.contains (t.vkey c) then some c else none)
      else if 0x80 ≤ c then (if g.spoison.contains (c - 0x80) then some c else none)
      else none
    | .pred n => if n ≠ 0 && t.visit.isNone && t.ppoison.contains (n / 32) then some (0x200 + n / 32) else none
    | .special _ => none

/-- The operand code of a handle register whose word an instruction reads and which is poisoned: hmov.tok reads the TOKEN, wait,
htest, hcancel and hmov the STATUS (R230, R238). -/
def handlePoison (g : Group) (i : Instr) : Option Nat :=
  let st (r : Reg) : Option Nat := match r with
    | .h n => if g.hpoison.contains (2 * n.val + 1) then some (0x50 + n.val) else none
    | _ => none
  match i with
  | .wait _ a | .htest _ a _ | .hcancel _ a | .hmov _ _ a => st a
  | .hmovTok _ _ (.h n) => if g.hpoison.contains (2 * n.val) then some (0x50 + n.val) else none
  | _ => none

/-- The code of an s-register whose token names a handle register with a poisoned word: its TOKEN is compared, and then its STATUS
is read (R232, R238). -/
def tokenPoison (s : State) (tid : Nat) (t : Thread) (i : Instr) : Option Nat :=
  match i with
  | .wait _ (.s n) | .htest _ (.s n) _ | .hcancel _ (.s n) =>
    let tok := Operands.val s (tidGid tid) t (.s n)
    let core := (tok.extractLsb' 0 8).toNat
    let h := (tok.extractLsb' 14 5).toNat
    if core ≥ 192 || !s.partOwns (s.ctxPart (s.ctxOf tid)) core then none
    else match s.group? (gidOf core (tok.extractLsb' 8 6).toNat) with
      | some g =>
        let mine := ((s.teams.get? g.team).map Team.ctx) == some (s.ctxOf tid)
        let named := (g.handle h).gen == (tok.extractLsb' 19 13).toNat
        if mine && (g.hpoison.contains (2 * h) || (named && g.hpoison.contains (2 * h + 1))) then some (0x80 + n.val) else none
      | none => none
  | _ => none

/-- The operands that a lane reads although its guard fails: the register that `rdl` takes from any lane (R229). -/
def alwaysRead (i : Instr) : List Operands.Use :=
  match i with
  | .rdl _ _ a _ => Operands.rds a
  | _ => []

/-- The poisoned operand of a lane: the guard of every lane, the other operands of active lanes. -/
def poisonRead (g : Group) (t : Thread) (i : Instr) : Option Nat :=
  if t.vpoison.isEmpty && t.ppoison.isEmpty && g.spoison.isEmpty && g.hpoison.isEmpty then none
  else match i.hdr? with
    | none => none
    | some h =>
      let gp : Operands.Use := { loc := .pred h.gp.toNat, rd := true, wr := false }
      match poisonOf g t gp with
      | some n => some n
      | none =>
        if t.guard h then ((Operands.uses i).findSome? (poisonOf g t)).or (handlePoison g i)
        else (alwaysRead i).findSome? (poisonOf g t)

/-- The destination that an operand names. -/
def locDest (t : Thread) (l : Operands.Loc) : Option Dest :=
  match l with
  | .reg c =>
    if c < 64 then some (Ops.vplace t c)
    else if 0x80 ≤ c then some (.s (c - 0x80))
    else none
  | .pred n => some (.p n)
  | .special _ => none

/-- Whether an operand reads a destination of a long operation whose shadow has ended (R52). For an s-register the operation
may stand with another thread of the group. DEDUCED, log 17. -/
def interlocked (s : State) (tid : Nat) (t : Thread) (i : Instr) : Bool :=
  let reads := ((Operands.usesG i).filter Operands.Use.rd).filterMap (fun u => locDest t u.loc)
  let hit (o : LongOp) (d : Dest) : Bool := o.left == 0 && o.dests.any (fun x => x.2 == d)
  reads.any (fun d => match d with
    | .s _ => s.threads.any (fun x => tidGid x.1 == tidGid tid && x.2.longs.any (fun o => hit o d))
    | d => t.longs.any (fun o => hit o d))

/-- Write every long result of a thread whose shadow has ended and which has arrived (R50). DEDUCED, log 17. -/
def landReady (s : State) (tid : Nat) : State :=
  match s.thread? tid with
  | none => s
  | some t =>
    (t.longs.filter (fun o => o.left == 0 && o.arrived && o.vals.isSome && !Ops.unread s o.inst)).foldl (fun s o => Ops.landLong s tid o) s

/-- Whether a SOFT_ERR of a thread is a precise trap: it is delivered to a handler, or at home (R53, R203). -/
def precise (s : State) (tid : Nat) (t : Thread) : Bool :=
  t.away || (!t.inH && (match s.teamOf? tid with
    | some (_, tm) => (Ops.handlerPc tm.kernel 5).isSome
    | none => false))

/-- Whether poison may still be found in an instruction of a thread that a handler would see: none of the thread's instructions issues
before it is known (R53). DEDUCED, log 34. -/
def unsure (s : State) (tid : Nat) (t : Thread) : Bool := precise s tid t && t.longs.any (fun o => Ops.unread s o.inst)

/-- Whether a pending DEADLINE is due in a thread at a boundary (R53, R390, R406). -/
def deadlineDue (s : State) (tid : Nat) (t : Thread) : Bool :=
  t.deadline.isSome && !t.away && !t.inH && t.longs.all (fun o => o.left == 0) && !unsure s tid t

/-! ### One issue -/

/-- What the issue of a cohort comes to: done (nothing issues, or a fault has been taken), or an instruction to execute. -/
inductive Prepared where
  | done (s : State)
  | run (i : Instr) (s : State)

/-- A precise fault of every thread of a cohort. -/
def faultAll (s : State) (tids : List Nat) (c : Cause) : State := Ops.trapAll s tids (fun _ => .fault c)

/-- Steps 3 and 4 of R59 on a slot. -/
def decodeSlot (w : Slot) : Option Instr :=
  match decode w with
  | .ok (.unassignedOpcode _) => none
  | .ok i => some i
  | .error _ => none

/-- The cohort executes. -/
def issueNow (s : State) (core : Nat) (pc : BitVec 48) (tids : List Nat) : State :=
  { s with cur := some { core := core, pc := pc, tids := tids } }

/-- A cohort has issued: the instruction is counted, and the cohort counts as served in the running cycle (R355, R382, R455). -/
def counted (s : State) (core pc : Nat) (sec : Nat) (bundle : Nat) : State :=
  let p := Mem.partOfCore s core
  s.modCore core (fun k => { k.count 0x001 p 1 with
    sectors := k.sectors.modify sec (fun x => { x with served := (bundle, pc) :: x.served }) })

/-- Prepare the issue of a cohort whose line has passed: decode, role, visiting rules, shadows, interlocks, poison. -/
def prepareSlot (s : State) (core : Nat) (tids : List Nat) (ta : Thread) (role : Role) (line : Nat) : Prepared :=
  let w := slotBits line (pcSlot ta.pc)
  let op := w.toNat % 256
  match decodeSlot w with
  | none =>
    if (Decode.parse (Fields.unpack w)).isNone then
      .run (.unassignedOpcode w) (issueNow s core ta.pc tids)
    else .done (Ops.trapAll s tids Ops.illOp)
  | some i =>
    if (s.core core).capHold && (Operands.port op i == .V || Operands.port op i == .E) then .done s
    else if Operands.portOf op == .E && !roleOk role op then
      .done (faultAll s tids { code := 0x04, sub := 0, eaddr := BitVec.ofNat 64 (op + 256 * roleNum role), syn := 0, gpa := 0 })
    else
      let away := tids.filterMap (fun tid => (s.thread? tid).bind (fun t => (uncarried t op i).map (fun n => (tid, n))))
      if !away.isEmpty then
        .done (Ops.takeTraps s (away.map (fun x => (x.1, Ops.plain 0x21 (BitVec.ofNat 64 x.2)))))
      else
        let s := if Operands.endsShadows i then s.mapThreads tids (fun _ t => Ops.endShadows t) else s
        let s := tids.foldl landReady s
        if tids.any (fun tid => match s.thread? tid with
            | some t => interlocked s tid t i || unsure s tid t
            | none => false) then .done (Ops.stall s tids)
        else
          let bad := tids.filterMap (fun tid => match s.thread? tid, s.group? (tidGid tid) with
            | some t, some g =>
              let tok := if (i.hdr?.map t.guard).getD false then tokenPoison s tid t i else none
              ((poisonRead g t i).or tok).map (fun n => (tid, n))
            | _, _ => none)
          if !bad.isEmpty then
            .done (Ops.takeTraps s (bad.map (fun x =>
              (x.1, .fault { code := 0x52, sub := 2, eaddr := BitVec.ofNat 64 x.2, syn := 0, gpa := 0 }))))
          else .run i (issueNow s core ta.pc tids)

/-- Fetch the line of a cohort, check it, and prepare its slot. -/
def prepareLine (s : State) (core : Nat) (tids : List Nat) (a : Nat) (ta : Thread) : Prepared :=
  match fetch s core (s.ctxOf a) (some a) ta.pc (Ops.pc64 ta.pc) with
  | .fault c s => .done (Mem.takeFaults s (tids.map (fun tid => (tid, .fault c))))
  | .wait => .done (Ops.stall s tids)
  | .line bits s =>
    if !lineOk bits then
      .done (faultAll s tids { code := 0x02, sub := 0, eaddr := BitVec.ofNat 64 (pcLine ta.pc), syn := 0, gpa := 0 })
    else match s.group? (tidGid a) with
      | none => .done s
      | some g => prepareSlot s core tids ta g.role bits

/-- Prepare an act that asks a cohort to issue. Threads that wait are asked whether they have become ready (R356). A cohort that the
running cycle does not offer has no effect (R354). A pending DEADLINE that is due comes before the instruction (R390).
DEDUCED, log 16; DESIGN CHOICE, log 18; DESIGN CHOICE, log 90. -/
def prepare (s : State) (core : Nat) (tids : List Nat) : Prepared :=
  if !cohortOk s core tids then .done s
  else match tids.head?.bind (fun a => (s.thread? a).map (fun t => (a, t))) with
    | none => .done s
    | some (a, ta) =>
      if ta.status == .waiting || Ops.resumes ta then prepareLine (firstIssue s core tids) core tids a ta
      else match offerOf s core (sectorOf a ta) ta.pc.toNat tids with
        | none => .done s
        | some o =>
          let s := serve s core (sectorOf a ta) o
          let due := tids.filter (fun tid => ((s.thread? tid).map (deadlineDue s tid)).getD false)
          if !due.isEmpty then .done (deliverDeadlines s due)
          else prepareLine (firstIssue s core tids) core tids a ta

/-- After the instruction: no cohort executes. -/
def finish (s : State) : State := { s with cur := none }

/-- Whether every thread of a list waits. -/
def allWait (s : State) (tids : List Nat) : Bool :=
  tids.all (fun tid => ((s.thread? tid).map (fun t => t.status == .waiting)).getD false)

/-- Whether every thread of a list was parked and its instruction has been performed without an issue slot (R167, R183). -/
def allResume (s : State) (tids : List Nat) : Bool :=
  tids.all (fun tid => ((s.thread? tid).map Ops.resumes).getD false)

/-- What an issue act leaves: s before it, t after its instruction. A cohort that could not go on takes no issue slot, nor does one
that was parked; one whose threads waited and that now could is ready, and issues when a cycle offers it; any other has issued (R167,
R354, R355, R356). -/
def settle (s t : State) (core : Nat) (tids : List Nat) : State :=
  if allWait t tids || allResume s tids then finish t
  else if allWait s tids then s.mapThreads tids (fun _ t => { t with status := .ready })
  else match tids.head?.bind (fun a => (s.thread? a).map (fun t => (a, t))) with
    | none => finish t
    | some (a, ta) =>
      let b := ((offerOf s core (sectorOf a ta) ta.pc.toNat tids).map Prod.fst).getD 0
      counted (finish t) core ta.pc.toNat (sectorOf a ta) b

/-! ### Time -/

/-- Whether a sector of a core holds a resident group; without one it is clock-gated (R382). -/
def sectorHeld (s : State) (c k : Nat) : Bool :=
  s.groups.any (fun g => gidCore g.1 == c && gidSlot g.1 / 8 == k)

/-- The sectors of the cores that hold a group are listed, so that their cycles are counted. -/
def listSectors (s : State) : Tab Core :=
  s.groups.foldl (fun cs g =>
    let c := gidCore g.1
    let k := gidSlot g.1 / 8
    let x := cs.getD c Core.reset
    if (x.sectors.get? k).isSome then cs else cs.set c { x with sectors := x.sectors.set k Sector.reset }) s.cores

/-- The twentieths of core cycles that pass in dt nanoseconds; a stretched cycle has twice the period (R398), and a core in
retention has no clock. -/
def coreTwentieths (k : Core) (dt : Nat) : Nat :=
  match k.ret, k.droop with
  | .awake, .stretch _ => dt * coreClock k.point
  | .awake, _ => 2 * dt * coreClock k.point
  | .unswept, _ => 2 * dt * coreClock k.point
  | _, _ => 0

/-- dt nanoseconds pass (R234): %time, the sector cycles, and the core cycles of every open step (R385).
DESIGN CHOICE, log 1; DESIGN CHOICE, log 15. -/
def tick (s : State) (dt : Nat) : State :=
  if dt = 0 then s
  else
    { s with
      now := s.now + dt
      cores := (listSectors s).update (fun _ => true) (fun c k =>
        { k with sectors := k.sectors.update (fun i => sectorHeld s c i) (fun _ x =>
            { x with cyc := x.cyc + coreTwentieths k dt * x.ratio }) })
      teams := s.teams.update (fun _ => true) (fun _ t =>
        { t with step := t.step.map (fun x => { x with cycles := x.cycles + coreTwentieths (s.core t.core) dt }) }) }

/-- Whether a row of the table is an event of the module. DESIGN CHOICE, log 90. -/
def isEvent (i : Instr) : Bool :=
  match i with
  | .unassignedOpcode _ => false
  | i => i.hdr?.isNone

/-! ### Placing one instruction -/

/-- The number of a line that holds a slot in its first place, no target and no pair, and correct parity (R24, R25).
DESIGN CHOICE, log 2. -/
def lineOf (w : Nat) : Nat :=
  if evenParity 96 w then w else w + 2 ^ 489 + 2 ^ 494

/-- Where `withFetchWord` places its line. -/
abbrev placeLine : Nat := 64

/-- The role whose groups may issue an OP. DESIGN CHOICE, log 2. -/
def roleFor (op : Nat) : Role :=
  if roleOk .vector op then .vector else if roleOk .copy op then .copy else .matrix

/-- One context of partition 0 with SYS, both translation stages bypassed, one team of one group on core 0, and one thread
at a PC. The other 127 threads have exited. DESIGN CHOICE, log 2. -/
def place (s : State) (nbits w : Nat) : State :=
  let w := w % 2 ^ min nbits 96
  let n := lineOf w
  let role := roleFor (w % 256)
  let kernel : Kernel :=
    { addr := 64 * placeLine - 64, wide := false, groups := 1, cw := 1, ch := 1, wteams := 0, roles := 0, depth := 4
      frames := 2, tiles := 1, spad := 1024, dline := 0, dwork := 0, vecs := [] }
  let ctx : Ctx :=
    { part := 0, vf := 0, s1root := 0, savebase := 0, debug := false, sys := true, commbase := 0, touched := 0
      phase := .running, ending := false, image := none, areas := [], comms := [] }
  let team : Team :=
    { ctx := 0, grid := 0, cluster := 0, rank := 0, core := 0, kernel := kernel, spadBase := 0, tiles := [0], slots := [0]
      kregs := [], bar := [], step := none, opens := none }
  let group : Group :=
    { team := 0, index := 0, role := role, sregs := [], undef := none, spoison := [], hpoison := [], handles := [], obuf := [], xinsts := []
      stop := none }
  let thread : Thread :=
    { status := .ready, pc := BitVec.ofNat 48 (64 * placeLine), vregs := [], vpoison := [], preds := 0, ppoison := []
      longs := [], flags := 0, trapen := 0, carryV := 0, carryQ := false, epc := 0, ecause := 0, eaddr := 0, pix := 0
      undef := none, trapPc := none, resumed := false, inH := false, view := .off, nres := 1, nspill := 0, rsmem := 0
      rstack := [], rpoison := [], rspill := 0, deadline := none, visit := none, hop := none, stay := false, fresh := false }
  let grid : Grid :=
    { ctx := 0, nclus := 1, prio := 0, arg := 0, crec := 0, donedc := 0xFFFF, dclass := 0, kernel := kernel, rsbase := 0
      rsstr := 0, next := 1, origin := none, cmd := none }
  { s with
    agenda := [{ dt := 0, what := .issue 0 [0] }]
    parts := s.parts.set 0 { s.part 0 with cores := (s.part 0).cores ||| 1, s2root := 0 }
    ctxs := s.ctxs.set 0 ctx
    grids := s.grids.set 0 grid
    clusters := s.clusters.set 0 { grid := 0, index := 0, teams := [0], cbar := [] }
    teams := s.teams.set 0 team
    groups := s.groups.set 0 group
    threads := s.threads.set 0 thread
    cores := s.cores.set 0 { s.core 0 with
      ifetch := [], tlb := [], ret := .awake, capHold := false, rampHold := false
      sectors := (s.core 0).sectors.set 0 { Sector.reset with bundles := [[(0, 0)]], offers := [(0, 64 * placeLine, [0])] } }
    dieTlb := []
    walks := []
    walkers := []
    garbled := []
    exclTill := []
    lost := s.lost.del 0
    poison := s.poison.del placeLine
    llc := s.llc.erase placeLine
    reduce := s.reduce.erase placeLine
    owner := s.owner.keep (fun w _ => w / 16 != placeLine)
    mem := Memory.writeAll s.mem (64 * placeLine) (Mem.toBytes 64 n) }

end Issue

end Sys2Proof.Machine
end

