-- ==== Sys2Proof/Machine/Hops.lean ====
section
/-! DEFINITION. Hops between cores: what is carried, refusals, departures and returns (R190 to R211). -/

namespace Sys2Proof.Machine

open Sys2Proof

namespace Hops

/-- The core on which a thread runs now. -/
def here (tid : Nat) (t : Thread) : Nat := Mem.coreOf tid t

/-- The hops a thread has made since it left home. -/
def count (t : Thread) : Nat :=
  match t.visit with
  | none => 0
  | some x => x.hops

/-- The refusal of a hop to a core at the current core, by its subcode (Table 07.9). -/
def refusal (s : State) (tid : Nat) (t : Thread) (o : Nat) : Option Nat :=
  if count t = 4 && o != gidCore (tidGid tid) then some 4
  else if !s.partOwns (s.ctxPart (s.ctxOf tid)) o then some 2
  else if s.lost.contains (coreDie o) then some 3
  else none

/-- The cause of a refused `go` (R208). -/
def refusedTrap (sub : Nat) (ea : DWord) : Trap := .vector 4 (BitVec.ofNat 32 (0x20 + 256 * sub)) ea false

/-- Whether every operand of an instruction and its guard are carried (R198). -/
def carried (t : Thread) (i : Instr) : Bool :=
  (Operands.usesG i).all (fun u => match u.loc with
    | .reg c => decide (c < 32) && t.carryV.getLsbD c
    | .pred n => n == 0 || (t.carryQ && decide (n < 32))
    | .special _ => true)

/-- A visiting thread starts home at a PC (R196). -/
def goHome (t : Thread) (pc : BitVec 48) : Thread :=
  match t.visit with
  | none => t
  | some x => { t with status := .transit, pc := pc, stay := false, resumed := false
                       visit := some { x with home := true, exits := false, trap := none } }

/-- A thread leaves for a core: its continuation is under way, and the die joins the touched dies (R195, R198, R211). The
operand buffer of its group is emptied (R222). -/
def depart (s : State) (tid o : Nat) (impl : Bool) (ea : DWord) : State :=
  match s.thread? tid with
  | none => s
  | some t =>
    let ctx := s.ctxOf tid
    let s := s.countCore (here tid t) 0x004 (s.ctxPart ctx)
    let s := Ops.flushBuffer s (tidGid tid)
    if t.away && o == gidCore (tidGid tid) then s.setThread tid (goHome t (if impl then t.pc else nextPc t.pc))
    else
      let s := s.setThread tid { t with status := .transit, hop := some { dest := o, impl := impl, refused := false, ea := ea } }
      s.touch ctx (coreDie o)

/-- Whether a `.mig` access has to wait for the walk that finds its owner (R110). -/
def walks (s : State) (tid : Nat) (t : Thread) (ea : DWord) : Bool := !t.stay && !t.inH && Mem.ownerWalks s tid t ea

/-- Where a `.mig` access goes (R198): none when it is performed in place. -/
def migTarget (s : State) (tid : Nat) (t : Thread) (i : Instr) (ea : DWord) :
    Option (Nat × Option Mem.Phys) :=
  if t.stay || t.inH then none
  else match Mem.ownerOf s tid t ea .owner with
    | .error _ => none
    | .ok (o, _, q) =>
      if o == here tid t || !carried t i then none
      else if t.away && o == gidCore (tidGid tid) then some (o, q)
      else if (refusal s tid t o).isSome then none
      else some (o, q)

end Hops

end Sys2Proof.Machine
end

