-- ==== Sys2Proof/Machine/Access.lean ====
section
/-! DEFINITION. Memory accesses of the lanes of one instruction: checks in order, waits, parking and `.mig` hops, loads, stores
and atomics (R148 to R153, R167, R198, R466). -/

namespace Sys2Proof.Machine

open Sys2Proof

namespace Access

/-- One lane with its checked access. -/
structure Lane where
  tid : Nat
  t   : Thread
  a   : Mem.Access

/-- A lane's access reaches its place, over the joins between (R17): its translation is used (R110, R423), and a stale one raises a region violation (R115).
DEDUCED, log 38. -/
def note (s : State) (l : Lane) : State :=
  let s := match l.a.tgt with
    | .cached _ => s
    | t => s.cross (coreDie (Mem.coreOf l.tid l.t)) t.die
  match l.a.phys with
  | none => s
  | some q =>
    let s := Mem.translated s (Mem.coreOf l.tid l.t) (s.ctxOf l.tid) q
    if q.stale then Events.violation s (s.ctxOf l.tid) (gidCore (tidGid l.tid)) (gidSlot (tidGid l.tid)) else s

/-- Whether an acquiring access of a thread has not returned yet: nothing later may be performed (R136). -/
def acquiring (t : Thread) : Bool := t.longs.any (fun o => o.acq && o.vals.isNone)

/-- The checks of every lane: the traps of those that fail, and the accesses of the others. -/
def checkAll (s : State) (eas : List (Nat × DWord)) (n : Nat) (acc : Mem.Acc) (aop : Option (Bool × Nat)) :
    List (Nat × Trap) × List Lane :=
  eas.foldl (fun r x =>
    match s.thread? x.1 with
    | none => r
    | some t =>
      match Mem.check s x.1 t x.2 n acc aop with
      | .error c => (r.1 ++ [(x.1, .fault c)], r.2)
      | .ok a => (r.1, r.2 ++ [{ tid := x.1, t := t, a := a }])) ([], [])

/-- The SOFT_ERR of a poisoned memory word (R152, R408). -/
def softTrap (ea : DWord) : Trap := .fault { code := 0x52, sub := 3, eaddr := ea, syn := 0, gpa := 0 }

/-- The lowest lane of each home group that reads poison, with its trap. DEDUCED, log 34. -/
def poisonTraps (s : State) (core : Nat) (n : Nat) (ls : List Lane) : List (Nat × Trap) :=
  let bad := ls.filter (fun l => Mem.poisoned s core l.a n)
  (Ops.groupsOf (bad.map Lane.tid)).filterMap (fun gid =>
    (bad.find? (fun l => tidGid l.tid == gid)).map (fun l => (l.tid, softTrap l.a.ea)))

/-- What an instruction of one access for each lane needs. -/
structure Req where
  instr : Instr
  mig   : Bool
  rel   : Bool
  n     : Nat
  acc   : Mem.Acc
  aop   : Option (Bool × Nat)
  /-- whether it reads memory for its thread -/
  reads : Bool

/-- A lane whose access touches absent lines parks on them (R167). -/
def parkLane (s : State) (l : Lane) : State :=
  if l.a.park.isEmpty then s else s.modThread l.tid (fun t => { t with status := .parked l.a.park })

/-- Perform one access for each active lane: `.mig` lanes leave, failing lanes fault with no lane's access performed, waits hold
the cohort, lanes at absent lines park, and `go` performs the others, or holds the cohort where it answers none. -/
def perform (s : State) (c : Cohort) (h : Hdr) (q : Req) (ea : Nat → Thread → DWord) (go : State → List Lane → Option State) :
    State :=
  let act := Ops.byLane (Ops.active s c h)
  let ths := act.filterMap (fun tid => (s.thread? tid).map (fun t => (tid, t)))
  if ths.any (fun x => acquiring x.2) || (q.rel && !Ops.allDrained s act) then Ops.stall s c.tids
  else
    let dest (x : Nat × Thread) : Option (Nat × Option Mem.Phys) :=
      if q.mig then Hops.migTarget s x.1 x.2 q.instr (ea (tidGid x.1) x.2) else none
    let leave := ths.filter (fun x => (dest x).isSome)
    let rest := ths.filter (fun x => (dest x).isNone)
    let r := checkAll s (rest.map (fun x => (x.1, ea (tidGid x.1) x.2))) q.n q.acc q.aop
    let here := r.2.filter (fun l => l.a.park.isEmpty)
    let soft := if q.reads then poisonTraps s c.core q.n here else []
    if r.2.any (fun l => l.a.walk) || (q.mig && ths.any (fun x => Hops.walks s x.1 x.2 (ea (tidGid x.1) x.2))) then Ops.stall s c.tids
    else if !r.1.isEmpty then Mem.takeFaults s r.1
    else if r.2.any (fun l => l.a.wait) then Ops.stall (r.2.foldl (fun s l => Mem.askFor s l.a) s) c.tids
    else if leave.any (fun x => !Ops.mayLeave s x.1 x.2) then Ops.stall s c.tids
    else if !soft.isEmpty then Ops.takeTraps (r.2.foldl note s) soft
    else
      let s1 := r.2.foldl note s
      match go s1 here with
      | none => Ops.stall s c.tids
      | some s2 =>
        let s3 := r.2.foldl parkLane s2
        let s4 := leave.foldl (fun s x => match dest x with
          | some (o, q) => Hops.depart (Mem.foundOwner s x.1 x.2 q) x.1 o true (ea (tidGid x.1) x.2)
          | none => s) s3
        Ops.advance (Ops.send s4 (leave.map Prod.fst)) (c.tids.filter (fun t => !act.contains t))

/-! ### Loads -/

/-- The words that n bytes at a physical address touch. -/
def wordSpan (pa n : Nat) : List Nat := (List.range ((pa + n + 3) / 4 - pa / 4)).map (pa / 4 + ·)

/-- The bytes of word w that n bytes at pa take. -/
def spanMask (pa n w : Nat) : BitVec 4 :=
  let lo := max pa (4 * w)
  let hi := min (pa + n) (4 * w + 4)
  Mem.byteMask (lo - 4 * w) (hi - lo)

/-- The words of a value held little-endian in bytes, from a byte offset within the first word. -/
def padWords (off : Nat) (b : List Byte) : List Word :=
  let all := List.replicate off (0 : Byte) ++ b ++ List.replicate ((4 - (off + b.length) % 4) % 4) 0
  (List.range (all.length / 4)).map (fun i => BitVec.ofNat 32 (Mem.ofBytes ((all.drop (4 * i)).take 4)))

/-- The parts of a load of n bytes: words that the L1 gives now, and words to be read at their home; none where the lane waits
for another thread's registration (R133). -/
def loadParts (s : State) (core : Nat) (l : Lane) (n : Nat) : Option (List MemPart) :=
  match l.a.tgt with
  | .cached pa => (wordSpan pa n).mapM (fun w =>
      match Mem.l1Read s core l.tid w (spanMask pa n w) with
      | .hit v => some { word := w, ea := l.a.ea, val := some v }
      | .miss => some { word := w, ea := l.a.ea, val := none }
      | .wait => none)
  | tgt => some ((padWords (l.a.ea.toNat % 4) (Mem.readAt s tgt n)).map (fun v => { word := 0, ea := l.a.ea, val := some v }))

/-- The results of a load from its parts, once every part has its value. -/
def finish (kind : LongKind) (parts : List MemPart) : Option (List Word) :=
  match parts.mapM MemPart.val with
  | none => none
  | some ws =>
    match kind with
    | .load off sz sgn =>
      let x := Mem.ofBytes (ws.flatMap (fun w => Mem.toBytes 4 w.toNat)) / 256 ^ off
      match sz.toNat with
      | 0 => some [BitVec.ofNat 32 x]
      | 1 => some [BitVec.ofNat 32 x, BitVec.ofNat 32 (x / 2 ^ 32)]
      | 2 => some [if sgn then (BitVec.ofNat 16 x).signExtend 32 else (BitVec.ofNat 16 x).setWidth 32]
      | _ => some [if sgn then (BitVec.ofNat 8 x).signExtend 32 else (BitVec.ofNat 8 x).setWidth 32]
    | .pred n =>
      some ((List.range 32).map (fun i => if n = 0 && i = 0 then 1 else if (ws.headD 0).getLsbD i then 1 else 0))
    | _ => some ws

/-- A load as a long operation of its thread. -/
def loadOp (t : Thread) (inst : Nat) (la : BitVec 4) (arrived : Bool) (kind : LongKind) (dests : List (Nat × Dest))
    (parts : List MemPart) (acq : Bool) (ea : DWord) : LongOp :=
  { id := 0, inst := some inst, left := la.toNat, arrived := arrived, kind := kind, dests := dests, parts := parts, vals := finish kind parts
    flags := 0, acq := acq, pc := t.pc, eas := ea }

/-- An acquire by some lanes on a core: their earlier loads have returned, and the core's S words are gone (R136). -/
def acquire (s : State) (core : Nat) (tids : List Nat) : Option State :=
  if tids.all (Ops.loadsBack s) then some (Ops.acquireCore s core) else none

/-- Count the words that miss (R455). -/
def countMisses (s : State) (core p : Nat) (parts : List MemPart) : State :=
  parts.foldl (fun s x => if x.val.isNone then s.countCore core 3 p else s) s

/-- Whether every word of some parts is known. -/
def known (ps : List MemPart) : Bool := ps.all (fun p => p.val.isSome)

/-- Start loads: each lane goes on, and its operation is open. With LA 0 and every word of every lane known, the results are
written at once. -/
def startLoads (s : State) (core : Nat) (acq : Bool) (ls : List Lane) (n : Nat) (la : BitVec 4)
    (kind : Lane → LongKind) (dests : Lane → List (Nat × Dest)) : Option State :=
  let s1? := if acq then acquire s core (ls.map Lane.tid) else some s
  match s1? with
  | none => none
  | some s1 =>
    match ls.mapM (fun l => (loadParts s1 core l n).map (fun p => (l, p))) with
    | none => none
    | some ops =>
      let (inst, s2) := s1.fresh
      let s3 := Ops.advance s2 (ls.map Lane.tid)
      let now := la == 0 && ops.all (fun x => known x.2)
      some (ops.foldl (fun s x =>
        let s := countMisses s core (s.ctxPart (s.ctxOf x.1.tid)) x.2
        Ops.openLong s x.1.tid (loadOp x.1.t inst la now (kind x.1) (dests x.1) x.2 acq x.1.a.ea)) s3)

/-! ### Stores -/

/-- The words of a store of n bytes: word, mask and value. -/
def storeWords (pa n : Nat) (x : DWord) : List (Nat × BitVec 4 × Word) :=
  if n = 8 then [(pa / 4, 0xF, x.extractLsb' 0 32), (pa / 4 + 1, 0xF, x.extractLsb' 32 32)]
  else [(pa / 4, Mem.byteMask (pa % 4) n, (x.extractLsb' 0 32) <<< (8 * (pa % 4)))]

/-- What the lanes of one instruction write to cached memory: for each word its mask, its value and its writers. The last of the
list wins a byte, and its lanes come by home lane; of two lanes of one number, in two home groups of the cohort, the one whose group
has the larger name counts as the higher (R148). DESIGN CHOICE, log 18. -/
def combineStores (l : List (Nat × Nat × BitVec 4 × Word)) : Tab (BitVec 4 × Word × NSet) :=
  l.foldl (fun m x =>
    let (tid, w, mask, v) := x
    match m.get? w with
    | none => m.set w (mask, v, [tid])
    | some (m0, v0, ts) => m.set w (m0 ||| mask, Mem.merge v0 v mask, NSet.add ts tid)) []

/-- Store for some lanes: cached words into the core's L1, everything else at its place; none where a word's earlier
registration has to wait. -/
def storeAll (s : State) (core : Nat) (ls : List Lane) (n : Nat) (val : Thread → DWord) : Option State :=
  let cached := ls.flatMap (fun l => match l.a.tgt with
    | .cached pa => if l.a.stale then [] else (storeWords pa n (val l.t)).map (fun x => (l.tid, x))
    | _ => [])
  let ws := combineStores cached
  if !ws.all (fun x => Mem.storable s core x.1) then none
  else
    let part := s.ctxPart ((ls.head?.map (fun l => s.ctxOf l.tid)).getD 0)
    let s1 := ws.foldl (fun s x => Mem.storeWord s core part x.2.2.2 x.1 x.2.2.1 x.2.1) s
    let s2 := ls.foldl (fun s l => match l.a.tgt with
      | .cached _ => s
      | tgt => Mem.writeAt s part l.a.stale tgt (Mem.toBytes n (val l.t).toNat)) s1
    some s2

/-- Perform the stores of some lanes, which go on. -/
def performStores (s : State) (core : Nat) (ls : List Lane) (n : Nat) (val : Thread → DWord) : Option State :=
  (storeAll s core ls n val).map (fun s => Ops.advance s (ls.map Lane.tid))

/-! ### Atomics (R149, R156) -/

/-- The new value of an atomic and its flags; a `cas` that fails gives none. -/
def atomOp (op : Nat) (w64 : Bool) (old src cmp : DWord) : Option DWord × Flags.Fl :=
  let trim (x : DWord) : DWord := if w64 then x else (x.setWidth 32).setWidth 64
  let o := trim old
  let x := trim src
  let si (v : DWord) : Int := if w64 then v.toInt else ((v.setWidth 32 : Word)).toInt
  match op with
  | 0 => (some (trim (o + x)), 0)
  | 1 => (some (trim (o - x)), 0)
  | 2 => (some (if si o ≤ si x then o else x), 0)
  | 3 => (some (if si o ≤ si x then x else o), 0)
  | 4 => (some (if o.toNat ≤ x.toNat then o else x), 0)
  | 5 => (some (if o.toNat ≤ x.toNat then x else o), 0)
  | 6 => (some (o &&& x), 0)
  | 7 => (some (o ||| x), 0)
  | 8 => (some (o ^^^ x), 0)
  | 9 => (some x, 0)
  | 10 => (if o = trim cmp then some x else none, 0)
  | _ =>
    let r := Flags.addRne (o.setWidth 32) (x.setWidth 32)
    (some (r.1.setWidth 64), r.2)

/-- The value of n bytes. -/
def value (b : List Byte) : DWord := BitVec.ofNat 64 (Mem.ofBytes b)

/-- One atomic at a place that performs it at once: the old value, the flags, and the state. -/
def atomNow (s : State) (core part : Nat) (l : Lane) (op : Nat) (w64 : Bool) (src cmp : DWord) : DWord × Flags.Fl × State :=
  let n := if w64 then 8 else 4
  let s := match l.a.tgt with
    | .cached pa => Mem.serveRange (Mem.dropOwn s core pa n) pa n
    | .host pa => Mem.dropOwn s core pa n
    | _ => s
  let old := match l.a.tgt with
    | .cached pa => value ((List.range n).map (fun i => Mem.homeByte s (pa + i)))
    | tgt => value (Mem.readAt s tgt n)
  let r := atomOp op w64 old src cmp
  (old, r.2, match r.1 with
    | some v => Mem.writeAt s part l.a.stale l.a.tgt (Mem.toBytes n v.toNat)
    | none => s)

/-- Whether an atomic's line is homed on another die, so that the requester must own it (R150). -/
def remote (core : Nat) (l : Lane) : Bool :=
  match l.a.tgt with
  | .cached pa => Mem.homeDie pa != coreDie core
  | _ => false

/-- Whether an atomic or reduction may take effect on cached memory now: the core's own copies can be dropped, and no engine or
other core holds a line that is served at home. -/
def atomReady (s : State) (core : Nat) (atHome : Bool) (l : Lane) (n : Nat) : Bool :=
  match l.a.tgt with
  | .cached pa =>
    (wordSpan pa n).all (fun w => Mem.storable s core w)
      && (!atHome || (!Mem.engineHolds s (pa / 64) && !Mem.exclHeld s core (pa / 64)))
  | .host pa => (wordSpan pa n).all (fun w => Mem.storable s core w)
  | _ => true

/-! ### One access of one thread on its own (the return stack, R220) -/

/-- What an 8-byte access of one thread comes to. -/
inductive Own where
  | fault (tr : Trap)
  | wait (s : State)
  | ok (x : DWord) (s : State)

/-- Load 8 bytes at once: words that miss are read at their home. -/
def load8 (s : State) (core tid : Nat) (t : Thread) (ea : DWord) : Own :=
  match Mem.check s tid t ea 8 .rd none with
  | .error c => .fault (.fault c)
  | .ok a =>
    let l : Lane := { tid := tid, t := t, a := a }
    if a.walk || a.wait || !a.park.isEmpty || acquiring t then .wait (Mem.askFor s a)
    else if Mem.poisoned s core a 8 then .fault (softTrap ea)
    else
      let s := note s l
      match loadParts s core l 8 with
      | none => .wait s
      | some ps =>
        if ps.any (fun p => p.val.isNone && !Mem.servable s core p.word) then .wait s
        else
          let part := s.ctxPart (s.ctxOf tid)
          let r := ps.foldl (fun (r : List Word × State) p =>
            match p.val with
            | some v => (r.1 ++ [v], r.2)
            | none => let x := Mem.readHome r.2 core part p.word; (r.1 ++ [x.1], x.2)) ([], s)
          .ok ((r.1.getD 1 0) ++ (r.1.getD 0 0)) r.2

/-- Store 8 bytes. -/
def store8 (s : State) (core tid : Nat) (t : Thread) (ea x : DWord) : Own :=
  match Mem.check s tid t ea 8 .wr none with
  | .error c => .fault (.fault c)
  | .ok a =>
    if a.wait || !a.park.isEmpty || acquiring t then .wait (Mem.askFor s a)
    else
      let s := note s { tid := tid, t := t, a := a }
      let part := s.ctxPart (s.ctxOf tid)
      match a.tgt with
      | .cached pa =>
        if !(wordSpan pa 8).all (fun w => Mem.storable s core w) then .wait s
        else if a.stale then .ok x s
        else .ok x ((storeWords pa 8 x).foldl (fun s y => Mem.storeWord s core part [tid] y.1 y.2.2 y.2.1) s)
      | tgt => .ok x (Mem.writeAt s part a.stale tgt (Mem.toBytes 8 x.toNat))

end Access

end Sys2Proof.Machine
end

