-- ==== Sys2Proof/Machine/Memory.lean ====
section
/-! DEFINITION. The memory instructions: ld, st, pld, pst, atom, red, the fences, prefl, gath, scat, lds and sts (R151 to R160,
R226). -/

namespace Sys2Proof.Machine

open Sys2Proof

namespace Memory

/-- The bytes of a size code (Table 05.15). -/
def size (sz : BitVec 2) : Nat := [4, 8, 2, 1].getD sz.toNat 4

/-- A register and the next k − 1 as destinations of a lane. -/
def dests (t : Thread) (r : Reg) (k : Nat) : List (Nat × Dest) :=
  (List.range k).filterMap (fun j => (Operands.destOf t (Operands.next r j)).map (fun d => (j, d)))

/-- The 32 predicates of a word, as destinations; q0 is left out (R226). -/
def predDests (n : Nat) : List (Nat × Dest) :=
  (List.range 32).filterMap (fun i => if 32 * n + i = 0 then none else some (i, .p (32 * n + i)))

/-- A predicate word as `pst` stores it: q0 reads 1. -/
def predWord (t : Thread) (n : Nat) : Word :=
  BitVec.ofNat 32 ((List.range 32).foldl (fun m i => if t.q (32 * n + i) then m + 2 ^ i else m) 0)

/-! ### Atomics -/

/-- A lane's atomic waits for exclusive ownership of its line (R150). -/
def queueExcl (s : State) (core part inst : Nat) (l : Access.Lane) (op : BitVec 4) (w64 : Bool) (src cmp : DWord) (id : Nat) :
    State :=
  match l.a.tgt with
  | .cached pa =>
    let e : Excl :=
      { tid := l.tid, core := core, part := part, inst := inst, line := pa / 64, addr := pa, op := op, w64 := w64
        src := src, cmp := cmp, st := .queued, losses := 0, asked := s.nextId }
    { s with excl := s.excl.set id e }
  | _ => s

/-- The long operation of a lane of an atomic. -/
def atomLong (l : Access.Lane) (h : Hdr) (o : AtomOps) (inst : Nat) (arrived : Bool) (old : Option DWord) (fl : Flags.Fl) :
    LongOp :=
  { id := 0, inst := some inst, left := h.la.toNat, arrived := arrived, kind := .excl, dests := dests l.t o.d (if o.w64 then 2 else 1)
    parts := [], vals := old.map (fun x => [x.extractLsb' 0 32, x.extractLsb' 32 32]), flags := fl, acq := o.acq
    pc := l.t.pc, eas := l.a.ea }

/-- Start the atomic of one lane: at its place now, or at the hub for a line of another die. -/
def startAtom (h : Hdr) (o : AtomOps) (core inst : Nat) (held : Bool) (s : State) (l : Access.Lane) (src cmp : DWord) : State :=
  let part := s.ctxPart (s.ctxOf l.tid)
  if Access.remote core l then
    let s := match l.a.tgt with
      | .cached pa => Mem.dropOwn s core pa (if o.w64 then 8 else 4)
      | _ => s
    let s := queueExcl s core part inst l o.op o.w64 src cmp s.nextId
    Ops.openLong s l.tid (atomLong l h o inst false none 0)
  else
    let r := Access.atomNow s core part l o.op.toNat o.w64 src cmp
    Ops.openLong r.2.2 l.tid (atomLong l h o inst (h.la == 0 && !held) (some r.1) r.2.1)

/-- Start the atomics of some lanes; none where one has to wait. -/
def startAtoms (h : Hdr) (o : AtomOps) (core : Nat) (s : State) (ls : List Access.Lane) : Option State :=
  let n := if o.w64 then 8 else 4
  let held := ls.any (Access.remote core)
  let s? := if o.acq then Access.acquire s core (ls.map Access.Lane.tid) else some s
  match s? with
  | none => none
  | some s1 =>
    if !ls.all (fun l => Access.atomReady s1 core (!Access.remote core l) l n) then none
    else
      let val (l : Access.Lane) (r : Reg) : DWord :=
        if o.w64 then Operands.val64 s (tidGid l.tid) l.t r else (Operands.val s (tidGid l.tid) l.t r).setWidth 64
      let (inst, s2) := s1.fresh
      let s3 := Ops.advance s2 (ls.map Access.Lane.tid)
      some (ls.foldl (fun s l => startAtom h o core inst held s l (val l o.c) (val l o.d)) s3)

/-- What is combined into a poisoned word leaves it poisoned (R152): the poison of a scratchpad before a `red` stays. -/
def keepPoison (tgt : Mem.Target) (before after : State) : State :=
  match tgt with
  | .spad c _ => after.modCore c (fun k => { k with spoison := (before.core c).spoison })
  | _ => after

/-- One lane's `red` on cached memory leaves for its slice; on another place it is performed at once (R157). -/
def startRed (core op n : Nat) (s : State) (l : Access.Lane) (x : DWord) : State :=
  let part := s.ctxPart (s.ctxOf l.tid)
  match l.a.tgt with
  | .cached pa =>
    if l.a.stale then s
    else
      let s := Mem.dropOwn s core pa n
      let (id, s) := s.fresh
      { s with reds := s.reds.set id { tid := l.tid, core := core, part := part, word := pa / 4, op := op, val := x } }
  | tgt =>
    let s := match tgt with
      | .host pa => Mem.dropOwn s core pa n
      | _ => s
    let old := Access.value (Mem.readAt s tgt n)
    keepPoison tgt s (Mem.writeAt s part l.a.stale tgt (Mem.toBytes n (Mem.combine op old x).toNat))

/-! ### Fences -/

/-- The effect of a fence on the active lanes (R158). -/
def fence (h : Hdr) (rel acq : Bool) (s : State) : Result := Ops.withCohort s fun c =>
  let act := Ops.active s c h
  if rel && !Ops.allDrained s act then Ops.stall s c.tids
  else if acq && !act.all (Ops.loadsBack s) then Ops.stall s c.tids
  else
    let s1 := if acq && !act.isEmpty then Ops.acquireCore s c.core else s
    Ops.advance s1 c.tids

/-! ### gath and scat (R160) -/

/-- The element at which a lane starts: %pix when the instruction resumes. -/
def start (t : Thread) : Nat := if t.resumed then t.pix else 0

/-- The address of element j. -/
def elemAddr (s : State) (gid : Nat) (t : Thread) (o : GathOps) (j : Nat) : DWord :=
  Operands.val64 s gid t o.base + ((Operands.val s gid t (Operands.next o.idx j)).signExtend 64) <<< o.sh.toNat
    + o.off.signExtend 64

/-- What the elements of a gath have given so far: the words of each lane, by element. -/
abbrev Got := List (Nat × Nat × MemPart)

/-- How far a gath or scat has come. -/
inductive Elems where
  | done (s : State) (got : Got)
  | wait (s : State) (got : Got) (j : Nat)
  | park (s : State) (got : Got) (j : Nat) (lines : List (Nat × Nat))
  | fault (s : State) (got : Got) (j : Nat) (trs : List (Nat × Trap))

/-- Element j of every active lane that has not performed it: its parts for a gath, its stores for a scat. -/
def element (s : State) (c : Cohort) (o : GathOps) (gather : Bool) (ths : List (Nat × Thread)) (j : Nat) (got : Got) : Elems :=
  let ls := ths.filter (fun x => decide (start x.2 ≤ j))
  let r := Access.checkAll s (ls.map (fun x => (x.1, elemAddr s (tidGid x.1) x.2 o j))) 4 (if gather then .rd else .wr) none
  let soft := if gather then Access.poisonTraps s c.core 4 r.2 else []
  if r.2.any (fun l => l.a.walk) then .wait s got j
  else if !r.1.isEmpty then .fault s got j r.1
  else if r.2.any (fun l => l.a.wait) then .wait (r.2.foldl (fun s l => Mem.askFor s l.a) s) got j
  else if r.2.any (fun l => !l.a.park.isEmpty) then .park s got j (r.2.flatMap (fun l => l.a.park))
  else if !soft.isEmpty then .fault (r.2.foldl Access.note s) got j soft
  else
    let s1 := r.2.foldl Access.note s
    if gather then
      match r.2.mapM (fun l => (Access.loadParts s1 c.core l 4).map (fun ps => (l.tid, ps))) with
      | none => .wait s got j
      | some ps => .done s1 (got ++ ps.flatMap (fun x => x.2.map (fun p => (x.1, j, p))))
    else
      let val (t : Thread) : DWord := (Operands.val s 0 t (Operands.next o.d j)).setWidth 64
      match Access.storeAll s1 c.core r.2 4 val with
      | none => .wait s got j
      | some s2 => .done s2 got

/-- Elements j, j + 1, … in order. -/
def elements (c : Cohort) (o : GathOps) (gather : Bool) (ths : List (Nat × Thread)) : Nat → Nat → State → Got → Elems
  | 0, _, s, got => .done s got
  | n + 1, j, s, got =>
    match element s c o gather ths j got with
    | .done s1 g1 => elements c o gather ths n (j + 1) s1 g1
    | r => r

/-- The elements that the lanes have loaded become one long operation each, its shadow as the instruction's own. -/
def openGath (s : State) (o : GathOps) (left : Nat) (arrived : Bool) (got : Got) (ths : List (Nat × Thread)) : State :=
  let (inst, s) := s.fresh
  ths.foldl (fun s x =>
    let mine := got.filter (fun e => e.1 == x.1)
    if mine.isEmpty then s
    else
      let parts := mine.map (fun e => e.2.2)
      let ds := (List.range mine.length).filterMap (fun i =>
        (mine[i]?).bind (fun e => (Operands.destOf x.2 (Operands.next o.d e.2.1)).map (fun d => (i, d))))
      Ops.openLong (Access.countMisses s (Mem.coreOf x.1 x.2) (s.ctxPart (s.ctxOf x.1)) parts) x.1
        { id := 0, inst := some inst, left := left, arrived := arrived && got.all (fun e => e.2.2.val.isSome)
          kind := .gather ((mine.head?.map (fun e => e.2.1)).getD 0), dests := ds, parts := parts
          vals := Access.finish .words parts, flags := 0, acq := false, pc := x.2.pc, eas := 0 }) s

/-- The lanes stop before element j, and resume from it. -/
def holdAt (s : State) (ths : List (Nat × Thread)) (j : Nat) : State :=
  s.mapThreads (ths.map Prod.fst) (fun _ t => { t with pix := max j (start t), resumed := true })

/-- Whether an element of the gath that a lane resumes has not been read: those below the next are complete first (R160, R167). -/
def gathering (t : Thread) : Bool := t.longs.any (fun o => o.pc == t.pc && o.vals.isNone && (match o.kind with
  | .gather _ => true
  | _ => false))

/-- gath and scat. -/
def elementwise (h : Hdr) (o : GathOps) (gather : Bool) (s : State) : Result := Ops.withCohort s fun c =>
  let act := Ops.byLane (Ops.active s c h)
  let ths := act.filterMap (fun tid => (s.thread? tid).map (fun t => (tid, t)))
  if ths.any (fun x => Access.acquiring x.2 || gathering x.2) then Ops.stall s c.tids
  else
    match elements c o gather ths (o.n.toNat + 1) 0 s [] with
    | .done s1 got =>
      let s2 := Ops.advance (s1.mapThreads act (fun _ t => { t with pix := o.n.toNat + 1 })) c.tids
      openGath s2 o h.la.toNat (h.la == 0) got ths
    | .wait s1 got j => Ops.stall (holdAt (openGath s1 o (h.la.toNat + 1) (h.la == 0) got ths) ths j) c.tids
    | .park s1 got j lines =>
      let s2 := holdAt (openGath s1 o (h.la.toNat + 1) (h.la == 0) got ths) ths j
      Ops.advance (s2.mapThreads act (fun _ t => { t with status := .parked lines })) (c.tids.filter (fun t => !act.contains t))
    | .fault s1 got j trs => Mem.takeFaults (holdAt (openGath s1 o (h.la.toNat + 1) (h.la == 0) got ths) ths j) trs

/-! ### lds and sts (R154) -/

/-- One access for each home group: its lead lane's access, and its active lanes. -/
structure Shared where
  gid   : Nat
  lead  : Access.Lane
  lanes : List (Nat × Thread)

/-- Whether an earlier access of another lane of the group to these words is still to be performed; the access counts for
every active lane (R154). DEDUCED, log 93. -/
def others (s : State) (n : Nat) (x : Shared) : Bool :=
  match x.lead.a.tgt with
  | .cached pa => x.lanes.tail.any (fun l => Mem.behind s l.1 l.2 pa n)
  | _ => false

/-- The lanes of a shared access, each with the lead lane's access. -/
def spread (x : Shared) : List Access.Lane := x.lanes.map (fun l => { x.lead with tid := l.1, t := l.2 })

/-- Perform one access for each home group with an active lane, by the group's s-registers. -/
def perGroupAccess (s : State) (c : Cohort) (h : Hdr) (o : LdsOps) (store : Bool)
    (go : State → List Shared → Option State) : State :=
  let act := Ops.byLane (Ops.active s c h)
  let ths := act.filterMap (fun tid => (s.thread? tid).map (fun t => (tid, t)))
  let n := 4 * 2 ^ o.n.toNat
  if ths.any (fun x => Access.acquiring x.2) || (store && o.ord && !Ops.allDrained s act) then Ops.stall s c.tids
  else
    let gs := (Ops.groupsOf act).filterMap (fun gid =>
      let ls := ths.filter (fun x => tidGid x.1 == gid)
      ls.head?.map (fun x => (gid, x, ls)))
    let acc : Mem.Acc := if store then .wr else .rd
    let res := gs.map (fun g => (g, Mem.check s g.2.1.1 g.2.1.2 (Operands.addr s g.1 g.2.1.2 o.addr) n acc none))
    let bad := res.flatMap (fun x => match x.2 with
      | .error e => x.1.2.2.map (fun l => (l.1, Trap.fault e))
      | .ok _ => [])
    let ok := res.filterMap (fun x => match x.2 with
      | .error _ => none
      | .ok a => some ({ gid := x.1.1, lead := { tid := x.1.2.1.1, t := x.1.2.1.2, a := a }, lanes := x.1.2.2 } : Shared))
    let here := ok.filter (fun x => x.lead.a.park.isEmpty)
    let soft := if store then [] else Access.poisonTraps s c.core n (here.map Shared.lead)
    if ok.any (fun x => x.lead.a.walk) then Ops.stall s c.tids
    else if !bad.isEmpty then Mem.takeFaults s bad
    else if ok.any (fun x => x.lead.a.wait || others s n x) then
      Ops.stall (ok.foldl (fun s x => Mem.askFor s x.lead.a) s) c.tids
    else if !soft.isEmpty then Ops.takeTraps (ok.foldl (fun s x => Access.note s x.lead) s) soft
    else
      let s1 := ok.foldl (fun s x => Access.note s x.lead) s
      match go s1 here with
      | none => Ops.stall s c.tids
      | some s2 =>
        let s3 := ok.foldl (fun s x => (spread x).foldl Access.parkLane s) s2
        Ops.advance s3 (c.tids.filter (fun t => !act.contains t))

/-- Writes in ascending order of their home lanes (R148). -/
def byHomeLane (l : List (Nat × Nat × BitVec 4 × Word)) : List (Nat × Nat × BitVec 4 × Word) :=
  (Ops.byLane (NSet.addAll [] (l.map Prod.fst))).flatMap (fun tid => l.filter (fun x => x.1 == tid))

/-- Store n words for each group: cached words into the core's L1, everything else at its place. A word that several groups
write keeps the value of the highest (R148). -/
def storeShared (core : Nat) (o : LdsOps) (s : State) (gs : List Shared) : Option State :=
  let n := 2 ^ o.n.toNat
  let val (x : Shared) (j : Nat) : Word := Operands.val s x.gid x.lead.t (Operands.next o.d j)
  let cached := gs.flatMap (fun x => match x.lead.a.tgt with
    | .cached pa => if x.lead.a.stale then [] else
        (List.range n).flatMap (fun j => x.lanes.map (fun l => (l.1, pa / 4 + j, (0xF : BitVec 4), val x j)))
    | _ => [])
  let ws := Access.combineStores (byHomeLane cached)
  if !ws.all (fun x => Mem.storable s core x.1) then none
  else
    let part := s.ctxPart ((gs.head?.map (fun x => s.ctxOf x.lead.tid)).getD 0)
    let s1 := ws.foldl (fun s x => Mem.storeWord s core part x.2.2.2 x.1 x.2.2.1 x.2.1) s
    let s2 := gs.foldl (fun s x => match x.lead.a.tgt with
      | .cached _ => s
      | tgt => Mem.writeAt s part x.lead.a.stale tgt ((List.range n).flatMap (fun j => Mem.toBytes 4 (val x j).toNat))) s1
    some (Ops.advance s2 (gs.flatMap (fun x => x.lanes.map Prod.fst)))

end Memory

/-- ld: one value for each lane, sign- or zero-extended (R153). -/
def execLd (h : Hdr) (o : LdOps) (s : State) : Result := Ops.withCohort s fun c =>
  let n := Memory.size o.sz
  Access.perform s c h
    { instr := .ld h o, mig := o.mig, rel := false, n := n, acc := .rd, aop := none, reads := true }
    (fun gid t => Operands.addr s gid t o.addr)
    (fun s ls => Access.startLoads s c.core o.acq ls n h.la (fun l => .load (l.a.ea.toNat % 4) o.sz o.sgn)
      (fun l => Memory.dests l.t o.d (if o.sz = 1 then 2 else 1)))

/-- st: the low bytes of D, or the pair (R153). -/
def execSt (h : Hdr) (o : StOps) (s : State) : Result := Ops.withCohort s fun c =>
  let n := Memory.size o.sz
  let val (t : Thread) : DWord := if o.sz = 1 then Operands.val64 s 0 t o.d else (Operands.val s 0 t o.d).setWidth 64
  Access.perform s c h
    { instr := .st h o, mig := o.mig, rel := o.rel, n := n, acc := .wr, aop := none, reads := false }
    (fun gid t => Operands.addr s gid t o.addr)
    (fun s ls => Access.performStores s c.core ls n val)

/-- pld: a memory word into 32 predicates (R226). -/
def execPld (h : Hdr) (o : PldOps) (s : State) : Result := Ops.withCohort s fun c =>
  Access.perform s c h
    { instr := .pld h o, mig := false, rel := false, n := 4, acc := .rd, aop := none, reads := true }
    (fun gid t => Operands.addr s gid t o.addr)
    (fun s ls => Access.startLoads s c.core false ls 4 0 (fun _ => .pred o.n.toNat) (fun _ => Memory.predDests o.n.toNat))

/-- pst: 32 predicates into a memory word (R226). -/
def execPst (h : Hdr) (o : PldOps) (s : State) : Result := Ops.withCohort s fun c =>
  Access.perform s c h
    { instr := .pst h o, mig := false, rel := false, n := 4, acc := .wr, aop := none, reads := false }
    (fun gid t => Operands.addr s gid t o.addr)
    (fun s ls => Access.performStores s c.core ls 4 (fun t => (Memory.predWord t o.n.toNat).setWidth 64))

/-- atom: read, modify and write one word or doubleword, and return the old value (R155, R156). -/
def execAtom (h : Hdr) (o : AtomOps) (s : State) : Result := Ops.withCohort s fun c =>
  Access.perform s c h
    { instr := .atom h o, mig := o.mig, rel := o.rel, n := if o.w64 then 8 else 4, acc := .atom, aop := some (false, o.op.toNat)
      reads := true }
    (fun gid t => Operands.addr20 s gid t o.addr)
    (fun s ls => Memory.startAtoms h o c.core s ls)

/-- red: combine a value into memory (R157). -/
def execRed (h : Hdr) (o : RedOps) (s : State) : Result := Ops.withCohort s fun c =>
  let n := if o.op = 1 then 8 else 4
  let val (l : Access.Lane) : DWord :=
    if o.op = 1 then Operands.val64 s (tidGid l.tid) l.t o.d else (Operands.val s (tidGid l.tid) l.t o.d).setWidth 64
  Access.perform s c h
    { instr := .red h o, mig := o.mig, rel := o.rel, n := n, acc := .wr, aop := some (true, o.op.toNat), reads := false }
    (fun gid t => Operands.addr20 s gid t o.addr)
    (fun s ls =>
      if !ls.all (fun l => Access.atomReady s c.core false l n) then none
      else some (Ops.advance (ls.foldl (fun s l => Memory.startRed c.core o.op.toNat n s l (val l)) s) (ls.map Access.Lane.tid)))

/-- fence: a release, then an acquire (R158). -/
def execFence (h : Hdr) (s : State) : Result := Memory.fence h true true s

/-- fence.acq: an acquire (R158). -/
def execFenceAcq (h : Hdr) (s : State) : Result := Memory.fence h false true s

/-- fence.rel: a release (R158). -/
def execFenceRel (h : Hdr) (s : State) : Result := Memory.fence h true false s

/-- prefl: fill the line into the core's L1, or into its home slice alone; dropped where a check fails or the line is held
(R159). -/
def execPrefl (h : Hdr) (addr : Addr) (llc : Bool) (s : State) : Result := Ops.withCohort s fun c =>
  let act := Ops.active s c h
  let s1 := act.foldl (fun st tid =>
    match s.thread? tid with
    | none => st
    | some t =>
      match Mem.check st tid t (Operands.addr s (tidGid tid) t addr) 1 .rd none with
      | .ok a =>
        match a.tgt with
        | .cached pa =>
          if a.wait || a.stale || !Mem.servable st c.core (pa / 4) then st
          else
            let part := st.ctxPart (st.ctxOf tid)
            let st := Access.note st { tid := tid, t := t, a := a }
            if llc then Mem.fill st part (pa / 64) else (Mem.readHome st c.core part (pa / 4)).2
        | _ => st
      | .error _ => st) s
  Ops.advance s1 c.tids

/-- gath: up to eight independent words for each lane (R160). -/
def execGath (h : Hdr) (o : GathOps) (s : State) : Result := Memory.elementwise h o true s

/-- scat: up to eight independent stores for each lane (R160). -/
def execScat (h : Hdr) (o : GathOps) (s : State) : Result := Memory.elementwise h o false s

/-- lds: 1 to 8 words into the group's s-registers (R154). The lowest active lane carries the destinations; the access counts
for every active lane. -/
def execLds (h : Hdr) (o : LdsOps) (s : State) : Result := Ops.withCohort s fun c =>
  let n := 2 ^ o.n.toNat
  Memory.perGroupAccess s c h o false (fun s gs =>
    let leads := gs.map (fun x => x.lead.tid)
    Access.startLoads s c.core o.ord (gs.flatMap Memory.spread) (4 * n) h.la (fun _ => .words)
      (fun l => if leads.contains l.tid then Memory.dests l.t o.d n else []))

/-- sts: 1 to 8 words from the group's s-registers (R154). -/
def execSts (h : Hdr) (o : LdsOps) (s : State) : Result := Ops.withCohort s fun c =>
  Memory.perGroupAccess s c h o true (Memory.storeShared c.core o)

end Sys2Proof.Machine
end

