-- ==== Sys2Proof/Machine/Coherence.lean ====
section
/-! DEFINITION. Events of the caches, the homes and the hub: registrations, reads at the home, recalls, evictions, reduce
state, exclusive ownership, and the arrival of results (R128 to R150, R50). -/

namespace Sys2Proof.Machine

open Sys2Proof

namespace Coherence

/-- The line of a word. -/
def lineOf (w : Nat) : Nat := w / 16

/-- The cross-die atomics that hold a line lose it: each waits 64 × 2^k cycles, k its consecutive losses, capped at 6 (R150). The lanes of
one instruction that target it lose and wait together (R148). DEDUCED, log 31. -/
def lose (s : State) (line : Nat) : State :=
  { s with
    exclTill := s.exclTill.erase line
    excl := s.excl.update (fun _ => true) (fun _ e =>
      if e.line = line && e.st == ExclState.held then
        let k := e.losses + 1
        let wait := (64 * 2 ^ min k 6 * 10 + coreClock (s.core e.core).point - 1) / coreClock (s.core e.core).point
        { e with st := .backoff (s.now + wait), losses := k }
      else e) }

/-- Whether a line may be taken from the core that holds it exclusively: its 64 core cycles have passed (R150). -/
def mayTake (s : State) (line : Nat) : Bool := (Mem.holder s line).isNone

/-- Whether a cross-die atomic holds a line. -/
def held (s : State) (line : Nat) : Bool := s.excl.any (fun e => e.2.line == line && e.2.st == ExclState.held)

/-- Recall the words of a line that cores off its home die own. -/
def recallRemote (s : State) (line : Nat) : State :=
  (List.range 16).foldl (fun s i =>
    let w := 16 * line + i
    match s.owner.get? w with
    | some c => if coreDie c = Mem.homeDie (64 * line) then s else Mem.recallWord s w
    | none => s) s

/-- Combine a value into the partial of a slice and word; the first sets it (R142). -/
def addPartial (r : Reduce) (slice word : Nat) (x : DWord) : Reduce :=
  if r.partials.any (fun p => p.1 == slice && p.2.1 == word) then
    { r with partials := r.partials.map (fun p =>
        if p.1 = slice && p.2.1 == word then (slice, word, Mem.combine r.op p.2.2 x) else p) }
  else { r with partials := r.partials ++ [(slice, word, x)] }

/-- Change one long operation of a thread. -/
def modLong (s : State) (tid op : Nat) (f : LongOp → LongOp) : State :=
  s.modThread tid (fun t => { t with longs := t.longs.map (fun o => if o.id = op then f o else o) })

def long? (s : State) (tid op : Nat) : Option LongOp :=
  (s.thread? tid).bind (fun t => t.longs.find? (fun o => o.id == op))

/-- One cross-die atomic executes in the requester's L1 on the line it holds (R150). -/
def executeHeld (s : State) (id : Nat) (e : Excl) : State :=
  let n := if e.w64 then 2 else 1
  let w := e.addr / 4
  let s := (List.range n).foldl (fun s i => Mem.settleP s e.core (w + i)) s
  let old : DWord := (if e.w64 then Mem.latestWord s (w + 1) else 0) ++ Mem.latestWord s w
  let r := Access.atomOp e.op.toNat e.w64 old e.src e.cmp
  let put (s : State) (i : Nat) (x : Word) : State :=
    let s := Mem.setL1 s e.core (w + i) { st := .O, val := x, mask := 0xF, writers := [], reg := 0, poison := false }
    { s with owner := s.owner.set (w + i) e.core }
  let s := match r.1 with
    | some v =>
      let s := put s 0 (v.extractLsb' 0 32)
      if e.w64 then put s 1 (v.extractLsb' 32 32) else s
    | none => s
  let s := modLong { s with excl := s.excl.erase id } e.tid id (fun o =>
    { o with vals := some [old.extractLsb' 0 32, old.extractLsb' 32 32], flags := o.flags ||| r.2 })
  match long? s e.tid id with
  | some o => if o.acq then Ops.acquireCore s e.core else s
  | none => s

/-! ### Poison found after the issue (R53, R152, R160) -/

/-- The lanes of an instruction instance, with their long operations. -/
def lanesOf (s : State) (inst : Option Nat) : List (Nat × Thread × LongOp) :=
  if inst.isNone then []
  else s.threads.filterMap (fun x => (x.2.longs.find? (fun o => o.inst == inst)).map (fun o => (x.1, x.2, o)))

/-- The element of a part of a long operation: of a gath its element, of any other access 0. -/
def elemOf (o : LongOp) (part : Nat) : Nat :=
  match o.kind with
  | .gather first => first + part
  | _ => 0

/-- Whether a part of some lane of an instance comes before another lane's part, by element and then home lane, and has not been read:
poison there would be the one reported (R152, R160). -/
def earlierUnread (s : State) (tid : Nat) (o : LongOp) (part : Nat) : Bool :=
  (lanesOf s o.inst).any (fun x =>
    (List.range x.2.2.parts.length).any (fun i => ((x.2.2.parts[i]?).map (fun p => p.val.isNone)).getD false
      && (decide (elemOf x.2.2 i < elemOf o part)
        || (elemOf x.2.2 i == elemOf o part && decide (tidLane x.1 < tidLane tid) && tidGid x.1 == tidGid tid))))

/-- A lane goes back to its instruction, as if it had not begun; a gath keeps the elements below the faulting one (R160, R400). -/
def rollBack (t : Thread) (o : LongOp) (elem : Nat) : Thread :=
  match o.kind with
  | .gather first =>
    let n := elem - first
    let o' := { o with parts := o.parts.take n, dests := o.dests.filter (fun d => decide (d.1 < n)) }
    { t with
      pc := o.pc, status := .ready, pix := max elem first, resumed := true
      longs := if n = 0 then t.longs.filter (fun x => x.id ≠ o.id)
        else t.longs.map (fun x => if x.id = o.id then { o' with vals := Access.finish o'.kind o'.parts } else x) }
  | _ => { t with pc := o.pc, status := .ready, longs := t.longs.filter (fun x => x.id ≠ o.id) }

/-- A read of a long operation finds poison. Where a handler or the thread's home will see the fault, no instruction of the shadow has
issued: every such lane of the instruction goes back to it, and the lane traps. Otherwise the group stops, the result stays pending, and
the read is made again after RESUME (R53). DEDUCED, log 34. -/
def poisonFound (s : State) (tid : Nat) (t : Thread) (o : LongOp) (elem : Nat) (ea : DWord) : State :=
  if Issue.precise s tid t then
    let s := (lanesOf s o.inst).foldl (fun s x =>
      if Issue.precise s x.1 x.2.1 then s.setThread x.1 (rollBack x.2.1 x.2.2 elem) else s) s
    Ops.takeTraps s [(tid, Access.softTrap ea)]
  else Ops.takeTraps s [(tid, Access.softTrap ea)]

/-- The first lane, by home lane, of a cross-die atomic's instance whose target word is poisoned. The word of every lane is read before any
lane writes, so none is looked for once a lane has executed (R152). -/
def atomPoison (s : State) (inst : Nat) : Option (Nat × Excl) :=
  if (lanesOf s (some inst)).any (fun x => x.2.2.vals.isSome) then none
  else
    let bad := s.excl.filter (fun e => e.2.inst == inst && (List.range (if e.2.w64 then 2 else 1)).any (fun i =>
      match Mem.l1? s e.2.core (e.2.addr / 4 + i) with
      | some x => x.poison
      | none => Mem.linePoisoned s e.2.line))
    match Ops.byLane (bad.map (fun e => e.2.tid)) with
    | [] => none
    | a :: _ => bad.find? (fun e => e.2.tid == a)

/-- Every lane of an instance whose line is held executes, in ascending home lane order (R148). -/
def executeLine (s : State) (inst line : Nat) : State :=
  let mine := s.excl.filter (fun e => e.2.inst == inst && e.2.line == line && e.2.st == ExclState.held)
  (Ops.byLane (mine.map (fun e => e.2.tid))).foldl (fun s tid =>
    match mine.find? (fun e => e.2.tid == tid) with
    | some e => executeHeld s e.1 e.2
    | none => s) s

/-- The result of a long operation has arrived: held while its shadow is open, else written (R50). The results of one instruction are
written when the last lane's has come (R457). -/
def arrive (s : State) (tid op : Nat) : State :=
  match long? s tid op with
  | none => s
  | some o =>
    if o.vals.isNone || Ops.unread s o.inst then s
    else if o.left = 0 then Ops.landLong s tid { o with arrived := true }
    else modLong s tid op (fun o => { o with arrived := true })

end Coherence

/-- REGISTRATION: the home registers a store and acknowledges (R132); a store to a line that an engine owns or pins waits. -/
def execRegistration (id : Nat) (s : State) : Result := .next <|
  match s.regs.get? id with
  | none => s
  | some r =>
    if Mem.engineHolds s (r.word / 16) || Mem.exclHeld s r.core (r.word / 16) then s else Mem.registerNow s id

/-- REGISTRATION_ACK: the acknowledgement moves the word from P to O (R132). -/
def execRegistrationAck (id : Nat) (s : State) : Result := .next (Mem.ackNow s id)

/-- HOME_READ: a read of an invalid word at its home (R133): merge, recall, and the value; the line is installed. It waits while
an engine owns the line, another core holds it, or its region is scrubbed. An acquiring read follows its own invalidation.
It serves every element of the instruction that names the word. DEDUCED, log 34; DEDUCED, log 93. -/
def execHomeRead (tid op part : Nat) (s : State) : Result := .next <|
  match s.thread? tid, Coherence.long? s tid op with
  | some t, some o =>
    match o.parts[part]? with
    | none => s
    | some p =>
      let core := Mem.coreOf tid t
      if p.val.isSome || !Mem.servable s core p.word || Mem.mustWait s (4 * p.word) then s
      else
        let s := if o.acq then Ops.acquireCore s core else s
        if Mem.linePoisoned s (p.word / 16) then
          if Coherence.earlierUnread s tid o part then s
          else Coherence.poisonFound s tid t o (Coherence.elemOf o part) p.ea
        else
          let r := Mem.readHome s core (s.ctxPart (s.ctxOf tid)) p.word
          let ps := o.parts.map (fun q => if q.val.isNone && q.word == p.word then { q with val := some r.1 } else q)
          Coherence.modLong r.2 tid op (fun o => { o with parts := ps, vals := Access.finish o.kind ps })
  | _, _ => s

/-- RECALL: an owner sends a word's value home and keeps it in S (R134); a cross-die atomic that held the line loses it (R150). -/
def execWordRecall (word : Nat) (s : State) : Result := .next <|
  if (s.owner.get? word).isNone || !Coherence.mayTake s (word / 16) then s else Mem.recallWord (Coherence.lose s (word / 16)) word

/-- L1_EVICTION: owned words go home and copies are dropped; words in P stay until their acknowledgement (R134). A line held
exclusively is not evicted (R150). DESIGN CHOICE, log 14. -/
def execL1Eviction (core line : Nat) (s : State) : Result := .next <|
  if Mem.l1Free s core line then Mem.l1Evict s core line else s

/-- LLC_EVICTION: owned words are recalled and reduce state ends, then the line leaves its home slice (R130). It waits for an
engine that owns the line. DESIGN CHOICE, log 14. -/
def execLlcEviction (line : Nat) (s : State) : Result := .next <|
  if Mem.engineOwns s line || !Coherence.mayTake s line then s else Mem.evictHome (Coherence.lose s line) line

/-- DIRECTORY_EVICTION: every word owned off the home die is recalled and every partial of another die merged; S copies stay
(R131). DESIGN CHOICE, log 14. -/
def execDirectoryEviction (line : Nat) (s : State) : Result := .next <|
  if Mem.engineOwns s line || !Coherence.mayTake s line then s
  else Mem.mergeSome (Coherence.recallRemote (Coherence.lose s line) line) line
    (fun slice => coreDie slice != Mem.homeDie (64 * line))

/-- The S copies of words in a core's L1 are forgotten. -/
def Coherence.forget (s : State) (core w n : Nat) : State :=
  s.modCore core (fun x => { x with l1 := x.l1.keep (fun k y => !(decide (w ≤ k) && decide (k < w + n)) || y.st != L1State.S) })

/-- REDUCE_PARTIAL_UPDATE: a `red` reaches its slice (R142, R143): its home holds the line, an owned word is recalled, a
line of another operation is merged, and the operand combines with the slice's partial, which stands in a way of the slice (R129); a slice
whose ways are all locked or gated holds it apart from them. DESIGN CHOICE, log 14. A copy that the issuing core has read since goes, so that its
threads' later reads observe the write (R466). DEDUCED, log 93. -/
def execReducePartialUpdate (id : Nat) (s : State) : Result := .next <|
  match s.reds.get? id with
  | none => s
  | some r =>
    let line := r.word / 16
    if Mem.engineHolds s line || Mem.exclHeld s Config.cores line || Mem.mustWait s (64 * line) then s
    else
      let s := Mem.fill { s with reds := s.reds.erase id } r.part line
      let s := Mem.recallWord s r.word
      let s := if r.op = 1 then Mem.recallWord s (r.word + 1) else s
      let s := Coherence.forget s r.core r.word (if r.op = 1 then 2 else 1)
      let s := match s.reduce.get? line with
        | some x => if x.op = r.op then s else Mem.mergeLine s line
        | none => s
      let new : Bool := match s.reduce.get? line with
        | some x => !x.entries.any (fun e => e.1 == r.core)
        | none => true
      let (way, s) := if new then (Mem.room s r.part r.core (Mem.llcSet line)).getD (16, s) else (16, s)
      let x := (s.reduce.get? line).getD { op := r.op, partials := [], entries := [] }
      let x := if new then { x with entries := x.entries ++ [(r.core, r.part, way)] } else x
      { s with reduce := s.reduce.set line (Coherence.addPartial x r.core (r.word % 16) r.val) }

/-- PARTIAL_EVICTION: a slice's partial is combined into the memory value; others remain (R143). DESIGN CHOICE, log 14. -/
def execPartialEviction (line slice : Nat) (s : State) : Result := .next <|
  if Mem.engineHolds s line then s else Mem.mergeSome s line (fun x => x == slice)

/-- EXCLUSIVE_REQUEST: the hub grants a line to the request that arrived first (R150): the line is merged and recalled, and the
requester owns every word of it, and holds it exclusively for 64 core cycles. -/
def execExclusiveRequest (line : Nat) (s : State) : Result := .next <|
  let queue := s.excl.filter (fun e => e.2.line == line && e.2.st == ExclState.queued)
  let first := queue.foldl (fun (m : Option (Nat × Excl)) e => match m with
    | none => some e
    | some x => if e.2.asked < x.2.asked then some e else some x) none
  match first with
  | none => s
  | some (_, e) =>
    if Coherence.held s line || Mem.exclHeld s e.core line || Mem.engineHolds s line || Mem.mustWait s (64 * line)
      || !Mem.l1Room s e.core line then s
    else
      let s := s.cross (coreDie e.core) 20
      let s := (List.range 16).foldl (fun s i => Mem.settleP s e.core (16 * line + i)) (Mem.mergeLine s line)
      let s := Mem.l1Make (Mem.fill (Mem.recallLine s line) e.part line) e.core line
      let bad := Mem.linePoisoned s line
      let s := (List.range 16).foldl (fun s i =>
        let w := 16 * line + i
        let s := Mem.setL1 s e.core w
          { st := .O, val := Mem.homeWord s w, mask := 0xF, writers := [], reg := 0, poison := bad }
        { s with owner := s.owner.set w e.core }) s
      { s with
        exclTill := s.exclTill.set line (e.core, s.now + (640 + coreClock (s.core e.core).point - 1) / coreClock (s.core e.core).point)
        excl := s.excl.update (fun _ => true) (fun _ x =>
          if x.line = line && x.inst == e.inst && x.st == ExclState.queued then { x with st := .held } else x) }

/-- ATOM_BACKOFF_EXPIRY: the requester asks again (R150). DEDUCED, log 31. -/
def execAtomBackoffExpiry (id : Nat) (s : State) : Result := .next <|
  match s.excl.get? id with
  | none => s
  | some e =>
    match e.st with
    | .backoff till =>
      if till ≤ s.now then
        { s with
          excl := s.excl.update (fun _ => true) (fun _ x =>
            if x.inst = e.inst && x.line == e.line && x.st == e.st then { x with st := .queued, asked := s.nextId } else x)
          nextId := s.nextId + 1 }
      else s
    | _ => s

/-- RESULT_ARRIVAL: a cross-die atomic that holds its line executes, or finds poison; then a result that is known arrives (R50, R457). -/
def execResultArrival (tid op : Nat) (s : State) : Result := .next <|
  match s.excl.get? op with
  | some e =>
    if e.tid = tid && e.st == ExclState.held then
      match Coherence.atomPoison s e.inst with
      | none => Coherence.arrive (Coherence.executeLine s e.inst e.line) tid op
      | some (i, b) => match s.thread? b.tid, Coherence.long? s b.tid i with
        | some t, some o =>
          let u := Coherence.poisonFound s b.tid t o 0 o.eas
          { u with excl := u.excl.keep (fun k x => x.inst != e.inst || (Coherence.long? u x.tid k).isSome) }
        | _, _ => s
    else s
  | none => Coherence.arrive s tid op

/-- SHADOW_END: the result of a long operation whose shadow has ended is written, once it has arrived (R50, R52). -/
def execShadowEnd (tid op : Nat) (s : State) : Result := .next <|
  match Coherence.long? s tid op with
  | none => s
  | some o => if o.left = 0 && o.arrived && o.vals.isSome && !Ops.unread s o.inst then Ops.landLong s tid o else s

/-- INSTRUCTION_FETCH: a core fetches a line for a context, with the checks of R27; a fault shows when a thread issues from the
line. -/
def execInstructionFetch (core ctx va : Nat) (s : State) : Result := .next <|
  match Issue.fetch s core ctx none (BitVec.ofNat 48 va) 0 with
  | .line _ s => s
  | _ => s

end Sys2Proof.Machine
end

