-- ==== Sys2Proof/Machine/Regions.lean ====
section
/-! DEFINITION. Events of translation and of the memory controllers: walks, bursts, the region table and the format windows
(R106 to R126). -/

namespace Sys2Proof.Machine

open Sys2Proof

namespace Regions

/-- A line of the view of a window. -/
def inView (w : Fmtw) (line : Nat) : Bool :=
  decide (w.vbase.toNat ≤ 64 * line) && decide (64 * line < w.vbase.toNat + 4096 * w.vlen.toNat)

/-- The lines that satisfy p and are held, owned or in reduce state. -/
def linesWhere (s : State) (p : Nat → Bool) : NSet :=
  NSet.addAll [] ((s.llc.keys ++ s.owner.keys.map (· / 16) ++ s.reduce.keys).filter p)

/-- Write back and invalidate every line that satisfies p. -/
def flushWhere (s : State) (p : Nat → Bool) : State := (linesWhere s p).foldl Mem.evictHome s

/-- Whether a registration of such a line is in flight, or an engine owns or pins such a line. -/
def busyWhere (s : State) (p : Nat → Bool) : Bool :=
  s.regs.any (fun r => p (r.2.word / 16)) || s.holds.any (fun h => h.own.any p || h.pin.any p)

/-- Two ranges of addresses that share a byte. -/
def meet (a n b m : Nat) : Bool := decide (a < b + m) && decide (b < a + n)

/-- The bytes of a window's mantissa region. -/
def mantissa (w : Fmtw) : Nat := w.vlen.toNat * 512 * w.m.toNat

/-- Whether a write of EN = 1 to window n is accepted (R124). -/
def mayEnable (s : State) (n : Nat) (w : Fmtw) : Bool :=
  let die := n / 16
  let view := 4096 * w.vlen.toNat
  decide (2 ≤ w.m.toNat) && decide (w.m.toNat ≤ 8) && decide (w.part < 24) && w.vlen != 0
    && decide (0x1000000000000 + 2 ^ 46 * die ≤ w.vbase.toNat)
    && decide (w.vbase.toNat + view ≤ 0x1000000000000 + 2 ^ 46 * (die + 1))
    && decide (0x3000000000 * die ≤ w.mbase.toNat)
    && decide (w.mbase.toNat + mantissa w ≤ 0x3000000000 * (die + 1))
    && (List.range ((w.mbase.toNat + mantissa w + 2 ^ 30 - 1) / 2 ^ 30 - w.mbase.toNat / 2 ^ 30)).all (fun i =>
        (s.regions.getD (w.mbase.toNat / 2 ^ 30 + i) Region.reset).owner == w.part)
    && s.fmtw.all (fun x => x.1 == n || !x.2.en ||
        (!meet w.vbase.toNat view x.2.vbase.toNat (4096 * x.2.vlen.toNat)
          && !meet w.mbase.toNat (mantissa w) x.2.mbase.toNat (mantissa x.2)))

/-- Change a window. -/
def modFmtw (s : State) (n : Nat) (f : Fmtw → Fmtw) : State := { s with fmtw := s.fmtw.set n (f (s.fmtw.getD n Fmtw.reset)) }

/-- Whether a line lies in a region. -/
def inRegion (g line : Nat) : Bool := line / 2 ^ 24 == g

end Regions

/-- TLB_MISS_WALK: a miss of a core begins a walk for one page of one context; another core's miss waits for the walk that is in flight,
and misses beyond 64 walks queue (R110). DEDUCED, log 8. -/
def execTlbMissWalk (ctx : Nat) (miss : TlbMiss) (s : State) : Result := .next <|
  let mine (w : Walk) : Bool := w.ctx == ctx && w.page == Mem.page miss.va
  if (s.ctxs.get? ctx).isNone then s
  else if s.walks.any mine then { s with walks := s.walks.map (fun w => if mine w then { w with cores := w.cores.add miss.core } else w) }
  else if 64 ≤ s.walks.length then s
  else { s.countHub 0x102 (s.ctxPart ctx) 1 with walks := s.walks ++ [{ ctx := ctx, page := Mem.page miss.va, cores := [miss.core] }] }

/-- WALK_COMPLETION: a walk has read its tables and installs its translation in the TLBs of the cores that wait for it and of their dies,
or leaves its fault to the access that needs it (R110). It waits while a table entry cannot be read. DEDUCED, log 8. -/
def execWalkCompletion (ctx va : Nat) (s : State) : Result := .next <|
  match s.walks.find? (fun w => w.ctx == ctx && w.page == Mem.page va) with
  | none => s
  | some w =>
    let tabs := Mem.walkTables s ctx w.page
    if tabs.any (fun x => Mem.heldBack s x.2) then s
    else
      let r := Mem.walk s ctx w.page .owner 0
      let e? := match r with
        | .error _ => none
        | .ok (l1, l2) =>
          if (Mem.finalCheck s (s.ctxPart ctx) l2.pa 2 l2.lev .owner 0 0).isNone then some (Mem.entryOf s ctx w.page l1 l2) else none
      let s := Mem.readTables { s with walks := s.walks.erase w } ctx tabs
      match e? with
      | none => s
      | some e => w.cores.foldl (fun s c => Mem.learnCore (Mem.learnDie s c e) c e) s

/-- MEMORY_CONTROLLER_ACCESS: a burst of LPDDR-6 (R115, R121, R122): a write-back of a line that its home holds, or a fill.
`ecc` is what the fill meets: 1 an error that is corrected and counted, 2 one that is not and poisons the line. A fill whose
error is not corrected comes before the read that asks for it. DEDUCED, log 43. -/
def execMemoryControllerAccess (part pa : Nat) (wr : Bool) (ecc : Nat) (s : State) : Result := .next <|
  let line := pa / 64
  if !Mem.isDram pa then s
  else if wr then Mem.writeBack s line
  else if (s.llc.get? line).isSome || !Mem.regionOk s part pa || Mem.mustWait s pa then s
  else
    let s := Mem.fill s part line
    let s := if ecc = 1 then s.countHub 0x104 part 1 else s
    if ecc = 2 && (s.llc.get? line).isSome then { s with poison := s.poison.add line } else s

/-- FORMAT_VIEW_FILL: a view line is expanded from its packed mantissas (R125). -/
def execFormatViewFill (line : Nat) (s : State) : Result := .next <|
  match Mem.fmtwOf s (64 * line) with
  | some (_, w) => if Mem.isView (64 * line) && !w.busy then Mem.fill s w.part line else s
  | none => s

/-- FORMAT_VIEW_WRITEBACK: a dirty view line is narrowed into its packed mantissas (R125). -/
def execFormatViewWriteback (line : Nat) (s : State) : Result := .next <|
  if Mem.isView (64 * line) then Mem.writeBack s line else s

/-- FMTW_ENABLE: a write of EN = 1 enables the window, or is refused with ERR, which says so of the last such write (R123, R124). One while
EN = 1, the flush included, has no effect: it is neither refused nor accepted. DESIGN CHOICE, log 104. -/
def execFmtwEnable (w : Nat) (s : State) : Result := .next <|
  let x := s.fmtw.getD w Fmtw.reset
  if 64 ≤ w || x.en then s
  else if Regions.mayEnable s w x then Regions.modFmtw s w (fun x => { x with en := true, err := false })
  else Regions.modFmtw s w (fun x => { x with err := true })

/-- FMTW_DISABLE: a write of EN = 0 starts the flush of the view (R124). -/
def execFmtwDisable (w : Nat) (s : State) : Result := .next <|
  if (s.fmtw.getD w Fmtw.reset).en then Regions.modFmtw s w (fun x => { x with busy := true }) else s

/-- FMTW_FLUSH_END: every line of the view has been written back, narrowed, and invalidated (R124). -/
def execFmtwFlushEnd (w : Nat) (s : State) : Result := .next <|
  let x := s.fmtw.getD w Fmtw.reset
  if !x.busy || Regions.busyWhere s (Regions.inView x) then s
  else Regions.modFmtw (Regions.flushWhere s (Regions.inView x)) w (fun x => { x with busy := false, en := false })

/-- REGION_ENTRY_WRITE: a change of OWNER, or a set of VALID, writes back and invalidates the region's lines under the old owner
and starts the fill with zeros, whose 4 KiB units no access sees before the fill has reached them (R116, R122); an OWNER of 24 to 31 is
ignored (Table 04.7). -/
def execRegionEntryWrite (g : Nat) (v : BitVec 32) (s : State) : Result := .next <|
  if 768 ≤ g then s
  else
    let old := s.regions.getD g Region.reset
    let o := (v.extractLsb' 8 5).toNat
    let owner := if o < 24 then o else old.owner
    let valid := v.getLsbD 0
    if owner = old.owner && (!valid || old.valid) then
      { s with regions := s.regions.set g { old with valid := valid } }
    else
      let ids := (s.regs.filter (fun r => Regions.inRegion g (r.2.word / 16))).map Prod.fst
      let s := ids.foldl (fun s id => Mem.ackNow (Mem.registerNow s id) id) s
      let s := Regions.flushWhere s (Regions.inRegion g)
      { s with
        regions := s.regions.set g { valid := valid, scrub := some s.now, owner := owner }
        mem := s.mem.keep (fun a _ => a / 2 ^ 30 != g)
        poison := s.poison.filter (fun l => !Regions.inRegion g l)
        poison8 := s.poison8.filter (fun u => u / 2 ^ 27 != g)
        garbled := s.garbled.filter (fun x => x.1 != g)
        regrown := s.regrown.filter (fun b => b / 2 ^ 25 != g) }

/-- REGION_SCRUB_END: 1.8 ms after it began, the fill is complete (R116). -/
def execRegionScrubEnd (g : Nat) (s : State) : Result := .next <|
  let old := s.regions.getD g Region.reset
  match old.scrub with
  | some t => if t + 1800000 ≤ s.now then { s with regions := s.regions.set g { old with scrub := none } } else s
  | none => s

end Sys2Proof.Machine
end

