-- ==== Sys2Proof/Machine/Handles.lean ====
section
/-! DEFINITION. Handles: wait, htest, hcancel, hmov (R230 to R233), and the cancellation of commands. -/

namespace Sys2Proof.Machine

open Sys2Proof

namespace Handles

/-- What the operand of wait, htest and hcancel names (R232, R233). -/
def named (s : State) (gid : Nat) (t : Thread) (a : Reg) : Ops.Resolved :=
  match a with
  | .h h => .handle gid h.val
  | r => Ops.resolve s (((s.group? gid).bind (fun g => s.teams.get? g.team)).map Team.ctx |>.getD 0) (Operands.val s gid t r)

/-- The user trap HANDLE of a token that cannot be resolved. -/
def badToken (tok : Word) : Trap := .vector 7 0x11 (tok.setWidth 64) false

/-- Stages and commits cannot be stopped once started (R341). -/
def stoppable (c : ACmd) : Bool := !(c.started && (c.entry == 3 || c.entry == 4))

/-- Whether hcancel can stop a fabric command (R450). -/
def fabricStops (i : Instr) : Bool :=
  match i with
  | .fput _ _ _ | .fget _ _ _ => true
  | _ => false

/-- Mark a command for cancellation, as its engine chapter gives: a copy stops at a line, a matrix product at a k-step, a layer
at a pass, a put or get at a flit; a matrix command that has not started leaves the queue at once (R287). Launches, signals and
collectives go on. -/
def cancel (s : State) (id : Nat) : State :=
  let s := { s with
    cores := s.cores.update (fun _ => true) (fun _ k =>
      { k with
        copyq := k.copyq.map (fun c => if c.id = id then { c with cancel := true } else c)
        matq := k.matq.map (fun c => if c.id = id then { c with cancel := true } else c) })
    orng := s.orng.update (fun _ => true) (fun _ o =>
      { o with cmds := o.cmds.map (fun c => if c.id = id && stoppable c then { c with cancel := true } else c) })
    fabric := s.fabric.map (fun c => if c.id = id && fabricStops c.instr then { c with cancel := true } else c) }
  match s.cores.findSome? (fun k => (k.2.matq.find? (fun c => c.id == id && !c.started)).map (fun c => (k.1, c))) with
  | some (core, c) => Meets.resettle (Matrix.cancelled s core c)
  | none => s

/-- A read of a handle's status: it blocks while the handle pends, then raises ARRAY by R316, or goes on. -/
def blocking (s : State) (gid h : Nat) (f : Word → Ops.GroupOut) : Ops.GroupOut :=
  let x := Ops.handleOf s gid h
  if x.pend.isSome then .wait s
  else match Ops.arrayTrap gid h x with
    | some tr => .trap s (fun _ => tr)
    | none => f x.status

end Handles

/-- wait: until the named command has completed, then an acquire (R233). -/
def execWait (h : Hdr) (a : Reg) (s : State) : Result := Ops.withCohort s fun c =>
  Ops.perGroup s c h false fun s gid t lanes =>
    let acquire : Ops.GroupOut :=
      if lanes.all (Ops.loadsBack s) then .go (Ops.acquireCore s (gidCore gid)) else .wait s
    match Handles.named s gid t a with
    | .bad tok => .trap s (fun _ => Handles.badToken tok)
    | .complete => acquire
    | .handle g n => Handles.blocking s g n (fun _ => acquire)

/-- htest: whether the named command has completed (R233). -/
def execHtest (h : Hdr) (a : Reg) (p : BitVec 7) (s : State) : Result := Ops.withCohort s fun c =>
  Ops.perGroup s c h false fun s gid t lanes =>
    let put (b : Bool) : Ops.GroupOut := .go (s.mapThreads lanes (fun _ t => Ops.writeQ t p.toNat b))
    match Handles.named s gid t a with
    | .bad tok => .trap s (fun _ => Handles.badToken tok)
    | .complete => put true
    | .handle g n => put (Ops.handleOf s g n).pend.isNone

/-- hcancel: stop a pending command; without effect on a completed one (R233). -/
def execHcancel (h : Hdr) (a : Reg) (s : State) : Result := Ops.withCohort s fun c =>
  Ops.perGroup s c h false fun s gid t _ =>
    match Handles.named s gid t a with
    | .bad tok => .trap s (fun _ => Handles.badToken tok)
    | .complete => .go s
    | .handle g n =>
      match (Ops.handleOf s g n).pend with
      | some id => .go (Handles.cancel s id)
      | none => .go s

/-- hmov: block until completion, then read STATUS; a read that blocked is an acquire (R233, Table 05.3). -/
def execHmov (h : Hdr) (d a : Reg) (s : State) : Result := Ops.withCohort s fun c =>
  Ops.perGroup s c h false fun s gid _ lanes =>
    match d, a with
    | .s d, .h n =>
      let done (s : State) : Ops.GroupOut := .go (s.setS gid d.val (Ops.handleOf s gid n.val).status)
      Ops.readDest s gid n.val lanes fun s => Handles.blocking s gid n.val (fun _ => done s)
    | _, _ => .go s

/-- hmov.tok: read TOKEN at once (R233). -/
def execHmovTok (h : Hdr) (d a : Reg) (s : State) : Result := Ops.withCohort s fun c =>
  Ops.perGroup s c h false fun s gid _ _ =>
    match d, a with
    | .s d, .h n => .go (s.setS gid d.val (Ops.token gid n.val (Ops.handleOf s gid n.val).gen))
    | _, _ => .go s

end Sys2Proof.Machine
end

