-- ==== Sys2Proof/Machine/Fabric.lean ====
section
/-! DEFINITION. The Fevas fabric: coll, fput, fget and fsig, the collective engine's events, and communicators (R444 to R453). -/

namespace Sys2Proof.Machine

open Sys2Proof

namespace Fabric

/-! ### Descriptors (Table 15.7) -/

/-- A 64-bit value of two descriptor words. -/
def dword (l : List Word) (i : Nat) : DWord := l.getD (i + 1) 0 ++ l.getD i 0

/-- What a command asks for. -/
structure Req where
  /-- 0 coll, 1 fput, 2 fget, 3 fsig -/
  form  : Nat
  kind  : Nat
  op    : Nat
  src   : DWord
  dst   : DWord
  roff  : DWord
  /-- LEN in bytes, COUNT, or VALUE -/
  n     : Nat
  cp    : Word
  zero  : Bool

/-- Read a command's request from its descriptor. -/
def reqOf (i : Instr) (l : List Word) : Req :=
  let z := l.getD 6 0 == 0 && l.getD 7 0 == 0
  let n := (l.getD 4 0).toNat
  let cp := l.getD 5 0
  match i with
  | .coll _ _ _ kind op =>
    { form := 0, kind := kind.toNat, op := op.toNat, src := dword l 0, dst := dword l 2, roff := 0, n := n, cp := cp, zero := z }
  | .fput _ _ _ => { form := 1, kind := 0, op := 0, src := dword l 0, dst := 0, roff := dword l 2, n := n, cp := cp, zero := z }
  | .fget _ _ _ => { form := 2, kind := 0, op := 0, src := 0, dst := dword l 0, roff := dword l 2, n := n, cp := cp, zero := z }
  | _ =>
    { form := 3, kind := 0, op := 0, src := 0, dst := 0, roff := dword l 0, n := (l.getD 2 0).toNat, cp := l.getD 3 0, zero := true }

def peer (q : Req) : Nat := (q.cp.extractLsb' 0 12).toNat
def commNo (q : Req) : Nat := (q.cp.extractLsb' 16 8).toNat

/-- The first check of R448. -/
def fieldsOk (q : Req) : Bool :=
  q.zero && q.cp &&& 0xFF00F000#32 == 0#32
    && (if q.form = 0 then decide (1 ≤ q.n) && decide (q.n ≤ 2 ^ 24) else if q.form = 3 then true else decide (q.n ≤ 2 ^ 24))

/-- The first value that is not a multiple of 4 (R448). -/
def misaligned (q : Req) : Option DWord :=
  [q.src, q.dst, q.roff, if q.form = 1 || q.form = 2 then BitVec.ofNat 64 q.n else 0].find? (fun x => x.toNat % 4 != 0)

/-- A communicator whose entry was never written. DESIGN CHOICE, log 66. -/
def noComm : Comm := { valid := false, dead := false, myrank := 0, nrank := 1, wbase := 0, wlen := 0, list := [] }

/-- DEDUCED, log 65. -/
def comm (s : State) (ctx n : Nat) : Comm := ((s.ctxs.get? ctx).map (fun c => c.comms.getD n noComm)).getD noComm

/-- The local bytes that a command reads (R449, R450): address and length. SBUF of a broadcast is ignored but at the root. -/
def source (q : Req) (c : Comm) : DWord × Nat :=
  match q.form with
  | 0 =>
    if q.kind = 2 || q.kind = 4 then (q.src, 4 * q.n * c.nrank)
    else if q.kind = 3 && c.myrank ≠ peer q then (q.src, 0)
    else (q.src, 4 * q.n)
  | 1 => (q.src, q.n)
  | _ => (0, 0)

/-- The local bytes that a command writes. -/
def target (q : Req) (c : Comm) : DWord × Nat :=
  match q.form with
  | 0 => (q.dst, if q.kind = 1 || q.kind = 4 then 4 * q.n * c.nrank else 4 * q.n)
  | 2 => (q.dst, q.n)
  | _ => (0, 0)

/-- The place of local bytes: global memory or the own scratchpad window alone (R448). -/
def place (s : State) (tm : Team) (x : DWord × Nat) : Option Mem.Place :=
  if 0xFF0100000000 ≤ x.1.toNat then none else Engine.place s tm x.1 x.2

/-- The checks of R448. -/
def checks (s : State) (tm : Team) (q : Req) : Option (Thread → Trap) :=
  let c := comm s tm.ctx (commNo q)
  if !fieldsOk q then some Ops.illOp
  else match misaligned q with
    | some a => some (fun _ => Ops.plain 0x12 a)
    | none =>
      let a := source q c
      let b := target q c
      if a.2 ≠ 0 && (place s tm a).isNone then some (fun _ => .fault (Mem.mapFault .rd a.1))
      else if b.2 ≠ 0 && (place s tm b).isNone then some (fun _ => .fault (Mem.mapFault .wr b.1))
      else none

/-! ### Issue -/

/-- The status word (Table 15.5). -/
def status (code : Nat) (canc : Bool) (flags : BitVec 5) (fst : Nat) : Word :=
  BitVec.ofNat 32 (code + (if canc then 256 else 0) + 512 * flags.toNat + 16384 * fst)

/-- The collective engine is an agent of the hub: it has no TLB of a core (R110). -/
abbrev agent : Nat := Config.cores

/-- Free values for the destination bytes of a failed command (R450). -/
def scramble (s : State) (ctx : Nat) (tm : Team) (x : DWord × Nat) : State :=
  if x.2 = 0 then s
  else match place s tm x with
    | some p => Engine.scramble s agent ctx p x.2
    | none => s

/-- Whether the ownership step has to wait for a walk (R110), and what the translations that it uses leave (R423). -/
def walks (s : State) (ctx : Nat) (tm : Team) (x : DWord × Nat) (acc : Mem.Acc) : Bool :=
  x.2 != 0 && (match place s tm x with
    | some p => Engine.walks s agent ctx p x.2 acc
    | none => false)
def use (s : State) (ctx : Nat) (tm : Team) (x : DWord × Nat) (acc : Mem.Acc) : State :=
  if x.2 = 0 then s
  else match place s tm x with
    | some p => Engine.use s agent ctx p x.2 acc
    | none => s

/-- Whether an access of a command to its local bytes has to wait, and the wake of a scratchpad's core that it asks for (R110, R383). -/
def blocked (s : State) (ctx : Nat) (id : Nat) (tm : Team) (x : DWord × Nat) (wr : Bool) : Bool :=
  x.2 != 0 && (match place s tm x with
    | some p => Engine.blocked s agent ctx (some id) p x.2 wr
    | none => false)
def ask (s : State) (tm : Team) (x : DWord × Nat) : State :=
  if x.2 = 0 then s
  else match place s tm x with
    | some p => Engine.ask s p
    | none => s

/-- Whether a command has local bytes homed on a die, or in a scratchpad there (R424). -/
def touches (s : State) (ctx : Nat) (tm : Team) (x : DWord × Nat) (die : Nat) : Bool :=
  x.2 != 0 && (match place s tm x with
    | some p => Engine.onDie s agent ctx p x.2 die
    | none => false)

/-- The lines of a command: owned and pinned. -/
def ownLines (s : State) (ctx : Nat) (tm : Team) (x : DWord × Nat) (acc : Mem.Acc) : NSet :=
  if x.2 = 0 then []
  else match place s tm x with
    | some p => Engine.lines s agent ctx p x.2 acc
    | none => []

/-- The commands in the queue of a VF. -/
def queued (s : State) (vf : Nat) : Nat :=
  (s.fabric.filter (fun c => ((s.ctxs.get? c.ctx).map Ctx.vf) == some vf)).length

/-- Issue a fabric command: checks, waits, the ownership step and the queue; on a communicator that is not valid or dead it
completes at once, and a put or get of no bytes too (R446, R448, R453). DEDUCED, log 65. -/
def issue (s : State) (gid : Nat) (lanes : List Nat) (d : Reg) (i : Instr) (l : List Word) : Ops.GroupOut :=
  let q := reqOf i l
  match s.group? gid, d with
  | some g, .h hr =>
    match s.teams.get? g.team with
    | none => .go s
    | some tm =>
      match checks s tm q with
      | some f => .trap s f
      | none => Ops.readDest s gid hr.val lanes fun s =>
        let (id, s1) := s.fresh
        let c := comm s tm.ctx (commNo q)
        let own := ownLines s tm.ctx tm (target q c) .wr
        let pin := ownLines s tm.ctx tm (source q c) .rd
        if (!c.valid || c.dead) && (walks s tm.ctx tm (target q c) .wr || !Engine.canHold s own []) then .wait s
        else if !c.valid || c.dead then
          let s2 := Ops.issueHandle s1 gid hr.val id false
          .go (Ops.completeCmd (scramble s2 tm.ctx tm (target q c)) id (status 0 false 0 (if c.valid then 1 else 5)))
        else if q.n = 0 && (q.form = 1 || q.form = 2) then
          .go (Ops.completeCmd (Ops.issueHandle s1 gid hr.val id false) id 0)
        else if decide (64 ≤ queued s (((s.ctxs.get? tm.ctx).map Ctx.vf).getD 0)) || walks s tm.ctx tm (target q c) .wr
          || walks s tm.ctx tm (source q c) .rd || !Engine.canHold s own pin then .wait s
        else
          let s1 := use (use s1 tm.ctx tm (target q c) .wr) tm.ctx tm (source q c) .rd
          let s2 := Engine.hold (Ops.issueHandle s1 gid hr.val id false) id (gidCore gid) (s.ctxPart tm.ctx) own pin
          let x : FabCmd :=
            { id := id, ctx := tm.ctx, gid := gid, team := g.team, instr := i, desc := l, comm := commNo q, peer := peer q
              cancel := false }
          .go { s2 with fabric := s2.fabric ++ [x] }
  | _, _ => .go s

/-- Execute a fabric command with a descriptor of n words. -/
def run (h : Hdr) (d a : Reg) (n : Nat) (i : Instr) (s : State) : Result := Ops.withCohort s fun c =>
  Ops.perGroup s c h true fun s gid t lanes =>
    issue s gid lanes d i ((List.range n).map (fun k => Operands.val s gid t (Operands.next a k)))

/-! ### Completion -/

/-- One step of a fold (R450). -/
def foldStep (op : Nat) (a b : Word) : Word × Flags.Fl :=
  match op with
  | 0 => (a + b, 0)
  | 1 => Flags.addRne a b
  | 2 => let r := Flags.minmax Flags.f32 false false true a.toNat b.toNat; (Flags.word r.1, r.2)
  | 3 => let r := Flags.minmax Flags.f32 false false false a.toNat b.toNat; (Flags.word r.1, r.2)
  | 4 => (if a.toInt ≤ b.toInt then b else a, 0)
  | _ => (if a.toInt ≤ b.toInt then a else b, 0)

/-- The fold of one element over the ranks, in ascending order. -/
def foldRanks (op : Nat) : List Word → Word × Flags.Fl
  | [] => (0, 0)
  | v :: r => r.foldl (fun acc x =>
      let y := foldStep op acc.1 x
      (y.1, acc.2 ||| y.2)) (v, 0)

/-- The words of a byte list. -/
def words (b : List Byte) : List Word :=
  (List.range (b.length / 4)).map (fun i => BitVec.ofNat 32 (Mem.ofBytes ((b.drop (4 * i)).take 4)))

def unwords (l : List Word) : List Byte := l.flatMap (fun w => Mem.toBytes 4 w.toNat)

/-- How many words of peers' data a command receives. -/
def needs (q : Req) (c : Comm) : Nat :=
  match q.form with
  | 0 => if q.kind = 3 then (if c.myrank = peer q then 0 else q.n) else q.n * (c.nrank - 1)
  | 2 => q.n / 4
  | _ => 0

/-- DBUF of this rank and the fold's flags, from its own SBUF words and the others' contributions (R450). -/
def result (q : Req) (c : Comm) (mine data : List Word) : List Word × Flags.Fl :=
  let own := if q.kind = 2 || q.kind = 4 then (mine.drop (c.myrank * q.n)).take q.n else mine
  let part (r : Nat) : List Word :=
    if r = c.myrank then own else (data.drop ((if r < c.myrank then r else r - 1) * q.n)).take q.n
  if q.form = 2 then (data, 0)
  else match q.kind with
    | 0 | 2 =>
      let ps := (List.range c.nrank).map part
      let f := (List.range q.n).map (fun i => foldRanks q.op (ps.map (fun p => p.getD i 0)))
      (f.map Prod.fst, f.foldl (fun a x => a ||| x.2) 0)
    | 3 => (if c.myrank = peer q then mine else data, 0)
    | _ => ((List.range c.nrank).flatMap part, 0)

/-- Whether SBUF and DBUF overlap in a way that leaves DBUF undefined (R450). -/
def clash (s : State) (tm : Team) (q : Req) (c : Comm) : Bool :=
  let a := source q c
  let b := target q c
  q.form == 0 && (match place s tm a, place s tm b with
    | some x, some y => Copy.overlaps x a.2 y b.2 && !((q.kind == 0 || q.kind == 3) && q.src == q.dst)
    | _, _ => false)

/-- End a command: it leaves the queue, its lines are released, its handle completes. -/
def finish (s : State) (c : FabCmd) (st : Word) : State :=
  let s := Engine.release { s with fabric := s.fabric.filter (fun x => x.id ≠ c.id) } c.id
  Meets.resettle (Life.complete s c.id st)

/-- End a command that failed: its destination bytes are free values. DEDUCED, log 67. -/
def fail (s : State) (c : FabCmd) (st : Word) : State :=
  let q := reqOf c.instr c.desc
  let s := match s.teams.get? c.team with
    | some tm => scramble s c.ctx tm (target q (comm s c.ctx c.comm))
    | none => s
  finish s c st

/-- A put, get or signal that runs past the peer's window; a rank outside the list has none (R449). DESIGN CHOICE, log 68. -/
def outOfRange (q : Req) (m : Comm) : Bool :=
  q.form != 0 && decide (((m.list[peer q]?).map (fun x => x.2.2.toNat)).getD 0 < q.roff.toNat + (if q.form = 3 then 4 else q.n))

/-- fsig waits for every earlier put and get of its group on the communicator to the peer (R449). -/
def signalWaits (s : State) (c : FabCmd) (q : Req) : Bool :=
  q.form == 3 && (s.fabric.takeWhile (fun x => x.id != c.id)).any (fun x =>
    x.gid == c.gid && x.comm == c.comm && x.peer == c.peer && Handles.fabricStops x.instr)

/-- The success of a command: the source is read, the destination written. -/
def succeed (s : State) (c : FabCmd) (tm : Team) (q : Req) (m : Comm) (data : List Word) : State :=
  let a := source q m
  let b := target q m
  let src := if a.2 = 0 then Except.ok ([], s) else match place s tm a with
    | some p => Engine.read s agent c.ctx p a.2
    | none => Except.error (0x11, s)
  match src with
  | .error e => fail e.2 c (status e.1 false 0 0)
  | .ok (bytes, s1) =>
    if b.2 = 0 then finish s1 c 0
    else
      let r := result q m (words bytes) data
      match place s1 tm b with
      | none => fail s1 c (status 0x11 false 0 0)
      | some p =>
        if clash s1 tm q m then finish (Engine.scramble s1 agent c.ctx p b.2) c (status 0 false r.2 0)
        else match Engine.write s1 agent c.ctx p (unwords r.1) with
          | .error e => fail e.2 c (status e.1 false 0 0)
          | .ok s2 => finish s2 c (status 0 false r.2 0)

/-- The CODEs and the FSTs that a completion may bring (Table 15.5). -/
def legal (q : Req) (r : FabResult) : Bool :=
  [0x00, 0x10, 0x11, 0x12, 0x50, 0x52].contains r.code.toNat && decide (r.fst.toNat ≤ 5) && (r.fst.toNat != 2 || q.form == 0)

/-- Flits sent on a port: how many a command takes beyond its data is not said. DESIGN CHOICE, log 72. -/
def countFlits (s : State) (ctx : Nat) : State := (s.countHub 0x103 (s.ctxPart ctx) (Config.freeChoice s.free)).takeFree 1

/-! ### Communicators (Table 15.6) -/

/-- Read the member list: module, context and window length of each rank, with the state that the reads leave. None where it cannot be
read or is malformed. DEDUCED, log 70. -/
def readList (s : State) (ctx : Nat) (members : DWord) (n : Nat) : Option (List (Nat × Nat × DWord)) × State :=
  match Engine.readGlobal s ctx members (16 * n) with
  | .error e => (none, e.2)
  | .ok (b, s) =>
    let es := (List.range n).map (fun r => (Engine.field b (16 * r) 8, Engine.field b (16 * r + 8) 8))
    (if es.all (fun e => e.1 / 4096 % 16 == 0 && decide (e.1 < 2 ^ 27)) then
      some (es.map (fun e => (e.1 % 4096, e.1 / 65536, BitVec.ofNat 64 e.2)))
    else none, s)

/-- The bytes of an entry. -/
def entryBytes (e : CommEntry) (valid : Bool) : List Byte :=
  Mem.toBytes 8 ((if valid then 1 else 0) + 4 * e.myrank.toNat + 16384 * e.nrankm1.toNat) ++ Mem.toBytes 8 e.members.toNat
    ++ Mem.toBytes 8 e.wbase.toNat ++ Mem.toBytes 8 e.wlen.toNat

/-- Change the first byte of an entry in memory, where it can be reached. DEDUCED, log 69. -/
def writeEntry (s : State) (ctx n : Nat) (o : Nat) (b : List Byte) : State :=
  match s.ctxs.get? ctx with
  | none => s
  | some c =>
    match Engine.writeGlobal s ctx (c.commbase + BitVec.ofNat 64 (32 * n + o)) b with
    | .ok s => s
    | .error e => e.2

def setComm (s : State) (ctx n : Nat) (x : Comm) : State := s.modCtx ctx (fun c => { c with comms := c.comms.set n x })

/-- Whether an access of the collective engine to a range of a context's window has to wait: for a walk, a fill, a flush, or a line that
an engine holds (R110, R140). -/
def windowWaits (s : State) (ctx : Nat) (ea : DWord) (n : Nat) (wr : Bool) : Bool :=
  n != 0 && Engine.blockedGlobal s ctx ea n wr

end Fabric

/-- coll (R448, R450). -/
def execColl (h : Hdr) (d a : Reg) (kind : BitVec 3) (op : BitVec 4) (s : State) : Result :=
  Fabric.run h d a 8 (.coll h d a kind op) s

/-- fput (R448, R449). -/
def execFput (h : Hdr) (d a : Reg) (s : State) : Result := Fabric.run h d a 8 (.fput h d a) s

/-- fget (R448, R449). -/
def execFget (h : Hdr) (d a : Reg) (s : State) : Result := Fabric.run h d a 8 (.fget h d a) s

/-- fsig (R448, R449). -/
def execFsig (h : Hdr) (d a : Reg) (s : State) : Result := Fabric.run h d a 4 (.fsig h d a) s

/-- FABRIC_COMPLETION: a command completes with what the peers sent (R449, R450). A cancelled put or get stops with CANCELLED; a
range past the peer's window moves nothing. DEDUCED, log 67; DEDUCED, log 73; DESIGN CHOICE, log 91. -/
def execFabricCompletion (id : Nat) (r : FabResult) (s : State) : Result := .next <|
  match s.fabric.find? (fun c => c.id == id) with
  | none => s
  | some c =>
    let q := Fabric.reqOf c.instr c.desc
    let m := Fabric.comm s c.ctx c.comm
    if !Fabric.legal q r || Fabric.signalWaits s c q then s
    else
      if c.cancel then Fabric.fail (Fabric.countFlits s c.ctx) c (Fabric.status 0 true 0 0)
      else if r.code = 0 && r.fst = 0 && Fabric.outOfRange q m then Fabric.finish s c (Fabric.status 0 false 0 4)
      else if r.fst = 4 then Fabric.finish s c (Fabric.status 0 false 0 4)
      else if r.code ≠ 0 || r.fst ≠ 0 then
        Fabric.fail (Fabric.countFlits s c.ctx) c (Fabric.status r.code.toNat false 0 r.fst.toNat)
      else match s.teams.get? c.team with
        | none => s
        | some tm =>
          if r.data.length ≠ Fabric.needs q m then s
          else if Fabric.blocked s c.ctx id tm (Fabric.source q m) false || Fabric.blocked s c.ctx id tm (Fabric.target q m) true then
            Fabric.ask (Fabric.ask s tm (Fabric.source q m)) tm (Fabric.target q m)
          else Fabric.succeed (Fabric.countFlits s c.ctx) c tm q m r.data

/-- FABRIC_REMOTE_ACCESS: a peer's command accesses the window of a communicator of this module, as an engine and as the context;
nothing happens past WLEN or where a check fails, and no fault is raised (R449). It waits for an engine that holds a line.
DESIGN CHOICE, log 91. -/
def execFabricRemoteAccess (ctx comm : Nat) (off : Nat) (op : RemoteOp) (s : State) : Result := .next <|
  let m := Fabric.comm s ctx comm
  let n := match op with
    | .put b => b.length
    | .get k => k
    | .sig _ => 4
  let ea := m.wbase + BitVec.ofNat 64 off
  let wr := match op with
    | .get _ => false
    | _ => true
  if !m.valid || m.dead || decide (m.wlen.toNat < off + n) || Fabric.windowWaits s ctx ea n wr then s
  else match op with
    | .put b => match Engine.writeGlobal s ctx ea b with
      | .ok s => s
      | .error e => e.2
    | .get k => match Engine.readGlobal s ctx ea k with
      | .ok (_, s) => Fabric.countFlits s ctx
      | .error e => e.2
    | .sig v => match Engine.readGlobal s ctx ea 4 with
      | .ok (b, s1) => match Engine.writeGlobal s1 ctx ea (Mem.toBytes 4 (Mem.ofBytes b + v.toNat)) with
        | .ok s2 => s2
        | .error e => e.2
      | .error e => e.2

/-- COMMUNICATOR_ABORT: every pending command on the communicator completes with ABORTED, and the entry is DEAD (R453).
DEDUCED, log 69. -/
def execCommunicatorAbort (ctx comm : Nat) (s : State) : Result := .next <|
  let m := Fabric.comm s ctx comm
  let s0 := s
  if !m.valid then s
  else
    let s := (s.fabric.filter (fun c => c.ctx == ctx && c.comm == comm)).foldl
      (fun s c => Fabric.fail s c (Fabric.status 0 false 0 1)) s
    let b := 3 + 4 * (m.myrank % 64)
    let at_ := ((s.ctxs.get? ctx).map Ctx.commbase).getD 0 + BitVec.ofNat 64 (32 * comm)
    if Fabric.windowWaits s ctx at_ 1 true then s0
    else Fabric.writeEntry (Fabric.setComm s ctx comm { m with dead := true }) ctx comm 0 (Mem.toBytes 1 b)

/-- FABRIC_UNREACHABLE: commands aimed at a member whose module has no port left complete with UNREACH (R444, R453).
DESIGN CHOICE, log 25; DEDUCED, log 71. -/
def execFabricUnreachable (ctx comm peer : Nat) (s : State) : Result := .next <|
  let m := Fabric.comm s ctx comm
  match m.list[peer]? with
  | none => s
  | some x =>
    let ports := (List.range 18).filter (fun k => (s.route.getD x.1 0).getLsbD k && !s.portsDown.contains k)
    if !ports.isEmpty then s
    else (s.fabric.filter (fun c => c.ctx == ctx && c.comm == comm && (c.peer == peer || (Fabric.reqOf c.instr c.desc).form == 0))).foldl
      (fun s c => Fabric.fail s c (Fabric.status 0 false 0 3)) s

/-- COMMUNICATOR_SETUP: the management processor writes an entry, and loads its member list into the hub; where the list is not
right VALID stays 0 (R446, R447). DESIGN CHOICE, log 13; DEDUCED, log 70. -/
def execCommunicatorSetup (ctx comm : Nat) (e : CommEntry) (s : State) : Result := .next <|
  match s.ctxs.get? ctx with
  | none => s
  | some c =>
    if 256 ≤ comm || Fabric.windowWaits s ctx (c.commbase + BitVec.ofNat 64 (32 * comm)) 32 true
      || Fabric.windowWaits s ctx e.members (16 * (e.nrankm1.toNat + 1)) false then s
    else
      let n := e.nrankm1.toNat + 1
      let me := e.myrank.toNat
      let off : Comm := { valid := false, dead := false, myrank := me, nrank := n, wbase := e.wbase, wlen := e.wlen, list := [] }
      let put (s : State) (x : Comm) : State := Fabric.writeEntry (Fabric.setComm s ctx comm x) ctx comm 0 (Fabric.entryBytes e x.valid)
      if !e.valid || e.nrankm1 = 0 || e.members.toNat % 16 ≠ 0 then put s off
      else match Fabric.readList s ctx e.members n with
        | (none, s) => put s off
        | (some l, s) =>
          if l[me]? = some (Config.moduleNumber.toNat, ctx, e.wlen) then put s { off with valid := true, list := l } else put s off

/-- FEVAS_PORT_DOWN: a port that carries no flit for 100 µs leaves every routing mask (R444). DESIGN CHOICE, log 92. -/
def execFevasPortDown (port : Nat) (s : State) : Result := .next <|
  if port < 18 then { s with portsDown := s.portsDown.add port } else s

end Sys2Proof.Machine
end

