-- ==== Sys2Proof/Machine/Steps.lean ====
section
/-! DEFINITION. Steps with deadlines: dln, dprog, dend and dslack (R385 to R387, R391, R392). -/

namespace Sys2Proof.Machine

open Sys2Proof

namespace Steps

/-- C: the core cycles since the step opened (R385). -/
def clocks (x : Step) : Nat := x.cycles / 20

/-- The remaining core cycles of a step (R387); none when the rate is unknown. -/
def remaining (x : Step) : Option Nat :=
  if x.work ≤ x.done then some 0
  else if x.done = 0 then none
  else some (((x.work - x.done) * clocks x + x.done - 1) / x.done)

/-- A step opened by a group at a time (R392). -/
def opened (now ns work gid : Nat) : Step :=
  { deadline := now + ns, work := work, done := 0, cycles := 0, owner := gid, risk := false }

/-- Change the step of a group's team. -/
def modStep (s : State) (gid : Nat) (f : Option Step → Option Step) : State :=
  match s.group? gid with
  | none => s
  | some g => s.modTeam g.team (fun tm => { tm with step := f tm.step })

/-- The step of a group's team, and the clock of its core. -/
def stepOf (s : State) (gid : Nat) : Option Step := ((s.group? gid).bind (fun g => s.teams.get? g.team)).bind Team.step

/-- The slack that dslack returns. -/
def slack (s : State) (gid : Nat) : Word :=
  match stepOf s gid with
  | none => 0x7FFFFFFF
  | some x =>
    let left : Int := (x.deadline : Int) - s.now
    let f := coreClock (s.core (gidCore gid)).point
    let v : Int := match remaining x with
      | none => left
      | some r => left - ((r * 10 + f - 1) / f : Nat)
    BitVec.ofInt 32 (max (-(2 ^ 31)) (min (2 ^ 31 - 1) v))

end Steps

/-- dln: open the team's step, if none is open (R392). -/
def execDln (h : Hdr) (ns : Src) (b : Reg) (s : State) : Result := Ops.withCohort s fun c =>
  Ops.perGroup s c h false fun s gid t _ =>
    let n := Operands.src s gid t ns
    if n = 0 then .trap s Ops.illOp
    else .go (Steps.modStep s gid (fun x => x.or (some (Steps.opened s.now n.toNat (Operands.val s gid t b).toNat gid))))

/-- dprog: add to the done count of the open step (R392). -/
def execDprog (h : Hdr) (n : Src) (s : State) : Result := Ops.withCohort s fun c =>
  Ops.perGroup s c h false fun s gid t _ =>
    .go (Steps.modStep s gid (fun x => x.map (fun x =>
      { x with done := min (x.done + (Operands.src s gid t n).toNat) (2 ^ 32 - 1) })))

/-- dend: close the open step (R392). -/
def execDend (h : Hdr) (s : State) : Result := Ops.withCohort s fun c =>
  Ops.perGroup s c h false fun s gid _ _ => .go (Steps.modStep s gid (fun _ => none))

/-- dslack: the slack of the open step in ns (R392). -/
def execDslack (h : Hdr) (a : Reg) (s : State) : Result := Ops.withCohort s fun c =>
  Ops.perGroup s c h false fun s gid _ _ =>
    match a with
    | .s i => .go (s.setS gid i.val (Steps.slack s gid))
    | _ => .go s

end Sys2Proof.Machine
end

