-- ==== Sys2Proof/Machine/Tasks.lean ====
section
/-! DEFINITION. Task records, their pool and deques, dependency counters, and the issue of launch (R351, R370 to R378). -/

namespace Sys2Proof.Machine

open Sys2Proof

namespace Tasks

/-- Records of a partition's pool (R370). -/
abbrev poolSize : Nat := 16384

/-- Bits of a record. -/
def word (r : List Word) (i : Nat) : Nat := (r.getD i 0).toNat
def waitDc (r : List Word) : Nat := word r 4 % 65536
def doneDc (r : List Word) : Nat := word r 4 / 65536
def prio (r : List Word) : Nat := word r 5 % 8
def dclass (r : List Word) : Nat := word r 5 / 256 % 256
def nclus (r : List Word) : Nat := word r 6 % 2 ^ 24
def kdesc (r : List Word) : DWord := r.getD 1 0 ++ r.getD 0 0
def arg (r : List Word) : DWord := r.getD 3 0 ++ r.getD 2 0

/-- Whether queue q of a partition is a launch queue (Table 12.9). -/
def launchQueue (p : Part) (q : Nat) : Bool := p.tqcfg.getLsbD q

/-- A record whose reserved fields or HOME are nonzero, or without a cluster in a launch queue (R373). -/
def malformed (p : Part) (r : List Word) : Bool :=
  word r 5 / 8 % 32 != 0 || word r 5 / 65536 != 0 || word r 6 / 2 ^ 24 != 0 || word r 7 != 0
    || (launchQueue p (prio r) && nclus r == 0)

/-- A record that is runnable enters the tail of its deque (R375); its queue is a launch queue as TQCFG says then (R370). -/
def runnable (p : Part) (t : Task) : Task := { t with waits := false, launches := launchQueue p (prio t.words) }

/-- Every record waiting on a counter becomes runnable, in the order of enqueuing (R375, R377). -/
def releaseOn (p : Part) (c : Nat) : Part :=
  let mine (t : Task) : Bool := t.waits && waitDc t.words == c
  { p with tasks := p.tasks.filter (fun t => !mine t) ++ (p.tasks.filter mine).map (runnable p) }

/-- dcdec on an allocated counter (R377): none when the amount exceeds the value. -/
def dec (p : Part) (c amt : Nat) : Option Part :=
  match p.counters.get? c with
  | none => none
  | some v =>
    if v.toNat < amt then none
    else
      let q := { p with counters := p.counters.set c (v - BitVec.ofNat 32 amt) }
      some (if amt ≠ 0 && v.toNat == amt then releaseOn q c else q)

/-- The lowest free slot other than 0xFFFF. -/
def freeSlot (t : Tab Word) : Option Nat := (List.range (t.length + 1)).find? (fun c => (t.get? c).isNone && decide (c < 0xFFFF))

/-- The context of a group. -/
def ctxOf (s : State) (gid : Nat) : Nat := (((s.group? gid).bind (fun g => s.teams.get? g.team)).map Team.ctx).getD 0

/-- The partition of a group. -/
def partOf (s : State) (gid : Nat) : Nat := s.ctxPart (ctxOf s gid)

/-- A free 64-bit value: %eaddr of a fault for which no rule gives it. DESIGN CHOICE, log 4; DESIGN CHOICE, log 41. -/
def openValue (n : Nat) : DWord := Config.freeWord (n + 1) ++ Config.freeWord n

/-- DC_UNDERFLOW with a subcode. DESIGN CHOICE, log 41. -/
def counterFault (s : State) (sub : Nat) : Ops.GroupOut :=
  .trap (s.takeFree 2) (fun _ => .fault { code := 0x40, sub := sub, eaddr := openValue s.free, syn := 0, gpa := 0 })

/-- The counter that an operand names in a partition (R372). -/
def counterOf (p : Part) (w : Word) : Option (Nat × Word) :=
  if w.toNat < 65536 then (p.counters.get? w.toNat).map (fun v => (w.toNat, v)) else none

/-- Run an operation on the counter that an operand names. -/
def withCounter (s : State) (gid : Nat) (w : Word) (f : Part → Nat → Word → Ops.GroupOut) : Ops.GroupOut :=
  let p := s.part (partOf s gid)
  match counterOf p w with
  | none => counterFault s 2
  | some (c, v) => f p c v

/-- A record leaves its deque: the launch deques of its home may be empty from now on (R376). -/
def noteEmpty (p : Part) (home now : Nat) : Part :=
  if p.tasks.any (fun t => t.launches && !t.waits && t.home == home) then p
  else { p with emptyFrom := p.emptyFrom.set home now }

/-- Take the record at a place of the pool. -/
def takeAt (p : Part) (i now : Nat) : Part :=
  match p.tasks[i]? with
  | none => p
  | some t =>
    let p := { p with tasks := p.tasks.eraseIdx i }
    if t.launches then noteEmpty p t.home now else p

/-- The places, in a pool, of the records of one deque, head first. -/
def deque (p : Part) (q home : Nat) (launches : Bool) : List Nat :=
  (List.range p.tasks.length).filter (fun i => match p.tasks[i]? with
    | some t => !t.waits && t.launches == launches && prio t.words == q && t.home == home
    | none => false)

/-- The cores whose deque of a queue holds a record. -/
def holders (p : Part) (q : Nat) (launches : Bool) : NSet :=
  p.tasks.foldl (fun l t => if !t.waits && t.launches == launches && prio t.words == q then NSet.add l t.home else l) []

/-- The nearest of a list of rising core numbers (R13). -/
def nearest (c : Nat) (l : List Nat) : Option Nat :=
  l.foldl (fun (m : Option Nat) x => match m with
    | none => some x
    | some y => if meshDistance c x < meshDistance c y then some x else some y) none

/-- The record that tdeq takes (R374): the head of the own deque, else the tail of the nearest. -/
def pick (p : Part) (q core : Nat) : Option Nat :=
  match deque p q core false with
  | i :: _ => some i
  | [] => (nearest core (holders p q false)).bind (fun c => (deque p q c false).getLast?)

/-- Write a predicate in every active lane. -/
def answer (s : State) (lanes : List Nat) (q : BitVec 7) (b : Bool) : State :=
  s.mapThreads lanes (fun _ t => Ops.writeQ t q.toNat b)

/-- Write a predicate, if the form names one. -/
def answer? (s : State) (lanes : List Nat) (q : Option (BitVec 7)) (b : Bool) : State :=
  match q with
  | none => s
  | some q => answer s lanes q b

end Tasks

/-- tenq and tenq.try (R373). -/
def execTenq (h : Hdr) (a : Reg) (try_ : Option (BitVec 7)) (s : State) : Result := Ops.withCohort s fun c =>
  Ops.perGroup s c h true fun s gid t lanes =>
    let r := (List.range 8).map (fun i => Operands.val s gid t (Operands.next a i))
    let n := Tasks.partOf s gid
    let p := s.part n
    let unknown (c : Nat) : Bool := c != 0xFFFF && (p.counters.get? c).isNone
    if Tasks.malformed p r then .trap s Ops.illOp
    else if unknown (Tasks.waitDc r) || unknown (Tasks.doneDc r) then Tasks.counterFault s 2
    else if Tasks.poolSize ≤ p.tasks.length then
      match try_ with
      | some q => .go (Tasks.answer s lanes q false)
      | none => .trap (s.takeFree 2) (fun _ => Ops.plain 0x41 (Tasks.openValue s.free))
    else
      let task : Task :=
        { words := r.take 7 ++ [BitVec.ofNat 32 (gidCore gid)], ctx := Tasks.ctxOf s gid, home := gidCore gid, waits := true
          launches := false }
      let now := Tasks.waitDc r == 0xFFFF || p.counters.get? (Tasks.waitDc r) == some 0
      let q := { p with tasks := p.tasks ++ [if now then Tasks.runnable p task else task] }
      .go (Tasks.answer? (s.setPart n q) lanes try_ true)

/-- tdeq: a release at issue (Table 05.3), and an acquire where it returns a record (R374, R378). -/
def execTdeq (h : Hdr) (a : Reg) (p : BitVec 7) (q : BitVec 3) (s : State) : Result := Ops.withCohort s fun c =>
  Ops.perGroup s c h true fun s gid _ lanes =>
    let n := Tasks.partOf s gid
    let x := s.part n
    if Tasks.launchQueue x q.toNat then .trap s Ops.illOp
    else match Tasks.pick x q.toNat (gidCore gid) with
      | none => .go (Tasks.answer s lanes p true)
      | some i =>
        let words := ((x.tasks[i]?).map Task.words).getD []
        let s := s.setPart n (Tasks.takeAt x i s.now)
        let s := match a with
          | .s b => (List.range 8).foldl (fun s k => s.setS gid (b.val + k) (words.getD k 0)) s
          | _ => s
        .go (Ops.acquireCore (Tasks.answer s lanes p false) (gidCore gid))

/-- dcnew (R377), a release at issue (Table 05.3). -/
def execDcnew (h : Hdr) (a : Reg) (n : Src) (s : State) : Result := Ops.withCohort s fun c =>
  Ops.perGroup s c h true fun s gid t _ =>
    match a with
    | .s d =>
      let p := s.part (Tasks.partOf s gid)
      match Tasks.freeSlot p.counters with
      | none => .go (s.setS gid d.val 0xFFFFFFFF)
      | some c =>
        let s' := s.setPart (Tasks.partOf s gid) { p with counters := p.counters.set c (Operands.src s gid t n) }
        .go (s'.setS gid d.val (BitVec.ofNat 32 c))
    | _ => .go s

/-- dcadd (R377). -/
def execDcadd (h : Hdr) (a : Reg) (n : Src) (s : State) : Result := Ops.withCohort s fun c =>
  Ops.perGroup s c h true fun s gid t _ =>
    Tasks.withCounter s gid (Operands.val s gid t a) fun p c v =>
      let amt := (Operands.src s gid t n).toNat
      if 2 ^ 32 ≤ v.toNat + amt then Tasks.counterFault s 1
      else .go (s.setPart (Tasks.partOf s gid) { p with counters := p.counters.set c (v + BitVec.ofNat 32 amt) })

/-- dcdec (R377). -/
def execDcdec (h : Hdr) (a : Reg) (n : Src) (s : State) : Result := Ops.withCohort s fun c =>
  Ops.perGroup s c h true fun s gid t _ =>
    Tasks.withCounter s gid (Operands.val s gid t a) fun p c _ =>
      match Tasks.dec p c (Operands.src s gid t n).toNat with
      | none => Tasks.counterFault s 0
      | some p => .go (s.setPart (Tasks.partOf s gid) p)

/-- dcrd, a release at issue and an acquire (R377, R378, Table 05.3). -/
def execDcrd (h : Hdr) (a b : Reg) (s : State) : Result := Ops.withCohort s fun c =>
  Ops.perGroup s c h true fun s gid t _ =>
    Tasks.withCounter s gid (Operands.val s gid t b) fun _ _ v =>
      match a with
      | .s d => .go (Ops.acquireCore (s.setS gid d.val v) (gidCore gid))
      | _ => .go (Ops.acquireCore s (gidCore gid))

/-- dcfree (R377). -/
def execDcfree (h : Hdr) (a : Reg) (s : State) : Result := Ops.withCohort s fun c =>
  Ops.perGroup s c h true fun s gid t _ =>
    Tasks.withCounter s gid (Operands.val s gid t a) fun p c _ =>
      let q := Tasks.releaseOn p c
      .go (s.setPart (Tasks.partOf s gid) { q with counters := q.counters.erase c })

/-- launch: the packet goes to the command processor (R351). -/
def execLaunch (h : Hdr) (d a : Reg) (s : State) : Result := Ops.withCohort s fun c =>
  Ops.perGroup s c h true fun s gid t lanes =>
    let ea := Operands.val64 s gid t a
    if 0x800000000000 < ea.toNat + 64 then .trap s (fun _ => .fault (Mem.mapFault .rd ea))
    else if ea.toNat % 64 ≠ 0 then .trap s (fun _ => Ops.plain 0x12 ea)
    else
      let go (s : State) (hr : Option Nat) : Ops.GroupOut :=
        let (id, s) := s.fresh
        let s := match hr with
          | some n => Ops.issueHandle s gid n id false
          | none => s
        .go { s with launchReqs := s.launchReqs.set id { ctx := Tasks.ctxOf s gid, packet := ea, cmd := hr.map (fun _ => id) } }
      match d with
      | .h n => Ops.readDest s gid n.val lanes (fun s => go s (some n.val))
      | _ => go s none

end Sys2Proof.Machine
end

