-- ==== Sys2Proof/Machine/Launch.lean ====
section
/-! DEFINITION. Launches: packets, descriptors and headers, the placement of clusters, the schedulers, and completion (R72 to R74,
R342 to R350, R375, R376, R437). -/

namespace Sys2Proof.Machine

open Sys2Proof

namespace Launch

/-! ### Packets, descriptors and headers -/

/-- What a launch packet, or a task record, asks for (Table 12.2, R376). -/
structure Ask where
  prio   : Nat
  nclus  : Nat
  kdesc  : DWord
  arg    : DWord
  crec   : DWord
  donedc : Nat
  dclass : Nat

/-- The fields of a packet of 64 bytes. -/
def ofPacket (b : List Byte) : Ask :=
  { prio := Engine.field b 0 4 / 256 % 8, nclus := Engine.field b 4 4 % 2 ^ 24, kdesc := BitVec.ofNat 64 (Engine.field b 8 8)
    arg := BitVec.ofNat 64 (Engine.field b 16 8), crec := BitVec.ofNat 64 (Engine.field b 24 8), donedc := Engine.field b 32 2
    dclass := Engine.field b 34 1 }

/-- Whether a packet keeps the limits of Table 12.2. -/
def packetOk (b : List Byte) : Bool :=
  Engine.field b 0 1 == 1 && Engine.field b 0 4 / 2048 == 0 && Engine.field b 7 1 == 0 && Engine.field b 4 3 != 0
    && Engine.field b 8 8 % 64 == 0 && Engine.field b 24 8 % 8 == 0 && Engine.field b 35 1 == 0 && (b.drop 36).all (· == 0)

/-- The launch of a task record (R376). -/
def ofRecord (r : List Word) : Ask :=
  { prio := Tasks.prio r, nclus := Tasks.nclus r, kdesc := Tasks.kdesc r, arg := Tasks.arg r, crec := 0, donedc := Tasks.doneDc r
    dclass := Tasks.dclass r }

/-- Whether a kernel descriptor keeps the limits of Table 12.3. -/
def descOk (b : List Byte) : Bool :=
  Engine.field b 0 8 % 64 == 0 && Engine.field b 8 8 % 8 == 0 && Engine.field b 16 4 % 8 == 0 && (b.drop 20).all (· == 0)

/-- Main-file words of a team (R73). -/
def words (k : Kernel) : Nat := 128 * k.groups * (32 + 32 * k.frames + 2 * k.depth)

/-- A header's fields (Table 02.14). -/
def ofHeader (addr : Nat) (b : List Byte) : Kernel :=
  let w1 := Engine.field b 4 4
  let w4 := Engine.field b 16 4
  { addr := addr, wide := Engine.field b 3 1 % 2 == 1, groups := w1 % 64, cw := w1 / 256 % 16, ch := w1 / 4096 % 8
    wteams := w1 / 65536 % 256, roles := BitVec.ofNat 64 (Engine.field b 8 8), depth := w4 % 64, frames := w4 / 256 % 16
    tiles := w4 / 65536 % 32, spad := 128 * (Engine.field b 20 4 % 8192), dline := Engine.field b 24 4
    dwork := Engine.field b 28 4
    vecs := (List.range 8).map (fun v => BitVec.ofNat 32 (Engine.field b (32 + 4 * v) 4)) }

/-- The role field of a group. -/
def roleBits (k : Kernel) (g : Nat) : Nat := k.roles.toNat / 4 ^ g % 4

/-- The role of a group. -/
def roleOf (k : Kernel) (g : Nat) : Role :=
  match roleBits k g with
  | 0 => .vector
  | 1 => .copy
  | _ => .matrix

/-- The checks of R74. -/
def headerOk (k : Kernel) (b : List Byte) : Bool :=
  let w1 := Engine.field b 4 4
  let w4 := Engine.field b 16 4
  let within (x lo hi : Nat) : Bool := decide (lo ≤ x) && decide (x ≤ hi)
  Engine.field b 0 3 == 0x01A716 && Engine.field b 3 1 / 2 == 0
    && w1 / 64 % 4 == 0 && w1 / 32768 % 2 == 0 && w1 / 2 ^ 24 == 0
    && w4 / 64 % 4 == 0 && w4 / 4096 % 16 == 0 && w4 / 2 ^ 21 == 0 && Engine.field b 20 4 / 8192 == 0
    && within k.groups 1 32 && within k.cw 1 8 && within k.ch 1 6 && within k.frames 1 8 && within k.tiles 0 16
    && within k.spad 0 524288 && within (k.cw * k.ch) 1 12
    && (if k.wide then k.cw == 1 && k.ch == 1 && within k.wteams 2 192 else k.wteams == 0)
    && (List.range 32).all (fun g => if g < k.groups then roleBits k g != 3 else roleBits k g == 0)
    && within (words k) 0 Config.mainWords
    && (k.dline != 0 || k.dwork == 0)
    && k.vecs.all (fun v => decide (v.toNat % 8 < 5))

/-- Teams of one cluster, or of the wide set. -/
def teams (k : Kernel) : Nat := if k.wide then k.wteams else k.cw * k.ch

/-- The cores of the rectangle whose lowest-numbered core is c, in rank order (R101); none when it leaves the die. -/
def rectangle (k : Kernel) (c : Nat) : Option (List Nat) :=
  if coreX c + k.cw ≤ 8 && coreY c + k.ch ≤ 6 then
    some ((List.range k.cw).flatMap (fun x => (List.range k.ch).map (fun y => c + x + 8 * y)))
  else none

/-- Whether the partition's cores, busy or not, could ever take a cluster (R347). -/
def couldFit (s : State) (p : Nat) (k : Kernel) : Bool :=
  if k.wide then decide (k.wteams ≤ ((List.range 192).filter (s.partOwns p)).length)
  else (List.range 192).any (fun c => match rectangle k c with
    | some l => l.all (s.partOwns p)
    | none => false)

/-- Read n bytes at a global address as a context; none while the read has to wait (R110, R140). -/
def readNow (s : State) (ctx : Nat) (ea : DWord) (n : Nat) : Option (Except Engine.Err (List Byte × State)) :=
  if Engine.blockedGlobal s ctx ea n false then none else some (Engine.readGlobal s ctx ea n)

/-- The launch of a header that has been read (R346, R347). -/
def admitHeader (s : State) (ctx : Nat) (a : Ask) (origin cmd : Option Nat) (d b : List Byte) (kaddr : Nat) : Except Nat Grid :=
  let k := ofHeader kaddr b
  if !headerOk k b then .error 1
  else if k.wide && a.nclus ≠ 1 then .error 2
  else if !couldFit s (s.ctxPart ctx) k then .error 3
  else .ok {
    ctx := ctx, nclus := a.nclus, prio := a.prio, arg := a.arg, crec := a.crec, donedc := a.donedc
    dclass := a.dclass, kernel := k, rsbase := BitVec.ofNat 64 (Engine.field d 8 8), rsstr := Engine.field d 16 4
    next := 0, origin := origin, cmd := cmd }

/-- A launch that has passed its checks, or the status that refuses it, with the state that the reads leave (R346, R347,
Table 12.4); none while a read has to wait. -/
def admitLaunch (s : State) (ctx : Nat) (a : Ask) (origin cmd : Option Nat) : Option (Except (Nat × State) (Grid × State)) :=
  if a.nclus = 0 || a.kdesc.toNat % 64 ≠ 0 then some (.error (2, s))
  else (readNow s ctx a.kdesc 64).bind fun r => match r with
    | .error e => some (.error (2, e.2))
    | .ok (d, s) =>
      if !descOk d then some (.error (2, s))
      else
        let kaddr := Engine.field d 0 8
        (readNow s ctx (BitVec.ofNat 64 kaddr) 64).map fun r => match r with
          | .error e => .error (1, e.2)
          | .ok (b, s) => match admitHeader s ctx a origin cmd d b kaddr with
            | .error st => .error (st, s)
            | .ok g => .ok (g, s)

/-! ### Completion (R350) -/

/-- The completion record, or the event that it cannot be written; none while the write has to wait. The write is an agent's, through
the context's translation (R141, R350). -/
def writeRecord (s : State) (ctx : Nat) (crec : DWord) (status : Nat) : Option State :=
  if crec = 0 then some s
  else
    let bad (s : State) : State := Events.ofCtx s ctx 6 0 0 crec.toNat status
    if crec.toNat % 8 ≠ 0 || decide (0x800000000000 < crec.toNat + 8) then some (bad s)
    else if Engine.blockedGlobal s ctx crec 8 true then none
    else match Mem.translate s Config.cores ctx crec.toNat .wr 0 with
      | .error _ => some (bad s)
      | .ok q =>
        if q.stale then some (bad (Mem.translated s Config.cores ctx q))
        else match Engine.writeGlobal s ctx crec (Mem.toBytes 8 status) with
          | .ok s => some s
          | .error e => some (bad e.2)

/-- The record and the handle of a launch that ends with a status. -/
def finish (s : State) (ctx : Nat) (crec : DWord) (cmd : Option Nat) (status : Nat) : Option State :=
  (writeRecord s ctx crec status).map fun s => match cmd with
    | some id => Life.complete s id (BitVec.ofNat 32 status)
    | none => s

/-- A launch arrives at the command processor: it is queued for placement, or refused. -/
def submit (s : State) (ctx : Nat) (a : Ask) (cmd : Option Nat) : Option State :=
  (admitLaunch s ctx a none cmd).bind fun r => match r with
    | .error (st, s) => finish s ctx a.crec cmd st
    | .ok (g, s) =>
      let (id, s) := s.fresh
      some { s with grids := s.grids.set id g }

/-- A packet at an address of a context; none while the processor has to wait for a line. -/
def packet (s : State) (ctx : Nat) (ea : DWord) (cmd : Option Nat) : Option State :=
  (readNow s ctx ea 64).bind fun r => match r with
    | .error e => finish e.2 ctx 0 cmd 2
    | .ok (b, s) =>
      let a := ofPacket b
      if packetOk b then submit s ctx a cmd else finish s ctx a.crec cmd 2

/-- Whether a context is live in a VF (R437). -/
def live (s : State) (vf ctx : Nat) : Bool :=
  match s.ctxs.get? ctx with
  | some c => c.vf == vf && !c.ending
  | none => false

/-- LOG2N of a ring's configuration, when it is legal. -/
def ringSize (cfg : BitVec 32) : Option Nat :=
  let n := cfg.toNat % 32
  if 4 ≤ n && n ≤ 16 then some n else none

/-! ### Resources (R347) -/

/-- The saved contexts that are queued for their places (R418). -/
def queuedImages (s : State) : List Image :=
  s.ctxs.filterMap (fun c => if c.2.phase == Phase.queued then c.2.image else none)

/-- Group slots of a core that are taken. -/
def slotsUsed (s : State) (c : Nat) : NSet :=
  let of (t : Tab Group) : List Nat := (t.filter (fun g => gidCore g.1 == c)).map (fun g => gidSlot g.1)
  (queuedImages s).foldl (fun l i => NSet.addAll l (of i.groups)) (NSet.addAll [] (of s.groups))

/-- Groups of a team whose register words are given away: their stop has been made, and no resumption waits for words. -/
def givenAway (groups : Tab Group) (team : Nat) : Nat :=
  (groups.filter (fun g => g.2.team == team && (match g.2.stop with
    | some x => x.made && !x.resumeAsked
    | none => false))).length

/-- Main-file words of a core that are taken or promised. -/
def wordsUsed (s : State) (c : Nat) : Nat :=
  let of (groups : Tab Group) (t : Nat × Team) : Nat :=
    let k := t.2.kernel
    words k - givenAway groups t.1 * (words k / max k.groups 1)
  let here := s.teams.filter (fun t => t.2.core == c && !Life.teamDone s t.1)
  let queued := (queuedImages s).map (fun i => ((i.teams.filter (fun t => t.2.core == c)).map (of i.groups)).sum)
  (here.map (of s.groups)).sum + queued.sum

/-- Scratchpad ranges of a core that are taken. -/
def spadUsed (s : State) (c : Nat) : List (Nat × Nat) :=
  let of (t : Tab Team) : List (Nat × Nat) :=
    (t.filter (fun x => x.2.core == c)).map (fun x => (x.2.spadBase, x.2.spadBase + x.2.kernel.spad))
  of s.teams ++ (queuedImages s).flatMap (fun i => of i.teams)

/-- Physical tiles of a core that are taken. -/
def tilesUsed (s : State) (c : Nat) : List Nat :=
  let of (t : Tab Team) : List Nat := (t.filter (fun x => x.2.core == c)).flatMap (fun x => x.2.tiles)
  of s.teams ++ (queuedImages s).flatMap (fun i => of i.teams)

/-- The lowest place of n bytes of scratchpad. DESIGN CHOICE, log 40. -/
def spadPlace (used : List (Nat × Nat)) (n : Nat) : Option Nat :=
  let fits (b : Nat) : Bool := decide (b + n ≤ Config.spadBytes)
    && used.all (fun r => decide (b + n ≤ r.1) || decide (r.2 ≤ b))
  (NSet.addAll [0] (used.map Prod.snd)).find? fits

/-- The lowest free slot of the sector with most free slots, ties to the lower sector (R343). -/
def slotFor (used : NSet) : Option Nat :=
  let free (k : Nat) : List Nat := (List.range 8).filterMap (fun i => if used.contains (8 * k + i) then none else some (8 * k + i))
  let best := (List.range 8).foldl (fun m k => if (free m).length < (free k).length then k else m) 0
  (free best).head?

/-- n slots, one after the other. -/
def slots : Nat → NSet → Option (List Nat)
  | 0, _ => some []
  | n + 1, used =>
    match slotFor used with
    | none => none
    | some x => (slots n (NSet.add used x)).map (fun l => x :: l)

/-- What a team takes on a core. -/
structure Seat where
  core  : Nat
  slots : List Nat
  spad  : Nat
  tiles : List Nat
  deriving DecidableEq, Repr

/-- What a team of a kernel would take on a core now. DESIGN CHOICE, log 40. -/
def seat (s : State) (p : Nat) (k : Kernel) (c : Nat) : Option Seat :=
  let tiles := ((List.range 16).filter (fun n => !(tilesUsed s c).contains n)).take k.tiles
  if !s.partOwns p c || s.lost.contains (coreDie c) || tiles.length < k.tiles
    || decide (Config.mainWords < wordsUsed s c + words k) then none
  else match slots k.groups (slotsUsed s c), spadPlace (spadUsed s c) k.spad with
    | some l, some b => some { core := c, slots := l, spad := b, tiles := tiles }
    | _, _ => none

/-- Seats on every core of a list. -/
def seatAll (s : State) (p : Nat) (k : Kernel) (l : List Nat) : Option (List Seat) :=
  l.foldr (fun c r => match seat s p k c, r with
    | some x, some r => some (x :: r)
    | _, _ => none) (some [])

/-- The rectangles that a cluster may take, in order of choice: lowest core first, or nearest to the taking core. -/
def corners (origin : Option Nat) : List Nat :=
  match origin with
  | none => List.range 192
  | some o =>
    (List.range 17).flatMap (fun d => (List.range 192).filter (fun c => meshDistance o c == d))

/-- Seats for the next cluster of a kernel. DESIGN CHOICE, log 40. -/
def seats (s : State) (p : Nat) (k : Kernel) (origin : Option Nat) : Option (List Seat) :=
  if k.wide then
    let l := ((List.range 192).filterMap (seat s p k)).take k.wteams
    if l.length = k.wteams then some l else none
  else (corners origin).findSome? (fun c => (rectangle k c).bind (seatAll s p k))

/-- Whether a context's launches are placed. -/
def placing (s : State) (ctx : Nat) : Bool :=
  match s.ctxs.get? ctx with
  | some c => c.phase == Phase.running && !c.ending
  | none => false

/-- Whether a launch of a priority and arrival is first in its partition (R348). -/
def firstInOrder (s : State) (p prio key : Nat) : Bool :=
  s.grids.all (fun g => g.1 == key || !(decide (g.2.next < g.2.nclus)) || s.ctxPart g.2.ctx != p || !placing s g.2.ctx
    || decide (prio < g.2.prio) || (prio == g.2.prio && decide (key < g.1)))

/-! ### Placing a team (R236, R278, R185, R186, R349) -/

/-- Free values of one thread's registers, and of one group's. -/
abbrev threadFree : Nat := 2 ^ 22
abbrev groupFree : Nat := 1024

/-- Prepare one scratchpad line for a context: bytes of the same context become free values, others zero. -/
def passLine (s : State) (c ctx line : Nat) : State :=
  let k := s.core c
  let base := 128 * line
  let same := k.spadCtx.get? line == some ctx
  let k := { k with
    spad := k.spad.keep (fun o _ => decide (o < base) || decide (base + 128 ≤ o))
    spadUndef := k.spadUndef.filter (fun r => decide (r.1 ≠ base)) ++ (if same then [(base, 128, s.free)] else [])
    absent := k.absent.del line
    spoison := k.spoison.filter (fun w => w / 32 != line || same)
    spadCtx := k.spadCtx.set line ctx }
  (s.setCore c k).takeFree (if same then 128 else 0)

/-- Prepare a scratchpad allocation. -/
def passSpad (s : State) (c ctx base n : Nat) : State :=
  (List.range (n / 128)).foldl (fun s i => passLine s c ctx (base / 128 + i)) s

/-- Prepare one tile for a context. -/
def passTile (s : State) (c ctx n : Nat) : State :=
  let k := s.core c
  let t := k.tiles.getD n Tile.reset
  let other := match k.tileCtx.get? n with
    | some x => x != ctx
    | none => false
  let k := { k with
    tiles := k.tiles.set n (if other then Tile.reset else { t with words := [], undef := some s.free })
    tilePoison := if other then k.tilePoison.del n else k.tilePoison
    tileCtx := k.tileCtx.set n ctx }
  (s.setCore c k).takeFree (if other then 0 else threadFree)

/-- A launched thread: its registers read 0, or free values from a name on, which keep the poison of their words (R236, R238). Its first
instruction will be an acquire (R349). DEDUCED, log 44. -/
def newThread (pc : BitVec 48) (undef : Option Nat) (vpoison : NSet) (rspill : Nat) : Thread where
  status := .ready
  pc := pc
  vregs := []
  vpoison := vpoison
  preds := 0
  ppoison := []
  longs := []
  flags := 0
  trapen := 0
  carryV := 0
  carryQ := false
  epc := 0
  ecause := 0
  eaddr := 0
  pix := 0
  undef := undef
  trapPc := none
  resumed := false
  inH := false
  view := .off
  nres := 1
  nspill := 0
  rsmem := 0
  rstack := []
  rpoison := []
  rspill := BitVec.ofNat 48 rspill
  deadline := none
  visit := none
  hop := none
  stay := false
  fresh := true

/-- A launched group with its four launch words, which the launch writes. DEDUCED, log 44. -/
def newGroup (team index : Nat) (role : Role) (undef : Option Nat) (spoison : NSet) (arg : DWord) (s3 : Nat) : Group where
  team := team
  index := index
  role := role
  sregs := [(0, arg.extractLsb' 0 32), (1, arg.extractLsb' 32 32), (2, BitVec.ofNat 32 index), (3, BitVec.ofNat 32 s3)]
  undef := undef
  spoison := spoison
  hpoison := []
  handles := []
  obuf := []
  xinsts := []
  stop := none

/-- The place of a deadline class's entry (R386). -/
def classAddr (s : State) (p : Nat) (g : Grid) : Nat := (s.part p).dctbase.toNat + 8 * (g.dclass - 1)

/-- Whether the launch has to wait for a line of the deadline-class table (R140, R386). -/
def classWaits (s : State) (p : Nat) (g : Grid) : Bool :=
  let a := classAddr s p g
  g.dclass != 0 && (Mem.heldBack s a || Mem.heldBack s (a + 7))

/-- The step that a launch opens (R73, R349, R386): deadline and work; the hub reads the class's entry, recalling an owned copy (R141).
DEDUCED, log 29. -/
def stepAsk (s : State) (p : Nat) (g : Grid) : Option (Nat × Nat) × State :=
  let keep (r : Nat × Nat) : Option (Nat × Nat) := if r.1 = 0 then none else some r
  if g.dclass = 0 then (keep (g.kernel.dline, g.kernel.dwork), s)
  else
    let s := Mem.serveRange s (classAddr s p g) 8
    let b := (List.range 8).map (fun i => Mem.homeByte s (classAddr s p g + i))
    (keep (Engine.field b 0 4, Engine.field b 4 4), s)

/-- Whether the v-registers of a team that a context launches on a core are free values: a context whose words stood there before may
have held the same ones last, and words that nothing has held are undefined too. DEDUCED, log 44. -/
def vUndef (k : Core) (ctx : Nat) : Bool := k.regCtx.isEmpty || k.regCtx.contains ctx

/-- Whether the s-registers of a group slot are free values: nothing, or the same context, held the slot last (R236). -/
def sUndef (k : Core) (ctx slot : Nat) : Bool := (k.slotCtx.getD slot ctx) == ctx

/-- The poison that stays in words that are not zeroed: those of the free words marked under an owner, but not the first n (R237). -/
def spared (l : List (Nat × Nat)) (owner n : Nat) : NSet :=
  NSet.addAll [] ((l.filter (fun x => x.1 == owner && decide (n ≤ x.2))).map Prod.snd)

/-- Launch one group: its registers and its 128 threads; the marks of the words that it takes leave the free words. -/
def startGroup (s : State) (g : Grid) (team index gid rspill0 s3 : Nat) : State :=
  let n := s.free
  let k := s.core (gidCore gid)
  let vu := vUndef k g.ctx
  let su := sUndef k g.ctx (gidSlot gid)
  let pc := BitVec.ofNat 48 (g.kernel.addr + 64)
  let s := s.setGroup gid (newGroup team index (roleOf g.kernel index) (if su then some n else none)
    (if su then spared k.spareS gid 4 else []) g.arg s3)
  let s := (List.range 128).foldl (fun s l =>
    let tid := tidOf gid l
    s.setThread tid (newThread pc (if vu then some (n + groupFree + threadFree * l) else none)
      (if vu then spared k.spareV tid 0 else []) ((rspill0 + g.rsstr * l) % 2 ^ 48))) s
  let s := s.modCore (gidCore gid) (fun k =>
    { k with
      slotCtx := k.slotCtx.set (gidSlot gid) g.ctx
      spareV := k.spareV.filter (fun x => tidGid x.1 != gid)
      spareS := k.spareS.filter (fun x => x.1 != gid) })
  s.takeFree (groupFree + 128 * threadFree)

/-- Launch one team of a grid on its seat; its step opens at its first instruction (R386). Every core discards its instruction-fetch
copies, so that fetches of the launched kernel see every store that happens-before the launch, wherever its threads run (R28).
DEDUCED, log 44; DEDUCED, log 46. -/
def startTeam (s : State) (g : Grid) (key cluster rank : Nat) (x : Seat) : State :=
  let k := g.kernel
  let t := teams k
  let team := key * 2 ^ 32 + cluster * 2 ^ 8 + rank
  let gids := x.slots.map (gidOf x.core)
  let (opens, s) := stepAsk s (s.ctxPart g.ctx) g
  let tm : Team :=
    { ctx := g.ctx, grid := key, cluster := key * 2 ^ 24 + cluster, rank := rank, core := x.core, kernel := k, spadBase := x.spad
      tiles := x.tiles, slots := gids, kregs := [], bar := [], step := none, opens := opens }
  let s := { s with teams := s.teams.set team tm }
  let s := passSpad s x.core g.ctx x.spad k.spad
  let s := x.tiles.foldl (fun s n => passTile s x.core g.ctx n) s
  let s3 := if k.wide then k.wteams else g.nclus
  let s := (List.range gids.length).foldl (fun s i =>
    startGroup s g team i (gids.getD i 0)
      (g.rsbase.toNat + g.rsstr * (((cluster * t + rank) * k.groups + i) * 128)) s3) s
  let s := s.modCore x.core (fun c => { c with regCtx := c.regCtx.add g.ctx, idleFrom := none })
  let s := { s with cores := s.cores.update (fun _ => true) (fun _ c => { c with ifetch := [] }) }
  (s.cross 20 (coreDie x.core)).touch g.ctx (coreDie x.core)

/-- Place the next cluster of a grid on its seats; all its teams before any thread issues (R347). -/
def startCluster (s : State) (key : Nat) (g : Grid) (l : List Seat) : State :=
  let i := g.next
  let cl : Cluster :=
    { grid := key, index := i, teams := (List.range l.length).map (fun r => key * 2 ^ 32 + i * 2 ^ 8 + r), cbar := [] }
  let s := { s with grids := s.grids.set key { g with next := i + 1 }, clusters := s.clusters.set (key * 2 ^ 24 + i) cl }
  (List.range l.length).foldl (fun s r => match l[r]? with
    | some x => startTeam s g key i r x
    | none => s) s

/-! ### Schedulers (R375, R376) -/

/-- Launch the record at a place of the pool from a core: its first cluster must be placeable there; a record that is refused
launches nothing, and nothing happens while a read has to wait. -/
def takeRecord (s : State) (n core i : Nat) : State :=
  let p := s.part n
  match p.tasks[i]? with
  | none => s
  | some t =>
    let gone (s : State) : State := s.modPart n (fun p => Tasks.takeAt p i s.now)
    let a := ofRecord t.words
    if !placing s t.ctx then s
    else match admitLaunch s t.ctx a (some core) none with
      | none => s
      | some (.error e) => gone e.2
      | some (.ok (g, s1)) =>
        if classWaits s1 n g || !firstInOrder s1 n a.prio s1.nextId then s
        else match seats s1 n g.kernel (some core) with
          | none => s
          | some l =>
            let (id, s2) := (gone s1).fresh
            startCluster s2 id g l

/-- The launch queues of a partition in order. -/
def queuesIn (p : Part) (f : Nat → Bool) : Option Nat :=
  (List.range 8).find? (fun q => p.tasks.any (fun t => !t.waits && t.launches && Tasks.prio t.words == q && f t.home))

end Launch

/-- LAUNCH_PACKET: the command processor reads the next packet of a VF's ring, or one that launch named
(R346, R351, R437). Nothing happens while the processor has to wait for a line. -/
def execLaunchPacket (vf : Option Nat) (req : Nat) (s : State) : Result := .next <|
  match vf with
  | none =>
    match s.launchReqs.get? req with
    | none => s
    | some r => (Launch.packet { s with launchReqs := s.launchReqs.erase req } r.ctx r.packet r.cmd).getD s
  | some f =>
    let v := s.vf f
    let ctx := (v.lqcfg.extractLsb' 5 11).toNat
    match Launch.ringSize v.lqcfg with
    | none => s
    | some n =>
      if v.lqhead = v.lqtail || !Launch.live s f ctx then s
      else
        let ea := v.lqbase + BitVec.ofNat 64 (64 * (v.lqhead.toNat % 2 ^ n))
        (Launch.packet (s.setVf f { v with lqhead := v.lqhead + 1 }) ctx ea none).getD s

/-- CLUSTER_PLACEMENT: the next cluster of a grid, when it is first in its partition and fits (R347, R348). -/
def execClusterPlacement (grid : Nat) (s : State) : Result := .next <|
  match s.grids.get? grid with
  | none => s
  | some g =>
    let p := s.ctxPart g.ctx
    if g.nclus ≤ g.next || Launch.classWaits s p g || !Launch.placing s g.ctx || !Launch.firstInOrder s p g.prio grid then s
    else match Launch.seats s p g.kernel g.origin with
      | none => s
      | some l => Launch.startCluster s grid g l

/-- LAUNCH_COMPLETION: every thread of the grid has exited and its engine commands have completed (R350). It waits
while its record has to. -/
def execLaunchCompletion (grid : Nat) (s : State) : Result := .next <|
  let s := Life.reap s
  match s.grids.get? grid with
  | none => s
  | some g =>
    let mine (team : Nat) : Bool := team / 2 ^ 32 == grid
    let busy := decide (g.next < g.nclus) || s.clusters.any (fun c => c.2.grid == grid)
      || s.ctxs.any (fun c => match c.2.image with
          | some i => i.clusters.any (fun c => c.2.grid == grid)
          | none => false)
      || s.fabric.any (fun c => mine c.team) || s.orng.any (fun o => o.2.cmds.any (fun c => mine c.team && c.entry != 10))
    if busy then s
    else
      let n := s.ctxPart g.ctx
      let s1 := { s with grids := s.grids.erase grid }
      let done := if g.donedc = 0xFFFF then Launch.finish s1 g.ctx g.crec g.cmd 0
        else match Tasks.dec (s.part n) g.donedc 1 with
          | none => Launch.finish s1 g.ctx g.crec g.cmd 5
          | some p => Launch.finish (s1.setPart n p) g.ctx g.crec g.cmd 0
      done.getD s

/-- SCHEDULER_TAKE: a core's scheduler takes the head of its highest-priority non-empty launch deque (R375). -/
def execSchedulerTake (core : Nat) (s : State) : Result := .next <|
  let n := Mem.partOfCore s core
  let p := s.part n
  if !s.partOwns n core then s
  else match Launch.queuesIn p (fun h => h == core) with
    | none => s
    | some q =>
      match Tasks.deque p q core true with
      | [] => s
      | i :: _ => Launch.takeRecord s n core i

/-- SCHEDULER_STEAL: a core whose launch deques have been empty for 256 ns takes the tail of the nearest deque of the
highest-priority launch queue that holds a record (R376). -/
def execSchedulerSteal (core : Nat) (s : State) : Result := .next <|
  let n := Mem.partOfCore s core
  let p := s.part n
  if !s.partOwns n core || p.tasks.any (fun t => t.launches && !t.waits && t.home == core)
    || decide (s.now < p.emptyFrom.getD core 0 + 256) then s
  else match Launch.queuesIn p (fun _ => true) with
    | none => s
    | some q =>
      match (Tasks.nearest core (Tasks.holders p q true)).bind (fun c => (Tasks.deque p q c true).getLast?) with
      | none => s
      | some i => Launch.takeRecord s n core i

end Sys2Proof.Machine
end

