-- ==== Sys2Proof/Machine/Control.lean ====
section
/-! DEFINITION. Control transfers, calls and returns with the register window and the return stack, exit, yield, sleep, traps,
barriers and the return from a trap (R30 to R32, R214 to R220, R358 to R368, R409 to R413). -/

namespace Sys2Proof.Machine

open Sys2Proof

namespace Control

/-! ### Transfers (R359) -/

/-- What a control instruction comes to in one lane. -/
inductive Lane where
  | go (s : State) (t : Thread)
  | wait (s : State)
  | trap (s : State) (tr : Trap)

/-- Run a control instruction in each active lane on its own: transfers, waits and traps; the other lanes go on. -/
def eachLane (s : State) (c : Cohort) (h : Hdr) (f : State → Nat → Thread → Lane) : State :=
  let act := Ops.active s c h
  let r := act.foldl (fun (r : State × List (Nat × Trap)) tid =>
    match r.1.thread? tid with
    | none => r
    | some t =>
      match f r.1 tid t with
      | .go s t => (Ops.flushBuffer (s.setThread tid t) (tidGid tid), r.2)
      | .wait s => (Ops.stall s [tid], r.2)
      | .trap s tr => (s, r.2 ++ [(tid, tr)])) (s, [])
  Ops.advance (Mem.takeFaults r.1 r.2) (c.tids.filter (fun t => !act.contains t))

/-- The checks of a target (R27, R102, R359): slot offset, map, fetch, and the TGT bit where it applies (R30). A fault comes with the state
that its fetch leaves. -/
inductive Landing where
  | ok (s : State)
  | wait (s : State)
  | trap (s : State) (tr : Trap)

def landing (s : State) (core tid : Nat) (tgt : Bool) (x : DWord) : Landing :=
  let pc := x.setWidth 48
  if !pcAligned pc then .trap s (Ops.plain 0x05 x)
  else if 0x800000000000 ≤ x.toNat then .trap s (.fault (Mem.mapFault .fetch x))
  else match Issue.fetch s core (s.ctxOf tid) (some tid) pc x with
    | .fault c s => .trap s (.fault c)
    | .wait => .wait s
    | .line bits s => if tgt && !Issue.tgtBit bits (pcSlot pc) then .trap s (Ops.plain 0x03 x) else .ok s

/-- The state that a failed landing leaves, of a transfer that leaves nothing else (R30, R216). -/
def Landing.failed (l : Landing) (s : State) : State :=
  match l with
  | .trap s _ => s
  | _ => s

/-- A transfer of one lane to a target. -/
def jump (core : Nat) (x : Thread → DWord) (s : State) (tid : Nat) (t : Thread) : Lane :=
  match landing s core tid true (x t) with
  | .ok s => .go s (Ops.retireLane t ((x t).setWidth 48))
  | .wait s => .wait s
  | .trap s tr => .trap s tr

/-- The target of an FB instruction (R31). -/
def target (t : Thread) (x : FbTarget) : DWord :=
  Ops.pc64 ((t.pc &&& ~~~0x3F) + x.lines.signExtend 48 * 64 + BitVec.ofNat 48 (12 * x.slot.toNat))

/-! ### Calls and returns (R214 to R220) -/

/-- The precise fault WINDOW (R219). -/
def window (t : Thread) : Trap := Ops.plain 0x13 (Ops.pc64 t.pc)

/-- The SOFT_ERR of a poisoned return-stack entry, which no operand code names (R238, R408): its %eaddr is a free value.
DESIGN CHOICE, log 4; DESIGN CHOICE, log 41. -/
def poisonedEntry (s : State) : Trap :=
  .fault { code := 0x52, sub := 2, eaddr := Config.freeWord (s.free + 1) ++ Config.freeWord s.free, syn := 0, gpa := 0 }

/-- Push a return address (R220): the state with the oldest entry in memory, if one has to go there, and the thread. -/
inductive Pushed where
  | ok (s : State) (t : Thread)
  | wait (s : State)
  | trap (tr : Trap)

def push (s : State) (core tid : Nat) (t : Thread) (depth : Nat) (r : BitVec 48) : Pushed :=
  if t.rstack.length < depth then .ok s { t with rstack := t.rstack ++ [r] }
  else if t.rpoison.contains 0 then .trap (poisonedEntry s)
  else
    let all := t.rstack ++ [r]
    match Access.store8 s core tid t (Ops.pc64 t.rspill) (Ops.pc64 (all.headD 0)) with
    | .fault tr => .trap tr
    | .wait s => .wait s
    | .ok _ s =>
      .ok s { t with rstack := all.tail, rpoison := t.rpoison.map (· - 1), rspill := t.rspill + 8, rsmem := t.rsmem + 1 }

/-- Pop a return address (R220). -/
inductive Popped where
  | ok (s : State) (t : Thread) (pc : BitVec 48)
  | wait (s : State)
  | trap (tr : Trap)

def pop (s : State) (core tid : Nat) (t : Thread) : Popped :=
  match t.rstack.getLast? with
  | some r =>
    if t.rpoison.contains (t.rstack.length - 1) then .trap (poisonedEntry s)
    else .ok s { t with rstack := t.rstack.dropLast } r
  | none =>
    if t.rsmem = 0 then .trap (Ops.plain 0x03 0)
    else match Access.load8 s core tid t (Ops.pc64 (t.rspill - 8)) with
      | .fault tr => .trap tr
      | .wait s => .wait s
      | .ok x s => .ok s { t with rspill := t.rspill - 8, rsmem := t.rsmem - 1 } (x.setWidth 48)

/-- Slide the window to a new frame, whose body and handoff bands hold undefined words, which nothing has
written: what poison they have stays (R214, R215, R238). -/
def slide (t : Thread) (free : Nat) : Thread :=
  let t := { t with nres := t.nres + 1 }
  let b := 16 + 32 * t.frame
  { t with vregs := (List.range 32).foldl (fun m j => m.set (b + 16 + j) (Config.freeWord (free + j))) t.vregs }

/-- The kernel header of a thread's team. -/
def kernelOf (s : State) (tid : Nat) : Option Kernel := (s.teamOf? tid).map (fun x => x.2.kernel)

/-- A call of one lane (R216). -/
def callTo (core : Nat) (x : Thread → DWord) (s : State) (tid : Nat) (t : Thread) : Lane :=
  match kernelOf s tid with
  | none => .wait s
  | some k =>
    if t.view ≠ .off then .trap s (window t)
    else if k.frames ≤ t.nres then .trap s (.vector 2 0 0 false)
    else match push s core tid t k.depth (nextPc t.pc) with
      | .trap tr => .trap s tr
      | .wait s => .wait s
      | .ok s1 t1 =>
        match landing s1 core tid true (x t) with
        | .trap _ tr => .trap ((landing s core tid true (x t)).failed s) tr
        | .wait s => .wait s
        | .ok s2 => .go (s2.takeFree 32) (Ops.retireLane (slide t1 s2.free) ((x t).setWidth 48))

/-- A return of one lane (R217). -/
def retFrom (core : Nat) (s : State) (tid : Nat) (t : Thread) : Lane :=
  if t.view ≠ .off then .trap s (window t)
  else if t.nres = 1 && t.nspill = 0 && t.rstack.isEmpty && t.rsmem = 0 then .trap s (Ops.plain 0x03 0)
  else if t.nres = 1 && t.nspill ≠ 0 then .trap s (.vector 3 0 0 false)
  else match pop s core tid t with
    | .trap tr => .trap s tr
    | .wait s => .wait s
    | .ok s1 t1 pc =>
      match landing s1 core tid false (Ops.pc64 pc) with
      | .trap s2 tr => .trap s2 tr
      | .wait s => .wait s
      | .ok s2 => .go s2 (Ops.retireLane (if 1 < t1.nres then { t1 with nres := t1.nres - 1 } else t1) pc)

/-! ### Retirement (R362) -/

/-- What threads of a team that have retired release: barriers, meets, cross-lane instances, and the open step of a team whose
last thread has retired (R385). -/
def settleExit (s : State) (tids : List Nat) : State :=
  let teams := NSet.addAll [] (tids.filterMap (fun tid => (s.teamOf? tid).map Prod.fst))
  let s := teams.foldl (fun s n =>
    let s := Ops.settleBar s n
    let s := match s.teams.get? n with
      | some tm => Ops.settleCbar s tm.cluster
      | none => s
    let s := Meets.settleTeam s n
    if (Ops.liveOf s n).isEmpty then s.modTeam n (fun tm => { tm with step := none, opens := none }) else s) s
  Life.reap (Meets.settleLanes s tids)

/-- Whether a result of a thread waits for another lane of its instruction (R457). -/
def awaits (s : State) (tid : Nat) : Bool := ((s.thread? tid).map (fun t => t.longs.any (fun o => Ops.unread s o.inst))).getD false

/-- Write every known result of a thread. -/
def landAll (s : State) (tid : Nat) : State :=
  match s.thread? tid with
  | none => s
  | some t => (t.longs.filter (fun o => o.vals.isSome)).foldl (fun s o => Ops.landLong s tid o) s

/-- A thread retires at home. -/
def retire (t : Thread) : Thread := { t with status := .retired, longs := [], visit := none, hop := none, deadline := none }

/-- One lane exits: at home it retires, away its return with EXIT = 1 starts (R205). -/
def exitLane (t : Thread) : Thread :=
  match t.visit with
  | none => retire t
  | some x => { Ops.endShadows t with
                status := .transit, longs := []
                visit := some { x with home := true, exits := true, trap := none, vregs := [], preds := 0 } }

end Control

/-- bra: PC becomes the target of R31 (R360). -/
def execBra (h : Hdr) (x : FbTarget) (s : State) : Result := Ops.withCohort s fun c =>
  Control.eachLane s c h (Control.jump c.core (fun t => Control.target t x))

/-- brx: PC becomes the value of the pair (R360). -/
def execBrx (h : Hdr) (a : Reg) (s : State) : Result := Ops.withCohort s fun c =>
  Control.eachLane s c h (fun st tid t => Control.jump c.core (fun t => Operands.val64 st (tidGid tid) t a) st tid t)

/-- call: R216 with the target of R31 (R360). -/
def execCall (h : Hdr) (x : FbTarget) (s : State) : Result := Ops.withCohort s fun c =>
  Control.eachLane s c h (Control.callTo c.core (fun t => Control.target t x))

/-- callx: R216 with the value of the pair (R360). -/
def execCallx (h : Hdr) (a : Reg) (s : State) : Result := Ops.withCohort s fun c =>
  Control.eachLane s c h (fun st tid t => Control.callTo c.core (fun t => Operands.val64 st (tidGid tid) t a) st tid t)

/-- ret: R217 (R361). -/
def execRet (h : Hdr) (s : State) : Result := Ops.withCohort s fun c => Control.eachLane s c h (Control.retFrom c.core)

/-- exit: a release, then the thread retires (R362). Its pending results are written first, for an s-register outlives it (R50, R227);
the operand buffer is emptied (R222). -/
def execExit (h : Hdr) (s : State) : Result := Ops.withCohort s fun c =>
  let act := Ops.active s c h
  if act.any (Control.awaits s) then Ops.stall s c.tids
  else
    let s1 := (Ops.groupsOf act).foldl Ops.flushBuffer (act.foldl Control.landAll s)
    let s2 := Ops.advance (s1.mapThreads act (fun _ t => Control.exitLane t)) (c.tids.filter (fun t => !act.contains t))
    Ops.afterRelease s c act (Control.settleExit (Ops.send s2 act) act)

/-- yield: not ready until the next regrouping (R363). -/
def execYield (h : Hdr) (s : State) : Result := Ops.withCohort s fun c =>
  (Ops.advance s c.tids).mapThreads (Ops.active s c h) (fun _ t => { t with status := .yielded })

/-- sleep: park until %time reaches now + n; `sleep 0` acts as `yield` (R364). The operand buffer is emptied (R222). -/
def execSleep (h : Hdr) (n : BitVec 32) (s : State) : Result := Ops.withCohort s fun c =>
  let act := Ops.active s c h
  let st : Status := if n = 0 then .yielded else .sleeping (s.now + n.toNat)
  (Ops.groupsOf act).foldl Ops.flushBuffer ((Ops.advance s c.tids).mapThreads act (fun _ t => { t with status := st }))

/-- trap: vector v with TCODE n (R411). DEDUCED, log 28. -/
def execTrap (h : Hdr) (v : BitVec 3) (n : BitVec 8) (s : State) : Result := Ops.withCohort s fun c =>
  let act := Ops.active s c h
  Ops.advance (Ops.trapAll s act (fun _ => .vector v.toNat (n.setWidth 32 <<< 24) 0 true))
    (c.tids.filter (fun t => !act.contains t))

/-- tfence: once every long result has landed, ARITH where an enabled flag is set (R410). -/
def execTfence (h : Hdr) (s : State) : Result := Ops.withCohort s fun c =>
  let act := Ops.active s c h
  let flagged (t : Thread) : BitVec 5 := t.flags &&& t.trapen
  if act.any (fun tid => ((s.thread? tid).map (fun t => !t.longs.isEmpty)).getD false) then Ops.stall s c.tids
  else
    let hit := act.filter (fun tid => ((s.thread? tid).map (fun t => flagged t != 0)).getD false)
    Ops.advance (Ops.trapAll s hit (fun t => .vector 0 ((flagged t).setWidth 32 <<< 16) 0 true))
      (c.tids.filter (fun t => !hit.contains t))

/-- bar: a release, then arrival at the team barrier (R368). -/
def execBar (h : Hdr) (s : State) : Result := Ops.withCohort s fun c =>
  let act := Ops.active s c h
  let s1 := act.foldl (fun s tid => match s.teamOf? tid with
    | some (n, _) => (s.modTeam n (fun tm => { tm with bar := NSet.add tm.bar tid })).modThread tid (fun t => { t with status := .bar })
    | none => s) s
  let s2 := Ops.advance s1 (c.tids.filter (fun t => !act.contains t))
  let teams := NSet.addAll [] (act.filterMap (fun tid => (s.teamOf? tid).map Prod.fst))
  Ops.afterRelease s c act (Meets.settleLanes (teams.foldl Ops.settleBar s2) act)

/-- cbar: the same over the cluster, or the wide set (R368). -/
def execCbar (h : Hdr) (s : State) : Result := Ops.withCohort s fun c =>
  let act := Ops.active s c h
  let s1 := act.foldl (fun s tid => match s.teamOf? tid with
    | some (_, tm) =>
      ({ s with clusters := s.clusters.modify tm.cluster (fun x => { x with cbar := NSet.add x.cbar tid }) }).modThread tid
        (fun t => { t with status := .cbar })
    | none => s) s
  let s2 := Ops.advance s1 (c.tids.filter (fun t => !act.contains t))
  let cls := NSet.addAll [] (act.filterMap (fun tid => (s.teamOf? tid).map (fun x => x.2.cluster)))
  Ops.afterRelease s c act (Meets.settleLanes (cls.foldl Ops.settleCbar s2) act)

/-- brk: no effect without the context's DEBUG; else the group stops, kind BRK (R412). R412 has it not permitted while visiting, yet
R202 does not refuse it and R203 takes it at home: a visitor's brk returns and stops its group there. DESIGN CHOICE, log 101. -/
def execBrk (h : Hdr) (n : BitVec 16) (s : State) : Result := Ops.withCohort s fun c =>
  let act := (Ops.active s c h).filter (fun tid => ((s.ctxs.get? (s.ctxOf tid)).map Ctx.debug).getD false)
  Ops.advance (Ops.trapAll s act (fun _ => .brk n)) (c.tids.filter (fun t => !act.contains t))

/-- eret: ILL_OP with IN = 0; else the return from a trap handler, with the checks of its target but for TGT (R30, R359, R413). It waits
for memory results of the handler that may still be poisoned, whose fault is a double trap (R53, R401). DEDUCED, log 34. -/
def execEret (h : Hdr) (s : State) : Result := Ops.withCohort s fun c =>
  Control.eachLane s c h (fun s tid t =>
    if !t.inH then .trap s (Ops.illOp t)
    else if Control.awaits s tid then .wait s
    else if t.view = .spill && t.nspill = 65535 then .trap s (Control.window t)
    else match Control.landing s c.core tid false (Ops.pc64 t.epc) with
      | .trap s tr => .trap s tr
      | .wait s => .wait s
      | .ok s => .go s { Ops.returnLane (Ops.tickShadows t) with stay := false })

end Sys2Proof.Machine
end

