-- ==== Sys2Proof/Machine/Migration.lean ====
section
/-! DEFINITION. Migration: go, back, where, the arrival of continuations, their refusals and returns (R188 to R212). -/

namespace Sys2Proof.Machine

open Sys2Proof

namespace Migration

/-- The lanes of a guest group that visitors hold: a thread that has departed by `go`, or that is on its way home, has left its
lane (R199); one that asks another core for a `.mig` access may have to go on where it is (R198). DEDUCED, log 33. -/
def holders (s : State) (core g : Nat) : Nat :=
  (s.threads.filter (fun x => match x.2.visit with
    | some v => v.core == core && v.guest == g && !v.home && (match x.2.hop with
      | some h => h.impl
      | none => true)
    | none => false)).length

/-- The role of a thread's group. -/
def roleOf (s : State) (tid : Nat) : Role := ((s.group? (tidGid tid)).map Group.role).getD .vector

/-- The guest group of a core that takes a visitor: the lowest that holds visitors of its context and role and has a free lane,
else the lowest empty one (R199). -/
def placeFor (s : State) (core ctx : Nat) (r : Role) : Option Nat :=
  let same := (List.range 16).find? (fun g =>
    let n := holders s core g
    decide (0 < n) && decide (n < 128) && ((s.core core).guests.get? g == some { ctx := ctx, role := r }))
  match same with
  | some g => some g
  | none => (List.range 16).find? (fun g => holders s core g == 0)

/-- The guest groups of a core that have no visitor hold nothing. DEDUCED, log 33. -/
def freeGuests (s : State) (core : Nat) : State :=
  if (s.core core).guests.isEmpty then s
  else s.modCore core (fun k => { k with guests := k.guests.keep (fun g _ => decide (0 < holders s core g)) })

/-- The carried words of a continuation, by register (R192). -/
def wordsOf (c : Ops.Cont) : Tab Word := ((List.range 32).filter (fun i => c.cmask.getLsbD i)).zip c.words

/-- The state of a thread's guest lane at a new core, from its continuation (R200). -/
def settleIn (t : Thread) (core guest : Nat) (c : Ops.Cont) : Thread :=
  { t with
    status := .ready, pc := c.pc, hop := none, stay := false, resumed := false, flags := c.flags, trapen := c.trapen, carryV := c.cmask
    carryQ := c.qc
    visit := some { core := core, guest := guest, hops := c.hops, vregs := wordsOf c, preds := c.pred, home := false
                    exits := false, trap := none } }

/-- A returning continuation written home: the words that CMASK names, q1 to q31 with QC, and %flags, %trapen and %carry (R204). -/
def bringHome (t : Thread) (c : Ops.Cont) : Thread :=
  let home := { t with
    visit := none, hop := none, status := .ready, pc := c.pc, stay := false, flags := c.flags, trapen := c.trapen, carryV := c.cmask
    carryQ := c.qc }
  let t1 := (wordsOf c).foldl (fun h x => h.setV x.1 x.2) home
  if c.exits || !c.qc then t1
  else (List.range 32).foldl (fun h i => if i = 0 then h else h.setQ i (c.pred.getLsbD i)) t1

/-- The result of `where` (Table 07.8). -/
def whereWord (s : State) (tid : Nat) (t : Thread) (ea : DWord) : Word :=
  match Mem.ownerOf s tid t ea .owner with
  | .error _ => BitVec.ofNat 32 (0xFF + 3 * 2 ^ 11 + 2 ^ 31)
  | .ok (o, p, _) =>
    let b (x : Bool) (k : Nat) : Nat := if x then 2 ^ k else 0
    let cls := match p with
      | .glob _ => 0
      | .spad _ _ => 1
      | .vault _ => 2
    BitVec.ofNat 32 (o + b (o == Hops.here tid t) 8 + b (o == gidCore (tidGid tid)) 9
      + b (coreDie o == coreDie (Hops.here tid t)) 10 + cls * 2 ^ 11 + b (!s.partOwns (s.ctxPart (s.ctxOf tid)) o) 13)

end Migration

/-- go: to the owner of an address (R195). Faults are checked in every active lane first; then each lane stays, is refused or
leaves. In a handler a `go` raises ILL_OP (R405). -/
def execGo (h : Hdr) (a : Addr) (s : State) : Result := Ops.withCohort s fun c =>
  let act := Ops.byLane (Ops.active s c h)
  let ths := act.filterMap (fun tid => (s.thread? tid).map (fun t => (tid, t)))
  let own (x : Nat × Thread) := Mem.ownerOf s x.1 x.2 (Operands.addr s (tidGid x.1) x.2 a) .owner
  let inH := ths.filter (fun x => x.2.inH)
  let bad := ths.filterMap (fun x => match own x with
    | .error e => some (x.1, Trap.fault e)
    | .ok _ => none)
  if !inH.isEmpty then Ops.trapAll s (inH.map Prod.fst) Ops.illOp
  else if ths.any (fun x => Mem.ownerWalks s x.1 x.2 (Operands.addr s (tidGid x.1) x.2 a)) then Ops.stall s c.tids
  else if !bad.isEmpty then Mem.takeFaults s bad
  else
    let dest (x : Nat × Thread) : Nat × Option Mem.Phys := match own x with
      | .ok r => (r.1, r.2.2)
      | .error _ => (0, none)
    let hops := ths.filter (fun x => (dest x).1 != Hops.here x.1 x.2)
    let home (x : Nat × Thread) : Bool := x.2.away && (dest x).1 == gidCore (tidGid x.1)
    let no := hops.filter (fun x => !home x && (Hops.refusal s x.1 x.2 (dest x).1).isSome)
    let yes := hops.filter (fun x => home x || (Hops.refusal s x.1 x.2 (dest x).1).isNone)
    if yes.any (fun x => !Ops.mayLeave s x.1 x.2) then Ops.stall s c.tids
    else
      let s1 := ths.foldl (fun s x => Mem.foundOwner s x.1 x.2 (dest x).2) s
      let s2 := yes.foldl (fun s x => Hops.depart s x.1 (dest x).1 false (Operands.addr s (tidGid x.1) x.2 a)) s1
      let s3 := Ops.advance (Ops.send s2 (yes.map Prod.fst)) (c.tids.filter (fun t => !(hops.map Prod.fst).contains t))
      Ops.takeTraps s3 (no.map (fun x =>
        (x.1, Hops.refusedTrap ((Hops.refusal s x.1 x.2 (dest x).1).getD 0) (Operands.addr s (tidGid x.1) x.2 a))))

/-- back: a visiting thread returns home; at home it has no effect (R196). -/
def execBack (h : Hdr) (s : State) : Result := Ops.withCohort s fun c =>
  let act := Ops.active s c h
  let ths := act.filterMap (fun tid => (s.thread? tid).map (fun t => (tid, t)))
  let away := ths.filter (fun x => x.2.away)
  if away.any (fun x => !Ops.mayLeave s x.1 x.2) then Ops.stall s c.tids
  else
    let s1 := away.foldl (fun s x => Hops.depart s x.1 (gidCore (tidGid x.1)) false 0) s
    Ops.advance (Ops.send s1 (away.map Prod.fst)) (c.tids.filter (fun t => !(away.map Prod.fst).contains t))

/-- where: the owner of an address, without moving (R197). Finding it counts as a walk that reaches the home die of the final address,
though no access is made there; one that fails reaches its tables (R423). DESIGN CHOICE, log 103. -/
def execWhereIs (h : Hdr) (d : Reg) (a : Addr) (s : State) : Result := Ops.withCohort s fun c =>
  let act := Ops.active s c h
  let ths := act.filterMap (fun tid => (s.thread? tid).map (fun t => (tid, t)))
  let at? (gid tid : Nat) (t : Thread) := Migration.whereWord s tid t (Operands.addr s gid t a)
  if ths.any (fun x => Mem.ownerWalks s x.1 x.2 (Operands.addr s (tidGid x.1) x.2 a)) then Ops.stall s c.tids
  else
    let found (s : State) (x : Nat × Thread) : State :=
      match Mem.ownerOf s x.1 x.2 (Operands.addr s (tidGid x.1) x.2 a) .owner with
      | .ok (_, _, q) => Mem.foundOwner s x.1 x.2 q
      | .error e => Mem.faultWalk s x.1 e
    let s1 := ths.foldl found s
    match d with
    | .v i => Ops.eachActive s1 c h (fun tid t => Ops.writeV t i.val (at? (tidGid tid) tid t))
    | _ => s1

/-- One continuation of a packet finds its guest lane, or is refused with FULL (R199, R200). -/
def Migration.seat (s : State) (core : Nat) (c : Ops.Cont) : State :=
  match s.thread? c.tid with
  | none => s
  | some t =>
    match Migration.placeFor s core c.ctx (Migration.roleOf s c.tid) with
    | none => s.setThread c.tid { t with hop := t.hop.map (fun h => { h with refused := true }) }
    | some g =>
      (s.setThread c.tid (Migration.settleIn t core g c)).modCore core (fun k =>
        { k with guests := k.guests.set g { ctx := c.ctx, role := Migration.roleOf s c.tid } })

/-- CONTINUATION_ARRIVAL: the continuations of a packet arrive together, and in ascending home lane order guest lanes take them, or
refuse them with FULL (R199, R200, R209). The arrival is an acquire of the core (Table 05.3). The lanes that visitors held are freed. A
core in retention wakes first (R383). DEDUCED, log 33. -/
def execContinuationArrival (pkt : Nat) (s : State) : Result := .next <|
  match s.packets.get? pkt with
  | none => s
  | some p =>
    if p.home || (s.core p.dest).ret != Retention.awake then s
    else
      let s := { s with packets := s.packets.erase pkt }.cross (coreDie p.src) (coreDie p.dest)
      let s := p.conts.foldl (fun s b => Migration.seat s p.dest (Ops.unpackCont b)) s
      Ops.acquireCore (Migration.freeGuests s p.src) p.dest

/-- MIGRATION_REFUSAL_RETURN: a `go` refused with FULL raises MIGREF, in every lane of the group whose refusal of this `go` has come
back (R400, R414); a `.mig` access is performed in place (R198, R208). DEDUCED, log 87. -/
def execMigrationRefusalReturn (tid : Nat) (s : State) : Result := .next <|
  match s.thread? tid with
  | none => s
  | some t =>
    match t.hop with
    | none => s
    | some h =>
      if !h.refused then s
      else
        if h.impl then s.setThread tid { t with hop := none, status := .ready, stay := true }
        else
          let back := s.threads.filterMap (fun x => match x.2.hop with
            | some y => if tidGid x.1 == tidGid tid && x.2.pc == t.pc && y.refused && !y.impl then some (x.1, y.ea) else none
            | none => none)
          let s1 := s.mapThreads (back.map Prod.fst) (fun _ t => { t with hop := none, status := .ready, stay := false })
          Ops.takeTraps s1 (back.map (fun x => (x.1, Hops.refusedTrap 1 x.2)))

/-- RETURN_ARRIVAL: the threads of a packet come home, with their words, to go on, to retire, or to take their traps (R203 to R206). A
core in retention wakes first (R383). -/
def execReturnArrival (pkt : Nat) (s : State) : Result := .next <|
  match s.packets.get? pkt with
  | none => s
  | some p =>
    if !p.home || (s.core p.dest).ret != Retention.awake then s
    else
      let cs := p.conts.map Ops.unpackCont
      let trs := cs.filterMap (fun c => (s.thread? c.tid).bind (fun t => t.visit.bind (fun x => x.trap.map (fun y => (c.tid, y)))))
      let s1 := cs.foldl (fun s c => s.modThread c.tid (fun t => Migration.bringHome t c)) ({ s with packets := s.packets.erase pkt }.cross
        (coreDie p.src) (coreDie p.dest))
      let s2 := Ops.acquireCore (Migration.freeGuests s1 p.src) p.dest
      let gone := (cs.filter Ops.Cont.exits).map Ops.Cont.tid
      let s3 := if gone.isEmpty then s2 else Control.settleExit (s2.mapThreads gone (fun _ t => Control.retire t)) gone
      Ops.takeTraps (trs.foldl (fun s x => s.modThread x.1 (fun t => { t with pc := x.2.2 })) s3) (trs.map (fun x => (x.1, x.2.1)))

end Sys2Proof.Machine
end

