-- ==== Sys2Proof/Machine/Power.lean ====
section
/-! DEFINITION. The governor and the current controls: evaluation, rails, cap messages, capacitor, droop, way gating and
retention (R381 to R398, R237). -/

namespace Sys2Proof.Machine

open Sys2Proof

namespace Power

/-- The minimum rail of an operating point, in microvolts (Table 13.1). -/
def volts (p : Nat) : Nat :=
  [550000, 575000, 600000, 625000, 650000, 700000, 750000, 800000, 850000, 875000, 900000, 950000].getD p 950000

/-! ### Rails (R389) -/

def rail (s : State) (r : Nat) : Rail := s.rails.getD r Rail.reset

/-- Where a rail stands now: it rises 50 mV and falls 10 mV in a microsecond. -/
def level (x : Rail) (now : Nat) : Nat :=
  match x.phase with
  | .rising since => min x.target (x.level + 50 * (now - since))
  | .falling since => max x.target (x.level - 10 * (now - since))
  | _ => x.level

/-- A new target (R389). DEDUCED, log 36. -/
def aim (x : Rail) (now target : Nat) : Rail :=
  if target = x.target then x
  else
    let l := level x now
    let hold : Rail := { x with level := l, target := target, phase := .holding (now + 5000) }
    if l < target then { x with level := l, target := target, phase := .rising now }
    else match x.phase with
      | .rising _ | .steady => hold
      | .holding till =>
        if l = target then { x with target := target, phase := .steady }
        else if target < x.target then hold
        else { x with target := target, phase := .holding till }
      | .falling _ =>
        if l = target then { x with level := l, target := target, phase := .steady }
        else if target < x.target then hold
        else { x with level := l, target := target, phase := .falling now }

/-- A rail that does not move. -/
def settled (x : Rail) (now : Nat) : Bool :=
  match x.phase with
  | .steady => true
  | .falling _ => level x now == x.target
  | _ => false

/-- The target that the votes of a rail give. -/
def targetOf (votes : Tab Nat) : Nat := votes.foldl (fun m v => max m v.2) 550000

/-- The cores of a rail raise their clocks to the points they want, as far as the settled rail allows. -/
def raise (s : State) (r : Nat) : State :=
  let x := rail s r
  if !settled x s.now then s
  else { s with cores := s.cores.update (fun c => coreRail c == r) (fun _ k =>
      if k.point < k.want && decide (volts k.want ≤ level x s.now) then { k with point := k.want } else k) }

/-- Set the votes of a rail. -/
def vote (s : State) (r : Nat) (votes : Tab Nat) : State :=
  { s with rails := s.rails.set r { aim (rail s r) s.now (targetOf votes) with votes := votes } }

/-- A partition's last context has exited: its votes are withdrawn, and its cores drop to point 0 (R389). -/
def withdraw (s : State) (p : Nat) : State :=
  let s := s.rails.foldl (fun s x => if (x.2.votes.get? p).isSome then vote s x.1 (x.2.votes.erase p) else s) s
  { s with cores := s.cores.update (fun c => s.partOwns p c) (fun _ k => { k with point := 0, want := 0 }) }

/-! ### Projection (R387) -/

/-- What a step has left before its deadline, without the margin. -/
def avail (s : State) (x : Step) : Int := (x.deadline : Int) - s.gov.margin.toNat - s.now

/-- The point a step needs, 12 for one that does not exist. -/
def need (s : State) (x : Step) : Nat :=
  match Steps.remaining x with
  | some 0 => 0
  | r =>
    let a := avail s x
    if a ≤ 0 then 12
    else match r with
      | none => 11
      | some r => ((List.range 12).find? (fun p => decide ((10 * r : Int) ≤ coreClock p * a))).getD 12

/-- The open steps of a core's teams. -/
def stepsOn (s : State) (c : Nat) : List (Nat × Step) :=
  s.teams.filterMap (fun t => if t.2.core = c then t.2.step.map (fun x => (t.1, x)) else none)

/-- Whether a core holds a team without an open step. -/
def plainTeam (s : State) (c : Nat) : Bool := s.teams.any (fun t => t.2.core == c && t.2.step.isNone)

/-- The point a core needs (R388). -/
def coreNeed (s : State) (c : Nat) : Nat :=
  max ((stepsOn s c).foldl (fun m x => max m (min 11 (need s x.2))) 0) (if plainTeam s c then s.gov.defpt.toNat else 0)

/-- The slack of a core at a point, over its steps, as a fraction; a step of unknown rate has the least.
DESIGN CHOICE, log 37. -/
def slackAt (s : State) (c p : Nat) : Option (Int × Int) :=
  (stepsOn s c).foldl (fun m x =>
    let f : Int := coreClock p
    let v : Int × Int := match Steps.remaining x.2 with
      | none => (-(2 ^ 80), 1)
      | some r => (avail s x.2 * f - 10 * r, f)
    match m with
    | none => some v
    | some w => if v.1 * w.2 < w.1 * v.2 then some v else some w) none

/-- Whether core a, rather than core b, is lowered first (R388): no open step, then the larger slack, then the higher number.
DESIGN CHOICE, log 37. -/
def lowerFirst (s : State) (a b : Nat × Nat) : Bool :=
  match slackAt s a.1 (a.2 - 1), slackAt s b.1 (b.2 - 1) with
  | none, none => decide (b.1 < a.1)
  | none, some _ => true
  | some _, none => false
  | some x, some y => decide (y.1 * x.2 < x.1 * y.2) || (x.1 * y.2 == y.1 * x.2 && decide (b.1 < a.1))

/-- The activity counters of the rail domains (R393): the sector cycles with an issue since the last evaluation. DESIGN CHOICE, log 11. -/
def activity (s : State) : Tab Nat :=
  s.cores.foldl (fun m c => m.set (coreRail c.1) (m.getD (coreRail c.1) 0 + (c.2.sectors.map (fun x => x.2.issued)).sum)) []

/-- Lower points until the estimated module power is within the cap. DESIGN CHOICE, log 11. -/
def underCap (s : State) : Nat → Tab Nat → Tab Nat
  | 0, ps => ps
  | fuel + 1, ps =>
    if Config.powerEstimate ps (activity s) ≤ s.gov.cap.toNat then ps
    else
      let best := (ps.filter (fun x => decide (0 < x.2))).foldl (fun (m : Option (Nat × Nat)) x => match m with
        | none => some x
        | some y => if lowerFirst s x y then some x else some y) none
      match best with
      | none => ps
      | some x => underCap s fuel (ps.set x.1 (x.2 - 1))

/-- %eaddr of the deadline-risk interrupt (R390). -/
def overrun (s : State) (x : Step) : DWord :=
  match Steps.remaining x with
  | none => 0xFFFFFFFFFFFFFFFF
  | some r =>
    if avail s x ≤ 0 then 0xFFFFFFFFFFFFFFFF
    else BitVec.ofInt 64 (((10 * r + 23) / 24 : Nat) - avail s x)

/-- A step is at risk: once, in every thread of its owner group that has not retired (R390). -/
def atRisk (s : State) (team : Nat) (x : Step) : State :=
  let ea := overrun s x
  let s := s.modTeam team (fun t => { t with step := some { x with risk := true } })
  { s with threads := s.threads.update (fun k => tidGid k == x.owner) (fun _ t =>
      if t.status = .retired then t else { t with deadline := some ea }) }

/-! ### Cap messages (R394) -/

/-- Whether a sequence number is newer than the last. -/
def newer (seq last : BitVec 32) : Bool :=
  seq != 0 && (last == 0 || (decide (1 ≤ (seq - last).toNat) && decide ((seq - last).toNat < 2 ^ 31)))

/-- The fallback applies. -/
def expire (s : State) : State :=
  { s with gov := { s.gov with cap := s.gov.fallback, capseq := 0, leaseEnd := none } }

/-- One message applies. -/
def applyOne (s : State) (m : BitVec 32 × BitVec 16 × BitVec 16) : State :=
  let c := max 400 (min m.2.1.toNat 1500)
  let s := { s with gov := { s.gov with
    cap := BitVec.ofNat 16 c, capseq := m.1, lastseq := m.1, leaseEnd := some (s.now + m.2.2.toNat * 1000000) } }
  if m.2.2 = 0 then expire s else s

/-- The messages that were newer than LASTSEQ when they arrived apply, in order of arrival (R394). DEDUCED, log 36. -/
def applyCap (s : State) : State := s.gov.pending.foldl applyOne { s with gov := { s.gov with pending := [] } }

/-! ### The ramp limit and the floor (R396) -/

/-- The change of power, in watts, that RAMP allows in dt nanoseconds; none without a limit. -/
def allowance (s : State) (dt : Nat) : Option Nat := if s.gov.ramp = 0 then none else some (s.gov.ramp.toNat * dt / 1000000)

/-- The partitions' estimates. -/
def estimates (s : State) (ps : Tab Nat) : Tab Nat := s.parts.map (fun p => (p.1, Config.partEstimate p.1 ps (activity s)))

/-- Set the ramp holds: while the estimate rises faster than RAMP, on the cores of the partitions that rise. -/
def rampHolds (s : State) (ps : Tab Nat) (est dt : Nat) : State :=
  let fast : Bool := match allowance s dt with
    | some a => decide (s.gov.power + a < est)
    | none => false
  let up (c : Nat) : Bool := s.parts.any (fun p => p.2.cores.getLsbD c && decide (p.2.est < (estimates s ps).getD p.1 0))
  { s with cores := s.cores.update (fun _ => true) (fun c k => { k with rampHold := fast && up c }) }

/-- The filler of the next microsecond: what a fall faster than RAMP leaves, with the partitions that fell; and what FLOOR asks for while a
partition has a context. -/
def fill (s : State) (ps : Tab Nat) (est dt : Nat) : State :=
  let low := match allowance s dt with
    | some a => s.gov.power - a
    | none => 0
  let filler := low - est
  let falls : Tab Nat := if filler = 0 then [] else s.parts.foldl (fun m p =>
    let d := p.2.est - (estimates s ps).getD p.1 0
    if d = 0 then m else m.set p.1 (m.getD p.1 0 + d)) s.gov.falls
  let floorFill := if s.ctxs.isEmpty then 0 else s.gov.floor.toNat - (est + filler)
  { s with gov := { s.gov with power := est + filler + floorFill, filler := filler, floorFill := floorFill, falls := falls } }

/-- The filler energy charged to a partition over dt nanoseconds, in µJ: a fall to those whose activity fell, in proportion, the departed
tenant among them; FLOOR to partition 0. -/
def fillerCharge (s : State) (p dt : Nat) : Nat :=
  let total := (s.gov.falls.map Prod.snd).sum
  (if total = 0 then 0 else s.gov.filler * s.gov.falls.getD p 0 * dt / (1000 * total))
    + (if p = 0 then s.gov.floorFill * dt / 1000 else 0)

/-! ### Sector ratios (R382) -/

/-- The ratio of a sector, in quarters. -/
def ratioOf (s : State) (c k : Nat) (x : Sector) : Nat :=
  let step := s.groups.any (fun g => gidCore g.1 == c && gidSlot g.1 / 8 == k
    && ((s.teams.get? g.2.team).bind Team.step).isSome)
  if step || decide (x.cycles < 2 * x.issued) then 4
  else if x.cycles < 4 * x.issued then 3
  else if 0 < x.issued then 2
  else 1

/-! ### Retention (R237, R383, R384) -/

/-- Whether every resident thread of a core sleeps, or the core has held no team for 10 µs; no visitor runs there. -/
def idle (s : State) (c : Nat) : Bool :=
  let mine := s.threads.filter (fun x => gidCore (tidGid x.1) == c && x.2.status != Status.retired)
  let away := s.threads.any (fun x => match x.2.visit with
    | some v => v.core == c
    | none => false)
  !away && (if s.teams.any (fun t => t.2.core == c) then
      mine.all (fun x => match x.2.status with
        | .sleeping _ => true
        | _ => false)
    else decide (((s.core c).idleFrom).getD 0 + 10000 ≤ s.now))

/-- What keeps an idle core awake: queues, registrations and requests in flight. -/
def draining (s : State) (c : Nat) : Bool :=
  let k := s.core c
  !k.copyq.isEmpty || !k.matq.isEmpty || s.regs.any (fun r => r.2.core == c) || s.reds.any (fun r => r.2.core == c)
    || s.excl.any (fun e => e.2.core == c)

/-- A wake event for a core (R383): the end of a sleep, an asynchronous trap, a team placed, a continuation on its way, or a request of
another core to its scratchpad. -/
def wakes (s : State) (c : Nat) : Bool :=
  (s.core c).asked || s.packets.any (fun p => p.2.dest == c)
    || s.threads.any (fun x => gidCore (tidGid x.1) == c && (x.2.deadline.isSome || (match x.2.status with
      | .sleeping till => decide (till ≤ s.now)
      | .retired => false
      | _ => true)))

end Power

/-- EVALUATION: every microsecond of %time Belvedere applies cap messages, projects the steps, chooses points under the cap, marks
steps at risk, votes on the rails, limits the ramp, keeps the floor, sets the sector ratios and charges energy (R382, R388, R393, R396). A
core in retention votes for point 0 (R383). DESIGN CHOICE, log 11. -/
def execEvaluation (s : State) : Result := .next <|
  if s.now < s.gov.lastEval + 1000 then s
  else
    let dt := s.now - s.gov.lastEval
    let s := Power.applyCap { s with gov := { s.gov with lastEval := s.now } }
    let cs := NSet.addAll [] (s.cores.keys ++ s.teams.map (fun t => t.2.core))
    let needs : Tab Nat := cs.map (fun c => (c, Power.coreNeed s c))
    let ps := Power.underCap s (12 * cs.length) needs
    let risky := s.teams.filterMap (fun t => t.2.step.bind (fun x =>
      let n := Power.need s x
      if !x.risk && (decide (11 < n) || decide (ps.getD t.2.core 0 < n)) then some (t.1, x) else none))
    let s := risky.foldl (fun s x => Power.atRisk s x.1 x.2) s
    let held (c : Nat) : Bool := (s.core c).ret != Retention.retained
    let s := ps.foldl (fun s x => s.modCore x.1 (fun k =>
      if k.ret == Retention.retained then k
      else if x.2 < k.point then { k with point := x.2, want := x.2 } else { k with want := x.2 })) s
    let s := (List.range 48).foldl (fun s r =>
      let votes : Tab Nat := s.parts.filterMap (fun p =>
        let mine := (List.range Config.cores).filter (fun c => coreRail c == r && p.2.cores.getLsbD c)
        if mine.isEmpty then none
        else some (p.1, Power.volts (mine.foldl (fun m c => max m (if held c then ps.getD c 0 else 0)) 0)))
      Power.raise (Power.vote s r votes) r) s
    let est := Config.powerEstimate ps (Power.activity s)
    let charge (p : Nat) : Nat := Config.energyCharge s.now p (Power.activity s) + Power.fillerCharge s p dt
    let charged : Tab Part := s.parts.update (fun _ => true) (fun p x =>
      { x with peacc := x.peacc + BitVec.ofNat 64 (charge p), est := (Power.estimates s ps).getD p 0 })
    let s := Power.fill (Power.rampHolds s ps est dt) ps est dt
    { s with
      parts := charged
      cores := s.cores.update (fun _ => true) (fun c k =>
        { k with sectors := k.sectors.update (fun _ => true) (fun i x =>
            { x with ratio := Power.ratioOf s c i x, issued := 0, cycles := 0 }) }) }

/-- RAIL_SETTLED: a rising rail settles 1 µs after it reaches its target, and its cores raise their clocks (R389). -/
def execRailSettled (r : Nat) (s : State) : Result := .next <|
  let x := Power.rail s r
  match x.phase with
  | .rising since =>
    if since + (x.target - x.level + 49) / 50 + 1000 ≤ s.now then
      Power.raise { s with rails := s.rails.set r { x with level := x.target, phase := .steady } } r
    else s
  | _ => s

/-- RAIL_HOLD_EXPIRY: after its hold of 5 µs a rail starts its fall (R389). -/
def execRailHoldExpiry (r : Nat) (s : State) : Result := .next <|
  let x := Power.rail s r
  match x.phase with
  | .holding till => if till ≤ s.now then { s with rails := s.rails.set r { x with phase := .falling till } } else s
  | _ => s

/-- CAP_MESSAGE: a rack message newer than the last one applied waits for the next evaluation; any other is ignored (R394). -/
def execCapMessage (seq : BitVec 32) (cap lease : BitVec 16) (s : State) : Result := .next <|
  if Power.newer seq s.gov.lastseq then { s with gov := { s.gov with pending := s.gov.pending ++ [(seq, cap, lease)] } } else s

/-- LEASE_EXPIRY: the fallback applies (R394). -/
def execLeaseExpiry (s : State) : Result := .next <|
  match s.gov.leaseEnd with
  | some t => if t ≤ s.now then Power.expire s else s
  | none => s

/-- CAPACITOR_HOLD: a bank below 10 % holds the V and E ports of its rail's cores (R395). -/
def execCapacitorHold (r : Nat) (s : State) : Result := .next <|
  (List.range Config.cores).foldl (fun s c =>
    if coreRail c = r then
      s.modCore c (fun k => { k.count 0x007 (Mem.partOfCore s c) 1 with capHold := true })
    else s) s

/-- CAPACITOR_RECHARGED: the bank is back to 50 % (R395). -/
def execCapacitorRecharged (r : Nat) (s : State) : Result := .next <|
  { s with cores := s.cores.update (fun c => coreRail c == r) (fun _ k => { k with capHold := false }) }

/-- DROOP_ALARM: a rail that reads mv millivolts stands below its target minus DRTH: six stretched cycles on each of its cores; an
alarm during a stretch changes nothing but the counter (R398). DESIGN CHOICE, log 91. -/
def execDroopAlarm (r : Nat) (mv : Nat) (s : State) : Result := .next <|
  let th := s.gov.drth.toNat
  if th = 0 || (Power.rail s r).target ≤ 1000 * (mv + th) then s
  else (List.range Config.cores).foldl (fun s c =>
    if coreRail c = r then
      s.modCore c (fun k =>
        { k.count 0x006 (Mem.partOfCore s c) 1 with
          droop := match k.droop with
            | .stretch t => .stretch t
            | _ => .stretch s.now })
    else s) s

/-- DROOP_STRETCH_END: after six cycles of twice their period, halved issue begins (R398). -/
def execDroopStretchEnd (core : Nat) (s : State) : Result := .next <|
  let k := s.core core
  match k.droop with
  | .stretch t => if 120 ≤ (s.now - t) * coreClock k.point then s.setCore core { k with droop := .halved s.now } else s
  | _ => s

/-- DROOP_HALVING_END: after 64 core cycles full issue resumes (R398). -/
def execDroopHalvingEnd (core : Nat) (s : State) : Result := .next <|
  let k := s.core core
  match k.droop with
  | .halved t => if 640 ≤ (s.now - t) * coreClock k.point then s.setCore core { k with droop := .none } else s
  | _ => s

/-- WAY_GATING_WINDOW: a slice keeps ceil(1.25 × est / 2048) ways of a partition's set enabled, at least 2, and gates the others after
what stands in them has been written back and recalled, and their partials combined (R131, R397). A way with a line that an engine owns or
an atomic holds waits. Which ways stay is not stated: the lowest. DEDUCED, log 35; DESIGN CHOICE, log 91. -/
def execWayGatingWindow (slice part est : Nat) (s : State) : Result := .next <|
  let ways := (List.range 16).filter (fun w => (s.part part).waymask.getLsbD w)
  let keep := max 2 ((125 * est + 204799) / 204800)
  let linesOf (s : State) (w : Nat) : List Nat := (s.llc.filter (fun l => l.2.way == w && Mem.homeSlice (64 * l.1) == slice)).map Prod.fst
  let off := (ways.drop keep).filter (fun w => !s.gated.contains (slice, w) && !(linesOf s w).any (Mem.locked s))
  off.foldl (fun s w =>
    let s := (linesOf s w).foldl Mem.evictHome s
    let ps := (s.reduce.filter (fun r => r.2.entries.any (fun e => e.1 == slice && e.2.2 == w))).map Prod.fst
    let s := ps.foldl (fun s l => Mem.mergeSome s l (fun x => x == slice)) s
    { s with gated := s.gated ++ [(slice, w)] }) s

/-- WAY_REENABLE: a gated way of a partition's set comes back when the set's misses exceed WGTH per 1,000 accesses (R397). -/
def execWayReenable (ways : SliceWays) (misses accesses : Nat) (s : State) : Result := .next <|
  if s.wgth.getD ways.slice 50 * accesses < 1000 * misses then
    match s.gated.find? (fun g => g.1 == ways.slice && (s.part ways.part).waymask.getLsbD g.2) with
    | some g => { s with gated := s.gated.filter (fun x => x != g) }
    | none => s
  else s

/-- RETENTION_ENTRY: an idle core whose queues have drained writes back its owned words, drops its L1 and is held at retention
voltage, its operand buffers written back; its rail vote falls to point 0 (R237, R383, R384). -/
def execRetentionEntry (core : Nat) (s : State) : Result := .next <|
  let k := s.core core
  if k.ret != Retention.awake || !Power.idle s core || Power.draining s core then s
  else
    let s := k.l1.foldl (fun s w => if w.2.st = .O then Mem.recallWord s w.1 else s) s
    let s := { s with groups := s.groups.update (fun g => gidCore g == core) (fun _ g => { g with obuf := [] }) }
    s.modCore core (fun k => { k with l1 := [], ret := .retained, point := 0, want := 0, asked := false })

/-- CORE_WAKE: a wake event starts the wake of 2 µs; at its end the parity sweep is still to be made (R237, R383).
DEDUCED, log 42. -/
def execCoreWake (core : Nat) (s : State) : Result := .next <|
  match (s.core core).ret with
  | .retained => if Power.wakes s core then s.modCore core (fun k => { k with ret := .waking (s.now + 2000) }) else s
  | .waking till => if till ≤ s.now then s.modCore core (fun k => { k with ret := .unswept, asked := false }) else s
  | _ => s

/-- PARITY_SWEEP: the words that fail are poisoned (R237): v-registers by thread and place, s-registers by group and number, words of the
handle file by group and number, predicate words and return-stack entries by thread and number, scratchpad words, and tiles. Words of the
main and scalar files that no thread or group holds are kept for the next that does. DESIGN CHOICE, log 91; DESIGN CHOICE, log 105. -/
def execParitySweep (core : Nat) (fails sfails hfails qfails rfails : List (Nat × Nat)) (spad tiles : List Nat) (s : State) :
    Result := .next <|
  if (s.core core).ret != Retention.unswept then s
  else
    let of (l : List (Nat × Nat)) (k : Nat) : List Nat := (l.filter (fun x => x.1 == k)).map Prod.snd
    let spareV := fails.filter (fun x => gidCore (tidGid x.1) == core && (s.thread? x.1).isNone)
    let spareS := sfails.filter (fun x => gidCore x.1 == core && (s.group? x.1).isNone && decide (x.2 < 384))
    let s := { s with
      threads := s.threads.update (fun k => gidCore (tidGid k) == core) (fun k t =>
        { t with
          vpoison := t.vpoison.addAll (of fails k)
          ppoison := t.ppoison.addAll ((of qfails k).filter (fun n => decide (n < 3)))
          rpoison := t.rpoison.addAll ((of rfails k).filter (fun n => decide (n < t.rstack.length))) })
      groups := s.groups.update (fun k => gidCore k == core) (fun k g =>
        { g with
          spoison := g.spoison.addAll ((of sfails k).filter (fun n => decide (n < 384)))
          hpoison := g.hpoison.addAll ((of hfails k).filter (fun n => decide (n < 64))) }) }
    s.modCore core (fun k =>
      { k with
        ret := .awake
        spareV := k.spareV ++ spareV
        spareS := k.spareS ++ spareS
        spoison := k.spoison.addAll (spad.filter (fun w => decide (w < 131072)))
        tilePoison := k.tilePoison.addAll (tiles.filter (fun n => decide (n < 16))) })

end Sys2Proof.Machine
end

