-- ==== Sys2Proof/Machine/Stops.lean ====
section
/-! DEFINITION. Host-serviced stops and their answers, pre-emption and restore, die loss, and the end of a context (R210, R299, R341,
R414 to R426, R439). -/

namespace Sys2Proof.Machine

open Sys2Proof

namespace Stops

/-! ### Forced returns (R210) -/

/-- Whether a thread's continuation is between cores. -/
def moving (t : Thread) : Bool := t.status == Status.transit || t.hop.isSome

/-- Start every thread of a list that runs away from home on its way back, at its next instruction; it leaves when its accesses have
been performed (R52, R209). -/
def force (s : State) (tids : List Nat) : State :=
  tids.foldl (fun s tid => match s.thread? tid with
    | some t =>
      if t.away && !moving t then Issue.landReady (s.setThread tid (Hops.goHome (Ops.endShadows t) t.pc)) tid else s
    | none => s) s

/-- Whether every thread of a list is at home, and its stores, reductions and atomics have been performed.
DEDUCED, log 55. -/
def quiet (s : State) (tids : List Nat) : Bool :=
  tids.all (fun tid =>
    (match s.thread? tid with
      | some t => !t.away && !moving t
      | none => true)
    && s.regs.all (fun r => !r.2.tids.contains tid) && s.reds.all (fun r => r.2.tid != tid)
    && s.excl.all (fun r => r.2.tid != tid))

/-- A load that had not returned is issued again: it reads memory anew (Table 14.6). -/
def reissue (t : Thread) : Thread :=
  { t with longs := t.longs.map (fun o => if o.vals.isSome then o else { o with parts := o.parts.map (fun p => { p with val := none }) }) }

/-! ### The fault record (Table 14.5) -/

/-- The place of a core among its partition's cores. -/
def coreIndex (s : State) (p core : Nat) : Nat := ((List.range core).filter (s.partOwns p)).length

/-- The save area of a core of a context (Table 15.3). -/
def saveArea (s : State) (ctx core : Nat) : Nat :=
  ((s.ctxs.get? ctx).map (fun c => c.savebase.toNat + coreIndex s c.part core * 0x310000)).getD 0

def kindCode (k : StopKind) : Nat :=
  match k with
  | .fault => 0
  | .novec => 1
  | .double => 2
  | .brk => 3
  | .dieloss => 4

/-- The bytes of a fault record. DEDUCED, log 58. -/
def recordOf (s : State) (ctx gid : Nat) (x : Stop) : List Byte :=
  let touched := ((s.ctxs.get? ctx).map (fun c => c.touched.toNat)).getD 0
  Mem.toBytes 4 x.cause.toNat
    ++ Mem.toBytes 4 (kindCode x.kind + 16 * x.vec + (if x.inH then 128 else 0) + 256 * gidSlot gid + 16384 * gidCore gid)
    ++ Mem.toBytes 8 x.epc.toNat ++ Mem.toBytes 8 x.eaddr.toNat ++ Mem.toBytes 4 x.syn.toNat ++ Mem.toBytes 4 x.brkn.toNat
    ++ Mem.toBytes 8 (x.gpa.toNat % 2 ^ 52) ++ Mem.toBytes 16 (NSet.toMask x.lanes) ++ Mem.toBytes 4 (touched + 2 ^ 20 * ctx)
    ++ Mem.toBytes 4 x.pix

/-- The context of a group. -/
def ctxOf (s : State) (gid : Nat) : Option Nat := ((s.group? gid).bind (fun g => s.teams.get? g.team)).map Team.ctx

/-! ### The answer RESUME (R415) -/

/-- The bytes of a save area (R420). -/
abbrev areaSize : Nat := 0x310000

/-- Whether a line lies in the save area at an address. -/
def inArea (a line : Nat) : Bool := decide (a / 64 ≤ line) && decide (line < (a + areaSize) / 64)

/-- Whether a save area cannot be read or written now: a line of it is held back, or not yet zero-filled (R116, R140, R150). -/
def areaWaits (s : State) (a : Nat) : Bool :=
  let last := a + areaSize - 1
  s.holds.any (fun h => h.own.any (inArea a) || h.pin.any (inArea a))
    || s.excl.any (fun e => e.2.st == ExclState.held && inArea a e.2.line)
    || s.exclTill.any (fun x => inArea a x.1 && decide (s.now < x.2.2))
    || Mem.mustWait s last || Mem.mustWait s (min last (a / 2 ^ 30 * 2 ^ 30 + (2 ^ 30 - 1)))

/-- What the save hardware sees of a save area is memory: owned copies are recalled, and held lines go home (R141). -/
def openArea (s : State) (a : Nat) : State := Regions.flushWhere s (inArea a)

/-- Bytes of a save area in memory, and a field of them. -/
def areaBytes (s : State) (a n : Nat) : List Byte := Mem.dramBytes s a n
def areaField (s : State) (a n : Nat) : Nat := Mem.ofBytes (areaBytes s a n)

/-- The save hardware writes the save area of a core, as partition 0 and by host physical address: a fault record, and bytes whose layout
is not architectural (R420, R421). DEDUCED, log 58. -/
def writeArea (s : State) (ctx core : Nat) (rec : List Byte) : State :=
  let a := saveArea s ctx core
  let s := openArea s a
  let n := s.free
  { s with
    mem := Memory.writeAll s.mem a (rec ++ (List.range (areaSize - 64)).map (fun i => Config.freeByte (n + i)))
    regrown := if s.garbled.isEmpty then s.regrown else NSet.addAll s.regrown ((List.range (areaSize / 32)).map (a / 32 + ·))
    poison := s.poison.filter (fun l => !inArea a l)
    poison8 := s.poison8.filter (fun u => !inArea a (u / 8))
    free := n + areaSize
    ctxs := s.ctxs.modify ctx (fun c => { c with areas := c.areas.set core (n, rec) }) }

/-- Whether the save area of a core still holds what was written to it, but for the EPC, without poison (R421, R422). -/
def intact (s : State) (ctx core : Nat) : Bool :=
  match (s.ctxs.get? ctx).bind (fun c => c.areas.get? core) with
  | none => true
  | some (n, rec) =>
    let a := saveArea s ctx core
    let b := areaBytes s a areaSize
    let w := rec ++ (List.range (areaSize - 64)).map (fun i => Config.freeByte (n + i))
    !Mem.dramPoisoned s a areaSize && b.take 8 == w.take 8 && b.drop 16 == w.drop 16

/-- A save that is lost: the context is marked, its VF told, and it ends (R422). -/
def loseSave (s : State) (ctx : Nat) : State :=
  (Events.ofCtx s ctx 3 0 0 0 0).modCtx ctx (fun c => { c with ending := true })

/-- The EPC that the host left in the record, when the record is this group's. DEDUCED, log 39. -/
def epcOf (s : State) (ctx gid : Nat) (x : Stop) : DWord :=
  let a := saveArea s ctx (gidCore gid)
  let w := areaField s (a + 4) 4
  if w / 256 % 64 = gidSlot gid && w / 16384 % 256 = gidCore gid then BitVec.ofNat 64 (areaField s (a + 8) 8) else Ops.pc64 x.epc

/-- Whether the main-file words of a stopped group are free again. -/
def wordsFree (s : State) (gid : Nat) : Bool :=
  match (s.group? gid).bind (fun g => s.teams.get? g.team) with
  | none => false
  | some tm =>
    let s0 := s.modGroup gid (fun g => { g with stop := g.stop.map (fun x => { x with resumeAsked := false }) })
    let need := Launch.words tm.kernel / max tm.kernel.groups 1
    decide (Launch.wordsUsed s0 (gidCore gid) + need ≤ Config.mainWords)

/-- A lane of FLANES continues at EPC; a misaligned one faults there. -/
def resumeLane (epc : DWord) (same : Bool) (t : Thread) : Thread :=
  { t with pc := epc.setWidth 48, status := .ready, resumed := t.resumed && same }

/-- The group goes on (R415, R416). -/
def resumeGroup (s : State) (ctx gid : Nat) (x : Stop) : State :=
  let epc := epcOf s ctx gid x
  let lanes := x.lanes.map (tidOf gid)
  let s1 := s.modGroup gid (fun g => { g with stop := none })
  let s2 := { s1 with threads := s1.threads.update (fun k => tidGid k == gid) (fun _ t => reissue t) }
  let s3 := s2.mapThreads lanes (fun _ t => resumeLane epc (epc == Ops.pc64 x.epc) t)
  if pcAligned (epc.setWidth 48) then s3 else Ops.trapAll s3 lanes (fun _ => Ops.plain 0x05 epc)

/-! ### Commands of the VF control page (R439) -/

/-- Run a command on a context of a VF; a context outside the VF sets BADCMD. A VF without a partition ignores it.
DEDUCED, log 88. -/
def command (s : State) (vf ctx : Nat) (f : Ctx → State) : State :=
  if (s.vf vf).part.isNone then s
  else match s.ctxs.get? ctx with
    | some c => if c.vf = vf then f c else s.setVf vf { s.vf vf with err := (s.vf vf).err ||| 2 }
    | none => s.setVf vf { s.vf vf with err := (s.vf vf).err ||| 2 }

/-! ### What a context holds -/

def teamsOf (s : State) (ctx : Nat) : List Nat := (s.teams.filter (fun t => t.2.ctx == ctx)).map Prod.fst
def groupsOf (s : State) (ctx : Nat) : List Nat :=
  (s.groups.filter (fun g => ((s.teams.get? g.2.team).map Team.ctx) == some ctx)).map Prod.fst
def threadsOf (s : State) (ctx : Nat) : List Nat :=
  let gs := groupsOf s ctx
  (s.threads.filter (fun t => gs.contains (tidGid t.1))).map Prod.fst

/-- The ranges of scratchpad of one core that a context's teams hold. -/
def spadOf (s : State) (ctx core : Nat) : List (Nat × Nat) :=
  (s.teams.filter (fun t => t.2.ctx == ctx && t.2.core == core)).map (fun t => (t.2.spadBase, t.2.spadBase + t.2.kernel.spad))
def tilesOf (s : State) (ctx core : Nat) : List Nat :=
  (s.teams.filter (fun t => t.2.ctx == ctx && t.2.core == core)).flatMap (fun t => t.2.tiles)

def inRanges (l : List (Nat × Nat)) (o : Nat) : Bool := l.any (fun r => decide (r.1 ≤ o) && decide (o < r.2))

/-! ### The save image (R417, R299, R176, R341) -/

/-- Whether a started matrix command is stopped at a k-step rather than run to its end. -/
def isProduct (i : Instr) : Bool :=
  match i with
  | .mma _ _ _ _ | .mmab _ _ _ _ => true
  | _ => false

/-- Whether every item of a context has finished, so that its image may close (Table 14.7). DEDUCED, log 73. -/
def mayClose (s : State) (ctx : Nat) : Bool :=
  quiet s (threadsOf s ctx)
    && (groupsOf s ctx).all (fun g => match (s.group? g).bind Group.stop with
        | some x => x.made
        | none => true)
    && s.cores.all (fun k =>
        k.2.copyq.all (fun c => c.ctx != ctx || !c.started || c.kind == 1)
        && k.2.matq.all (fun c => c.ctx != ctx || !c.started || isProduct c.instr))
    && s.orng.all (fun o => o.2.cmds.all (fun c => c.ctx != ctx || c.entry == 3 || c.entry == 4 || (!c.started && !c.cancel)))

/-- Running products of a context stop at a k-step boundary, which is not determined; one that ends there completes (R297, R299).
DEDUCED, log 56. -/
def stopProducts (s : State) (ctx : Nat) : State :=
  s.cores.foldl (fun s k => k.2.matq.foldl (fun s c =>
    if c.ctx = ctx && c.started && isProduct c.instr then
      match s.teams.get? c.team with
      | some tm =>
        let p := c.kstep + Config.freeChoice s.free % (Matrix.units c.instr - c.kstep + 1)
        Matrix.modify (Matrix.runTo (s.takeFree 1) k.1 tm c p) k.1 c.id (fun c => { c with started := false, parted := true })
      | none => s
    else s) s) s

/-- A running cpy2 stops at a row boundary: its landed pieces are those of the rows that are complete. -/
def stopCopy (s : State) (c : CopyCmd) : CopyCmd :=
  if !c.started then c
  else match s.teams.get? c.team with
    | none => c
    | some tm =>
      let ps := Copy.pieces s tm (Copy.reqOf c)
      { c with
        started := false
        landed := c.landed.filter (fun i => match ps[i]? with
          | some p => decide (p.row < c.pix)
          | none => false) }

/-- What a context leaves on one core: its scratchpad bytes and presence bits, tiles and commands. -/
def coreImage (s : State) (ctx core : Nat) (k : Core) : Core :=
  let r := spadOf s ctx core
  let ts := tilesOf s ctx core
  { Core.reset with
    spad := k.spad.keep (fun o _ => inRanges r o)
    spadUndef := k.spadUndef.filter (fun x => inRanges r x.1)
    absent := k.absent.filter (fun l => inRanges r (128 * l))
    spoison := k.spoison.filter (fun w => inRanges r (4 * w))
    tiles := k.tiles.keep (fun n _ => ts.contains n)
    tilePoison := k.tilePoison.filter (fun n => ts.contains n)
    copyq := (k.copyq.filter (fun c => c.ctx == ctx)).map (stopCopy s)
    matq := k.matq.filter (fun c => c.ctx == ctx) }

/-- What remains on the core: poisoned register words stay behind as free words, and the core is idle if no team is left (R237, R383). -/
def coreRest (s : State) (ctx core : Nat) (k : Core) : Core :=
  let r := spadOf s ctx core
  let k := Life.leaveWords s (groupsOf s ctx) core k
  { k with
    idleFrom := if s.teams.any (fun t => t.2.ctx == ctx && t.2.core == core) then some s.now else k.idleFrom
    absent := k.absent.filter (fun l => !inRanges r (128 * l))
    copyq := k.copyq.filter (fun c => c.ctx != ctx)
    matq := k.matq.filter (fun c => c.ctx != ctx) }

/-- The cores that the teams of a context stand on. -/
def coresOf (s : State) (ctx : Nat) : NSet := NSet.addAll [] ((s.teams.filter (fun t => t.2.ctx == ctx)).map (fun t => t.2.core))

/-- Close the image: everything moves out of its place, the save area of each core is written with the fault record that stands there,
and saved commands release their lines. DEDUCED, log 58. -/
def close (s : State) (ctx : Nat) : State :=
  let s := (coresOf s ctx).foldl (fun s k =>
    let s := openArea s (saveArea s ctx k)
    writeArea s ctx k (areaBytes s (saveArea s ctx k) 64)) s
  let s := stopProducts s ctx
  let mine := s.cores.flatMap (fun k => (k.2.copyq.filter (fun c => c.ctx == ctx)).map CopyCmd.id
    ++ (k.2.matq.filter (fun c => c.ctx == ctx)).map MatCmd.id)
  let withdrawn := s.orng.flatMap (fun o => (o.2.cmds.filter (fun c => c.ctx == ctx && !c.started)).map ACmd.id)
  let s := (mine ++ withdrawn).foldl Engine.release s
  let tms := teamsOf s ctx
  let gs := groupsOf s ctx
  let cls := (s.clusters.filter (fun c => c.2.teams.any tms.contains)).map Prod.fst
  let image : Image :=
    { groups := s.groups.keep (fun k _ => gs.contains k)
      threads := s.threads.keep (fun k _ => gs.contains (tidGid k))
      teams := s.teams.keep (fun k _ => tms.contains k)
      clusters := s.clusters.keep (fun k _ => cls.contains k)
      cores := s.cores.map (fun k => (k.1, coreImage s ctx k.1 k.2)) }
  { s with
    groups := s.groups.keep (fun k _ => !gs.contains k)
    threads := s.threads.keep (fun k _ => !gs.contains (tidGid k))
    teams := s.teams.keep (fun k _ => !tms.contains k)
    clusters := s.clusters.keep (fun k _ => !cls.contains k)
    cores := s.cores.map (fun k => (k.1, coreRest s ctx k.1 k.2))
    orng := s.orng.update (fun _ => true) (fun _ o => { o with cmds := o.cmds.map (fun c =>
      if c.ctx = ctx && !c.started then { c with queued := false } else c) })
    ctxs := s.ctxs.modify ctx (fun c => { c with phase := .saved, image := some image }) }

/-! ### Restore (R418) -/

/-- Whether the place of an image is free: slots, words, scratchpad, tiles, on cores that the partition still owns. -/
def placeFree (s : State) (p : Nat) (i : Image) : Bool :=
  i.groups.all (fun g => (s.group? g.1).isNone)
    && i.teams.all (fun t =>
      let c := t.2.core
      let need := ((i.teams.filter (fun x => x.2.core == c)).map (fun x =>
        Launch.words x.2.kernel - Launch.givenAway i.groups x.1 * (Launch.words x.2.kernel / max x.2.kernel.groups 1))).sum
      let here := s.teams.filter (fun x => x.2.core == c)
      let used := ((here.filter (fun x => !Life.teamDone s x.1)).map (fun x =>
        Launch.words x.2.kernel - Launch.givenAway s.groups x.1 * (Launch.words x.2.kernel / max x.2.kernel.groups 1))).sum
      s.partOwns p c && !s.lost.contains (coreDie c) && decide (used + need ≤ Config.mainWords)
        && here.all (fun x => (decide (t.2.spadBase + t.2.kernel.spad ≤ x.2.spadBase)
            || decide (x.2.spadBase + x.2.kernel.spad ≤ t.2.spadBase)) && x.2.tiles.all (fun n => !t.2.tiles.contains n)))

/-- Whether the queues of a core have room for the commands of an image (R283, R380). -/
def queuesFit (i k : Core) : Bool :=
  decide (Copy.replayed k + i.copyq.length ≤ 32) && decide (Matrix.queued k + i.matq.length ≤ 16)

/-- Put back what a context had on one core: scratchpad ranges, tiles and group slots, and its commands, which keep their places before
those of threads (R379, R418). -/
def putCore (ctx : Nat) (r : List (Nat × Nat)) (ts slots : List Nat) (i k : Core) : Core :=
  let inside (o : Nat) : Bool := inRanges r o
  let lines := (List.range 4096).filter (fun l => inside (128 * l))
  let mine (gid : Nat) : Bool := slots.contains gid
  { k with
    spad := i.spad.foldl (fun m x => m.set x.1 x.2) (k.spad.keep (fun o _ => !inside o))
    spadUndef := k.spadUndef.filter (fun x => !inside x.1) ++ i.spadUndef
    absent := k.absent.addAll i.absent
    spoison := NSet.addAll (k.spoison.filter (fun w => !inside (4 * w))) i.spoison
    tiles := i.tiles.foldl (fun m x => m.set x.1 x.2) (k.tiles.keep (fun n _ => !ts.contains n))
    tilePoison := NSet.addAll (k.tilePoison.filter (fun n => !ts.contains n)) i.tilePoison
    copyq := k.copyq.filter CopyCmd.restored ++ i.copyq.map (fun c => { c with restored := true })
      ++ k.copyq.filter (fun c => !c.restored)
    matq := k.matq ++ i.matq
    spadCtx := lines.foldl (fun m l => m.set l ctx) k.spadCtx
    tileCtx := ts.foldl (fun m n => m.set n ctx) k.tileCtx
    regCtx := if slots.isEmpty then k.regCtx else k.regCtx.add ctx
    slotCtx := slots.foldl (fun m g => m.set (gidSlot g) ctx) k.slotCtx
    spareV := k.spareV.filter (fun x => !mine (tidGid x.1))
    spareS := k.spareS.filter (fun x => !mine x.1)
    idleFrom := if slots.isEmpty then k.idleFrom else none
    ifetch := if slots.isEmpty then k.ifetch else [] }

/-- Repeat one ownership step, of a command on a core; none while it has to wait (R110, R140). -/
def reHoldOne (s : State) (core id part : Nat) (walks : Bool) (own pin : NSet) : Option State :=
  if walks || !Engine.canHold s own pin then none else some (Engine.hold s id core part own pin)

/-- Repeat the ownership steps of the restored commands, in queue order; none while one of them has to wait. -/
def reHold (s : State) (ctx : Nat) : Option State :=
  let part := s.ctxPart ctx
  s.cores.foldl (fun r k =>
    let r := k.2.copyq.foldl (fun (r : Option State) c => r.bind (fun s =>
      if c.ctx ≠ ctx then some s
      else match s.teams.get? c.team with
        | none => some s
        | some tm =>
          let q := Copy.reqOf c
          let rest := Copy.left c (Copy.pieces s tm q)
          reHoldOne (Copy.use s tm q rest) k.1 c.id part (Copy.walks s tm q rest) (Copy.ownLines s tm rest) (Copy.pinLines s tm q rest))) r
    k.2.matq.foldl (fun (r : Option State) c => r.bind (fun s =>
      if c.ctx ≠ ctx then some s
      else match s.teams.get? c.team with
        | none => some s
        | some tm =>
          let u := Matrix.units c.instr
          let ds := Matrix.destsIn c.instr c.desc c.kstep u
          let ss := Matrix.sourcesIn c.instr c.desc c.kstep u
          reHoldOne s k.1 c.id part (Matrix.walksAt s ctx tm ds .wr || Matrix.walksAt s ctx tm ss .rd)
            (Matrix.linesOf s ctx tm ds .wr) (Matrix.linesOf s ctx tm ss .rd))) r) (some s)

/-- Restore a queued context in its place, when the place is free and its commands can own their lines; an image that fails its check is
lost (R418, R422). DEDUCED, log 58. -/
def restore (s : State) (ctx : Nat) (c : Ctx) : State :=
  match c.image with
  | none => s
  | some i =>
    let ks := NSet.addAll [] (i.teams.map (fun t => t.2.core))
    let s' := ks.foldl (fun s k => openArea s (saveArea s ctx k)) s
    if !placeFree s c.part i || i.cores.any (fun x => !queuesFit x.2 (s.core x.1)) || ks.any (fun k => areaWaits s (saveArea s ctx k)) then s
    else if ks.any (fun k => !intact s' ctx k) then loseSave s' ctx
    else
      let rs (core : Nat) : List (Nat × Nat) :=
        (i.teams.filter (fun t => t.2.core == core)).map (fun t => (t.2.spadBase, t.2.spadBase + t.2.kernel.spad))
      let ts (core : Nat) : List Nat := (i.teams.filter (fun t => t.2.core == core)).flatMap (fun t => t.2.tiles)
      let gs (core : Nat) : List Nat := (i.groups.map Prod.fst).filter (fun g => gidCore g == core)
      let s1 : State := { s' with
        groups := i.groups.foldl (fun m x => m.set x.1 x.2) s'.groups
        threads := i.threads.foldl (fun m x => m.set x.1 (reissue x.2)) s'.threads
        teams := i.teams.foldl (fun m x => m.set x.1 x.2) s'.teams
        clusters := i.clusters.foldl (fun m x => m.set x.1 x.2) s'.clusters
        cores := i.cores.foldl (fun m x => m.set x.1 (putCore ctx (rs x.1) (ts x.1) (gs x.1) x.2 (m.getD x.1 Core.reset))) s'.cores
        ctxs := s'.ctxs.modify ctx (fun c => { c with phase := .running, image := none }) }
      (reHold s1 ctx).getD s

/-! ### The end of a context (R425) -/

/-- Mark a context to be ended. -/
def endSoon (s : State) (ctx : Nat) : State := s.modCtx ctx (fun c => { c with ending := true })

/-- Its engine commands stop with CANCELLED; started stages and commits run on. -/
def cancelAll (s : State) (ctx : Nat) : State :=
  let s := s.cores.foldl (fun s k => (k.2.copyq.filter (fun c => c.ctx == ctx)).foldl (fun s c =>
    Copy.finish s k.1 { c with cancel := true }) s) s
  let s := s.cores.foldl (fun s k => (k.2.matq.filter (fun c => c.ctx == ctx)).foldl (fun s c =>
    Matrix.cancelled s k.1 { c with cancel := true }) s) s
  let s := s.orng.foldl (fun s o => (o.2.cmds.filter (fun c =>
      c.ctx == ctx && c.entry != 10 && !(c.started && (c.entry == 3 || c.entry == 4)))).foldl (fun s c =>
    Arrays.leave (Arrays.undefine s c) o.1 c.id 0x100) s) s
  (s.fabric.filter (fun c => c.ctx == ctx)).foldl (fun s c => Fabric.fail s c (Fabric.status 0 true 0 0)) s

/-- Every launch of the context writes KILLED to its completion record, and to its handle; none while a record has to wait. -/
def killLaunches (s : State) (ctx : Nat) : Option State :=
  let s1 := s.grids.foldl (fun (r : Option State) g => r.bind (fun s =>
    if g.2.ctx = ctx then Launch.finish s ctx g.2.crec g.2.cmd 4 else some s)) (some s)
  let s2 := s.launchReqs.foldl (fun (r : Option State) x => r.bind (fun s =>
    if x.2.ctx = ctx then
      (Launch.readNow s ctx x.2.packet 64).bind (fun y => match y with
        | .ok (b, s) => Launch.finish s ctx (Launch.ofPacket b).crec x.2.cmd 4
        | .error e => Launch.finish e.2 ctx 0 x.2.cmd 4)
    else some s)) s1
  s2.map (fun s =>
    { s with grids := s.grids.keep (fun _ g => g.ctx != ctx), launchReqs := s.launchReqs.keep (fun _ r => r.ctx != ctx) })

/-- The packets that are left when some threads' continuations are discarded. -/
def dropConts (ps : Tab Packet) (gone : Nat → Bool) : Tab Packet :=
  (ps.update (fun _ => true) (fun _ p => { p with conts := p.conts.filter (fun b => !gone (Ops.unpackCont b).tid) })).keep
    (fun _ p => !p.conts.isEmpty)

/-- What the context held is freed; 2048 stands for it where buffers remember their last holder. The launch deques that its records leave
are empty from now on (R376). -/
def freeAll (s : State) (ctx : Nat) : State :=
  let gs := groupsOf s ctx
  let tms := teamsOf s ctx
  let p := s.ctxPart ctx
  let away : Tab (Tab Guest) := s.cores.map (fun k => (k.1, k.2.guests.keep (fun _ g => g.ctx != ctx)))
  let cores := (s.teams.filter (fun t => t.2.ctx == ctx)).map (fun t => t.2.core)
  let old (x : Nat) : Nat := if x = ctx then 2048 else x
  { s with
    threads := s.threads.keep (fun k _ => !gs.contains (tidGid k))
    groups := s.groups.keep (fun k _ => !gs.contains k)
    teams := s.teams.keep (fun k _ => !tms.contains k)
    clusters := s.clusters.keep (fun _ c => !c.teams.any tms.contains)
    packets := dropConts s.packets (fun tid => gs.contains (tidGid tid))
    excl := s.excl.keep (fun _ e => !gs.contains (tidGid e.tid))
    dieTlb := s.dieTlb.update (fun _ => true) (fun _ l => l.filter (fun e => e.ctx ≠ ctx))
    walks := s.walks.filter (fun w => w.ctx ≠ ctx)
    cores := s.cores.update (fun _ => true) (fun c k =>
      { Life.leaveWords s gs c k with
        guests := away.getD c []
        tlb := k.tlb.filter (fun e => e.ctx ≠ ctx)
        absent := k.absent.filter (fun l => !inRanges (spadOf s ctx c) (128 * l))
        spadCtx := k.spadCtx.update (fun _ => true) (fun _ x => old x)
        tileCtx := k.tileCtx.update (fun _ => true) (fun _ x => old x)
        slotCtx := k.slotCtx.update (fun _ => true) (fun _ x => old x)
        regCtx := if k.regCtx.contains ctx then (k.regCtx.del ctx).add 2048 else k.regCtx
        idleFrom := if cores.contains c then some s.now else k.idleFrom })
    parts := s.parts.modify p (fun q =>
      (q.tasks.filter (fun t => t.ctx == ctx && t.launches && !t.waits)).foldl (fun q t => Tasks.noteEmpty q t.home s.now)
        { q with tasks := q.tasks.filter (fun t => t.ctx ≠ ctx) })
    ctxs := s.ctxs.erase ctx }

/-! ### Die loss (R17, R423, R424) -/

/-- The bits of the lost set of a join: an Arbor die with its four Orangery dies, or one Orangery die. -/
def lostSet (join : Nat) : List Nat :=
  if join < 4 then [join, 4 * join + 4, 4 * join + 5, 4 * join + 6, 4 * join + 7] else [join]

/-- Whether a team, a save area, or a save image of a context lies on a lost Arbor die (R424). -/
def fatal (s : State) (ctx : Nat) (c : Ctx) (set : List Nat) : Bool :=
  let onLost (core : Nat) : Bool := set.contains (coreDie core)
  s.teams.any (fun t => t.2.ctx == ctx && onLost t.2.core)
    || (match c.image with
      | some i => i.teams.any (fun t => onLost t.2.core)
      | none => false)
    || (List.range 192).any (fun k => s.partOwns c.part k && (set.contains (Mem.homeDie (saveArea s ctx k))
        || set.contains (Mem.homeDie (saveArea s ctx k + 0x30FFFF))))

/-- Whether a thread runs on a lost die, or its continuation travels to or from one (R211, R424). -/
def astray (s : State) (tid : Nat) (t : Thread) (set : List Nat) : Bool :=
  let onLost (core : Nat) : Bool := set.contains (coreDie core)
  (match t.visit with
    | some v => onLost v.core
    | none => false)
  || (match t.hop with
    | some h => onLost h.dest
    | none => false)
  || s.packets.any (fun p => (onLost p.2.src || onLost p.2.dest) && p.2.conts.any (fun b => (Ops.unpackCont b).tid == tid))

/-- A thread whose continuation is discarded stands at home again: what the continuation carried, its PC among it, is lost, and no rule
gives what the home lane holds then. The PC stays that of an instruction slot. DEDUCED, log 32. -/
def strand (s : State) (tid : Nat) (t : Thread) : State :=
  let w (i : Nat) : Word := Config.freeWord (s.free + i)
  let home := { t with
    visit := none, hop := none, status := .ready, stay := false, resumed := false, longs := []
    pc := BitVec.ofNat 48 (64 * ((w 0).toNat + 2 ^ 32 * ((w 1).toNat % 1024)) + 12 * ((w 2).toNat % 5))
    flags := (w 3).extractLsb' 0 5, trapen := (w 4).extractLsb' 0 5 }
  let home := (List.range 32).foldl (fun h i => if t.carryV.getLsbD i then h.setV i (w (5 + i)) else h) home
  let home := if t.carryQ then (List.range 32).foldl (fun h i => if i = 0 then h else h.setQ i ((w 37).getLsbD i)) home else home
  { s with excl := s.excl.keep (fun _ e => e.tid != tid) }.setThread tid home |>.takeFree 38

/-- The stop that a die loss makes of a group (R424). -/
def lossStop : Stop where
  kind := .dieloss
  vec := 0
  cause := 0x50
  inH := false
  epc := 0
  eaddr := 0
  syn := 0
  brkn := 0
  gpa := 0
  lanes := []
  pix := 0
  made := false
  resumeAsked := false

/-- Every group of a context stops with DIE_LOST, those of its save image as soon as they are back. -/
def stopForLoss (s : State) (ctx : Nat) : State :=
  let s := (groupsOf s ctx).foldl (fun s gid => Ops.beginStop s gid lossStop) s
  s.modCtx ctx (fun c => { c with image := c.image.map (fun i => { i with
    groups := i.groups.update (fun _ => true) (fun _ g => { g with stop := g.stop.or (some lossStop) }) }) })

/-- The commands of a context that touch a lost die, or run on one, end with DIE_LOST (R174, R300, R341, R424). -/
def endCommands (s : State) (ctx : Nat) (set : List Nat) : State :=
  let s := s.cores.foldl (fun s k => (k.2.copyq.filter (fun c => c.ctx == ctx)).foldl (fun s c =>
    match s.teams.get? c.team with
    | some tm => if set.contains (coreDie k.1) || set.any (Copy.touches s tm (Copy.reqOf c)) then
        Copy.finish s k.1 { c with err := if c.err = 0 then 0x50 else c.err } else s
    | none => s) s) s
  let s := s.cores.foldl (fun s k => (k.2.matq.filter (fun c => c.ctx == ctx)).foldl (fun s c =>
    match s.teams.get? c.team with
    | some tm => if set.contains (coreDie k.1) || set.any (Matrix.touches s ctx tm c) then
        Matrix.fail s k.1 ((Matrix.find? s k.1 c.id).getD c) 0x50 else s
    | none => s) s) s
  let s := s.orng.foldl (fun s o => (o.2.cmds.filter (fun c => c.ctx == ctx && c.entry != 10)).foldl (fun s c =>
    let touches : Bool := match s.teams.get? c.team with
      | some tm => set.any (Arrays.touches s ctx tm (if c.queued || c.entry = 8 then Arrays.ranges c else []))
      | none => false
    if set.contains (4 + o.1) || touches then Arrays.fail (Arrays.undefine s c) o.1 c.id 0x50 0 else s) s) s
  (s.fabric.filter (fun c => c.ctx == ctx)).foldl (fun s c =>
    let q := Fabric.reqOf c.instr c.desc
    let m := Fabric.comm s ctx c.comm
    match s.teams.get? c.team with
    | some tm => if set.any (fun d => Fabric.touches s ctx tm (Fabric.source q m) d || Fabric.touches s ctx tm (Fabric.target q m) d) then
        Fabric.fail s c (Fabric.status 0x50 false 0 0) else s
    | none => s) s

/-- One affected context (R424). DEDUCED, log 32. -/
def suffer (s : State) (ctx : Nat) (set : List Nat) : State :=
  match s.ctxs.get? ctx with
  | none => s
  | some c =>
    let s := Events.ofCtx s ctx 5 0 0 0 0
    let s := endCommands s ctx set
    let lost := (threadsOf s ctx).filter (fun tid => ((s.thread? tid).map (fun t => astray s tid t set)).getD false)
    let s := { s with packets := dropConts s.packets lost.contains }
    let s := lost.foldl (fun s tid => match s.thread? tid with
      | some t => strand s tid t
      | none => s) s
    if fatal s ctx c set then endSoon s ctx else stopForLoss s ctx

end Stops

/-- HOST_SERVICED_STOP: visitors of a stopping group are forced home, its stores are drained, the fault record is written to the save
area of its core, and the host is told (R414). DEDUCED, log 55. -/
def execHostServicedStop (gid : Nat) (s : State) : Result := .next <|
  match (s.group? gid).bind Group.stop, Stops.ctxOf s gid with
  | some x, some ctx =>
    if x.made then s
    else
      let tids := Life.threadsOf s gid
      let s := Stops.force s tids
      if !Stops.quiet s tids then s
      else
        let a := Stops.saveArea s ctx (gidCore gid)
        if Stops.areaWaits s a then s else
        let s := Stops.writeArea s ctx (gidCore gid) (Stops.recordOf s ctx gid x)
        let s := Ops.flushBuffer (s.modGroup gid (fun g => { g with stop := some { x with made := true } })) gid
        Events.ofCtx s ctx 1 (gidCore gid) (gidSlot gid) a 0
  | _, _ => s

/-- RESUME: a stopped group goes on when its register words are free; until then it waits ahead of new placements (R415). An image that fails
its check ends the context (R422).
DEDUCED, log 39; DESIGN CHOICE, log 57. -/
def execResume (vf ctx core group : Nat) (s : State) : Result := .next <|
  Stops.command s vf ctx (fun c =>
    let gid := gidOf core group
    match (s.group? gid).bind Group.stop with
    | some x =>
      if !x.made || c.phase != Phase.running || c.ending || Stops.ctxOf s gid != some ctx then s
      else if Stops.wordsFree s gid && !Stops.areaWaits s (Stops.saveArea s ctx core) then
        let s := Stops.openArea s (Stops.saveArea s ctx core)
        if Stops.intact s ctx core then Stops.resumeGroup s ctx gid x else Stops.loseSave s ctx
      else s.modGroup gid (fun g => { g with stop := some { x with resumeAsked := true } })
    | none => s)

/-- KILL: the context is to be ended (R425, R439). -/
def execKill (vf ctx : Nat) (s : State) : Result := .next <| Stops.command s vf ctx (fun _ => Stops.endSoon s ctx)

/-- PREEMPT: the context's groups stop at their next instruction boundaries (R417). -/
def execPreempt (vf ctx : Nat) (s : State) : Result := .next <|
  Stops.command s vf ctx (fun c =>
    if c.phase = .running && !c.ending then s.modCtx ctx (fun c => { c with phase := .stopping }) else s)

/-- SAVE_IMAGE_CLOSE: visitors are forced home; when every item of Table 14.7 has finished, the image closes (R417).
DEDUCED, log 55. -/
def execSaveImageClose (ctx : Nat) (s : State) : Result := .next <|
  match s.ctxs.get? ctx with
  | none => s
  | some c =>
    if c.phase != .stopping || c.ending then s
    else
      let s := Stops.force s (Stops.threadsOf s ctx)
      if Stops.mayClose s ctx && !(Stops.coresOf s ctx).any (fun k => Stops.areaWaits s (Stops.saveArea s ctx k)) then Stops.close s ctx else s

/-- RESTORE: a saved context is queued for its place, and restored when the place is free (R418). Asked again, it tries again.
DESIGN CHOICE, log 57. -/
def execRestore (vf ctx : Nat) (s : State) : Result := .next <|
  Stops.command s vf ctx (fun c =>
    if c.ending then s
    else match c.phase with
      | .saved | .queued => Stops.restore (s.modCtx ctx (fun c => { c with phase := .queued })) ctx { c with phase := .queued }
      | _ => s)

/-- SAVE_LOST: a failed or poisoned save, or an image that fails its check, ends the context (R422). DEDUCED, log 58. -/
def execSaveLost (ctx : Nat) (s : State) : Result := .next <|
  match s.ctxs.get? ctx with
  | none => s
  | some c =>
    let stops := (Stops.groupsOf s ctx).any (fun g => ((s.group? g).bind Group.stop).isSome)
    if c.ending || (c.phase = .running && !stops) then s
    else Stops.loseSave s ctx

/-- CONTEXT_END: threads retire without a release, commands are cancelled, launches are KILLED, task records leave the pool, resources
are freed and the VF is told (R425). It
waits while a completion record has to. -/
def execContextEnd (ctx : Nat) (s : State) : Result := .next <|
  match s.ctxs.get? ctx with
  | none => s
  | some c =>
    if !c.ending then s
    else
      match Stops.killLaunches (Stops.cancelAll s ctx) ctx with
      | none => s
      | some s =>
        let s := Events.ofCtx s ctx 2 0 0 0 0
        let s := Stops.freeAll s ctx
        if s.ctxs.any (fun x => x.2.part == c.part) then s else Power.withdraw s c.part

/-- LINK_FAILURE: a UCIe join fails and retrains; it carries no flit from now on, until lane repair lets one pass (R17).
DEDUCED, log 59; DESIGN CHOICE, log 92. -/
def execLinkFailure (join : Nat) (s : State) : Result := .next <|
  if join < 20 then { s with linkDown := s.linkDown.set join s.now } else s

/-- DIE_LOSS: after 100 µs without a flit the hub declares the die beyond a join lost, and the contexts that have touched it stop or
end (R17, R424). DEDUCED, log 32; DEDUCED, log 59. -/
def execDieLoss (join : Nat) (s : State) : Result := .next <|
  match s.linkDown.get? join with
  | none => s
  | some t =>
    let set := (Stops.lostSet join).filter (fun b => !s.lost.contains b)
    if s.now < t + 100000 || set.isEmpty then s
    else
      let s := { s with lost := NSet.addAll s.lost set }
      (s.ctxs.filter (fun c => set.any (fun b => c.2.touched.getLsbD b))).foldl (fun s c => Stops.suffer s c.1 set) s

end Sys2Proof.Machine
end

