-- ==== Sys2Proof/Machine/System.lean ====
section
/-! DEFINITION. The system instructions: sysrd, syswr, tlbi, cmaint, halt, chkset (R427 to R432), the system address space (R443), and
writes to registers without behaviour of their own (R6). -/

namespace Sys2Proof.Machine

open Sys2Proof

namespace System

/-! ### The system address space (Table 15.4) -/

/-- Word k of a number. -/
def word (x k : Nat) : Word := BitVec.ofNat 32 (x / 2 ^ (32 * k))

/-- The governor's registers (Table 13.3). DEDUCED, log 61. -/
def govWord (s : State) (o : Nat) : Word :=
  let g := s.gov
  match o / 4 with
  | 0 => g.margin
  | 1 => g.cap.setWidth 32
  | 2 => g.capseq
  | 3 => match g.leaseEnd with
    | some t => BitVec.ofNat 32 ((t - s.now) / 1000000)
    | none => 0
  | 4 => g.fallback.setWidth 32
  | 5 => g.floor.setWidth 32
  | 6 => g.ramp.setWidth 32
  | 7 => g.drth.setWidth 32
  | 8 => g.defpt.setWidth 32
  | _ => g.lastseq

/-- A partition descriptor (Table 15.2); the bytes between its registers read 0. DEDUCED, log 60. -/
def partWord (x : Part) (o : Nat) : Word :=
  let k := o / 4
  if k < 6 then word x.cores.toNat k
  else if k = 6 then x.waymask.setWidth 32
  else if k = 8 || k = 9 then word x.s2root.toNat (k - 8)
  else if k = 10 then x.tqcfg.setWidth 32
  else if k = 12 || k = 13 then word x.trbase.toNat (k - 12)
  else if k = 14 then x.log2nrec.setWidth 32
  else if k = 16 || k = 17 then word x.peacc.toNat (k - 16)
  else if k = 32 || k = 33 then word x.dctbase.toNat (k - 32)
  else 0

def bit (b : Bool) (n : Nat) : Nat := if b then 2 ^ n else 0

/-- A region table entry (Table 04.7). -/
def regionWord (r : Region) : Word := BitVec.ofNat 32 (bit r.valid 0 + bit r.scrub.isSome 1 + 256 * r.owner)

/-- A format window (Table 04.9). -/
def fmtwWord (w : Fmtw) (o : Nat) : Word :=
  let k := o / 4
  if k = 0 then BitVec.ofNat 32 (bit w.en 0 + bit w.busy 1 + bit w.err 2 + bit w.range 3 + 16 * w.m.toNat + 256 * w.part)
  else if k = 2 || k = 3 then word w.vbase.toNat (k - 2)
  else if k = 4 then w.vlen
  else if k = 6 || k = 7 then word w.mbase.toNat (k - 6)
  else if k = 8 || k = 9 then word w.sbase.toNat (k - 8)
  else 0

/-- STOPPED (Table 11.3). -/
def stopped (o : Orng) (seq : Nat) : Bool := (o.seqrs.getD seq Seqr.reset).stop && Arrays.busyLanes o seq == 0

/-- A sequencer's control block (Table 11.3). -/
def seqWord (o : Orng) (seq k : Nat) : Word :=
  let q := o.seqrs.getD seq Seqr.reset
  if k = 0 then BitVec.ofNat 32 (bit q.stop 0 + bit (stopped o seq) 1 + bit q.fault 2)
  else if k = 1 then q.caddr.setWidth 32
  else if k < 6 then q.cwd.getD (k - 2) 0
  else if k < 8 then 0
  else (q.evec.getD (k - 8) 0).setWidth 32

/-- The block of an Orangery die; none where nothing is assigned. DEDUCED, log 60. -/
def dieWord (o : Orng) (a : Nat) : Option Word :=
  if a < 0x8000 then some (o.perm.getD (a / 4) 0)
  else if a < 0x8400 then some (seqWord o ((a - 0x8000) / 64) (a % 64 / 4))
  else if a = 0x9000 || a = 0x9004 then some (word o.shbase.toNat ((a - 0x9000) / 4))
  else if 0x9100 ≤ a && a < 0x9200 then
    let e := o.stgOwner.getD ((a - 0x9100) / 4) StgOwner.reset
    some (BitVec.ofNat 32 (bit e.valid 0 + bit e.erase 1 + 4 * e.owner))
  else none

/-- Event counters: EVSELn from offset 0, EVCNTn from `cnt` (R455). -/
def counterWord (sel : Tab Word) (evcnt : Tab (BitVec 48)) (n cnt a : Nat) : Word :=
  if a < 4 * n then sel.getD (a / 4) 0
  else if cnt ≤ a && a < cnt + 8 * n then word (evcnt.getD ((a - cnt) / 8) 0).toNat (a / 4 % 2)
  else 0

/-- The word at an address; none where nothing is assigned. DEDUCED, log 60. -/
def read (s : State) (a : Nat) : Option Word :=
  if a < 0x28 then some (govWord s a)
  else if 0x10000 ≤ a && a < 0x11800 then some (partWord (s.part ((a - 0x10000) / 256)) (a % 256))
  else if 0x30000 ≤ a && a < 0x30C00 then some (regionWord (s.regions.getD ((a - 0x30000) / 4) Region.reset))
  else if 0x40000 ≤ a && a < 0x44000 then
    if a % 4096 < 0x400 then some (fmtwWord (s.fmtw.getD (16 * ((a - 0x40000) / 4096) + a % 4096 / 64) Fmtw.reset) (a % 64)) else none
  else if 0x100000 ≤ a && a < 0x300000 then dieWord (s.die ((a - 0x100000) / 0x20000)) (a % 0x20000)
  else if 0x300000 ≤ a && a < 0x300300 then some (counterWord s.hubEvsel s.hubEvcnt 64 0x100 (a - 0x300000))
  else if 0x400000 ≤ a && a < 0x40C000 then
    let k := s.core ((a - 0x400000) / 256)
    some (counterWord k.evsel k.evcnt 16 0x40 (a % 256))
  else none

/-- Replace half k of a counter. -/
def half (old : BitVec 48) (k : Nat) (w : Word) : BitVec 48 :=
  if k = 0 then old.extractLsb' 32 16 ++ w else w.extractLsb' 0 16 ++ old.extractLsb' 0 32

/-- EVSEL without its reserved bits (Table 15.9). -/
def evsel (w : Word) : Word := w &&& 0x1FFFF#32

/-- A write to a counter block. -/
def putCounter (sel : Tab Word) (evcnt : Tab (BitVec 48)) (n cnt a : Nat) (w : Word) : Tab Word × Tab (BitVec 48) :=
  if a < 4 * n then (Tab.put 0 sel (a / 4) (evsel w), evcnt)
  else if cnt ≤ a && a < cnt + 8 * n then
    let i := (a - cnt) / 8
    (sel, Tab.put 0 evcnt i (half (evcnt.getD i 0) (a / 4 % 2) w))
  else (sel, evcnt)

def setMargin (s : State) (w : Word) : State :=
  if w.toNat ≤ 1000000 then { s with gov := { s.gov with margin := w } } else s
def setFloor (s : State) (w : Word) : State :=
  if (w.extractLsb' 0 16).toNat ≤ 1500 then { s with gov := { s.gov with floor := w.extractLsb' 0 16 } } else s
def setRamp (s : State) (w : Word) : State := { s with gov := { s.gov with ramp := w.extractLsb' 0 16 } }
def setDrth (s : State) (w : Word) : State := { s with gov := { s.gov with drth := w.extractLsb' 0 8 } }
def setDefpt (s : State) (w : Word) : State :=
  if (w.extractLsb' 0 4).toNat ≤ 11 then { s with gov := { s.gov with defpt := w.extractLsb' 0 4 } } else s
def setFallback (s : State) (w : Word) : State :=
  let x := w.extractLsb' 0 16
  if 400 ≤ x.toNat && x.toNat ≤ 1500 then { s with gov := { s.gov with fallback := x } } else s

/-- A write that a context with SYS may make (R443); none where only the management processor writes. -/
def write (s : State) (a : Nat) (w : Word) : Option State :=
  if a = 0 then some (setMargin s w)
  else if a = 0x14 then some (setFloor s w)
  else if a = 0x18 then some (setRamp s w)
  else if a = 0x1C then some (setDrth s w)
  else if a = 0x20 then some (setDefpt s w)
  else if 0x10000 ≤ a && a < 0x11800 && a % 256 = 0x28 then
    some (s.modPart ((a - 0x10000) / 256) (fun p => { p with tqcfg := w.extractLsb' 0 8 }))
  else if 0x300000 ≤ a && a < 0x300300 then
    let r := putCounter s.hubEvsel s.hubEvcnt 64 0x100 (a - 0x300000) w
    some { s with hubEvsel := r.1, hubEvcnt := r.2 }
  else if 0x400000 ≤ a && a < 0x40C000 then
    some (s.modCore ((a - 0x400000) / 256) (fun k =>
      let r := putCounter k.evsel k.evcnt 16 0x40 (a % 256) w
      { k with evsel := r.1, evcnt := r.2 }))
  else none

/-! ### Forms -/

/-- The context of the executing cohort. -/
def cohortCtx (s : State) (act : List Nat) : Nat := (act.head?.map s.ctxOf).getD 0

/-- A SYS form: without the context's SYS attribute it raises ILL_OP with %eaddr = OP (R427). -/
def sysForm (op : Nat) (h : Hdr) (s : State) (f : Cohort → State) : Result :=
  Ops.withCohort s fun c =>
    let act := Ops.active s c h
    if act.isEmpty || ((s.ctxs.get? (cohortCtx s act)).map Ctx.sys).getD false then f c
    else Ops.trapAll (Ops.advance s (c.tids.filter (fun t => !act.contains t))) act (fun _ => Ops.plain 0x01 (BitVec.ofNat 64 op))

/-- A value in an s-register. -/
def sval (s : State) (gid : Nat) (t : Thread) (r : Reg) : Nat := (Operands.val s gid t r).toNat

/-- Invalidate the cached translations that satisfy p, in every core and die, and the walks in flight that satisfy q, whose accesses
walk again (R111). The walkers keep no entry. DEDUCED, log 77. -/
def invalidate (s : State) (p : TlbEntry → Bool) (q : Walk → Bool) : State :=
  { s with
    cores := s.cores.update (fun _ => true) (fun _ k => { k with tlb := k.tlb.filter (fun e => !p e) })
    dieTlb := s.dieTlb.update (fun _ => true) (fun _ l => l.filter (fun e => !p e))
    walks := s.walks.filter (fun w => !q w)
    walkers := [] }

/-- Invalidate every translation of the contexts that satisfy p. -/
def invalidateCtx (s : State) (p : Nat → Bool) : State := invalidate s (fun e => p e.ctx) (fun w => p w.ctx)

/-- tlbi: a release, then the invalidation (R429). -/
def tlbi (s : State) (c : Cohort) (h : Hdr) (f : State → Nat → Thread → Nat → State) : State :=
  Ops.perGroup s c h true fun s gid t lanes => .go (f s gid t (cohortCtx s lanes))

/-! ### cmaint (R430) -/

/-- A line that passed the checks. -/
structure Line where
  tid   : Nat
  core  : Nat
  phys  : Mem.Phys
  deriving DecidableEq, Repr

/-- Steps 1 and 3 of R152 on the line of an address; a class other than global raises PERM, kind MAP. DEDUCED, log 81. -/
def checkLine (s : State) (tid : Nat) (t : Thread) (ea : DWord) (acc : Mem.Acc) : Except Cause Line :=
  match Mem.classify s tid t (ea &&& ~~~63#64) 64 false with
  | some (.glob va) =>
    match Mem.translate s (Mem.coreOf tid t) (s.ctxOf tid) va acc ea with
    | .ok p => .ok { tid := tid, core := Mem.coreOf tid t, phys := p }
    | .error c => .error c
  | _ => .error (Mem.mapFault acc ea)

/-- Whether the check of a line has to wait for a walk (R110). -/
def lineWalks (s : State) (tid : Nat) (t : Thread) (ea : DWord) (acc : Mem.Acc) : Bool :=
  match Mem.classify s tid t (ea &&& ~~~63#64) 64 false with
  | some (.glob va) => Mem.walking s (Mem.coreOf tid t) (s.ctxOf tid) va acc
  | _ => false

/-- Write every registered word of a line home, and the line to memory; copies stay. An acknowledgement on its way to an owner arrives
first. -/
def writeLine (s : State) (part line : Nat) : State :=
  let s := Mem.mergeLine s line
  let s := (List.range 16).foldl (fun s i =>
    let w := 16 * line + i
    match s.owner.get? w with
    | none => s
    | some c =>
      let s := match Mem.l1? s c w with
        | some x => if x.st = L1State.P then Mem.ackNow s x.reg else s
        | none => s
      match Mem.l1? s c w with
      | some x => Mem.wordPut s part w x.val (!x.poison)
      | none => s) s
  Mem.writeBack s line

/-- Recall every owner and invalidate every copy of a line, in every L1 and in the LLC; stores in flight are registered first. -/
def purgeLine (s : State) (line : Nat) : State :=
  let ids := (s.regs.filter (fun r => r.2.word / 16 == line)).map Prod.fst
  let s := ids.foldl (fun s id => Mem.ackNow (Mem.registerNow s id) id) s
  let s := Mem.evictHome s line
  { s with cores := s.cores.update (fun _ => true) (fun _ k => { k with l1 := k.l1.keep (fun w _ => w / 16 != line) }) }

/-- Whether an operation on a line has to wait: a scrub or flush, an engine that holds it, or a cross-die atomic. -/
def lineBusy (s : State) (p : Mem.Phys) : Bool :=
  p.wait || Mem.engineHolds s (p.pa / 64) || Mem.exclHeld s Config.cores (p.pa / 64)

/-- cmaint in each active lane: release, checks, then the operation. DEDUCED, log 81. -/
def cmaint (h : Hdr) (addr : Addr) (acc : Mem.Acc) (busy : State → Mem.Phys → Bool) (f : State → Nat → Mem.Phys → State) (s : State) :
    Result :=
  Ops.withCohort s fun c =>
    let act := Ops.active s c h
    let ths := act.filterMap (fun tid => (s.thread? tid).map (fun t => (tid, t, Operands.addr s (tidGid tid) t addr)))
    let res := ths.map (fun x => (x.1, checkLine s x.1 x.2.1 x.2.2 acc))
    let bad : List (Nat × Trap) := res.filterMap (fun r => match r.2 with
      | .error x => some (r.1, .fault x)
      | .ok _ => none)
    let good : List Line := res.filterMap (fun r => match r.2 with
      | .ok l => some l
      | .error _ => none)
    if !Ops.allDrained s act || ths.any (fun x => lineWalks s x.1 x.2.1 x.2.2 acc) then Ops.stall s c.tids
    else if !bad.isEmpty then Mem.takeFaults s bad
    else if good.any (fun l => busy s l.phys) then Ops.stall s c.tids
    else
      let s1 := good.foldl (fun s l =>
        let s := Mem.translated s l.core (s.ctxOf l.tid) l.phys
        if l.phys.stale then Events.violation s (s.ctxOf l.tid) (gidCore (tidGid l.tid)) (gidSlot (tidGid l.tid))
        else f s (s.ctxPart (s.ctxOf l.tid)) l.phys) s
      Ops.advance s1 c.tids

end System

/-- sysrd: one 32-bit read of the system address space, a release before and an acquire after (R428). -/
def execSysrd (h : Hdr) (d : Reg) (addr : BitVec 32) (s : State) : Result :=
  System.sysForm 0xF1 h s fun c =>
    Ops.perGroup s c h true fun s gid _ _ =>
      match System.read s addr.toNat with
      | none => .trap s (fun _ => .fault (Mem.mapFault .rd (addr.setWidth 64)))
      | some w => .go (Ops.acquireCore (Operands.commitGroup s gid (Operands.out32 d w)) (gidCore gid))

/-- syswr: one 32-bit write of the system address space (R428, R443). -/
def execSyswr (h : Hdr) (a : Reg) (addr : BitVec 32) (s : State) : Result :=
  System.sysForm 0xF2 h s fun c =>
    Ops.perGroup s c h true fun s gid t _ =>
      if (System.read s addr.toNat).isNone then .trap s (fun _ => .fault (Mem.mapFault .wr (addr.setWidth 64)))
      else match System.write s addr.toNat (Operands.val s gid t a) with
        | none => .trap s (fun _ => .fault (Mem.xfault 0x11 0 0 2 .wr (addr.setWidth 64) 0))
        | some s => .go (Ops.acquireCore s (gidCore gid))

/-- tlbi.va: the executing context's entries for one page, with the walks that would install one (R429). DEDUCED, log 77. -/
def execTlbiVa (h : Hdr) (a : Reg) (s : State) : Result := Ops.withCohort s fun c =>
  System.tlbi s c h fun s gid t ctx =>
    let va := (Operands.val64 s gid t a).toNat
    System.invalidate s (fun e => e.ctx == ctx && decide (e.base ≤ va) && decide (va < e.base + e.size))
      (fun w => w.ctx == ctx && w.page / 2 ^ 30 == va / 2 ^ 30)

/-- tlbi.ctx: every entry of the executing context (R429). -/
def execTlbiCtx (h : Hdr) (s : State) : Result := Ops.withCohort s fun c =>
  System.tlbi s c h fun s _ _ ctx => System.invalidateCtx s (fun x => x == ctx)

/-- tlbi.oth: every entry of context S[A] (R429). -/
def execTlbiOth (h : Hdr) (a : Reg) (s : State) : Result := System.sysForm 0xF3 h s fun c =>
  System.tlbi s c h fun s gid t _ => System.invalidateCtx s (fun x => x == System.sval s gid t a)

/-- tlbi.part: the entries of partition S[A] (R429). -/
def execTlbiPart (h : Hdr) (a : Reg) (s : State) : Result := System.sysForm 0xF3 h s fun c =>
  System.tlbi s c h fun s gid t _ =>
    let p := System.sval s gid t a
    System.invalidateCtx s (fun x => ((s.ctxs.get? x).map Ctx.part) == some p)

/-- tlbi.all: every entry (R429). -/
def execTlbiAll (h : Hdr) (s : State) : Result := System.sysForm 0xF3 h s fun c =>
  System.tlbi s c h fun s _ _ _ => System.invalidateCtx s (fun _ => true)

/-- cmaint.wb: merge the line and write its registered words to memory; copies stay (R430). -/
def execCmaintWb (h : Hdr) (addr : Addr) (s : State) : Result :=
  System.cmaint h addr .rd System.lineBusy
    (fun s part p => if p.unc then s else System.writeLine s part (p.pa / 64)) s

/-- cmaint.wbi: write back, then recall every owner and invalidate every copy (R430). -/
def execCmaintWbi (h : Hdr) (addr : Addr) (s : State) : Result :=
  System.cmaint h addr .rd System.lineBusy
    (fun s part p => if p.unc then s else System.purgeLine (System.writeLine s part (p.pa / 64)) (p.pa / 64)) s

/-- cmaint.ic: every core discards its instruction-fetch copy of the line (R430). -/
def execCmaintIc (h : Hdr) (addr : Addr) (s : State) : Result :=
  System.cmaint h addr .fetch (fun _ _ => false)
    (fun s _ p => { s with cores := s.cores.update (fun _ => true) (fun _ k => { k with ifetch := k.ifetch.erase (p.pa / 64) }) }) s

/-- halt: the executing context ends (R431). -/
def execHalt (h : Hdr) (s : State) : Result := System.sysForm 0xF5 h s fun c =>
  Ops.perGroup s c h true fun s _ _ lanes => .go (Stops.endSoon s (System.cohortCtx s lanes))

/-- chkset: the sampling interval of a partition, 0 or a power of two up to 2^20; its counters restart (R432).
DESIGN CHOICE, log 23. -/
def execChkset (h : Hdr) (a : Reg) (n : Src) (s : State) : Result := System.sysForm 0xF6 h s fun c =>
  Ops.perGroup s c h true fun s gid t _ =>
    let p := System.sval s gid t a
    let v := (Operands.src s gid t n).toNat
    if 24 ≤ p || !(v == 0 || (List.range 21).any (fun k => v == 2 ^ k)) then .trap s Ops.illOp
    else
      let s := s.modPart p (fun x => { x with interval := v })
      .go { s with
        cores := s.cores.update (fun k => s.partOwns p k) (fun _ k => { k with matCount := 0 })
        orng := s.orng.update (fun _ => true) (fun _ o => { o with passCount := o.passCount.erase p }) }

/-! ### Registers without behaviour of their own (R6) -/

namespace System

/-- Fields of a format window that a write changes only while EN = 0 (R124). -/
def windowField (s : State) (w : Nat) (f : Fmtw → Fmtw) : State :=
  if 64 ≤ w || (s.fmtw.getD w Fmtw.reset).en then s else Regions.modFmtw s w f

/-- A W1C flag of a format window. -/
def windowFlag (s : State) (w : Nat) (f : Fmtw → Fmtw) : State := if 64 ≤ w then s else Regions.modFmtw s w f

/-- A register of a VF control page; ignored by a VF without a partition (R436). DESIGN CHOICE, log 80. -/
def vfField (s : State) (vf : Nat) (f : Vf → Vf) : State :=
  if 128 ≤ vf || (s.vf vf).part.isNone then s else s.setVf vf (f (s.vf vf))

/-- A register of a sequencer. -/
def seqField (s : State) (die seq : Nat) (whenStopped : Bool) (f : Seqr → Seqr) : State :=
  let o := s.die die
  if 16 ≤ die || 16 ≤ seq || (whenStopped && !stopped o seq) then s
  else s.setDie die { o with seqrs := o.seqrs.set seq (f (o.seqrs.getD seq Seqr.reset)) }

/-- A register of a partition. -/
def partField (s : State) (p : Nat) (f : Part → Part) : State := if 24 ≤ p then s else s.modPart p f

end System

/-- REGISTER_WRITE: the management processor or the host writes a register that only keeps its fields; values that the register's
map ignores, and reserved bits, change nothing (R5, R6). DESIGN CHOICE, log 80; DEDUCED, log 88; DESIGN CHOICE, log 91. -/
def execRegisterWrite (r : RegName) (v : BitVec 64) (s : State) : Result := .next <|
  let w := v.extractLsb' 0 32
  match r with
  | .lqbase vf => System.vfField s vf (fun x => { x with lqbase := v })
  | .eqhead vf => Events.drainAll (System.vfField s vf (fun x => { x with eqhead := w })) vf
  | .vfErr vf => System.vfField s vf (fun x => { x with err := x.err &&& ~~~(v.extractLsb' 0 3) })
  | .margin => System.setMargin s w
  | .fallback => System.setFallback s w
  | .floor => System.setFloor s w
  | .ramp => System.setRamp s w
  | .drth => System.setDrth s w
  | .defpt => System.setDefpt s w
  | .trbase p => System.partField s p (fun x => { x with trbase := v })
  | .log2nrec p =>
    let n := v.extractLsb' 0 5
    if 4 ≤ n.toNat && n.toNat ≤ 20 then System.partField s p (fun x => { x with log2nrec := n }) else s
  | .dctbase p => System.partField s p (fun x => { x with dctbase := v })
  | .tqcfg p => System.partField s p (fun x => { x with tqcfg := v.extractLsb' 0 8 })
  | .fmtwM n => System.windowField s n (fun x => { x with m := v.extractLsb' 0 4 })
  | .fmtwPart n => System.windowField s n (fun x => { x with part := (v.extractLsb' 0 5).toNat })
  | .fmtwVbase n => System.windowField s n (fun x => { x with vbase := v.extractLsb' 12 40 ++ 0#12 })
  | .fmtwVlen n => System.windowField s n (fun x => { x with vlen := w })
  | .fmtwMbase n => System.windowField s n (fun x => { x with mbase := v.extractLsb' 6 46 ++ 0#6 })
  | .fmtwSbase n => System.windowField s n (fun x => { x with sbase := v.extractLsb' 0 52 })
  | .fmtwErr n => System.windowFlag s n (fun x => { x with err := x.err && !v.getLsbD 0 })
  | .fmtwRange n => System.windowFlag s n (fun x => { x with range := x.range && !v.getLsbD 0 })
  | .shbase die => if 16 ≤ die then s else s.modDie die (fun o => { o with shbase := v })
  | .caddr die seq => System.seqField s die seq true (fun q => { q with caddr := v.extractLsb' 0 8 })
  | .cwd die seq k => if 3 ≤ k then s else System.seqField s die seq true (fun q => { q with cwd := Tab.put 0 q.cwd k w })
  | .evec die seq e =>
    if 8 ≤ e then s else System.seqField s die seq false (fun q => { q with evec := Tab.put 0 q.evec e (v.extractLsb' 0 8) })
  | .wgctl slice => if 192 ≤ slice then s else { s with wgth := Tab.put 50 s.wgth slice (v.extractLsb' 0 10).toNat }
  | .coreEvsel core n =>
    if 192 ≤ core || 16 ≤ n then s else s.modCore core (fun k => { k with evsel := Tab.put 0 k.evsel n (System.evsel w) })
  | .coreEvcnt core n =>
    if 192 ≤ core || 16 ≤ n then s else s.modCore core (fun k => { k with evcnt := Tab.put 0 k.evcnt n (v.extractLsb' 0 48) })
  | .hubEvsel n => if 64 ≤ n then s else { s with hubEvsel := Tab.put 0 s.hubEvsel n (System.evsel w) }
  | .hubEvcnt n => if 64 ≤ n then s else { s with hubEvcnt := Tab.put 0 s.hubEvcnt n (v.extractLsb' 0 48) }
  | .vfPart vf =>
    if 128 ≤ vf then s else s.setVf vf { s.vf vf with part := if v.toNat < 24 then some v.toNat else none }
  | .route m => if 4096 ≤ m then s else { s with route := Tab.put 0 s.route m (v.extractLsb' 0 18) }
  | .dclass p n =>
    if 24 ≤ p || n = 0 || 256 ≤ n || Mem.heldBack s ((s.part p).dctbase.toNat + 8 * (n - 1)) then s
    else Mem.agentWrite s 0 ((s.part p).dctbase.toNat + 8 * (n - 1)) (Mem.toBytes 8 v.toNat)

end Sys2Proof.Machine
end

