-- ==== Sys2Proof/Machine/Boot.lean ====
section
/-! DEFINITION. The host's doorbells, the management processor's acts on partitions, cores and contexts, power-on and loss, attestation
and boundary scan (R435 to R442, R454, R456, R467). -/

namespace Sys2Proof.Machine

open Sys2Proof

namespace Boot

/-! ### Images (R454) -/

/-- Whether an image of a type verifies: both signatures, and its version. DESIGN CHOICE, log 12. -/
def verifies (i : BootImage) : Bool :=
  Config.signaturesVerify i.ty i.svn i.body i.ed25519 i.mldsa && decide (Config.fuseMinSvn i.ty ≤ i.svn)

/-- Load images in the order of their types; the first that fails ends the loading. DEDUCED, log 79. -/
def load (have_ : List (Nat × Nat × List Byte)) : List BootImage → List (Nat × Nat × List Byte)
  | [] => have_
  | i :: r =>
    if i.ty = have_.length && decide (have_.length < 4) && verifies i then load (have_ ++ [(i.ty, i.svn, Config.sha384 i.body)]) r
    else have_

/-- The root of trust after some images have been loaded: in recovery until all four are (R454). -/
def booted (t : Trust) (l : List (Nat × Nat × List Byte)) : Trust :=
  { t with powered := true, recovery := decide (l.length < 4), images := l }

/-- Whether the management processor runs. -/
def running (s : State) : Bool := s.trust.powered && !s.trust.recovery

/-! ### Loss of power (R467) -/

/-- What an Orangery die keeps: descriptors, banks, weights, staging, the staging-owner table and the journal. -/
def keepDie (o : Orng) : Orng :=
  { Orng.reset with
    tiles := o.tiles.update (fun _ => true) (fun _ t => { t with lastAct := none, lastPub := none })
    staging := o.staging
    stgOwner := o.stgOwner
    journal := o.journal
    nextSeq := o.nextSeq }

/-- A die when power is lost: the write of a journal record may be cut off while work that appends records runs (R337).
DESIGN CHOICE, log 51. -/
def cutOff (o : Orng) (free : Nat) : Orng :=
  let writes := o.cmds.any (fun c => c.started && (c.entry == 3 || c.entry == 4)) || !o.replayed
  keepDie (if writes && Config.freeChoice free % 2 == 1 then Arrays.tear o (free + 1) else o)

/-- The state after power has been lost: non-volatile state, and host memory, which is not the module's. The model's own fields go
on. DESIGN CHOICE, log 27. -/
def lose (s : State) : State :=
  { State.reset with
    agenda := s.agenda
    cur := s.cur
    free := s.free + 256
    nextId := s.nextId
    mem := s.mem.keep (fun a _ => Mem.isHost a)
    orng := s.orng.update (fun _ => true) (fun d o => cutOff o (s.free + 16 * d)) }

/-! ### Cores and ways of partitions (R440, R441) -/

/-- The cores of a die in a mask. -/
def onDie (m : BitVec 192) (d : Nat) : Bool := (List.range 48).any (fun i => m.getLsbD (48 * d + i))

/-- The number of ways in a mask. -/
def ways (m : BitVec 16) : Nat := ((List.range 16).filter (fun i => m.getLsbD i)).length

/-- R440 and R441 for a partition with its new cores and ways: no core of another partition, at least 2 ways on a die with cores of
it, and no way of another partition with cores on that die. -/
def legal (s : State) (p : Nat) (cores : BitVec 192) (mask : BitVec 16) : Bool :=
  (List.range 24).all (fun q =>
    let x := s.part q
    q == p || (x.cores &&& cores == 0
      && (List.range 4).all (fun d => !onDie cores d || !onDie x.cores d || x.waymask &&& mask == 0)))
  && (List.range 4).all (fun d => !onDie cores d || decide (2 ≤ ways mask))

/-- Whether a context uses a core. -/
def inUse (s : State) (core : Nat) : Bool := s.teams.any (fun t => t.2.core == core)

/-- The threads that visit a core or are on their way to it. -/
def visitors (s : State) (core : Nat) : List Nat :=
  (s.threads.filter (fun t => (match t.2.visit with
    | some v => v.core == core
    | none => false) || (match t.2.hop with
    | some h => h.dest == core
    | none => false))).map Prod.fst

/-- Whether a copy command has still to move bytes of a core's vault (R186). -/
def vaultHeld (s : State) (core : Nat) : Bool :=
  s.cores.any (fun k => k.2.copyq.any (fun c => match s.teams.get? c.team with
    | none => false
    | some tm => Copy.anyPlace s tm (Copy.reqOf c) (Copy.left c (Copy.pieces s tm (Copy.reqOf c))) (fun _ p _ => match p with
      | .vault a => a / 0x800000 == core
      | _ => false)))

/-- Whether a core cannot pass to another partition yet: a copy command holds its vault (R186), a store of it is on its way to its home,
or an atomic of it holds its line (R150). -/
def unsettled (s : State) (core : Nat) : Bool :=
  vaultHeld s core || s.regs.any (fun r => r.2.core == core) || s.exclTill.any (fun x => x.2.1 == core && decide (s.now < x.2.2))

/-- A core's caches are written back before it passes to another partition. -/
def emptyCaches (s : State) (core : Nat) : State :=
  let s := (s.core core).l1.foldl (fun s w => if s.owner.get? w.1 = some core then Mem.recallWord s w.1 else s) s
  s.modCore core (fun k => { k with l1 := [], tlb := [], ifetch := [] })

/-- The buffers of a core are zeroed (R185): scratchpad, tiles, register words and vault. Context 2048 stands for the last holder of zeroed
words. -/
def zero (s : State) (core : Nat) : State :=
  let s := s.modCore core (fun k =>
    { k with
      spad := [], spadUndef := [], absent := [], spoison := [], tiles := [], tilePoison := [], spadCtx := []
      tileCtx := (List.range 16).map (fun n => (n, 2048)), regCtx := [2048], slotCtx := (List.range 64).map (fun n => (n, 2048))
      spareV := [], spareS := [] })
  { s with vault := s.vault.keep (fun a _ => a / 0x800000 != core) }

/-! ### Ways that leave a partition (R441) -/

/-- Whether a mask of ways gives a partition with some cores a way of a slice. -/
def hasWay (cores : BitVec 192) (mask : BitVec 16) (slice way : Nat) : Bool := onDie cores (slice / 48) && mask.getLsbD way

/-- What stands in the ways that satisfy p: home lines, and partial entries with their slices. -/
def linesIn (s : State) (p : Nat → Nat → Bool) : List Nat :=
  (s.llc.filter (fun l => p (Mem.homeSlice (64 * l.1)) l.2.way)).map Prod.fst
def partialsIn (s : State) (p : Nat → Nat → Bool) : List (Nat × Nat) :=
  s.reduce.flatMap (fun r => (r.2.entries.filter (fun e => p e.1 e.2.2)).map (fun e => (r.1, e.1)))

/-- Lines in leaving ways are written back and recalled, and partials merged; a way that passes on is no longer gated. DEDUCED, log 75. -/
def vacate (s : State) (p : Nat → Nat → Bool) : State :=
  let s := (linesIn s p).foldl Mem.evictHome s
  let s := (partialsIn s p).foldl (fun s x => Mem.mergeSome s x.1 (fun e => e == x.2)) s
  { s with gated := s.gated.filter (fun g => !p g.1 g.2) }

/-- Whether a line in a leaving way cannot leave yet. -/
def wayLocked (s : State) (p : Nat → Nat → Bool) : Bool := (linesIn s p).any (Mem.locked s)

/-- The cores that one mask has and the other has not. -/
def minus (a b : BitVec 192) : List Nat := (List.range 192).filter (fun c => a.getLsbD c && !b.getLsbD c)

/-- Give a partition a new set of cores, if no context uses one that it loses; visitors go home first, and while one remains, or a buffer
is still held, nothing else happens. Cores that it gains or loses are zeroed. -/
def setCores (s : State) (p : Nat) (m : BitVec 192) : State :=
  let old := (s.part p).cores
  let out := minus old m
  let into := minus m old
  let mask := (s.part p).waymask
  let leaves (slice way : Nat) : Bool := hasWay old mask slice way && !hasWay m mask slice way
  if !legal s p m mask || out.any (inUse s) then s
  else
    let vs := out.flatMap (visitors s)
    if !vs.isEmpty then Stops.force s vs
    else if (out ++ into).any (unsettled s) || wayLocked s leaves then s
    else
      let s := (out ++ into).foldl (fun s c => zero (emptyCaches s c) c) s
      (vacate s leaves).modPart p (fun x => { x with cores := m })

/-- Give a partition a new way set. Ways that leave it are written back and recalled first. DEDUCED, log 75. -/
def setWays (s : State) (p : Nat) (m : BitVec 16) : State :=
  let c := (s.part p).cores
  let leaves (slice way : Nat) : Bool := hasWay c (s.part p).waymask slice way && !hasWay c m slice way
  if !legal s p c m || wayLocked s leaves then s
  else (vacate s leaves).modPart p (fun x => { x with waymask := m })

/-- The partition that owns a core. -/
def owner? (s : State) (core : Nat) : Option Nat := (List.range 24).find? (fun p => s.partOwns p core)

/-- A mask with one core added or removed. -/
def withCore (m : BitVec 192) (core : Nat) (on : Bool) : BitVec 192 :=
  if on then m ||| (1#192 <<< core) else m &&& ~~~(1#192 <<< core)

/-- The ways of a die that its partition loses with a core: those of the die where it is the partition's last. -/
def leavesWith (s : State) (core slice way : Nat) : Bool :=
  match owner? s core with
  | some q =>
    let x := s.part q
    hasWay x.cores x.waymask slice way && !hasWay (withCore x.cores core false) x.waymask slice way
  | none => false

/-- The lowest free context number (R442). DESIGN CHOICE, log 78. -/
def freeCtx (s : State) : Option Nat := (List.range 2048).find? (fun n => (s.ctxs.get? n).isNone)

/-- A root word without its reserved bits, which read 0 (Table 04.3). -/
def rootFields (v : BitVec 64) : BitVec 64 := v &&& 0x000FFFFFFFFFF001#64

/-- What the boundary-scan IDCODE register reads (R456). -/
def idcode : Word := 0x1A160A6B#32

/-- The body of an attestation report (R454). DESIGN CHOICE, log 12; DESIGN CHOICE, log 76. -/
def report (s : State) (nonce : List Byte) : List Byte :=
  nonce ++ s.trust.images.flatMap (fun i => i.2.2 ++ Mem.toBytes 4 i.2.1) ++ Config.fuseState ++ Mem.toBytes 8 s.now

end Boot

/-! ### The VF control page (R436 to R438) -/

/-- What the host reads in a VF control page, by word (Table 15.1): 0 in a VF without a partition, in CMD, and where no register stands. -/
def Boot.vfWord (s : State) (vf o : Nat) : Word :=
  let x := s.vf vf
  if x.part.isNone then 0
  else match o / 4 with
    | 0 | 1 => System.word x.lqbase.toNat (o / 4)
    | 2 => x.lqcfg
    | 3 => x.lqtail
    | 4 => x.lqhead
    | 6 | 7 => System.word x.eqbase.toNat (o / 4 - 6)
    | 8 => x.eqcfg
    | 9 => x.eqtail
    | 10 => x.eqhead
    | 13 => x.err.setWidth 32
    | _ => 0

/-- LQTAIL_WRITE: the doorbell; more packets than the ring holds are refused with BADTAIL, and a ring without a live context sets
BADCTX (R437). -/
def execLqtailWrite (vf : Nat) (v : BitVec 32) (s : State) : Result := .next <|
  let x := s.vf vf
  if 128 ≤ vf || x.part.isNone then s
  else if 2 ^ (x.lqcfg.toNat % 32) < (v - x.lqhead).toNat then s.setVf vf { x with err := x.err ||| 1 }
  else
    let live := Launch.live s vf (x.lqcfg.toNat / 32 % 2048)
    s.setVf vf { x with lqtail := v, err := if live then x.err else x.err ||| 4 }

/-- LQCFG_WRITE: ring size and context; packets that waited are read by LAUNCH_PACKET once the context is live (R437). -/
def execLqcfgWrite (vf : Nat) (v : BitVec 32) (s : State) : Result := .next <|
  System.vfField s vf (fun x => { x with lqcfg := v &&& 0xFFFF#32 })

/-- EQHEAD_WRITE: the host has consumed events; held ones are written as far as they fit (R438). -/
def execEqheadWrite (vf : Nat) (v : BitVec 32) (s : State) : Result := .next <|
  Events.drainAll (System.vfField s vf (fun x => { x with eqhead := v })) vf

/-- EQCFG_WRITE: a write to EQBASE or EQCFG; held events are written as far as they fit (R438). -/
def execEqcfgWrite (vf : Nat) (base : Bool) (v : BitVec 64) (s : State) : Result := .next <|
  Events.drainAll (System.vfField s vf (fun x =>
    if base then { x with eqbase := v } else { x with eqcfg := v.extractLsb' 0 32 &&& 0x1F#32 })) vf

/-! ### Contexts and partitions (R440 to R442) -/

/-- CONTEXT_CREATE: the lowest free number; SYS is refused unless the VF is partition 0's, and nothing is created in recovery (R442,
R454). DESIGN CHOICE, log 78. -/
def execContextCreate (vf : Nat) (d : CtxDesc) (s : State) : Result := .next <|
  if 128 ≤ vf || !Boot.running s then s
  else match (s.vf vf).part, Boot.freeCtx s with
    | some p, some n =>
      if d.sys && p ≠ 0 then s
      else
        let c : Ctx :=
          { part := p, vf := vf, s1root := Boot.rootFields d.s1root, savebase := d.savebase, debug := d.debug, sys := d.sys, commbase := d.commbase
            touched := 0, phase := .running, ending := false, image := none, areas := [], comms := [] }
        { s with ctxs := s.ctxs.set n c }
    | _, _ => s

/-- PARTITION_CREATE: a key pair is generated and its slot loaded, under which its regions' old bytes do not decrypt; PEACC starts at 0
(R118, R393). DEDUCED, log 7; DESIGN CHOICE, log 98. -/
def execPartitionCreate (p : Nat) (s : State) : Result := .next <|
  if 24 ≤ p || !Boot.running s || (s.part p).key.isSome then s
  else
    let s := Mem.rekey (s.modPart p (fun x => { x with key := some s.nextId, peacc := 0 })) p
    { s with nextId := s.nextId + 1 }

/-- PARTITION_DESTROY: the key slot is erased, and what its regions hold no longer decrypts (R118). A partition that holds a context is
not destroyed. DEDUCED, log 7; DESIGN CHOICE, log 74; DESIGN CHOICE, log 98. -/
def execPartitionDestroy (p : Nat) (s : State) : Result := .next <|
  if 24 ≤ p || s.ctxs.any (fun c => c.2.part == p) || (s.part p).key.isNone then s
  else Mem.rekey (s.modPart p (fun x => { x with key := none })) p

/-- PARTITION_DESCRIPTOR_WRITE: a write that would break R440 or R441, or whose value the map ignores, changes nothing (Table 15.2). -/
def execPartitionDescriptorWrite (p : Nat) (f : PartField) (s : State) : Result := .next <|
  if 24 ≤ p then s
  else match f with
    | .cores m => Boot.setCores s p m
    | .waymask m => Boot.setWays s p m
    | .s2root v => s.modPart p (fun x => { x with s2root := Boot.rootFields v })
    | .tqcfg v => s.modPart p (fun x => { x with tqcfg := v })
    | .trbase v => s.modPart p (fun x => { x with trbase := v })
    | .log2nrec v => if 4 ≤ v.toNat && v.toNat ≤ 20 then s.modPart p (fun x => { x with log2nrec := v }) else s
    | .dctbase v => s.modPart p (fun x => { x with dctbase := v })

/-- CORE_REASSIGN: a core that no context uses moves to a partition, or to none: its visitors go home first, then its buffers are
zeroed, once nothing of another owner holds them (R440, R185, R186). -/
def execCoreReassign (core : Nat) (p : Nat) (s : State) : Result := .next <|
  if 192 ≤ core || Boot.inUse s core || Boot.owner? s core = some p then s
  else
    let vs := Boot.visitors s core
    let taken (s : State) : State := match Boot.owner? s core with
      | some q => s.modPart q (fun x => { x with cores := Boot.withCore x.cores core false })
      | none => s
    if p < 24 && !Boot.legal (taken s) p (Boot.withCore (s.part p).cores core true) (s.part p).waymask then s
    else if !vs.isEmpty then Stops.force s vs
    else if Boot.unsettled s core || Boot.wayLocked s (Boot.leavesWith s core) then s
    else
      let s := taken (Boot.vacate (Boot.zero (Boot.emptyCaches s core) core) (Boot.leavesWith s core))
      if p < 24 then s.modPart p (fun x => { x with cores := Boot.withCore x.cores core true }) else s

/-! ### Power, trust and test (R454, R456, R467) -/

/-- POWER_ON: the root of trust verifies and loads the images in order; one that fails leaves the module in recovery. Journal replay
follows as JOURNAL_REPLAY of each die (R454). -/
def execPowerOn (images : List BootImage) (s : State) : Result := .next <|
  if s.trust.powered then s else { s with trust := Boot.booted s.trust (Boot.load [] images) }

/-- POWER_LOSS: only non-volatile state is kept (R467). DESIGN CHOICE, log 27. -/
def execPowerLoss (s : State) : Result := .next (Boot.lose s)

/-- WARM_RESET: registers return to their reset values; no register of the part has access RWS (R6).
DESIGN CHOICE, log 27. -/
def execWarmReset (s : State) : Result := .next (Boot.lose s)

/-- RECOVERY_IMAGE_WRITE: in recovery a replacement image is accepted, and loading goes on when it verifies (R454).
DEDUCED, log 79. -/
def execRecoveryImageWrite (i : BootImage) (s : State) : Result := .next <|
  if s.trust.powered && s.trust.recovery then { s with trust := Boot.booted s.trust (Boot.load s.trust.images [i]) } else s

/-- ATTESTATION_REQUEST: a report of the nonce, the images, the fuses and %time, signed twice (R454). -/
def execAttestationRequest (nonce : List Byte) (s : State) : Result := .next <|
  if !s.trust.powered || nonce.length ≠ 32 then s
  else
    let b := Boot.report s nonce
    { s with trust := { s.trust with report := some (b ++ Config.identitySign false b ++ Config.identitySign true b) } }

/-- BYPASS (R456). -/
def execBypass (s : State) : Result := .next { s with scan := .bypass }

/-- IDCODE: the scan register reads 0x1A16_0A6B (R456). PRESUMED, log 21. -/
def execIdcode (s : State) : Result := .next { s with scan := .idcode }

/-- SAMPLE/PRELOAD (R456). -/
def execSamplePreload (s : State) : Result := .next { s with scan := .sample }

/-- EXTEST: refused while any partition holds a context (R456). DESIGN CHOICE, log 91. -/
def execExtest (s : State) : Result := .next <| if s.ctxs.isEmpty then { s with scan := .extest } else s

end Sys2Proof.Machine
end

