-- ==== Sys2Proof/Machine/Float.lean ====
section
/-! DEFINITION. The floating-point, packed-half, conversion and expansion instructions, OP 0x50 to 0x68 but for bfpq (R252 to
R264): each lane's result with its flags. -/

namespace Sys2Proof.Machine

open Sys2Proof

namespace FloatArith

/-- A result with its flags in one register. -/
def out (d : Reg) (r : Word × Flags.Fl) : Operands.LaneOut := { d := [(d, r.1)], flags := r.2 }

def ofNat (r : Nat × Flags.Fl) : Word × Flags.Fl := (BitVec.ofNat 32 r.1, r.2)

/-- A two-source FP32 instruction. -/
def binary (s : State) (c : Cohort) (h : Hdr) (o : FpOps) (f : Nat → Nat → Nat × Flags.Fl) : State :=
  Operands.commit s c h (fun gid t =>
    out o.d (ofNat (f (Operands.val s gid t o.a).toNat (Operands.src s gid t o.b).toNat)))

/-- A one-source instruction with a long latency. -/
def unaryLong (s : State) (c : Cohort) (h : Hdr) (o : FpOps) (f : Word → Word × Flags.Fl) : State :=
  Operands.commitLong s c h (fun gid t => out o.d (f (Operands.val s gid t o.a)))

/-- Both elements of a packed instruction, with the union of their flags (R78). -/
def packed (f : Nat → Nat × Flags.Fl) : Word × Flags.Fl :=
  let lo := f 0
  let hi := f 1
  (BitVec.ofNat 32 (lo.1 % 65536 + 65536 * (hi.1 % 65536)), lo.2 ||| hi.2)

/-- Element e of a packed word. -/
def elem (w : Word) (e : Nat) : Nat := w.toNat / 65536 ^ e % 65536

/-- A two-source packed instruction. -/
def half (s : State) (c : Cohort) (h : Hdr) (o : HalfOps) (f : Nat → Nat → Nat × Flags.Fl) : State :=
  Operands.commit s c h (fun gid t =>
    let a := Operands.val s gid t o.a
    let b := Operands.src s gid t o.b
    out o.d (packed (fun e => f (elem a e) (elem b e))))

/-! ### cvt (R260 to R262) -/

/-- The integer types of Table 09.9: signed, and width. -/
def intType (t : BitVec 4) : Bool × Nat :=
  match t.toNat with
  | 3 => (true, 8)
  | 4 => (false, 8)
  | 5 => (true, 16)
  | 6 => (false, 16)
  | 7 => (true, 32)
  | 8 => (false, 32)
  | 9 => (true, 64)
  | _ => (false, 64)

/-- The format of a floating-point type code. -/
def fmtOf (t : BitVec 4) : Flags.Fmt :=
  match t.toNat with
  | 0 => Flags.f32
  | 1 | 0xB => Flags.f16
  | _ => Flags.bf16

/-- The value of an integer source. -/
def intSource (t : BitVec 4) (x : Nat) : Int :=
  let (sg, w) := intType t
  let n := x % 2 ^ w
  if sg && decide (2 ^ (w - 1) ≤ n) then (n : Int) - 2 ^ w else (n : Int)

/-- An integer result as its register bits: sign- or zero-extended from the type's width to 32 bits, or a pair. -/
def intBits (t : BitVec 4) (x : Int) : Nat :=
  let (sg, w) := intType t
  let n := (x % (2 ^ w : Int)).toNat
  if sg && decide (w < 32) && decide (2 ^ (w - 1) ≤ n) then 2 ^ 32 - 2 ^ w + n else n

/-- The exact value of a source of any type. -/
def source (o : CvtOps) (x : Nat) : Flags.Fp :=
  if CvtOps.isFloat o.st then
    let f := fmtOf o.st
    Flags.unpack f o.ftz (if o.st = 0 then x else if o.hi then x / 65536 % 65536 else x % 65536)
  else
    let n := intSource o.st x
    .fin (decide (n < 0)) n.natAbs 0

/-- One conversion: the result bits and flags. -/
def convert (o : CvtOps) (x : Nat) : Nat × Flags.Fl :=
  if CvtOps.isFloat o.dt then
    let v := source o x
    -- widening BF16 keeps NaN payloads and raises nothing (R77)
    if o.st = 2 && o.dt = 0 && Flags.isNan v then ((if o.hi then x / 65536 % 65536 else x % 65536) * 65536, 0)
    else
      let r := Flags.deliver (fmtOf o.dt) o.rm o.ftz v
      (r.1, Flags.sig v ||| r.2)
  else if CvtOps.isFloat o.st then
    let (sg, w) := intType o.dt
    let r := Flags.fpToInt o.rm sg w (source o x)
    (intBits o.dt r.1, r.2)
  else
    let (sg, w) := intType o.dt
    let n := intSource o.st x
    (intBits o.dt (if o.sat then Flags.clamp (Flags.intLo sg w) (Flags.intHi sg w) n else n), 0)

end FloatArith

open FloatArith

/-- fadd. -/
def execFadd (h : Hdr) (o : FpOps) (s : State) : Result := Ops.withCohort s fun c =>
  binary s c h o (Flags.add Flags.f32 o.rm o.ftz)

/-- fsub. -/
def execFsub (h : Hdr) (o : FpOps) (s : State) : Result := Ops.withCohort s fun c =>
  binary s c h o (Flags.sub Flags.f32 0 o.ftz)

/-- fmul. -/
def execFmul (h : Hdr) (o : FpOps) (s : State) : Result := Ops.withCohort s fun c =>
  binary s c h o (Flags.mul Flags.f32 o.rm o.ftz)

/-- ffma, with one rounding. -/
def execFfma (h : Hdr) (o : FpOps) (s : State) : Result := Ops.withCohort s fun c =>
  Operands.commit s c h (fun gid t =>
    out o.d (ofNat (Flags.fma Flags.f32 o.rm o.ftz (Operands.val s gid t o.a).toNat (Operands.src s gid t o.b).toNat
      (Operands.val s gid t o.c).toNat)))

/-- fmin (R254). -/
def execFmin (h : Hdr) (o : FpOps) (s : State) : Result := Ops.withCohort s fun c =>
  binary s c h o (Flags.minmax Flags.f32 o.ftz (o.xop = 1) false)

/-- fmax (R254). -/
def execFmax (h : Hdr) (o : FpOps) (s : State) : Result := Ops.withCohort s fun c =>
  binary s c h o (Flags.minmax Flags.f32 o.ftz (o.xop = 1) true)

/-- fcmp (R255). -/
def execFcmp (h : Hdr) (o : FcmpOps) (s : State) : Result := Ops.withCohort s fun c =>
  Operands.commit s c h (fun gid t =>
    let r := Flags.fcmp o.ftz o.xop (Operands.val s gid t o.a) (Operands.srcF s gid t o.b)
    { p := [(o.p.toNat, r.1)], flags := r.2 })

/-- fclass (R256). -/
def execFclass (h : Hdr) (o : FpOps) (s : State) : Result := Ops.withCohort s fun c =>
  Operands.commit s c h (fun gid t => out o.d (Flags.fclass (Operands.val s gid t o.a), 0))

/-- frcp: 1 ⁄ A, correctly rounded. -/
def execFrcp (h : Hdr) (o : FpOps) (s : State) : Result := Ops.withCohort s fun c =>
  unaryLong s c h o (fun a => ofNat (Flags.div Flags.f32 0 o.ftz 0x3F800000 a.toNat))

/-- frsq, within its bound (R258). -/
def execFrsq (h : Hdr) (o : FpOps) (s : State) : Result := Ops.withCohort s fun c =>
  unaryLong s c h o (Flags.frsq o.ftz)

/-- fsqrt, correctly rounded. -/
def execFsqrt (h : Hdr) (o : FpOps) (s : State) : Result := Ops.withCohort s fun c =>
  unaryLong s c h o (fun a => ofNat (Flags.sqrt Flags.f32 o.rm o.ftz a.toNat))

/-- fdiv, correctly rounded. -/
def execFdiv (h : Hdr) (o : FpOps) (s : State) : Result := Ops.withCohort s fun c =>
  Operands.commitLong s c h (fun gid t =>
    out o.d (ofNat (Flags.div Flags.f32 o.rm o.ftz (Operands.val s gid t o.a).toNat (Operands.src s gid t o.b).toNat)))

/-- fexp2 (R258). -/
def execFexp2 (h : Hdr) (o : FpOps) (s : State) : Result := Ops.withCohort s fun c =>
  unaryLong s c h o (Flags.fexp2 o.ftz)

/-- flog2 (R258). -/
def execFlog2 (h : Hdr) (o : FpOps) (s : State) : Result := Ops.withCohort s fun c =>
  unaryLong s c h o (Flags.flog2 o.ftz)

/-- fsin (R258). -/
def execFsin (h : Hdr) (o : FpOps) (s : State) : Result := Ops.withCohort s fun c =>
  unaryLong s c h o (Flags.fsincos false o.ftz)

/-- fcos (R258). -/
def execFcos (h : Hdr) (o : FpOps) (s : State) : Result := Ops.withCohort s fun c =>
  unaryLong s c h o (Flags.fsincos true o.ftz)

/-- hadd2 (R259). -/
def execHadd2 (h : Hdr) (o : HalfOps) (s : State) : Result := Ops.withCohort s fun c =>
  half s c h o (Flags.add Flags.f16 0 o.ftz)

/-- hmul2 (R259). -/
def execHmul2 (h : Hdr) (o : HalfOps) (s : State) : Result := Ops.withCohort s fun c =>
  half s c h o (Flags.mul Flags.f16 0 o.ftz)

/-- hfma2 (R259). -/
def execHfma2 (h : Hdr) (o : HalfOps) (s : State) : Result := Ops.withCohort s fun c =>
  Operands.commit s c h (fun gid t =>
    let a := Operands.val s gid t o.a
    let b := Operands.src s gid t o.b
    let k := Operands.val s gid t o.c
    out o.d (packed (fun e => Flags.fma Flags.f16 0 o.ftz (elem a e) (elem b e) (elem k e))))

/-- hmax2 (R259). -/
def execHmax2 (h : Hdr) (o : HalfOps) (s : State) : Result := Ops.withCohort s fun c =>
  half s c h o (Flags.minmax (if o.bf then Flags.bf16 else Flags.f16) o.ftz o.nan true)

/-- hmin2 (R259). -/
def execHmin2 (h : Hdr) (o : HalfOps) (s : State) : Result := Ops.withCohort s fun c =>
  half s c h o (Flags.minmax (if o.bf then Flags.bf16 else Flags.f16) o.ftz o.nan false)

/-- cvt (R260 to R262). -/
def execCvt (h : Hdr) (o : CvtOps) (s : State) : Result := Ops.withCohort s fun c =>
  Operands.commit s c h (fun gid t =>
    if CvtOps.isPacked o.dt then
      let a := (Operands.val s gid t o.a).toNat
      let b := (Operands.val s gid t o.b).toNat
      out o.d (packed (fun e => convert o (if e = 0 then a else b)))
    else
      let r := convert o (Operands.wide s gid t (CvtOps.isPair o.st) o.a)
      { Operands.outW o.d (CvtOps.isPair o.dt) r.1 with flags := r.2 })

/-- fround (R263). -/
def execFround (h : Hdr) (o : FroundOps) (s : State) : Result := Ops.withCohort s fun c =>
  Operands.commit s c h (fun gid t => out o.d (Flags.fround o.ftz o.mode (Operands.val s gid t o.a)))

/-- bfpx: expand an on-chip byte and its exponent (R264). -/
def execBfpx (h : Hdr) (o : BfpOps) (s : State) : Result := Ops.withCohort s fun c =>
  Operands.commit s c h (fun gid t =>
    let a := (Operands.val s gid t o.a).toNat
    let low := 2 ^ (8 - (o.n.toNat + 2))
    let b := a % 256 / low * low
    out o.d (Flags.expand (if b < 128 then (b : Int) else (b : Int) - 256) (a / 256 % 256), 0))

end Sys2Proof.Machine
end

