-- ==== Sys2Proof/Machine/Integer.lean ====
section
/-! DEFINITION. The integer instructions, OP 0x30 to 0x4C (R244 to R251). Each computes in every active lane from exact
integers and narrows at the end; none raises a flag (R243). -/

namespace Sys2Proof.Machine

open Sys2Proof

namespace Integer

/-- The operand width. -/
def width (w64 : Bool) : Nat := if w64 then 64 else 32

/-- An operand as a signed or unsigned number. -/
def val (u : Bool) (w n : Nat) : Int := if u || decide (n < 2 ^ (w - 1)) then (n : Int) else (n : Int) - 2 ^ w

/-- A result modulo 2^w. -/
def wrap (w : Nat) (x : Int) : Nat := (x % (2 ^ w : Int)).toNat

/-- A result under SAT (R86). -/
def sat (on u : Bool) (w : Nat) (x : Int) : Int := if on then Flags.clamp (Flags.intLo (!u) w) (Flags.intHi (!u) w) x else x

/-- A two-source instruction: the result from the operands as numbers. -/
def binary (s : State) (c : Cohort) (h : Hdr) (o : IntOps) (u : Bool) (f : Int → Int → Int) : State :=
  let w := width o.w64
  Operands.commit s c h (fun gid t =>
    let a := val u w (Operands.wide s gid t o.w64 o.a)
    let b := val u w (Operands.wideSrc s gid t o.w64 o.b)
    Operands.outW o.d o.w64 (wrap w (f a b)))

/-- A bitwise instruction. -/
def bitwise (s : State) (c : Cohort) (h : Hdr) (o : IntOps) (f : Nat → Nat → Nat) : State :=
  Operands.commit s c h (fun gid t =>
    Operands.outW o.d o.w64 (f (Operands.wide s gid t o.w64 o.a) (Operands.wideSrc s gid t o.w64 o.b)))

/-- A one-source instruction, its result of the operand width. -/
def unary (s : State) (c : Cohort) (h : Hdr) (o : IntOps) (f : Nat → Nat → Nat) : State :=
  Operands.commit s c h (fun gid t =>
    Operands.outW o.d o.w64 (f (width o.w64) (Operands.wide s gid t o.w64 o.a)))

/-- A one-source instruction with a 32-bit result. -/
def count (s : State) (c : Cohort) (h : Hdr) (o : IntOps) (f : Nat → Nat → Nat) : State :=
  Operands.commit s c h (fun gid t =>
    Operands.outW o.d false (f (width o.w64) (Operands.wide s gid t o.w64 o.a)))

/-- A shift: the count is B[7:0] (R248). -/
def shift (s : State) (c : Cohort) (h : Hdr) (o : IntOps) (f : Nat → Nat → Nat → Nat) : State :=
  let w := width o.w64
  Operands.commit s c h (fun gid t =>
    Operands.outW o.d o.w64 (f w (Operands.wide s gid t o.w64 o.a) ((Operands.src s gid t o.b).toNat % 256)))

/-- Quotient and remainder (R247). -/
def quotRem (u : Bool) (w : Nat) (a b : Int) : Int × Int :=
  if b = 0 then (2 ^ w - 1, a)
  else if !u && a == -(2 ^ (w - 1)) && b == -1 then (a, 0)
  else (Int.tdiv a b, Int.tmod a b)

/-- The results of a division, under the shadow of LA. -/
def divide (s : State) (c : Cohort) (h : Hdr) (o : IntOps) (f : Int × Int → Int) : State :=
  let w := width o.w64
  Operands.commitLong s c h (fun gid t =>
    let a := val o.u w (Operands.wide s gid t o.w64 o.a)
    let b := val o.u w (Operands.wideSrc s gid t o.w64 o.b)
    Operands.outW o.d o.w64 (wrap w (f (quotRem o.u w a b))))

/-- Leading zero bits of a w-bit number. -/
def clz (w n : Nat) : Nat := if n = 0 then w else w - 1 - n.log2

/-- One bits of the w low bits. -/
def popc : Nat → Nat → Nat
  | 0, _ => 0
  | w + 1, n => n % 2 + popc w (n / 2)

/-- The w low bits in reverse order. -/
def brev (w n : Nat) : Nat := (List.range w).foldl (fun r i => 2 * r + (n / 2 ^ i) % 2) 0

/-- The length of a bit field (R249). -/
def fieldLen (d : Nat) : Nat := if 32 ≤ d % 256 then 0 else min (d / 256 % 256) (32 - d % 256)

/-- Whether a comparison condition holds (R250). -/
def compare (cond : BitVec 4) (a b : Int) : Bool :=
  match cond.toNat with
  | 0 => decide (a = b)
  | 1 => decide (a ≠ b)
  | 2 => decide (a < b)
  | 3 => decide (a ≤ b)
  | 4 => decide (b < a)
  | _ => decide (b ≤ a)

/-- A byte of a word, and the word of four bytes. -/
def byteOf (x : Word) (i : Nat) : Nat := x.toNat / 256 ^ i % 256

/-- One byte of prmt by its selector byte (R251). -/
def permuteByte (a b : Word) (t : Nat) : Nat :=
  let k := t % 8
  let x := if k < 4 then byteOf a k else byteOf b (k - 4)
  match t / 8 % 4 with
  | 0 => x
  | 1 => 0
  | 2 => brev 8 x
  | _ => 255 - x

end Integer

open Integer

/-- iadd: A + B. -/
def execIadd (h : Hdr) (o : IntOps) (s : State) : Result := Ops.withCohort s fun c =>
  binary s c h o o.u (fun a b => sat o.sat o.u (width o.w64) (a + b))

/-- isub: A − B. -/
def execIsub (h : Hdr) (o : IntOps) (s : State) : Result := Ops.withCohort s fun c =>
  binary s c h o o.u (fun a b => sat o.sat o.u (width o.w64) (a - b))

/-- imul: the low w bits of A × B; WIDE: the exact 64-bit product. -/
def execImul (h : Hdr) (o : IntOps) (s : State) : Result := Ops.withCohort s fun c =>
  if o.xop = 1 then Operands.commit s c h (fun gid t =>
    let a := val o.u 32 (Operands.val s gid t o.a).toNat
    let b := val o.u 32 (Operands.src s gid t o.b).toNat
    Operands.outW o.d true (wrap 64 (a * b)))
  else binary s c h o o.u (fun a b => a * b)

/-- imulh: the high w bits of the exact product. -/
def execImulh (h : Hdr) (o : IntOps) (s : State) : Result := Ops.withCohort s fun c =>
  binary s c h o o.u (fun a b => a * b / (2 ^ width o.w64 : Int))

/-- imad: A × B + C; WIDE: 32-bit A and B with C and D pairs. -/
def execImad (h : Hdr) (o : IntOps) (s : State) : Result := Ops.withCohort s fun c =>
  if o.xop = 1 then Operands.commit s c h (fun gid t =>
    let a := val o.u 32 (Operands.val s gid t o.a).toNat
    let b := val o.u 32 (Operands.src s gid t o.b).toNat
    Operands.outW o.d true (wrap 64 (a * b + (Operands.val64 s gid t o.c).toNat)))
  else
    let w := width o.w64
    Operands.commit s c h (fun gid t =>
      let a := val o.u w (Operands.wide s gid t o.w64 o.a)
      let b := val o.u w (Operands.wideSrc s gid t o.w64 o.b)
      Operands.outW o.d o.w64 (wrap w (a * b + (Operands.wide s gid t o.w64 o.c : Nat))))

/-- idiv: the quotient of R247. -/
def execIdiv (h : Hdr) (o : IntOps) (s : State) : Result := Ops.withCohort s fun c => divide s c h o (fun r => r.1)

/-- irem: the remainder of R247. -/
def execIrem (h : Hdr) (o : IntOps) (s : State) : Result := Ops.withCohort s fun c => divide s c h o (fun r => r.2)

/-- imin: the smaller value. -/
def execImin (h : Hdr) (o : IntOps) (s : State) : Result := Ops.withCohort s fun c =>
  binary s c h o o.u (fun a b => if a ≤ b then a else b)

/-- imax: the larger value. -/
def execImax (h : Hdr) (o : IntOps) (s : State) : Result := Ops.withCohort s fun c =>
  binary s c h o o.u (fun a b => if a ≤ b then b else a)

/-- iabs: the magnitude; −2^(w−1) returns itself without SAT. -/
def execIabs (h : Hdr) (o : IntOps) (s : State) : Result := Ops.withCohort s fun c =>
  unary s c h o (fun w n => wrap w (sat o.sat false w ((val false w n).natAbs : Int)))

/-- and. -/
def execIand (h : Hdr) (o : IntOps) (s : State) : Result := Ops.withCohort s fun c => bitwise s c h o (fun a b => a &&& b)

/-- or. -/
def execIor (h : Hdr) (o : IntOps) (s : State) : Result := Ops.withCohort s fun c => bitwise s c h o (fun a b => a ||| b)

/-- xor. -/
def execIxor (h : Hdr) (o : IntOps) (s : State) : Result := Ops.withCohort s fun c => bitwise s c h o (fun a b => a ^^^ b)

/-- not. -/
def execInot (h : Hdr) (o : IntOps) (s : State) : Result := Ops.withCohort s fun c =>
  unary s c h o (fun w n => 2 ^ w - 1 - n)

/-- shl (R248). -/
def execShl (h : Hdr) (o : IntOps) (s : State) : Result := Ops.withCohort s fun c =>
  shift s c h o (fun w a k => if w ≤ k then 0 else a * 2 ^ k % 2 ^ w)

/-- shr (R248). -/
def execShr (h : Hdr) (o : IntOps) (s : State) : Result := Ops.withCohort s fun c =>
  shift s c h o (fun w a k => if w ≤ k then 0 else a / 2 ^ k)

/-- sar (R248). -/
def execSar (h : Hdr) (o : IntOps) (s : State) : Result := Ops.withCohort s fun c =>
  shift s c h o (fun w a k => wrap w (val false w a / (2 ^ min k w : Int)))

/-- rotl (R248). -/
def execRotl (h : Hdr) (o : IntOps) (s : State) : Result := Ops.withCohort s fun c =>
  shift s c h o (fun w a k => (a * 2 ^ (k % w) + a / 2 ^ (w - k % w)) % 2 ^ w)

/-- clz. -/
def execClz (h : Hdr) (o : IntOps) (s : State) : Result := Ops.withCohort s fun c => count s c h o clz

/-- popc. -/
def execPopc (h : Hdr) (o : IntOps) (s : State) : Result := Ops.withCohort s fun c => count s c h o popc

/-- brev. -/
def execBrev (h : Hdr) (o : IntOps) (s : State) : Result := Ops.withCohort s fun c => unary s c h o brev

/-- bfx: extract a field, zero- or sign-extended (R249). -/
def execBfx (h : Hdr) (o : IntOps) (s : State) : Result := Ops.withCohort s fun c =>
  Operands.commit s c h (fun gid t =>
    let d := (Operands.src s gid t o.b).toNat
    let n := fieldLen d
    let f := (Operands.val s gid t o.a).toNat / 2 ^ (d % 256) % 2 ^ n
    Operands.outW o.d false (if n = 0 then 0 else wrap 32 (val (o.xop ≠ 1) n f)))

/-- bfi: insert a field (R249). -/
def execBfi (h : Hdr) (o : IntOps) (s : State) : Result := Ops.withCohort s fun c =>
  Operands.commit s c h (fun gid t =>
    let d := (Operands.src s gid t o.b).toNat
    let n := fieldLen d
    let p := 2 ^ (d % 256)
    let base := (Operands.val s gid t o.c).toNat
    let f := (Operands.val s gid t o.a).toNat % 2 ^ n
    Operands.outW o.d false (if n = 0 then base else base - base / p % 2 ^ n * p + f * p))

/-- icmp: a predicate (R250). -/
def execIcmp (h : Hdr) (o : IntPOps) (s : State) : Result := Ops.withCohort s fun c =>
  Operands.commit s c h (fun gid t =>
    let w := width o.w64
    let a := val o.u w (Operands.wide s gid t o.w64 o.a)
    let b := val o.u w (Operands.wideSrcP s gid t o.w64 o.b)
    { p := [(o.p.toNat, compare o.xop a b)] })

/-- iaddc: a sum with carry in and out of a predicate (R246). -/
def execIaddc (h : Hdr) (o : IntPOps) (s : State) : Result := Ops.withCohort s fun c =>
  Operands.commit s c h (fun gid t =>
    let x := (Operands.val s gid t o.a).toNat + (Operands.srcP s gid t o.b).toNat + (t.q o.p.toNat).toNat
    { d := [(o.d, BitVec.ofNat 32 x)], p := [(o.p.toNat, decide (2 ^ 32 ≤ x))] })

/-- isubb: a difference with borrow in and out of a predicate (R246). -/
def execIsubb (h : Hdr) (o : IntPOps) (s : State) : Result := Ops.withCohort s fun c =>
  Operands.commit s c h (fun gid t =>
    let x : Int := (Operands.val s gid t o.a).toNat - (Operands.srcP s gid t o.b).toNat - (t.q o.p.toNat).toNat
    { d := [(o.d, BitVec.ofNat 32 (wrap 32 x))], p := [(o.p.toNat, decide (x < 0))] })

/-- lea: a pair plus a scaled index (R251). -/
def execLea (h : Hdr) (o : IntOps) (s : State) : Result := Ops.withCohort s fun c =>
  Operands.commit s c h (fun gid t =>
    let b := Operands.src s gid t o.b
    let idx : DWord := if o.u then b.setWidth 64 else b.signExtend 64
    Operands.out64 o.d (Operands.val64 s gid t o.a + idx <<< o.xop.toNat))

/-- dot4: four byte products and a word (R251). -/
def execDot4 (h : Hdr) (o : IntOps) (s : State) : Result := Ops.withCohort s fun c =>
  Operands.commit s c h (fun gid t =>
    let a := Operands.val s gid t o.a
    let b := Operands.src s gid t o.b
    let x : Int := (Operands.val s gid t o.c).toInt + ((List.range 4).map (fun i =>
      val (o.xop.getLsbD 0) 8 (byteOf a i) * val (o.xop.getLsbD 1) 8 (byteOf b i))).sum
    Operands.outW o.d false (wrap 32 (sat o.sat false 32 x)))

/-- prmt: choose four of eight bytes, with a treatment each (R251). -/
def execPrmt (h : Hdr) (o : IntOps) (s : State) : Result := Ops.withCohort s fun c =>
  Operands.commit s c h (fun gid t =>
    let a := Operands.val s gid t o.a
    let b := Operands.src s gid t o.b
    let k := Operands.val s gid t o.c
    let g (i : Nat) : Nat := permuteByte a b (byteOf k i)
    Operands.outW o.d false (g 0 + 256 * g 1 + 65536 * g 2 + 16777216 * g 3))

end Sys2Proof.Machine
end

