-- ==== Sys2Proof/Machine/Moves.lean ====
section
/-! DEFINITION. nop, register moves, predicate functions, special registers, the operand region and the carried set (chapter
8, R60, R190, R191), and the row of an unassigned opcode (R58). -/

namespace Sys2Proof.Machine

open Sys2Proof

namespace Special

/-- %carry as one value (Table 07.2). -/
def carryValue (t : Thread) : DWord := (if t.carryQ then (1 : BitVec 32) else 0) ++ t.carryV

/-- %frame (Table 08.11). -/
def frameValue (t : Thread) : DWord :=
  BitVec.ofNat 64 (t.nres % 16 + 16 * (t.nspill % 65536) + 2 ^ 20 * (t.rstack.length % 64)
    + (if t.view = .off then 0 else 2 ^ 26) + 2 ^ 32 * t.rsmem)

/-- The sector in which a thread runs. -/
def sectorOf (tid : Nat) (t : Thread) : Nat :=
  match t.visit with
  | none => gidSlot (tidGid tid) / 8
  | some x => x.guest / 2

/-- The value of a special register in a thread (Table 08.10). -/
def read (s : State) (tid : Nat) (t : Thread) (n : Nat) : DWord :=
  let team := (s.teamOf? tid).map Prod.snd
  let nat (k : Nat) : DWord := BitVec.ofNat 64 k
  match n with
  | 0x00 => nat (tidLane tid)
  | 0x01 => nat (gidSlot (tidGid tid))
  | 0x02 => nat ((team.map Team.rank).getD 0)
  | 0x03 => nat ((team.bind (fun tm => s.clusters.get? tm.cluster)).map Cluster.index |>.getD 0)
  | 0x04 => nat (Mem.coreOf tid t)
  | 0x05 => nat (coreDie (Mem.coreOf tid t))
  | 0x06 => nat s.now
  | 0x07 => nat ((s.sector (Mem.coreOf tid t) (sectorOf tid t)).cyc / 80)
  | 0x08 => nat t.pix
  | 0x09 => t.epc.setWidth 64
  | 0x0A => t.ecause.setWidth 64
  | 0x0B => t.eaddr
  | 0x0C => t.flags.setWidth 64
  | 0x0D => t.trapen.setWidth 64
  | 0x0E => carryValue t
  | 0x0F => frameValue t
  | _ => t.rspill.setWidth 64

/-- A write of a read-write special register; reserved bits are ignored (Table 08.10). -/
def write (t : Thread) (n : Nat) (x : DWord) : Thread :=
  match n with
  | 0x09 => { t with epc := x.setWidth 48 }
  | 0x0A => { t with ecause := x.setWidth 32 &&& 0xFF1F0FFF }
  | 0x0B => { t with eaddr := x }
  | 0x0C => { t with flags := x.setWidth 5 }
  | 0x0D => { t with trapen := x.setWidth 5 }
  | 0x0E => { t with carryV := x.setWidth 32, carryQ := x.getLsbD 32 }
  | 0x10 => { t with rspill := x.setWidth 48 &&& 0xFFFFFFFFFFF8 }
  | _ => t

/-- The fault of a write of %carry (R191): more than twelve registers, or a bit that did not travel. -/
def carryFault (t : Thread) (m : Word) (q : Bool) : Option Trap :=
  if 12 < popCount m then some (Ops.illOp t)
  else if t.away && ((m &&& ~~~t.carryV) != 0 || (q && !t.carryQ)) then some (Ops.plain 0x21 0x30E)
  else none

/-- Write %carry in every active lane, all of them checked first. -/
def setCarry (s : State) (c : Cohort) (h : Hdr) (f : Nat → Thread → Word × Bool) : State :=
  let act := Ops.active s c h
  let bad := act.filterMap (fun tid => (s.thread? tid).bind (fun t =>
    let m := f (tidGid tid) t
    (carryFault t m.1 m.2).map (fun tr => (tid, tr))))
  if !bad.isEmpty then Ops.takeTraps s bad
  else Ops.eachActive s c h (fun tid t =>
    let m := f (tidGid tid) t
    { t with carryV := m.1, carryQ := m.2 })

end Special

/-- nop (R60). -/
def execNop (_ : Hdr) (s : State) : Result := Ops.withCohort s fun c => Ops.advance s c.tids

/-- mov (R228). -/
def execMov (h : Hdr) (d a : Reg) (b64 : Bool) (s : State) : Result := Ops.withCohort s fun c =>
  Operands.commit s c h (fun gid t => Operands.outW d b64 (Operands.wide s gid t b64 a))

/-- movi (R228). -/
def execMovi (h : Hdr) (d : Reg) (imm : BitVec 32) (b64 : Bool) (s : State) : Result := Ops.withCohort s fun c =>
  Operands.commit s c h (fun _ _ => if b64 then Operands.out64 d (imm.signExtend 64) else Operands.out32 d imm)

/-- sel (R228). -/
def execSel (h : Hdr) (o : SelOps) (s : State) : Result := Ops.withCohort s fun c =>
  Operands.commit s c h (fun gid t =>
    Operands.outW o.d o.b64 (Operands.wide s gid t o.b64 (if t.q o.p.toNat then o.a else o.b)))

/-- pmov: any function of two predicates (R225). -/
def execPmov (h : Hdr) (o : PmovOps) (s : State) : Result := Ops.withCohort s fun c =>
  Operands.commit s c h (fun _ t =>
    { p := [(o.p.toNat, o.t.getLsbD (2 * (t.q o.x.toNat).toNat + (t.q o.y.toNat).toNat))] })

/-- srd: into an s-register, the value of the group's lowest active lane (R235). -/
def execSrd (h : Hdr) (d : Reg) (num : BitVec 8) (s : State) : Result := Ops.withCohort s fun c =>
  let out (tid : Nat) (t : Thread) : Operands.LaneOut :=
    Operands.outW d (srWide num) (Special.read s tid t num.toNat).toNat
  let act := Ops.active s c h
  let s1 := s.mapThreads act (fun tid t => Operands.commitLane t (out tid t))
  let s2 := (Ops.groupsOf act).foldl (fun st gid =>
    match (Ops.lanesOf gid act).head?.bind (fun tid => (s.thread? tid).map (fun t => (tid, t))) with
    | some (tid, t) => Operands.commitGroup st gid (out tid t)
    | none => st) s1
  Ops.advance s2 c.tids

/-- swr: a write of %carry is checked as `carry` is (R191, R235). -/
def execSwr (h : Hdr) (a : Reg) (num : BitVec 8) (s : State) : Result := Ops.withCohort s fun c =>
  let value (gid : Nat) (t : Thread) : DWord := BitVec.ofNat 64 (Operands.wide s gid t (srWide num) a)
  if num = 0x0E then Special.setCarry s c h (fun gid t =>
    let x := value gid t
    (x.setWidth 32, x.getLsbD 32))
  else Ops.eachActive s c h (fun tid t => Special.write t num.toNat (value (tidGid tid) t))

/-- carry (R191). -/
def execCarry (h : Hdr) (m : Src) (q : Bool) (s : State) : Result := Ops.withCohort s fun c =>
  Special.setCarry s c h (fun gid t => (Operands.src s gid t m, q))

/-- rgn: the registers of the operand buffer of each home group with an active lane, which only timing shows; a visiting
thread executes it without effect (R202, R222, R223). DEDUCED, log 19. -/
def execRgn (h : Hdr) (o : RgnOps) (s : State) : Result := Ops.withCohort s fun c =>
  let home := (Ops.active s c h).filter (fun tid => match s.thread? tid with
    | some t => !t.away
    | none => false)
  Ops.advance ((Ops.groupsOf home).foldl (fun s gid => s.modGroup gid (fun g => { g with obuf := o.entries })) s) c.tids

/-- An unassigned OP, or OP 0x00: ILL_OP in every lane, whatever its guard (R58). -/
def execUnassignedOpcode (_ : Slot) (s : State) : Result := Ops.withCohort s fun c => Ops.trapAll s c.tids Ops.illOp

end Sys2Proof.Machine
end

