-- ==== Sys2Proof/Machine/Rings.lean ====
section
/-! DEFINITION. pres, and the stage rings: sgive, sfree, stake and stake.try (R180 to R184). -/

namespace Sys2Proof.Machine

open Sys2Proof

namespace Rings

/-- The core and offset of n bytes that must lie in a scratchpad window. -/
def spadPlace (s : State) (tid : Nat) (t : Thread) (ea : DWord) (n : Nat) : Option (Nat × Nat) :=
  match Mem.classify s tid t ea n false with
  | some (.spad c o) => some (c, o)
  | _ => none

/-- One 64-bit field of a header, as a number. -/
def bits (s : State) (core o : Nat) : Nat := Mem.ofBytes (Mem.spadBytes s core o 8)

/-- The checks of R182, then the effect on the header: its core, its offset and the slot number. An absent header line parks
the lanes (R167, R182), and a core in retention is woken (R383). -/
def withHeader (s : State) (gid : Nat) (t : Thread) (lanes : List Nat) (a d : Reg) (f : Nat → Nat → Nat → Ops.GroupOut) :
    Ops.GroupOut :=
  let ea := Operands.val64 s gid t a
  let bad : Ops.GroupOut := .trap s (fun _ => .fault (Mem.mapFault .rd ea))
  if ea.toNat % 128 ≠ 0 then .trap s (fun _ => Ops.plain 0x12 ea)
  else match lanes.head?.bind (fun tid => spadPlace s tid t ea 128) with
    | none => bad
    | some (core, o) =>
      if (s.core core).ret != Retention.awake then .wait (Mem.ask s core)
      else if Mem.spadAbsent s core o 128 then .stay (s.mapThreads lanes (fun _ t => { t with status := .parked [(core, o / 128)] }))
      else
        let n := (Mem.ofBytes (Mem.spadBytes s core o 4)) % 64 + 1
        let j := (Operands.val s gid t d).toNat
        if n ≤ j then bad else f core o j

/-- Whether the bit that stake waits for has the phase it expects. -/
def phase (s : State) (core o j : Nat) (ph free : Bool) : Bool :=
  (bits s core (o + if free then 0x10 else 8)).testBit j == ph

/-- The threads of a list go on after an acquire, once their earlier loads have returned (R136). -/
def met (s : State) (gid : Nat) (lanes : List Nat) : State :=
  if lanes.all (Ops.loadsBack s) then Ops.advance (Ops.acquireCore s (gidCore gid)) lanes
  else s.mapThreads lanes (fun _ t => { t with status := .acquires })

/-- The slot, phase and field of a thread parked at a header. -/
def stakedAt (core o : Nat) (t : Thread) : Option (Nat × Bool × Bool) :=
  match t.status with
  | .staked k x j ph free => if k = core && x = o then some (j, ph, free) else none
  | _ => none

/-- Every `stake` parked at a header tests its phase again, and goes on if it is met (R183). -/
def retest (s : State) (core o : Nat) : State :=
  let ok := (s.threads.filter (fun x => match stakedAt core o x.2 with
    | some (j, ph, free) => phase s core o j ph free
    | none => false)).map Prod.fst
  (Ops.groupsOf ok).foldl (fun s gid => met s gid (Ops.lanesOf gid ok)) s

/-- Toggle one bit of a field of a header, at which parked stakes test it again. -/
def toggle (s : State) (core o field j : Nat) : State :=
  retest (Mem.spadWrite s core (o + field) (Mem.toBytes 8 (bits s core (o + field) ^^^ 2 ^ j))) core o

/-- The requests of other cores that a scratchpad's ALU holds: one for each group parked at one of its headers (R183). -/
def heldAt (s : State) (core : Nat) : Nat :=
  (Ops.groupsOf ((s.threads.filter (fun x => gidCore (tidGid x.1) != core && (match x.2.status with
    | .staked k _ _ _ _ => k == core
    | _ => false))).map Prod.fst)).length

end Rings

/-- pres: whether L lines from the address are present, in each active lane (R180). A peer in retention is
woken first (R383). -/
def execPres (h : Hdr) (base : Reg) (idx : Option (Reg × BitVec 2)) (l : BitVec 4) (p : BitVec 7) (s : State) : Result :=
  Ops.withCohort s fun c =>
    let act := Ops.active s c h
    let n := 128 * (l.toNat + 1)
    let at? (tid : Nat) (t : Thread) : DWord × Option (Nat × Nat) :=
      let ea := Operands.addr s (tidGid tid) t { base := base, idx := idx, off := 0 }
      (ea, Rings.spadPlace s tid t (ea &&& ~~~127) n)
    let bad := act.filterMap (fun tid => (s.thread? tid).bind (fun t =>
      match at? tid t with
      | (_, some _) => none
      | (ea, none) => some (tid, Trap.fault (Mem.mapFault .rd ea))))
    let asleep := act.filterMap (fun tid => (s.thread? tid).bind (fun t =>
      (at? tid t).2.bind (fun x => if (s.core x.1).ret != Retention.awake then some x.1 else none)))
    if !bad.isEmpty then Ops.takeTraps s bad
    else if !asleep.isEmpty then Ops.stall (asleep.foldl Mem.ask s) c.tids
    else Ops.eachActive s c h (fun tid t =>
      match at? tid t with
      | (_, some (k, o)) => Ops.writeQ t p.toNat (!Mem.spadAbsent s k o n)
      | (_, none) => t)

/-- sgive: toggle the FULL bit of a slot, after a release (R183). -/
def execSgive (h : Hdr) (a d : Reg) (s : State) : Result := Ops.withCohort s fun c =>
  Ops.perGroup s c h true fun s gid t lanes =>
    Rings.withHeader s gid t lanes a d fun core o j => .go (Rings.toggle s core o 8 j)

/-- sfree: toggle the FREE bit of a slot, after a release (R183). -/
def execSfree (h : Hdr) (a d : Reg) (s : State) : Result := Ops.withCohort s fun c =>
  Ops.perGroup s c h true fun s gid t lanes =>
    Rings.withHeader s gid t lanes a d fun core o j => .go (Rings.toggle s core o 0x10 j)

/-- stake: park until the phase, then an acquire (R183). A peer whose table of 32 requests is full answers at once as not matching, and the
request is sent again after 128 cycles. -/
def execStake (h : Hdr) (a d : Reg) (ph free : Bool) (s : State) : Result := Ops.withCohort s fun c =>
  Ops.perGroup s c h false fun s gid t lanes =>
    let put (st : Status) : Ops.GroupOut := .stay (s.mapThreads lanes (fun _ t => { t with status := st }))
    if t.status = .acquires then .stay (Rings.met s gid lanes)
    else Rings.withHeader s gid t lanes a d fun core o j =>
      if Rings.phase s core o j ph free then .stay (Rings.met s gid lanes)
      else if core ≠ gidCore gid && 32 ≤ Rings.heldAt s core then
        put (.resend (s.now + (1280 + coreClock (s.core (gidCore gid)).point - 1) / coreClock (s.core (gidCore gid)).point))
      else put (.staked core o j ph free)

/-- stake.try: test the phase; an acquire when it is met (R183). -/
def execStakeTry (h : Hdr) (a d : Reg) (ph free : Bool) (p : BitVec 7) (s : State) : Result := Ops.withCohort s fun c =>
  Ops.perGroup s c h false fun s gid t lanes =>
    Rings.withHeader s gid t lanes a d fun core o j =>
      let m := Rings.phase s core o j ph free
      if m && !lanes.all (Ops.loadsBack s) then .wait s
      else
        let s := s.mapThreads lanes (fun _ t => Ops.writeQ t p.toNat m)
        .go (if m then Ops.acquireCore s (gidCore gid) else s)

/-- STAKE_RETRY: 128 cycles after a peer refused it, the `stake` of a group is sent again (R183). -/
def execStakeRetry (gid : Nat) (s : State) : Result :=
  let due := s.threads.filter (fun x => tidGid x.1 == gid && (match x.2.status with
    | .resend till => decide (till ≤ s.now)
    | _ => false))
  let s := s.mapThreads (due.map Prod.fst) (fun _ t => { t with status := .parked [] })
  .next { s with agenda := Ops.resumeActs s due.length due ++ s.agenda }

end Sys2Proof.Machine
end

