-- ==== Sys2Proof/Machine/Sched.lean ====
section
/-! DEFINITION. Events of the sectors and of threads: regrouping, issue cycles, ages, the end of a sleep, and asynchronous traps
(R352 to R356, R364, R406). -/

namespace Sys2Proof.Machine

open Sys2Proof

namespace Sched

/-- The threads that a sector of a core holds: resident ones at home, and visitors. -/
def threadsIn (s : State) (core sec : Nat) : List (Nat × Thread) :=
  s.threads.filter (fun x => x.2.status != Status.retired && x.2.status != Status.transit
    && Mem.coreOf x.1 x.2 == core && Issue.sectorOf x.1 x.2 == sec)

/-- The distinct values of a list, in order of first appearance. -/
def distinct {α : Type} [BEq α] (l : List α) : List α := l.foldl (fun r x => if r.contains x then r else r ++ [x]) []

/-- Insert by an order, equal elements in order of arrival. -/
def insertBy {α : Type} (before : α → α → Bool) (x : α) : List α → List α
  | [] => [x]
  | y :: r => if before x y then x :: y :: r else y :: insertBy before x r

/-- Sort by an order. -/
def sortBy {α : Type} (before : α → α → Bool) (l : List α) : List α := l.foldl (fun r x => insertBy before x r) []

/-! ### Regrouping (R352, R353) -/

/-- The threads of one key by PC, the largest piece first: whole bundles, and what is left over at each PC. -/
def pieces (ths : List (Nat × Thread)) : List (List Nat) :=
  sortBy (fun a b => decide (b.length < a.length)) ((distinct (ths.map (fun x => x.2.pc))).flatMap (fun pc =>
    Ops.chunks 128 16 ((ths.filter (fun x => x.2.pc == pc)).map Prod.fst)))

/-- Put a piece into the first bundle with room for it, else into a new one; where the key may have no more bundles, it is spread
over the room that is left. -/
def putPiece (lim : Nat) (bs : List (List Nat)) (p : List Nat) : List (List Nat) :=
  match bs.findIdx? (fun b => decide (b.length + p.length ≤ 128)) with
  | some i => bs.modify i (· ++ p)
  | none =>
    if bs.length < lim then bs ++ [p]
    else
      let r := bs.foldl (fun (r : List (List Nat) × List Nat) b =>
        (r.1 ++ [b ++ r.2.take (128 - b.length)], r.2.drop (128 - b.length))) ([], p)
      if r.2.isEmpty then r.1 else r.1 ++ [r.2]

/-- The lowest free lane of a bundle. -/
def freeLane (b : Tab Nat) : Nat := ((List.range 128).find? (fun l => (b.get? l).isNone)).getD 128

/-- The threads of a bundle on its physical lanes: each keeps the position of its home lane while that is free (R353). -/
def seat (tids : List Nat) : Tab Nat :=
  let r := tids.foldl (fun (r : Tab Nat × List Nat) t =>
    if (r.1.get? (tidLane t)).isNone then (r.1.set (tidLane t) t, r.2) else (r.1, r.2 ++ [t])) ([], [])
  r.2.foldl (fun b t => b.set (freeLane b) t) r.1

/-- The groups, resident or guest, that the threads of a key come from: as many bundles may hold them. -/
def roomOf (ths : List (Nat × Thread)) : Nat :=
  (distinct (ths.map (fun x => match x.2.visit with
    | none => tidGid x.1
    | some v => v.guest))).length

/-- The bundles of a sector: threads of one team and role, or of one context and role; those at one PC in as few bundles as the
lane count allows (R352, R353). DESIGN CHOICE, log 18. -/
def bundlesOf (s : State) (ths : List (Nat × Thread)) : List (Tab Nat) :=
  ((distinct (ths.map (fun x => Ops.bundleKey s x.1 x.2))).flatMap (fun k =>
    let mine := ths.filter (fun x => Ops.bundleKey s x.1 x.2 == k)
    (pieces mine).foldl (putPiece (roomOf mine)) [])).map seat

/-- The groups whose operand buffers a regrouping empties: one of their threads is now in a bundle that holds a thread of another
group and that is not the set of threads it was in before (R222). -/
def moved (old new : List (Tab Nat)) : List Nat :=
  new.foldl (fun gs b =>
    if old.any (fun o => o == b) then gs
    else
      let here := Ops.groupsOf (b.map Prod.snd)
      if here.length ≤ 1 then gs else NSet.addAll gs here) []

/-! ### Cohorts (R354, R355) -/

/-- The ready threads of a bundle that issue in a sector of a core. -/
def readyIn (s : State) (core sec : Nat) (b : Tab Nat) : List (Nat × Thread) :=
  sortBy (fun x y => decide (x.1 < y.1)) (b.filterMap (fun e => (s.thread? e.2).bind (fun t =>
    if t.status == .ready && Mem.coreOf e.2 t == core && Issue.sectorOf e.2 t == sec && Issue.running s e.2 then some (e.2, t)
    else none)))

/-- The cohorts of bundles: bundle and PC of each thread that is ready. -/
def cohorts (s : State) (core sec : Nat) (bs : List (Tab Nat)) : List (Nat × Nat) :=
  distinct ((List.range bs.length).flatMap (fun i => (readyIn s core sec (bs.getD i [])).map (fun x => (i, x.2.pc.toNat))))

/-- The threads of a cohort. -/
def members (s : State) (core sec : Nat) (bs : List (Tab Nat)) (c : Nat × Nat) : List Nat :=
  ((readyIn s core sec (bs.getD c.1 [])).filter (fun x => x.2.pc.toNat == c.2)).map Prod.fst

/-- The age of a cohort. -/
def age (x : Sector) (b pc : Nat) : Nat :=
  ((x.ages.find? (fun a => a.1 == b && a.2.1 == pc)).map (fun a => a.2.2)).getD 0

/-- The largest age among the old cohorts at a PC that hold a thread of a new bundle (R355). -/
def mergedAge (x : Sector) (tids : Tab Nat) (pc : Nat) : Nat :=
  x.ages.foldl (fun m a =>
    if a.2.1 = pc && (x.bundles.getD a.1 []).any (fun t => tids.any (fun u => u.2 == t.2)) then max m a.2.2 else m) 0

/-! ### What a sector cycle offers and issues (R354, R355, R395, R396, R398) -/

/-- A cohort on offer. -/
structure Offer where
  bundle : Nat
  pc     : Nat
  tids   : List Nat
  age    : Nat
  deriving DecidableEq, Repr

/-- The two cohorts that a bundle offers: most threads, then the higher age, then the lower PC; an aged cohort takes the place of
the second when it is neither. -/
def offersOf (s : State) (core sec : Nat) (x : Sector) (b : Nat) : List Offer :=
  let all := ((cohorts s core sec x.bundles).filter (fun c => c.1 == b)).map (fun c =>
    ({ bundle := b, pc := c.2, tids := members s core sec x.bundles c, age := age x b c.2 } : Offer))
  let l := sortBy (fun p q : Offer => decide (q.tids.length < p.tids.length)
    || (p.tids.length == q.tids.length && (decide (q.age < p.age) || (p.age == q.age && decide (p.pc < q.pc))))) all
  let two := l.take 2
  match (sortBy (fun p q : Offer => decide (q.age < p.age)) (all.filter (fun o => decide (64 ≤ o.age)))).head? with
  | some o => if two.contains o then two else two.take 1 ++ [o]
  | none => two

/-- The ports of the instruction at a PC, and of the slot that is paired with it (R43, R45). A slot that does not decode counts as
one of S. -/
def portsAt (s : State) (core ctx : Nat) (pc : BitVec 48) : Operands.Port × Option Operands.Port :=
  let portOf (w : Slot) : Operands.Port := match Decode.parse (Fields.unpack w) with
    | some i => Operands.port (w.toNat % 256) i
    | none => .S
  match Issue.fetch s core ctx none pc (Ops.pc64 pc) with
  | .line bits _ =>
    let i := pcSlot pc
    (portOf (Issue.slotBits bits i),
      if i < 4 && bits.testBit (485 + i) then some (portOf (Issue.slotBits bits (i + 1))) else none)
  | _ => (.S, none)

/-- Whether a sector cycle is lost to the halving that follows a droop (R398). -/
def halvedNow (k : Core) (x : Sector) : Bool :=
  (match k.droop with
    | .halved _ => true
    | _ => false) && x.cycles % 2 == 1

/-- Whether the V and E ports of a sector are held in its cycle: by the capacitor, or in alternate cycles by the ramp limit (R395,
R396). -/
def heldNow (k : Core) (x : Sector) : Bool := k.capHold || (k.rampHold && x.cycles % 2 == 1)

/-- What a cycle has taken so far: ports with the bundle that took each, and the offers that issue. -/
structure Taken where
  ports  : List (Operands.Port × Nat)
  offers : List (Nat × Nat × List Nat)

/-- Whether a port is free for a bundle: it is not held, and no other bundle has taken it; four instructions at most. -/
def portFree (held : Bool) (r : Taken) (b : Nat) (p : Operands.Port) : Bool :=
  !(held && (p == .V || p == .E)) && r.ports.all (fun u => u.1 != p || u.2 == b) && decide (r.offers.length < 4)

/-- An offered cohort takes its port, and its pair's. -/
def takeOffer (s : State) (core : Nat) (held : Bool) (r : Taken) (o : Offer) : Taken :=
  let pc := BitVec.ofNat 48 o.pc
  let p := portsAt s core (s.ctxOf (o.tids.headD 0)) pc
  if !portFree held r o.bundle p.1 then r
  else
    let r1 : Taken := { ports := (p.1, o.bundle) :: r.ports, offers := r.offers ++ [(o.bundle, o.pc, o.tids)] }
    match p.2 with
    | some q =>
      if portFree held r1 o.bundle q then
        { ports := (q, o.bundle) :: r1.ports, offers := r1.offers ++ [(o.bundle, (nextPc pc).toNat, o.tids)] }
      else r1
    | none => r1

/-- The bundles in served order from one of them. -/
def served (n rr : Nat) : List Nat := (List.range n).map (fun i => (rr + i) % max n 1)

/-- What a sector cycle issues: aged cohorts in descending age, ties to the lower bundle, then the bundles round-robin. -/
def pick (s : State) (core sec : Nat) (x : Sector) : List (Nat × Nat × List Nat) :=
  let k := s.core core
  if halvedNow k x then []
  else
    let all := (served x.bundles.length x.rr).flatMap (offersOf s core sec x)
    let aged := sortBy (fun p q : Offer => decide (q.age < p.age) || (p.age == q.age && decide (p.bundle < q.bundle)))
      (all.filter (fun o => decide (64 ≤ o.age)))
    let rest := all.filter (fun o => decide (o.age < 64))
    ((aged ++ rest).foldl (takeOffer s core (heldNow k x)) { ports := [], offers := [] }).offers

/-- The ages at the end of a cycle: a cohort that issued is at 0, one that was ready and did not is one older, one whose port was
held keeps its age (R355). -/
def agesAfter (s : State) (core sec : Nat) (x : Sector) : List (Nat × Nat × Nat) :=
  let k := s.core core
  (cohorts s core sec x.bundles).map (fun c =>
    let held := halvedNow k x || (heldNow k x &&
      (let p := (portsAt s core (s.ctxOf ((members s core sec x.bundles c).headD 0)) (BitVec.ofNat 48 c.2)).1
       p == .V || p == .E))
    (c.1, c.2, if x.served.contains c then 0 else if held then age x c.1 c.2 else age x c.1 c.2 + 1))

/-- Change a sector of a core. -/
def modSector (s : State) (core sec : Nat) (f : Sector → Sector) : State :=
  s.modCore core (fun k => { k with sectors := k.sectors.set sec (f (k.sectors.getD sec Sector.reset)) })

end Sched

/-- REGROUPING: after 16 sector cycles the threads of a sector are arranged into bundles; a thread that yielded is ready again (R353,
R363). Cohorts take the largest age of those they join, and the buffers of groups with a thread in a bundle of another group are
emptied (R222). DESIGN CHOICE, log 18. -/
def execRegrouping (core sector : Nat) (s : State) : Result := .next <|
  let x := s.sector core sector
  if !x.bundles.isEmpty && x.since < 16 then s
  else
    let ths := Sched.threadsIn s core sector
    let s1 := s.mapThreads (ths.map Prod.fst) (fun _ t => if t.status = .yielded then { t with status := .ready } else t)
    let bs := Sched.bundlesOf s1 ths
    let cs := Sched.cohorts s1 core sector bs
    let s2 := Sched.modSector s1 core sector (fun x =>
      { x with
        bundles := bs, since := 0, offers := [], served := []
        ages := cs.map (fun c => (c.1, c.2, Sched.mergedAge x (bs.getD c.1 []) c.2)) })
    (Sched.moved x.bundles bs).foldl Ops.flushBuffer s2

/-- SECTOR_ISSUE_CYCLE: a sector cycle ends and the next begins: ages rise (R355), the cycle counts as one in which the sector issued
or not (R382), and the cohorts that the new cycle issues are chosen (R354). A regrouping is due first every 16 cycles (R353).
DESIGN CHOICE, log 18. -/
def execSectorIssueCycle (core sector : Nat) (s : State) : Result := .next <|
  let x := s.sector core sector
  if 16 ≤ x.since then s
  else
    let x1 := { x with
      cycles := x.cycles + 1
      issued := x.issued + (if x.served.isEmpty then 0 else 1)
      since := x.since + 1
      ages := Sched.agesAfter s core sector x
      served := [] }
    let offers := Sched.pick s core sector x1
    let rr := match offers.head? with
      | some o => (o.1 + 1) % max x.bundles.length 1
      | none => x.rr
    let s1 := s.countCore core 0x002 (Mem.partOfCore s core)
    Sched.modSector s1 core sector (fun _ => { x1 with offers := offers, rr := rr })

/-- COHORT_AGED: cohorts have reached age 64; each is counted, and the served order starts with the most aged (R355).
DESIGN CHOICE, log 18. -/
def execCohortAged (core sector : Nat) (s : State) : Result := .next <|
  let x := s.sector core sector
  let aged := x.ages.filter (fun a => decide (64 ≤ a.2.2))
  let first := aged.foldl (fun (m : Option (Nat × Nat × Nat)) a => match m with
    | none => some a
    | some b => if b.2.2 < a.2.2 then some a else some b) none
  match first with
  | none => s
  | some a =>
    let n := (x.ages.filter (fun a => a.2.2 == 64)).length
    let s1 := s.modCore core (fun k => k.count 0x008 (Mem.partOfCore s core) n)
    Sched.modSector s1 core sector (fun x => { x with rr := a.1 })

/-- SLEEP_EXPIRY: a sleeping lane wakes when %time reaches its time (R364). -/
def execSleepExpiry (tid : Nat) (s : State) : Result := .next <|
  s.modThread tid (fun t => match t.status with
    | .sleeping till => if till ≤ s.now then { t with status := .ready } else t
    | _ => t)

/-- ASYNC_TRAP_DELIVERY: a pending DEADLINE is taken at a boundary of a thread at home with IN = 0 and no open shadow, while its
group runs; it ends a sleep, and waits while the thread is parked (R390, R406). -/
def execAsyncTrapDelivery (tid : Nat) (s : State) : Result := .next <|
  match s.thread? tid with
  | none => s
  | some t =>
    let boundary : Bool := match t.status with
      | .ready | .sleeping _ | .yielded => true
      | _ => false
    match t.deadline with
    | none => s
    | some ea =>
      if !boundary || !Issue.deadlineDue s tid t || !Issue.running s tid then s
      else Ops.takeTraps (s.setThread tid { t with deadline := none }) [(tid, .vector 1 0 ea false)]

end Sys2Proof.Machine
end

