-- ==== Sys2Proof/Machine/Dispatch.lean ====
section
/-! DEFINITION. One arm for every constructor of Instr, each one direct call of the meaning of that instruction or event. -/

namespace Sys2Proof.Machine

open Sys2Proof

def exec (i : Instr) (s : State) : Host.Outcome State Fault Refusal :=
  match i with
  | .nop h => Sys2Proof.Machine.execNop h s
  | .bra h t => Sys2Proof.Machine.execBra h t s
  | .brx h a => Sys2Proof.Machine.execBrx h a s
  | .call h t => Sys2Proof.Machine.execCall h t s
  | .callx h a => Sys2Proof.Machine.execCallx h a s
  | .ret h => Sys2Proof.Machine.execRet h s
  | .exit h => Sys2Proof.Machine.execExit h s
  | .yield h => Sys2Proof.Machine.execYield h s
  | .sleep h n => Sys2Proof.Machine.execSleep h n s
  | .trap h v n => Sys2Proof.Machine.execTrap h v n s
  | .tfence h => Sys2Proof.Machine.execTfence h s
  | .meet h k => Sys2Proof.Machine.execMeet h k s
  | .kset h k m n => Sys2Proof.Machine.execKset h k m n s
  | .bar h => Sys2Proof.Machine.execBar h s
  | .cbar h => Sys2Proof.Machine.execCbar h s
  | .wait h a => Sys2Proof.Machine.execWait h a s
  | .htest h a p => Sys2Proof.Machine.execHtest h a p s
  | .hcancel h a => Sys2Proof.Machine.execHcancel h a s
  | .hmov h d a => Sys2Proof.Machine.execHmov h d a s
  | .hmovTok h d a => Sys2Proof.Machine.execHmovTok h d a s
  | .rgn h o => Sys2Proof.Machine.execRgn h o s
  | .brk h n => Sys2Proof.Machine.execBrk h n s
  | .mov h d a b64 => Sys2Proof.Machine.execMov h d a b64 s
  | .movi h d imm b64 => Sys2Proof.Machine.execMovi h d imm b64 s
  | .sel h o => Sys2Proof.Machine.execSel h o s
  | .pmov h o => Sys2Proof.Machine.execPmov h o s
  | .pld h o => Sys2Proof.Machine.execPld h o s
  | .pst h o => Sys2Proof.Machine.execPst h o s
  | .srd h d num => Sys2Proof.Machine.execSrd h d num s
  | .swr h a num => Sys2Proof.Machine.execSwr h a num s
  | .rdl h d a b => Sys2Proof.Machine.execRdl h d a b s
  | .wrl h d a b => Sys2Proof.Machine.execWrl h d a b s
  | .iadd h o => Sys2Proof.Machine.execIadd h o s
  | .isub h o => Sys2Proof.Machine.execIsub h o s
  | .imul h o => Sys2Proof.Machine.execImul h o s
  | .imulh h o => Sys2Proof.Machine.execImulh h o s
  | .imad h o => Sys2Proof.Machine.execImad h o s
  | .idiv h o => Sys2Proof.Machine.execIdiv h o s
  | .irem h o => Sys2Proof.Machine.execIrem h o s
  | .imin h o => Sys2Proof.Machine.execImin h o s
  | .imax h o => Sys2Proof.Machine.execImax h o s
  | .iabs h o => Sys2Proof.Machine.execIabs h o s
  | .iand h o => Sys2Proof.Machine.execIand h o s
  | .ior h o => Sys2Proof.Machine.execIor h o s
  | .ixor h o => Sys2Proof.Machine.execIxor h o s
  | .inot h o => Sys2Proof.Machine.execInot h o s
  | .shl h o => Sys2Proof.Machine.execShl h o s
  | .shr h o => Sys2Proof.Machine.execShr h o s
  | .sar h o => Sys2Proof.Machine.execSar h o s
  | .rotl h o => Sys2Proof.Machine.execRotl h o s
  | .clz h o => Sys2Proof.Machine.execClz h o s
  | .popc h o => Sys2Proof.Machine.execPopc h o s
  | .brev h o => Sys2Proof.Machine.execBrev h o s
  | .bfx h o => Sys2Proof.Machine.execBfx h o s
  | .bfi h o => Sys2Proof.Machine.execBfi h o s
  | .icmp h o => Sys2Proof.Machine.execIcmp h o s
  | .iaddc h o => Sys2Proof.Machine.execIaddc h o s
  | .isubb h o => Sys2Proof.Machine.execIsubb h o s
  | .lea h o => Sys2Proof.Machine.execLea h o s
  | .dot4 h o => Sys2Proof.Machine.execDot4 h o s
  | .prmt h o => Sys2Proof.Machine.execPrmt h o s
  | .fadd h o => Sys2Proof.Machine.execFadd h o s
  | .fsub h o => Sys2Proof.Machine.execFsub h o s
  | .fmul h o => Sys2Proof.Machine.execFmul h o s
  | .ffma h o => Sys2Proof.Machine.execFfma h o s
  | .fmin h o => Sys2Proof.Machine.execFmin h o s
  | .fmax h o => Sys2Proof.Machine.execFmax h o s
  | .fcmp h o => Sys2Proof.Machine.execFcmp h o s
  | .fclass h o => Sys2Proof.Machine.execFclass h o s
  | .frcp h o => Sys2Proof.Machine.execFrcp h o s
  | .frsq h o => Sys2Proof.Machine.execFrsq h o s
  | .fsqrt h o => Sys2Proof.Machine.execFsqrt h o s
  | .fdiv h o => Sys2Proof.Machine.execFdiv h o s
  | .fexp2 h o => Sys2Proof.Machine.execFexp2 h o s
  | .flog2 h o => Sys2Proof.Machine.execFlog2 h o s
  | .fsin h o => Sys2Proof.Machine.execFsin h o s
  | .fcos h o => Sys2Proof.Machine.execFcos h o s
  | .hadd2 h o => Sys2Proof.Machine.execHadd2 h o s
  | .hmul2 h o => Sys2Proof.Machine.execHmul2 h o s
  | .hfma2 h o => Sys2Proof.Machine.execHfma2 h o s
  | .hmax2 h o => Sys2Proof.Machine.execHmax2 h o s
  | .hmin2 h o => Sys2Proof.Machine.execHmin2 h o s
  | .cvt h o => Sys2Proof.Machine.execCvt h o s
  | .fround h o => Sys2Proof.Machine.execFround h o s
  | .bfpq h o => Sys2Proof.Machine.execBfpq h o s
  | .bfpx h o => Sys2Proof.Machine.execBfpx h o s
  | .ballot h o => Sys2Proof.Machine.execBallot h o s
  | .vote h o => Sys2Proof.Machine.execVote h o s
  | .shfl h o => Sys2Proof.Machine.execShfl h o s
  | .matchx h o => Sys2Proof.Machine.execMatchx h o s
  | .redx h o => Sys2Proof.Machine.execRedx h o s
  | .scan h o => Sys2Proof.Machine.execScan h o s
  | .lmask h o => Sys2Proof.Machine.execLmask h o s
  | .ld h o => Sys2Proof.Machine.execLd h o s
  | .st h o => Sys2Proof.Machine.execSt h o s
  | .atom h o => Sys2Proof.Machine.execAtom h o s
  | .red h o => Sys2Proof.Machine.execRed h o s
  | .fence h => Sys2Proof.Machine.execFence h s
  | .fenceAcq h => Sys2Proof.Machine.execFenceAcq h s
  | .fenceRel h => Sys2Proof.Machine.execFenceRel h s
  | .prefl h addr llc => Sys2Proof.Machine.execPrefl h addr llc s
  | .gath h o => Sys2Proof.Machine.execGath h o s
  | .scat h o => Sys2Proof.Machine.execScat h o s
  | .lds h o => Sys2Proof.Machine.execLds h o s
  | .sts h o => Sys2Proof.Machine.execSts h o s
  | .cpy h o => Sys2Proof.Machine.execCpy h o s
  | .cpy2 h d a b c => Sys2Proof.Machine.execCpy2 h d a b c s
  | .cfill h o => Sys2Proof.Machine.execCfill h o s
  | .pres h base idx l p => Sys2Proof.Machine.execPres h base idx l p s
  | .sgive h a d => Sys2Proof.Machine.execSgive h a d s
  | .stake h a d ph free => Sys2Proof.Machine.execStake h a d ph free s
  | .stakeTry h a d ph free p => Sys2Proof.Machine.execStakeTry h a d ph free p s
  | .sfree h a d => Sys2Proof.Machine.execSfree h a d s
  | .go h addr => Sys2Proof.Machine.execGo h addr s
  | .back h => Sys2Proof.Machine.execBack h s
  | .carry h m q => Sys2Proof.Machine.execCarry h m q s
  | .whereIs h d addr => Sys2Proof.Machine.execWhereIs h d addr s
  | .mzero h d t k => Sys2Proof.Machine.execMzero h d t k s
  | .mma h o ty k16 => Sys2Proof.Machine.execMma h o ty k16 s
  | .mmab h o m k16 => Sys2Proof.Machine.execMmab h o m k16 s
  | .mld h o ty => Sys2Proof.Machine.execMld h o ty s
  | .mst h o ty => Sys2Proof.Machine.execMst h o ty s
  | .mscl h o => Sys2Proof.Machine.execMscl h o s
  | .msclU h d t k scale => Sys2Proof.Machine.execMsclU h d t k scale s
  | .acall h d a t trap => Sys2Proof.Machine.execAcall h d a t trap s
  | .acorr h d a b => Sys2Proof.Machine.execAcorr h d a b s
  | .astat h d b => Sys2Proof.Machine.execAstat h d b s
  | .tenq h a tr => Sys2Proof.Machine.execTenq h a tr s
  | .tdeq h a p q => Sys2Proof.Machine.execTdeq h a p q s
  | .dcnew h a n => Sys2Proof.Machine.execDcnew h a n s
  | .dcadd h a n => Sys2Proof.Machine.execDcadd h a n s
  | .dcdec h a n => Sys2Proof.Machine.execDcdec h a n s
  | .dcrd h a b => Sys2Proof.Machine.execDcrd h a b s
  | .launch h d a => Sys2Proof.Machine.execLaunch h d a s
  | .dcfree h a => Sys2Proof.Machine.execDcfree h a s
  | .dln h ns b => Sys2Proof.Machine.execDln h ns b s
  | .dprog h n => Sys2Proof.Machine.execDprog h n s
  | .dend h => Sys2Proof.Machine.execDend h s
  | .dslack h a => Sys2Proof.Machine.execDslack h a s
  | .coll h d a kind x => Sys2Proof.Machine.execColl h d a kind x s
  | .fput h d a => Sys2Proof.Machine.execFput h d a s
  | .fget h d a => Sys2Proof.Machine.execFget h d a s
  | .fsig h d a => Sys2Proof.Machine.execFsig h d a s
  | .eret h => Sys2Proof.Machine.execEret h s
  | .sysrd h d addr => Sys2Proof.Machine.execSysrd h d addr s
  | .syswr h a addr => Sys2Proof.Machine.execSyswr h a addr s
  | .tlbiVa h a => Sys2Proof.Machine.execTlbiVa h a s
  | .tlbiCtx h => Sys2Proof.Machine.execTlbiCtx h s
  | .tlbiOth h a => Sys2Proof.Machine.execTlbiOth h a s
  | .tlbiPart h a => Sys2Proof.Machine.execTlbiPart h a s
  | .tlbiAll h => Sys2Proof.Machine.execTlbiAll h s
  | .cmaintWb h addr => Sys2Proof.Machine.execCmaintWb h addr s
  | .cmaintWbi h addr => Sys2Proof.Machine.execCmaintWbi h addr s
  | .cmaintIc h addr => Sys2Proof.Machine.execCmaintIc h addr s
  | .halt h => Sys2Proof.Machine.execHalt h s
  | .chkset h a n => Sys2Proof.Machine.execChkset h a n s
  | .unassignedOpcode w => Sys2Proof.Machine.execUnassignedOpcode w s
  | .instructionFetch core ctx va => Sys2Proof.Machine.execInstructionFetch core ctx va s
  | .asyncTrapDelivery tid => Sys2Proof.Machine.execAsyncTrapDelivery tid s
  | .hostServicedStop gid => Sys2Proof.Machine.execHostServicedStop gid s
  | .shadowEnd tid x => Sys2Proof.Machine.execShadowEnd tid x s
  | .regrouping core sector => Sys2Proof.Machine.execRegrouping core sector s
  | .sectorIssueCycle core sector => Sys2Proof.Machine.execSectorIssueCycle core sector s
  | .cohortAged core sector => Sys2Proof.Machine.execCohortAged core sector s
  | .sleepExpiry tid => Sys2Proof.Machine.execSleepExpiry tid s
  | .registration id => Sys2Proof.Machine.execRegistration id s
  | .registrationAck id => Sys2Proof.Machine.execRegistrationAck id s
  | .homeRead tid x part => Sys2Proof.Machine.execHomeRead tid x part s
  | .wordRecall word => Sys2Proof.Machine.execWordRecall word s
  | .l1Eviction core line => Sys2Proof.Machine.execL1Eviction core line s
  | .llcEviction line => Sys2Proof.Machine.execLlcEviction line s
  | .directoryEviction line => Sys2Proof.Machine.execDirectoryEviction line s
  | .reducePartialUpdate id => Sys2Proof.Machine.execReducePartialUpdate id s
  | .partialEviction line slice => Sys2Proof.Machine.execPartialEviction line slice s
  | .exclusiveRequest line => Sys2Proof.Machine.execExclusiveRequest line s
  | .atomBackoffExpiry id => Sys2Proof.Machine.execAtomBackoffExpiry id s
  | .tlbMissWalk ctx miss => Sys2Proof.Machine.execTlbMissWalk ctx miss s
  | .walkCompletion ctx va => Sys2Proof.Machine.execWalkCompletion ctx va s
  | .memoryControllerAccess part pa wr ecc => Sys2Proof.Machine.execMemoryControllerAccess part pa wr ecc s
  | .formatViewFill line => Sys2Proof.Machine.execFormatViewFill line s
  | .formatViewWriteback line => Sys2Proof.Machine.execFormatViewWriteback line s
  | .fmtwEnable w => Sys2Proof.Machine.execFmtwEnable w s
  | .fmtwDisable w => Sys2Proof.Machine.execFmtwDisable w s
  | .fmtwFlushEnd w => Sys2Proof.Machine.execFmtwFlushEnd w s
  | .regionEntryWrite g v => Sys2Proof.Machine.execRegionEntryWrite g v s
  | .regionScrubEnd g => Sys2Proof.Machine.execRegionScrubEnd g s
  | .copyCommandStart core => Sys2Proof.Machine.execCopyCommandStart core s
  | .lineLanded core id line => Sys2Proof.Machine.execLineLanded core id line s
  | .copyCompletion core id => Sys2Proof.Machine.execCopyCompletion core id s
  | .stakeRetry gid => Sys2Proof.Machine.execStakeRetry gid s
  | .matrixCommandStart core id => Sys2Proof.Machine.execMatrixCommandStart core id s
  | .matrixCompletion core reached => Sys2Proof.Machine.execMatrixCompletion core reached s
  | .matrixCheck core => Sys2Proof.Machine.execMatrixCheck core s
  | .continuationArrival pkt => Sys2Proof.Machine.execContinuationArrival pkt s
  | .returnArrival pkt => Sys2Proof.Machine.execReturnArrival pkt s
  | .migrationRefusalReturn tid => Sys2Proof.Machine.execMigrationRefusalReturn tid s
  | .arrayQueueEntry die id => Sys2Proof.Machine.execArrayQueueEntry die id s
  | .alay die seq => Sys2Proof.Machine.execAlay die seq s
  | .abat die seq => Sys2Proof.Machine.execAbat die seq s
  | .calibrationProbe die seq => Sys2Proof.Machine.execCalibrationProbe die seq s
  | .astg die seq => Sys2Proof.Machine.execAstg die seq s
  | .acmt die seq => Sys2Proof.Machine.execAcmt die seq s
  | .avfy die seq => Sys2Proof.Machine.execAvfy die seq s
  | .journalReplay die => Sys2Proof.Machine.execJournalReplay die s
  | .aqry die seq => Sys2Proof.Machine.execAqry die seq s
  | .tilePass die id => Sys2Proof.Machine.execTilePass die id s
  | .rowProgramVerify die id ok => Sys2Proof.Machine.execRowProgramVerify die id ok s
  | .arrayCompletion die id => Sys2Proof.Machine.execArrayCompletion die id s
  | .correctionPublish die tile cols => Sys2Proof.Machine.execCorrectionPublish die tile cols s
  | .arrayCheck die => Sys2Proof.Machine.execArrayCheck die s
  | .stagingOwnerWrite die stg v => Sys2Proof.Machine.execStagingOwnerWrite die stg v s
  | .stagingEraseEnd die stg => Sys2Proof.Machine.execStagingEraseEnd die stg s
  | .permissionEntryWrite die row vf v => Sys2Proof.Machine.execPermissionEntryWrite die row vf v s
  | .sequencerCtlWrite die seq v => Sys2Proof.Machine.execSequencerCtlWrite die seq v s
  | .cwd3Write die seq v => Sys2Proof.Machine.execCwd3Write die seq v s
  | .launchPacket vf req => Sys2Proof.Machine.execLaunchPacket vf req s
  | .clusterPlacement grid => Sys2Proof.Machine.execClusterPlacement grid s
  | .launchCompletion grid => Sys2Proof.Machine.execLaunchCompletion grid s
  | .schedulerTake core => Sys2Proof.Machine.execSchedulerTake core s
  | .schedulerSteal core => Sys2Proof.Machine.execSchedulerSteal core s
  | .evaluation => Sys2Proof.Machine.execEvaluation s
  | .railSettled r => Sys2Proof.Machine.execRailSettled r s
  | .railHoldExpiry r => Sys2Proof.Machine.execRailHoldExpiry r s
  | .capMessage seq cap lease => Sys2Proof.Machine.execCapMessage seq cap lease s
  | .leaseExpiry => Sys2Proof.Machine.execLeaseExpiry s
  | .capacitorHold r => Sys2Proof.Machine.execCapacitorHold r s
  | .capacitorRecharged r => Sys2Proof.Machine.execCapacitorRecharged r s
  | .droopAlarm r mv => Sys2Proof.Machine.execDroopAlarm r mv s
  | .droopStretchEnd core => Sys2Proof.Machine.execDroopStretchEnd core s
  | .droopHalvingEnd core => Sys2Proof.Machine.execDroopHalvingEnd core s
  | .wayGatingWindow slice part est => Sys2Proof.Machine.execWayGatingWindow slice part est s
  | .wayReenable ways misses accesses => Sys2Proof.Machine.execWayReenable ways misses accesses s
  | .retentionEntry core => Sys2Proof.Machine.execRetentionEntry core s
  | .coreWake core => Sys2Proof.Machine.execCoreWake core s
  | .paritySweep core fails sfails hfails qfails rfails spad tiles => Sys2Proof.Machine.execParitySweep core fails sfails hfails qfails rfails spad tiles s
  | .linkFailure join => Sys2Proof.Machine.execLinkFailure join s
  | .dieLoss join => Sys2Proof.Machine.execDieLoss join s
  | .fevasPortDown port => Sys2Proof.Machine.execFevasPortDown port s
  | .fabricRemoteAccess ctx comm off x => Sys2Proof.Machine.execFabricRemoteAccess ctx comm off x s
  | .fabricCompletion id r => Sys2Proof.Machine.execFabricCompletion id r s
  | .communicatorAbort ctx comm => Sys2Proof.Machine.execCommunicatorAbort ctx comm s
  | .fabricUnreachable ctx comm peer => Sys2Proof.Machine.execFabricUnreachable ctx comm peer s
  | .communicatorSetup ctx comm e => Sys2Proof.Machine.execCommunicatorSetup ctx comm e s
  | .lqtailWrite vf v => Sys2Proof.Machine.execLqtailWrite vf v s
  | .lqcfgWrite vf v => Sys2Proof.Machine.execLqcfgWrite vf v s
  | .eqheadWrite vf v => Sys2Proof.Machine.execEqheadWrite vf v s
  | .resume vf ctx core group => Sys2Proof.Machine.execResume vf ctx core group s
  | .kill vf ctx => Sys2Proof.Machine.execKill vf ctx s
  | .preempt vf ctx => Sys2Proof.Machine.execPreempt vf ctx s
  | .restore vf ctx => Sys2Proof.Machine.execRestore vf ctx s
  | .saveImageClose ctx => Sys2Proof.Machine.execSaveImageClose ctx s
  | .saveLost ctx => Sys2Proof.Machine.execSaveLost ctx s
  | .contextEnd ctx => Sys2Proof.Machine.execContextEnd ctx s
  | .contextCreate vf d => Sys2Proof.Machine.execContextCreate vf d s
  | .partitionCreate p => Sys2Proof.Machine.execPartitionCreate p s
  | .partitionDestroy p => Sys2Proof.Machine.execPartitionDestroy p s
  | .partitionDescriptorWrite p f => Sys2Proof.Machine.execPartitionDescriptorWrite p f s
  | .coreReassign core p => Sys2Proof.Machine.execCoreReassign core p s
  | .registerWrite r v => Sys2Proof.Machine.execRegisterWrite r v s
  | .powerOn images => Sys2Proof.Machine.execPowerOn images s
  | .powerLoss => Sys2Proof.Machine.execPowerLoss s
  | .warmReset => Sys2Proof.Machine.execWarmReset s
  | .recoveryImageWrite img => Sys2Proof.Machine.execRecoveryImageWrite img s
  | .attestationRequest nonce => Sys2Proof.Machine.execAttestationRequest nonce s
  | .bypass => Sys2Proof.Machine.execBypass s
  | .idcode => Sys2Proof.Machine.execIdcode s
  | .samplePreload => Sys2Proof.Machine.execSamplePreload s
  | .extest => Sys2Proof.Machine.execExtest s
  | .resultArrival tid x => Sys2Proof.Machine.execResultArrival tid x s
  | .eqcfgWrite vf base v => Sys2Proof.Machine.execEqcfgWrite vf base v s
  | .probeRequest die tile => Sys2Proof.Machine.execProbeRequest die tile s
  | .acorrAstatRun die id => Sys2Proof.Machine.execAcorrAstatRun die id s

end Sys2Proof.Machine
end

