-- ==== Sys2Proof/Machine/Step.lean ====
section
/-! DEFINITION. The step: the next act of the agenda, an issue or an event of the module; with no act, a nanosecond passes. -/

namespace Sys2Proof.Machine

open Sys2Proof

/-- One step. Threads that could not yet leave their core leave it first. An issue fetches, decodes and executes one slot for one cohort; an event runs the meaning of its row. An
instruction row that stands where an event should is passed over. DESIGN CHOICE, log 1; DESIGN CHOICE, log 90. -/
def step (s : State) : Host.Outcome State Fault Refusal :=
  match s.agenda with
  | [] => .next (Issue.tick s 1)
  | a :: rest =>
    let s := Ops.leave (Issue.tick { s with agenda := rest } a.dt)
    match a.what with
    | .issue core tids =>
      match Issue.prepare s core tids with
      | .done t => .next t
      | .run i r =>
        match exec i r with
        | .next t => .next (Issue.settle s t core tids)
        | .fault r => .fault r
        | .refused r => .refused r
    | .event i => if Issue.isEvent i then exec i s else .next s

/-- The state in which the next step fetches and runs the instruction whose bits are w. DESIGN CHOICE, log 2. -/
def State.withFetchWord (s : State) (nbits w : Nat) : State := Issue.place s nbits w

end Sys2Proof.Machine
end

