-- ==== Sys2Proof/Safety.lean ====
section
/-! DEFINITION. What claims take a sound state of the module to be, and the words in which they say what an instruction does
to the lanes of its cohort and to everything else. -/

namespace Sys2Proof.Machine

open Sys2Proof

/-! ### Sound states -/

/-- Every region entry names a partition, 0 to 23 (Table 04.7). -/
def regionsLegal (s : State) : Bool := s.regions.all (fun r => decide (r.2.owner < 24))

/-- Main memory and the vaults are in canonical form. -/
def memoryCanonical (s : State) : Bool := Memory.wf s.mem && Memory.wf s.vault

/-- No cohort executes between two steps. -/
def settled (s : State) : Bool := s.cur.isNone

/-! ### Results of a lane -/

/-- What an instruction gives one lane: words for registers, bits for predicates, sticky flags. -/
structure Results where
  regs  : List (Reg × Word) := []
  preds : List (Nat × Bool) := []
  flags : BitVec 5 := 0

/-- The results of a lane as the operand forms carry them. -/
def Results.out (r : Results) : Operands.LaneOut := { d := r.regs, p := r.preds, flags := r.flags }

/-- The v-registers after the results, written in order, over what they held before. -/
def wroteV (d : List (Reg × Word)) (f : Nat → Word) : Nat → Word :=
  d.foldl (fun f x => match x.1 with
    | .v i => fun j => if j = i.val then x.2 else f j
    | _ => f) f

/-- The s-registers after the results, written in order, over what they held before. -/
def wroteS (d : List (Reg × Word)) (f : Nat → Word) : Nat → Word :=
  d.foldl (fun f x => match x.1 with
    | .s i => fun j => if j = i.val then x.2 else f j
    | _ => f) f

/-- The predicates after the results; q0 takes none (R224). -/
def wroteQ (p : List (Nat × Bool)) (f : Nat → Bool) : Nat → Bool :=
  p.foldl (fun f x j => if j = x.1 ∧ j ≠ 0 then x.2 else f j) f

/-- A 32-bit result in D. -/
def Results.word (d : Reg) (x : Word) : Results := { regs := [(d, x)] }

/-- A 64-bit result in the pair D: the low half in the even register (R35). -/
def Results.dword (d : Reg) (x : DWord) : Results := { regs := [(d, x.extractLsb' 0 32), (Operands.next d 1, x.extractLsb' 32 32)] }

/-- A predicate result. -/
def Results.bit (p : BitVec 7) (b : Bool) : Results := { preds := [(p.toNat, b)] }

/-- One lane went on: t before, u after, with results r, at a PC. Registers, predicates and flags are as r says; every
word of another frame of the register window, every special register and all the lane's bookkeeping stay; each shadow is one
instruction shorter. A visiting lane has q1 to q31 only, so a statement about its predicates needs results among them. -/
structure WentOn (t u : Thread) (pc : BitVec 48) (r : Results) : Prop where
  v      : ∀ j, j < 64 → u.v j = wroteV r.regs t.v j
  q      : (t.visit = none ∨ ∀ x ∈ r.preds, x.1 < 32) → ∀ n, n < 96 → u.q n = wroteQ r.preds t.q n
  flags  : u.flags = t.flags ||| r.flags
  pc     : u.pc = pc
  ready  : u.status = .ready
  frames : t.visit = none → ∀ k, (∀ j, j < 64 → k ≠ t.vkey j) → u.word k = t.word k
  left   : u.longs.map LongOp.left = t.longs.map (fun o => o.left - 1)
  away   : u.visit.map (fun x => { x with vregs := [], preds := 0 }) = t.visit.map (fun x => { x with vregs := [], preds := 0 })
  rest   : u = { t with
    status := u.status, pc := u.pc, vregs := u.vregs, vpoison := u.vpoison, preds := u.preds, longs := u.longs
    flags := u.flags, visit := u.visit, resumed := false, stay := false, fresh := false }

/-- The lanes of a group that are active, lowest first. -/
def activeOf (s : State) (c : Cohort) (h : Hdr) (gid : Nat) : List Nat := Ops.lanesOf gid (Ops.active s c h)

/-- A cohort executed an instruction that gives each active lane results r and nothing else, all of them computed in the
state before: its lanes go on at the next slot; a lane whose guard fails only goes on; an s destination is written once for
each home group with an active lane, from its lowest one; threads outside the cohort keep everything but a pending long
result for such an s-register, and the rest of the machine, all memory among it, is as it was. -/
structure Executed (s : State) (c : Cohort) (h : Hdr) (r : Nat → Thread → Results) (u : State) : Prop where
  lane   : ∀ tid t, tid ∈ c.tids → s.thread? tid = some t → ∃ t', u.thread? tid = some t' ∧
    WentOn t t' (nextPc t.pc) (if t.guard h then r tid t else {})
  others : ∀ tid, tid ∉ c.tids → (u.thread? tid).map (fun t => { t with longs := [] })
    = (s.thread? tid).map (fun t => { t with longs := [] })
  scalar : ∀ gid n, (s.group? gid).isSome → u.s gid n = match (activeOf s c h gid).head? with
    | none => s.s gid n
    | some tid => wroteS (((s.thread? tid).map (fun t => (r tid t).regs)).getD []) (s.s gid) n
  groups : ∀ gid, (u.group? gid).map (fun g => { g with sregs := [], spoison := [] })
    = (s.group? gid).map (fun g => { g with sregs := [], spoison := [] })
  frame  : u = { s with threads := u.threads, groups := u.groups }

/-- Whenever a cohort executes the instruction, exec answers a next state in which it was executed with these results. -/
def Gives (i : Instr) (h : Hdr) (r : State → Nat → Thread → Results) : Prop :=
  ∀ s c, s.cur = some c → ∃ u, exec i s = .next u ∧ Executed s c h (r s) u

/-- A cohort of one thread, whose guard holds, executes. -/
def Solo (s : State) (c : Cohort) (h : Hdr) (tid : Nat) (t : Thread) : Prop :=
  s.cur = some c ∧ c.tids = [tid] ∧ s.thread? tid = some t ∧ t.guard h = true

/-- The state after one thread went on at the next slot and nothing else happened to it. -/
def wentOn (s : State) (tid : Nat) : State := Ops.advance s [tid]

end Sys2Proof.Machine
end

