-- ==== Sys2Proof/Certificates/Slice0/Obligations.lean ====
section
/-! DEFINITION. The statements about the model, each named for what it states. Helpers stand in the namespace Claims: they
write the results of the specification's tables in bit vectors and exact integers. -/

namespace Sys2Proof.Claims

open Sys2Proof Sys2Proof.Machine

/-! ### Integer results (R244 to R251) -/

/-- A word as a signed number, or as an unsigned one under U. -/
def num (u : Bool) {w : Nat} (x : BitVec w) : Int := if u then x.toNat else x.toInt

/-- The nearer end of the signed or unsigned range of w bits. -/
def clamp (u : Bool) (w : Nat) (x : Int) : Int :=
  if u then max 0 (min (2 ^ w - 1) x) else max (-(2 ^ (w - 1))) (min (2 ^ (w - 1) - 1) x)

/-- A two-operand result of 32 bits, or of 64 under W64. -/
def int2 (o : IntOps) (f : (w : Nat) → BitVec w → BitVec w → BitVec w) (s : State) (tid : Nat) (t : Thread) : Results :=
  if o.w64 then
    Results.dword o.d (f 64 (Operands.val64 s (tidGid tid) t o.a) (Operands.src64 s (tidGid tid) t o.b))
  else Results.word o.d (f 32 (Operands.val s (tidGid tid) t o.a) (Operands.src s (tidGid tid) t o.b))

/-- A one-operand result of 32 bits, or of 64 under W64. -/
def int1 (o : IntOps) (f : (w : Nat) → BitVec w → BitVec w) (s : State) (tid : Nat) (t : Thread) : Results :=
  if o.w64 then Results.dword o.d (f 64 (Operands.val64 s (tidGid tid) t o.a))
  else Results.word o.d (f 32 (Operands.val s (tidGid tid) t o.a))

/-- A 32-bit result of an operand of 32 bits, or of 64 under W64. -/
def intCount (o : IntOps) (f : (w : Nat) → BitVec w → Nat) (s : State) (tid : Nat) (t : Thread) : Results :=
  Results.word o.d (BitVec.ofNat 32 (if o.w64 then f 64 (Operands.val64 s (tidGid tid) t o.a)
    else f 32 (Operands.val s (tidGid tid) t o.a)))

/-- A shift by B[7:0] of a word, or of a pair under W64 (R248). -/
def intShift (o : IntOps) (f : (w : Nat) → BitVec w → Nat → BitVec w) (s : State) (tid : Nat) (t : Thread) : Results :=
  let c := (Operands.src s (tidGid tid) t o.b).toNat % 256
  if o.w64 then Results.dword o.d (f 64 (Operands.val64 s (tidGid tid) t o.a) c)
  else Results.word o.d (f 32 (Operands.val s (tidGid tid) t o.a) c)

/-- An exact result, saturated under SAT, else modulo 2^w (R245). -/
def exact (o : IntOps) (f : Int → Int → Int) (w : Nat) (a b : BitVec w) : BitVec w :=
  let x := f (num o.u a) (num o.u b)
  BitVec.ofInt w (if o.sat then clamp o.u w x else x)

/-- Quotient and remainder of R247. -/
def quotRem (u : Bool) {w : Nat} (a b : BitVec w) : BitVec w × BitVec w :=
  if b = 0 then (BitVec.allOnes w, a)
  else if u = false ∧ a = BitVec.intMin w ∧ b = BitVec.allOnes w then (a, 0)
  else
    let q := (num u a).tdiv (num u b)
    (BitVec.ofInt w q, BitVec.ofInt w (num u a - q * num u b))

/-- The relation of an icmp condition (R250). -/
def holds (cond : BitVec 4) (x y : Int) : Bool :=
  if cond = 0 then x == y else if cond = 1 then x != y else if cond = 2 then decide (x < y)
  else if cond = 3 then decide (x ≤ y) else if cond = 4 then decide (x > y) else decide (x ≥ y)

/-- The bits [pos+n-1:pos] as a mask, n by R249. -/
def fieldLen (desc : Word) : Nat :=
  let pos := desc.toNat % 256
  let len := desc.toNat / 256 % 256
  if 32 ≤ pos then 0 else min len (32 - pos)

/-- A byte of a word, sign- or zero-extended (R251). -/
def byteNum (u : Bool) (x : Word) (i : Nat) : Int := num u (x.extractLsb' (8 * i) 8)

/-- One byte of prmt: bits [2:0] of the selector pick, bits [4:3] treat (R251). -/
def permuted (a b : Word) (t : BitVec 8) : BitVec 8 :=
  let x := (b ++ a).extractLsb' (8 * (t.extractLsb' 0 3).toNat) 8
  match (t.extractLsb' 3 2).toNat with
  | 0 => x
  | 1 => 0
  | 2 => x.reverse
  | _ => x ^^^ 0xFF

end Sys2Proof.Claims

open Sys2Proof Sys2Proof.Machine Sys2Proof.Claims

/-! ### Integer instructions -/

/-- R244, R245: sums, differences, products, smaller and larger values and magnitudes are exact, then saturated to the range
under SAT, or taken modulo 2^w; nothing else changes. -/
def Sys2Proof.Claims.IntegerArithmetic : Prop :=
  ∀ (h : Hdr) (o : IntOps),
    Gives (.iadd h o) h (int2 o (exact o (· + ·)))
    ∧ Gives (.isub h o) h (int2 o (exact o (· - ·)))
    ∧ (o.xop ≠ 1 → Gives (.imul h o) h (int2 o (fun _ a b => a * b)))
    ∧ (o.xop = 1 → Gives (.imul h o) h (fun s tid t => Results.dword o.d (BitVec.ofInt 64
        (num o.u (Operands.val s (tidGid tid) t o.a) * num o.u (Operands.src s (tidGid tid) t o.b)))))
    ∧ Gives (.imulh h o) h (int2 o (fun w a b => BitVec.ofInt w (num o.u a * num o.u b / 2 ^ w)))
    ∧ (o.xop ≠ 1 → Gives (.imad h o) h (fun s tid t =>
        if o.w64 then Results.dword o.d (Operands.val64 s (tidGid tid) t o.a * Operands.src64 s (tidGid tid) t o.b
          + Operands.val64 s (tidGid tid) t o.c)
        else Results.word o.d (Operands.val s (tidGid tid) t o.a * Operands.src s (tidGid tid) t o.b
          + Operands.val s (tidGid tid) t o.c)))
    ∧ (o.xop = 1 → Gives (.imad h o) h (fun s tid t => Results.dword o.d (BitVec.ofInt 64
        (num o.u (Operands.val s (tidGid tid) t o.a) * num o.u (Operands.src s (tidGid tid) t o.b))
        + Operands.val64 s (tidGid tid) t o.c)))
    ∧ Gives (.imin h o) h (int2 o (fun w a b => BitVec.ofInt w (min (num o.u a) (num o.u b))))
    ∧ Gives (.imax h o) h (int2 o (fun w a b => BitVec.ofInt w (max (num o.u a) (num o.u b))))
    ∧ Gives (.iabs h o) h (int1 o (fun w a => BitVec.ofInt w (if o.sat then clamp false w |a.toInt| else |a.toInt|)))

/-- R245, R248: bitwise functions, counts, reversal, and shifts by B[7:0], with the count reaching or passing the width. -/
def Sys2Proof.Claims.IntegerBitsAndShifts : Prop :=
  ∀ (h : Hdr) (o : IntOps),
    Gives (.iand h o) h (int2 o (fun _ a b => a &&& b))
    ∧ Gives (.ior h o) h (int2 o (fun _ a b => a ||| b))
    ∧ Gives (.ixor h o) h (int2 o (fun _ a b => a ^^^ b))
    ∧ Gives (.inot h o) h (int1 o (fun _ a => ~~~a))
    ∧ Gives (.shl h o) h (intShift o (fun _ a c => a <<< c))
    ∧ Gives (.shr h o) h (intShift o (fun _ a c => a >>> c))
    ∧ Gives (.sar h o) h (intShift o (fun _ a c => a.sshiftRight c))
    ∧ Gives (.rotl h o) h (intShift o (fun _ a c => a.rotateLeft c))
    ∧ Gives (.clz h o) h (intCount o (fun w a => (List.range w).findIdx (fun i => a.getLsbD (w - 1 - i))))
    ∧ Gives (.popc h o) h (intCount o (fun w a => (List.range w).countP (fun i => a.getLsbD i)))
    ∧ Gives (.brev h o) h (int1 o (fun _ a => a.reverse))

/-- Integer arithmetic, and integer bits and shifts. -/
def Obligations.IntegerArithmeticAndShifts : Prop := Sys2Proof.Claims.IntegerArithmetic ∧ Sys2Proof.Claims.IntegerBitsAndShifts

/-- R247: division truncates toward zero, a zero divisor gives all ones and the dividend, and the one overflowing signed
quotient gives the dividend and 0; no flag. With LA 0 the result is written at once; with another LA the same words stand
with the thread under its shadow. -/
def Obligations.IntegerDivision : Prop :=
  ∀ (h : Hdr) (o : IntOps),
    let q := int2 o (fun _ a b => (quotRem o.u a b).1)
    let r := int2 o (fun _ a b => (quotRem o.u a b).2)
    (h.la = 0 → Gives (.idiv h o) h q ∧ Gives (.irem h o) h r)
    ∧ (h.la ≠ 0 → ∀ s c tid t, Solo s c h tid t → ∀ p ∈ [(Instr.idiv h o, q), (Instr.irem h o, r)],
        ∃ u t' x, exec p.1 s = .next u ∧ u.thread? tid = some t' ∧ t'.longs.getLast? = some x
          ∧ x.vals = some ((p.2 s tid t).regs.map Prod.snd) ∧ x.flags = 0 ∧ x.left = h.la.toNat)

/-- R246, R250: comparisons write one predicate, and the carry chain reads and writes one. -/
def Sys2Proof.Claims.IntegerPredicates : Prop :=
  ∀ (h : Hdr) (o : IntPOps),
    Gives (.icmp h o) h (fun s tid t => Results.bit o.p (
      if o.w64 then holds o.xop (num o.u (Operands.val64 s (tidGid tid) t o.a)) (num o.u (Operands.srcP64 s (tidGid tid) t o.b))
      else holds o.xop (num o.u (Operands.val s (tidGid tid) t o.a)) (num o.u (Operands.srcP s (tidGid tid) t o.b))))
    ∧ Gives (.iaddc h o) h (fun s tid t =>
        let x : BitVec 33 := (Operands.val s (tidGid tid) t o.a).setWidth 33 + (Operands.srcP s (tidGid tid) t o.b).setWidth 33
          + BitVec.ofNat 33 (t.q o.p.toNat).toNat
        { regs := [(o.d, x.setWidth 32)], preds := [(o.p.toNat, x.getLsbD 32)] })
    ∧ Gives (.isubb h o) h (fun s tid t =>
        let x : Int := (Operands.val s (tidGid tid) t o.a).toNat - (Operands.srcP s (tidGid tid) t o.b).toNat
          - ((t.q o.p.toNat).toNat : Int)
        { regs := [(o.d, BitVec.ofInt 32 x)], preds := [(o.p.toNat, decide (x < 0))] })

/-- R249, R251: bit fields, addresses, byte dot products and byte permutation. -/
def Sys2Proof.Claims.IntegerFieldsAndBytes : Prop :=
  ∀ (h : Hdr) (o : IntOps),
    Gives (.bfx h o) h (fun s tid t =>
      let desc := Operands.src s (tidGid tid) t o.b
      let f := ((Operands.val s (tidGid tid) t o.a) >>> (desc.toNat % 256)).setWidth (fieldLen desc)
      Results.word o.d (if o.xop = 1 then f.signExtend 32 else f.setWidth 32))
    ∧ Gives (.bfi h o) h (fun s tid t =>
      let desc := Operands.src s (tidGid tid) t o.b
      let m : Word := BitVec.ofNat 32 (2 ^ fieldLen desc - 1) <<< (desc.toNat % 256)
      Results.word o.d ((Operands.val s (tidGid tid) t o.c &&& ~~~m)
        ||| ((Operands.val s (tidGid tid) t o.a <<< (desc.toNat % 256)) &&& m)))
    ∧ Gives (.lea h o) h (fun s tid t =>
      let b := Operands.src s (tidGid tid) t o.b
      Results.dword o.d (Operands.val64 s (tidGid tid) t o.a
        + (if o.u then b.setWidth 64 else b.signExtend 64) <<< o.xop.toNat))
    ∧ Gives (.dot4 h o) h (fun s tid t =>
      let a := Operands.val s (tidGid tid) t o.a
      let b := Operands.src s (tidGid tid) t o.b
      let p (i : Nat) : Int := byteNum (o.xop.getLsbD 0) a i * byteNum (o.xop.getLsbD 1) b i
      let x : Int := (Operands.val s (tidGid tid) t o.c).toInt + (p 0 + p 1 + p 2 + p 3)
      Results.word o.d (BitVec.ofInt 32 (if o.sat then clamp false 32 x else x)))
    ∧ Gives (.prmt h o) h (fun s tid t =>
      let a := Operands.val s (tidGid tid) t o.a
      let b := Operands.src s (tidGid tid) t o.b
      let k := Operands.val s (tidGid tid) t o.c
      let p (i : Nat) : BitVec 8 := permuted a b (k.extractLsb' (8 * i) 8)
      Results.word o.d (p 3 ++ p 2 ++ p 1 ++ p 0))

/-- Comparisons and carries, fields and bytes. -/
def Obligations.IntegerPredicatesFieldsAndBytes : Prop := Sys2Proof.Claims.IntegerPredicates ∧ Sys2Proof.Claims.IntegerFieldsAndBytes

/-! ### Moves, predicates and special registers -/

/-- R60, R228, R225: nop does nothing; moves, selections and predicate functions write their destination alone. -/
def Obligations.MovesAndPredicates : Prop :=
  ∀ (h : Hdr),
    Gives (.nop h) h (fun _ _ _ => {})
    ∧ (∀ d a, Gives (.mov h d a false) h (fun s tid t => Results.word d (Operands.val s (tidGid tid) t a)))
    ∧ (∀ d a, Gives (.mov h d a true) h (fun s tid t => Results.dword d (Operands.val64 s (tidGid tid) t a)))
    ∧ (∀ d w, Gives (.movi h d w false) h (fun _ _ _ => Results.word d w))
    ∧ (∀ d w, Gives (.movi h d w true) h (fun _ _ _ => Results.dword d (w.signExtend 64)))
    ∧ (∀ o : SelOps, o.b64 = false → Gives (.sel h o) h (fun s tid t =>
        Results.word o.d (Operands.val s (tidGid tid) t (if t.q o.p.toNat then o.a else o.b))))
    ∧ (∀ o : SelOps, o.b64 = true → Gives (.sel h o) h (fun s tid t =>
        Results.dword o.d (Operands.val64 s (tidGid tid) t (if t.q o.p.toNat then o.a else o.b))))
    ∧ (∀ o : PmovOps, Gives (.pmov h o) h (fun _ _ t =>
        Results.bit o.p (o.t.getLsbD (2 * (t.q o.x.toNat).toNat + (t.q o.y.toNat).toNat))))

/-- The bits of a special register that swr writes (Table 08.10); none of a read-only one. %carry is stated apart. -/
def Sys2Proof.Claims.writable (n : BitVec 8) : DWord :=
  if n = 0x09 then 0xFFFFFFFFFFFF else if n = 0x0A then 0xFF1F0FFF else if n = 0x0B then 0xFFFFFFFFFFFFFFFF
  else if n = 0x0C ∨ n = 0x0D then 0x1F else if n = 0x10 then 0xFFFFFFFFFFF8 else 0

/-- R234, R235, Table 08.10: srd goes on with the value of the special register in D, a pair for a wide one, and writes nothing else.
swr goes on with the special register it names holding the writable bits of A, read back as srd reads it; every other special
register, every register and predicate, and the rest of the machine stay. -/
def Sys2Proof.Claims.SpecialRegisters : Prop :=
  (∀ (h : Hdr) (d : Reg) (n : BitVec 8),
    Gives (.srd h d n) h (fun s tid t =>
      if srWide n then Results.dword d (Special.read s tid t n.toNat)
      else Results.word d ((Special.read s tid t n.toNat).setWidth 32)))
  ∧ (∀ (h : Hdr) (a : Reg) (n : BitVec 8) s c tid t, Solo s c h tid t → n ≠ 0x0E →
    ∃ u t', exec (.swr h a n) s = .next u ∧ u = { s with threads := u.threads } ∧ u.thread? tid = some t'
      ∧ (∀ k, k ≠ tid → u.thread? k = s.thread? k) ∧ t'.pc = nextPc t.pc ∧ t'.status = .ready
      ∧ (∀ j, t'.v j = t.v j) ∧ (∀ j, t'.q j = t.q j)
      ∧ (writable n ≠ 0 → Special.read u tid t' n.toNat = (if srWide n then Operands.val64 s (tidGid tid) t a
          else (Operands.val s (tidGid tid) t a).setWidth 64) &&& writable n)
      ∧ (∀ k, k ≠ n.toNat ∨ writable n = 0 → Special.read u tid t' k = Special.read s tid t k))

/-- R190, R191: the carried set takes at most twelve registers; away, only registers that travelled stay in it. A set that
keeps the rule becomes %carry, by `carry` or by swr, and the thread goes on; one that breaks it faults and leaves %carry. R222, R223: rgn
goes on with the operand buffer of its group naming the registers of its entries, away without effect. -/
def Sys2Proof.Claims.CarriedSetAndOperandRegion : Prop :=
  (∀ (h : Hdr) (m : Src) (q : Bool) s c tid t, Solo s c h tid t →
    popCount (Operands.src s (tidGid tid) t m) ≤ 12 →
    (t.away = true → Operands.src s (tidGid tid) t m &&& ~~~t.carryV = 0 ∧ (q = true → t.carryQ = true)) →
    ∃ u t', exec (.carry h m q) s = .next u ∧ u = { s with threads := u.threads } ∧ u.thread? tid = some t'
      ∧ t'.carryV = Operands.src s (tidGid tid) t m ∧ t'.carryQ = q ∧ t'.pc = nextPc t.pc ∧ t'.status = .ready
      ∧ (∀ j, t'.v j = t.v j) ∧ (∀ j, t'.q j = t.q j) ∧ (∀ k, k ≠ tid → u.thread? k = s.thread? k))
  ∧ (∀ (h : Hdr) (a : Reg) s c tid t, Solo s c h tid t →
    popCount ((Operands.val64 s (tidGid tid) t a).setWidth 32) ≤ 12 →
    (t.away = true → (Operands.val64 s (tidGid tid) t a).setWidth 32 &&& ~~~t.carryV = 0
      ∧ ((Operands.val64 s (tidGid tid) t a).getLsbD 32 = true → t.carryQ = true)) →
    ∃ u t', exec (.swr h a 0x0E) s = .next u ∧ u = { s with threads := u.threads } ∧ u.thread? tid = some t'
      ∧ Special.carryValue t' = Operands.val64 s (tidGid tid) t a &&& 0x1FFFFFFFF ∧ t'.pc = nextPc t.pc ∧ t'.status = .ready
      ∧ (∀ j, t'.v j = t.v j) ∧ (∀ j, t'.q j = t.q j) ∧ (∀ k, k ≠ tid → u.thread? k = s.thread? k))
  ∧ (∀ (h : Hdr) (m : Src) (q : Bool) s c tid t, Solo s c h tid t →
    (12 < popCount (Operands.src s (tidGid tid) t m) → exec (.carry h m q) s = .next (Ops.takeTraps s [(tid, Ops.illOp t)]))
    ∧ (popCount (Operands.src s (tidGid tid) t m) ≤ 12 → t.away = true →
      (Operands.src s (tidGid tid) t m &&& ~~~t.carryV ≠ 0 ∨ q = true ∧ t.carryQ = false) →
      exec (.carry h m q) s = .next (Ops.takeTraps s [(tid, Ops.plain 0x21 0x30E)])))
  ∧ (∀ (h : Hdr) (o : RgnOps) s c tid t g, Solo s c h tid t → s.group? (tidGid tid) = some g →
    ∃ u g', exec (.rgn h o) s = .next u ∧ u.group? (tidGid tid) = some g'
      ∧ g' = { g with obuf := if t.away then g.obuf else o.entries }
      ∧ (∀ k, k ≠ tidGid tid → u.group? k = s.group? k)
      ∧ u.threads = (wentOn s tid).threads ∧ u = { s with threads := u.threads, groups := u.groups })

/-- Special registers, the carried set, and the operand region. -/
def Obligations.SpecialRegistersAndCarriedSet : Prop := Sys2Proof.Claims.SpecialRegisters ∧ Sys2Proof.Claims.CarriedSetAndOperandRegion

/-! ### Control transfers -/

/-- R359, R360, R363, R364: a branch whose target passes the checks of R359 puts it in the PC and changes no register;
yield and sleep go on at the next slot, not ready. A target between slots raises PC_ALIGN, one outside global memory PERM. -/
def Sys2Proof.Claims.BranchesAndWaits : Prop :=
  let went (s : State) (c : Cohort) (tid : Nat) (t : Thread) (i : Instr) (x : DWord) : Prop :=
    (∀ s', Control.landing s c.core tid true x = .ok s' →
      ∃ u t', exec i s = .next u ∧ u.thread? tid = some t' ∧ WentOn t t' (x.setWidth 48) {}
        ∧ (∀ k, k ≠ tid → u.thread? k = s'.thread? k) ∧ u = { s' with threads := u.threads, groups := u.groups })
    ∧ (pcAligned (x.setWidth 48) = false → exec i s = .next (Mem.takeFaults s [(tid, Ops.plain 0x05 x)]))
    ∧ (pcAligned (x.setWidth 48) = true → 0x800000000000 ≤ x.toNat →
      exec i s = .next (Mem.takeFaults s [(tid, .fault (Mem.mapFault .fetch x))]))
  (∀ (h : Hdr) (x : FbTarget) s c tid t, Solo s c h tid t → went s c tid t (.bra h x) (Control.target t x))
  ∧ (∀ (h : Hdr) (a : Reg) s c tid t, Solo s c h tid t → went s c tid t (.brx h a) (Operands.val64 s (tidGid tid) t a))
  ∧ (∀ (h : Hdr) s c tid t, Solo s c h tid t →
    ∃ u t', exec (.yield h) s = .next u ∧ u.thread? tid = some t' ∧ t'.status = .yielded ∧ t'.pc = nextPc t.pc
      ∧ (∀ j, t'.v j = t.v j) ∧ (∀ k, k ≠ tid → u.thread? k = s.thread? k) ∧ u = { s with threads := u.threads })
  ∧ (∀ (h : Hdr) (n : BitVec 32) s c tid t, Solo s c h tid t →
    ∃ u t', exec (.sleep h n) s = .next u ∧ u.thread? tid = some t' ∧ t'.pc = nextPc t.pc ∧ (∀ j, t'.v j = t.v j)
      ∧ t'.status = (if n = 0 then .yielded else .sleeping (s.now + n.toNat))
      ∧ u = { s with threads := u.threads, groups := u.groups })

/-- R214 to R217, R220: a call with a free frame pushes the next slot, slides the window by one frame, so that the callee's
v16 to v31 are the caller's v48 to v63, and jumps; a return to a resident address undoes it. A call without a free frame, a return into
a spilled one, and a return from the first call with nothing pushed trap. -/
def Obligations.CallsAndReturns : Prop :=
  let called (s : State) (c : Cohort) (tid : Nat) (t : Thread) (i : Instr) (x : DWord) : Prop :=
    ∀ tm s', s.teamOf? tid = some tm → t.view = .off → t.visit = none → 1 ≤ t.nres → t.nres < tm.2.kernel.frames →
      t.rstack.length < tm.2.kernel.depth → Control.landing s c.core tid true x = .ok s' →
      ∃ u t', exec i s = .next u ∧ u.thread? tid = some t' ∧ t'.pc = x.setWidth 48 ∧ t'.status = .ready
        ∧ t'.rstack = t.rstack ++ [nextPc t.pc] ∧ t'.nres = t.nres + 1 ∧ t'.nspill = t.nspill
        ∧ (∀ j, j < 16 → t'.v j = t.v j) ∧ (∀ j, j < 16 → t'.v (16 + j) = t.v (48 + j))
        ∧ (∀ j, t'.q j = t.q j) ∧ u.mem = s'.mem ∧ (∀ k, k ≠ tid → u.thread? k = s'.thread? k)
  (∀ (h : Hdr) (x : FbTarget) s c tid t, Solo s c h tid t → called s c tid t (.call h x) (Control.target t x))
  ∧ (∀ (h : Hdr) (a : Reg) s c tid t, Solo s c h tid t →
      called s c tid t (.callx h a) (Operands.val64 s (tidGid tid) t a))
  ∧ (∀ (h : Hdr) s c tid t r s', Solo s c h tid t → t.view = .off → t.visit = none → 2 ≤ t.nres →
      t.rstack.getLast? = some r → t.rpoison.contains (t.rstack.length - 1) = false →
      Control.landing s c.core tid false (Ops.pc64 r) = .ok s' →
      ∃ u t', exec (.ret h) s = .next u ∧ u.thread? tid = some t' ∧ t'.pc = r ∧ t'.status = .ready
        ∧ t'.rstack = t.rstack.dropLast ∧ t'.nres = t.nres - 1 ∧ t'.nspill = t.nspill
        ∧ (∀ j, j < 16 → t'.v j = t.v j) ∧ (∀ j, j < 16 → t'.v (48 + j) = t.v (16 + j))
        ∧ (∀ k, k ≠ tid → u.thread? k = s'.thread? k) ∧ u = { s' with threads := u.threads, groups := u.groups })
  ∧ (∀ (h : Hdr) (x : FbTarget) s c tid t tm, Solo s c h tid t → s.teamOf? tid = some tm →
      (t.view = .off → tm.2.kernel.frames ≤ t.nres →
        exec (.call h x) s = .next (Ops.takeTraps s [(tid, .vector 2 0 0 false)]))
      ∧ (t.view ≠ .off → exec (.call h x) s = .next (Ops.takeTraps s [(tid, Control.window t)])))
  ∧ (∀ (h : Hdr) s c tid t, Solo s c h tid t →
      (t.view = .off → t.nres = 1 → t.nspill ≠ 0 → exec (.ret h) s = .next (Ops.takeTraps s [(tid, .vector 3 0 0 false)]))
      ∧ (t.view = .off → t.nres = 1 → t.nspill = 0 → t.rstack = [] → t.rsmem = 0 →
        exec (.ret h) s = .next (Ops.takeTraps s [(tid, Ops.plain 0x03 0)]))
      ∧ (t.view ≠ .off → exec (.ret h) s = .next (Ops.takeTraps s [(tid, Control.window t)])))

/-- R362, R205: exit is a release; a thread at home then retires, a visiting one starts home with nothing carried, and what waited
for it is settled. An undrained one waits. -/
def Sys2Proof.Claims.ExitRetires : Prop :=
  ∀ (h : Hdr) s c tid t, Solo s c h tid t →
    (Ops.drained s tid = true → t.longs = [] →
      exec (.exit h) s = .next (Control.settleExit (Ops.send ((Ops.flushBuffer s (tidGid tid)).mapThreads [tid]
        (fun _ t => Control.exitLane t)) [tid]) [tid])
      ∧ (t.visit = none → (Control.exitLane t).status = .retired)
      ∧ (∀ x, t.visit = some x → (Control.exitLane t).status = .transit
        ∧ (Control.exitLane t).visit = some { x with home := true, exits := true, trap := none, vregs := [], preds := 0 }))
    ∧ (Ops.drained s tid = false → exec (.exit h) s = .next (Ops.stall s [tid]))

/-- Branches, waits and exit. -/
def Obligations.BranchesWaitsAndExit : Prop := Sys2Proof.Claims.BranchesAndWaits ∧ Sys2Proof.Claims.ExitRetires

/-! ### Traps -/

/-- R404: what a lane at home that takes a user trap with a handler holds afterwards. -/
def Sys2Proof.Claims.Entered (s : State) (tid : Nat) (t : Thread) (v : Nat) (hd epc : BitVec 48) (ecause : Word) (eaddr : DWord)
    (u : State) : Prop :=
  ∃ t', u.thread? tid = some t' ∧ t'.pc = hd ∧ t'.epc = epc ∧ t'.ecause = ecause ∧ t'.eaddr = eaddr ∧ t'.inH = true
    ∧ t'.status = .ready ∧ t'.pix = (if t.resumed then t.pix else 0) ∧ (∀ o ∈ t'.longs, o.left = 0)
    ∧ t'.view = (if v = 2 then .spill else if v = 3 then .fill else t.view)
    ∧ t'.flags = t.flags ∧ t'.trapen = t.trapen ∧ t'.carryV = t.carryV ∧ t'.carryQ = t.carryQ ∧ t'.preds = t.preds
    ∧ t'.nres = t.nres ∧ t'.nspill = t.nspill ∧ t'.rstack = t.rstack
    ∧ (v ≠ 3 → t'.vregs = t.vregs)
    ∧ (∀ g, s.group? (tidGid tid) = some g → u.group? (tidGid tid) = some { g with obuf := [] })
    ∧ (∀ k, k ≠ tid → u.thread? k = s.thread? k)
    ∧ u = { s with threads := u.threads, groups := u.groups, free := u.free }

/-- R401, R403, R404: a user trap of a lane at home with IN 0 enters the handler of its vector with the state R404 lists;
with IN 1 it begins a stop of kind DOUBLE, and without a handler one of kind NOVEC, but for DEADLINE; the lane holds %epc, %ecause and
%eaddr (R400). The traps of one lane at home are the trap of that lane. Model's choice in it: log 28. -/
def Obligations.UserTrapEntry : Prop :=
  (∀ s tid t tm v ecause eaddr nx others, s.thread? tid = some t → s.teamOf? tid = some tm → t.visit = none →
    let epc := if nx then nextPc t.pc else t.pc
    (∀ hd, t.inH = false → Ops.handlerPc tm.2.kernel v = some hd →
      Entered s tid t v hd epc ecause eaddr (Ops.takeTrap s tid (.vector v ecause eaddr nx) others))
    ∧ (∀ g, s.group? (tidGid tid) = some g → g.stop = none →
      (t.inH = true ∨ v ≠ 1 ∧ Ops.handlerPc tm.2.kernel v = none) →
      ∃ g' st t', (Ops.takeTrap s tid (.vector v ecause eaddr nx) others).group? (tidGid tid) = some g' ∧ g'.stop = some st
        ∧ st.kind = (if t.inH then .double else .novec) ∧ st.vec = v ∧ st.cause = ecause ∧ st.eaddr = eaddr ∧ st.epc = epc
        ∧ st.lanes = others ∧ st.made = false
        ∧ (Ops.takeTrap s tid (.vector v ecause eaddr nx) others).thread? tid = some t'
        ∧ t' = { t with epc := epc, ecause := ecause, eaddr := eaddr, trapPc := some t.pc, status := .waiting, stay := false }))
  ∧ (∀ s tid t tr, s.thread? tid = some t → t.visit = none → t.status ≠ .transit →
    Ops.takeTraps s [(tid, tr)] = Ops.takeTrap s tid tr [tidLane tid])

/-- R410, R411: `trap` enters the handler of its vector with TCODE and %epc the next slot; `tfence` with an enabled flag set
enters that of ARITH with AFLAGS, with none goes on, and waits while a long result is pending. -/
def Sys2Proof.Claims.TrapInstructions : Prop :=
  (∀ (h : Hdr) (v : BitVec 3) (n : BitVec 8) s c tid t tm hd, Solo s c h tid t → s.teamOf? tid = some tm → t.visit = none →
    t.inH = false → Ops.handlerPc tm.2.kernel v.toNat = some hd →
    ∃ u, exec (.trap h v n) s = .next u
      ∧ Entered s tid t v.toNat hd (nextPc t.pc) (n.setWidth 32 <<< 24) 0 u)
  ∧ (∀ (h : Hdr) s c tid t, Solo s c h tid t → t.longs = [] → t.flags &&& t.trapen = 0 →
    exec (.tfence h) s = .next (wentOn s tid))
  ∧ (∀ (h : Hdr) s c tid t tm hd, Solo s c h tid t → t.longs = [] → t.flags &&& t.trapen ≠ 0 →
    s.teamOf? tid = some tm → t.visit = none → t.inH = false → Ops.handlerPc tm.2.kernel 0 = some hd →
    ∃ u, exec (.tfence h) s = .next u
      ∧ Entered s tid t 0 hd (nextPc t.pc) ((t.flags &&& t.trapen).setWidth 32 <<< 16) 0 u)
  ∧ (∀ (h : Hdr) s c tid t, Solo s c h tid t → t.longs ≠ [] → exec (.tfence h) s = .next (Ops.stall s [tid]))

/-- R412: `brk` without the context's DEBUG goes on; with it, the group makes a stop of kind BRK with the next slot. -/
def Sys2Proof.Claims.Breakpoints : Prop :=
  ∀ (h : Hdr) (n : BitVec 16) s c tid t, Solo s c h tid t →
    (((s.ctxs.get? (s.ctxOf tid)).map Ctx.debug).getD false = false → exec (.brk h n) s = .next (wentOn s tid))
    ∧ (∀ tm g, s.teamOf? tid = some tm → t.visit = none → s.group? (tidGid tid) = some g → g.stop = none →
      ((s.ctxs.get? (s.ctxOf tid)).map Ctx.debug).getD false = true →
      ∃ u g' st, exec (.brk h n) s = .next u ∧ u.group? (tidGid tid) = some g' ∧ g'.stop = some st ∧ st.kind = .brk
        ∧ st.brkn = n ∧ st.epc = nextPc t.pc ∧ st.lanes = [tidLane tid]
        ∧ (u.thread? tid).map Thread.epc = some (nextPc t.pc) ∧ u.mem = s.mem)

/-- The trap instructions and breakpoints. -/
def Obligations.TrapsAndBreakpoints : Prop := Sys2Proof.Claims.TrapInstructions ∧ Sys2Proof.Claims.Breakpoints

/-- R413, R218, R359: `eret` leaves a handler for %epc with IN 0, when the target passes its checks, applies VIEW, and keeps every
register; outside a handler it is ILL_OP, and an %epc that names no slot raises PC_ALIGN. Model's choice in it: log 28. -/
def Obligations.ReturnFromTrap : Prop :=
  ∀ (h : Hdr) s c tid t, Solo s c h tid t →
    (∀ s', t.inH = true → Control.awaits s tid = false → ¬(t.view = .spill ∧ t.nspill = 65535) →
      Control.landing s c.core tid false (Ops.pc64 t.epc) = .ok s' →
      ∃ u t', exec (.eret h) s = .next u ∧ u.thread? tid = some t' ∧ t'.pc = t.epc ∧ t'.inH = false ∧ t'.view = .off
        ∧ t'.status = .ready ∧ t'.vregs = t.vregs ∧ t'.preds = t.preds ∧ t'.flags = t.flags ∧ t'.trapen = t.trapen
        ∧ t'.epc = t.epc ∧ t'.ecause = t.ecause ∧ t'.eaddr = t.eaddr
        ∧ t'.nres = (match t.view with | .off => t.nres | .spill => t.nres - 1 | .fill => t.nres + 1)
        ∧ t'.nspill = (match t.view with | .off => t.nspill | .spill => t.nspill + 1 | .fill => (t.nspill + 65535) % 65536)
        ∧ (t'.resumed = true ↔ t.trapPc = some t.epc)
        ∧ (∀ k, k ≠ tid → u.thread? k = s'.thread? k) ∧ u = { s' with threads := u.threads, groups := u.groups })
    ∧ (t.inH = false → exec (.eret h) s = .next (Ops.takeTraps s [(tid, Ops.illOp t)]))
    ∧ (t.inH = true → Control.awaits s tid = false → t.view = .spill → t.nspill = 65535 →
      exec (.eret h) s = .next (Ops.takeTraps s [(tid, Control.window t)]))
    ∧ (t.inH = true → Control.awaits s tid = false → pcAligned t.epc = false → ¬(t.view = .spill ∧ t.nspill = 65535) →
      exec (.eret h) s = .next (Ops.takeTraps s [(tid, Ops.plain 0x05 (Ops.pc64 t.epc))]))

/-- The assigned values of OP, row by row of Table 02.7. -/
def Sys2Proof.Claims.assigned (op : Nat) : Bool :=
  let lo := op % 16
  match op / 16 with
  | 0 => decide (1 ≤ lo)
  | 1 => decide (lo ≤ 5)
  | 2 => decide (lo ≤ 9)
  | 3 => true
  | 4 => decide (lo ≤ 12)
  | 5 => true
  | 6 => decide (lo ≤ 8)
  | 7 => decide (lo ≤ 6)
  | 8 => decide (lo ≤ 9)
  | 9 => decide (lo ≤ 6)
  | 10 => decide (lo ≤ 3) || (decide (8 ≤ lo) && decide (lo ≤ 13))
  | 11 => decide (lo ≤ 2) || decide (8 ≤ lo)
  | 12 => decide (lo ≤ 3) || (decide (8 ≤ lo) && decide (lo ≤ 11))
  | 15 => decide (lo ≤ 6)
  | _ => false

/-- R58: OP 0x00 and every unassigned OP, whatever the other fields, is the row that raises ILL_OP: each thread takes the fault
with the PC of the slot in %eaddr, whatever its guard, and the record of its group holds that PC as EPC and EADDR. -/
def Obligations.UnassignedOpcodes : Prop :=
  (∀ w : Slot, assigned (w.toNat % 256) = false → decode w = .ok (.unassignedOpcode w))
  ∧ (∀ (w : Slot) s c tid t, s.cur = some c → c.tids = [tid] → s.thread? tid = some t →
    exec (.unassignedOpcode w) s = .next (Ops.takeTraps s
      [(tid, .fault { code := 0x01, sub := 0, eaddr := t.pc.setWidth 64, syn := 0, gpa := 0 })])
    ∧ (∀ tm g, s.teamOf? tid = some tm → t.visit = none → s.group? (tidGid tid) = some g → g.stop = none →
      ∃ u g' st, exec (.unassignedOpcode w) s = .next u ∧ u.group? (tidGid tid) = some g' ∧ g'.stop = some st
        ∧ st.kind = .fault ∧ st.cause = 0x01 ∧ st.epc = t.pc ∧ st.eaddr = t.pc.setWidth 64 ∧ st.lanes = [tidLane tid]
        ∧ ∃ t', u.thread? tid = some t' ∧ t'.epc = t.pc ∧ t'.ecause = 0x01 ∧ t'.eaddr = t.pc.setWidth 64))

/-- R31: the target of an FB instruction is its line count (IMM[31:3], signed) from the line of the branch, and its slot
(IMM[2:0]), modulo 2^48; a slot of 5, 6 or 7 is ILL_OP when the instruction is decoded, in every thread of the cohort whatever its guard. -/
def Obligations.BranchTargets : Prop :=
  (∀ (t : Thread) (x : FbTarget), ((Control.target t x).toNat : Int)
    = ((t.pc.toNat / 64 * 64 : Nat) + x.lines.toInt * 64 + 12 * x.slot.toNat) % 2 ^ 48)
  ∧ (∀ (w : Slot) s core tids ta role line, (w.toNat % 256 = 0x02 ∨ w.toNat % 256 = 0x04) → 5 ≤ w.toNat / 2 ^ 64 % 8 →
    Issue.slotBits line (pcSlot ta.pc) = w →
    (∃ r, decode w = .error r) ∧ Issue.prepareSlot s core tids ta role line = .done (Ops.trapAll s tids Ops.illOp))
  ∧ (∀ (w : Slot) h x, decode w = .ok (.bra h x) ∨ decode w = .ok (.call h x) →
    x.lines = w.extractLsb' 67 29 ∧ x.slot = w.extractLsb' 64 3 ∧ x.slot.toNat ≤ 4)

/-! ### Threads that meet -/

/-- R365 to R368: `kset` sets count and mask for the instances opened after it; a signer of an open `meet` parks, and the one
that completes it releases every parked signer, as an acquire; a thread that arrives at a barrier adds itself, and the
barrier is settled. Each is a release first: an undrained thread waits. -/
def Sys2Proof.Claims.MeetsAndBarriers : Prop :=
  (∀ (h : Hdr) (k : Fin 16) (m : Reg) (n : BitVec 13) s c tid t g tm, Solo s c h tid t → s.group? (tidGid tid) = some g →
    s.teams.get? g.team = some tm →
    ∃ u tm', exec (.kset h (.k k) m n) s = .next u ∧ u.teams.get? g.team = some tm'
      ∧ Meets.kreg tm' k = { n := n.toNat, m := if m = .zero then 0 else Operands.val s (tidGid tid) t m
                             inst := (Meets.kreg tm k).inst }
      ∧ (∀ j, j ≠ k.val → Meets.kreg tm' j = Meets.kreg tm j)
      ∧ u = { wentOn s tid with teams := u.teams })
  ∧ (∀ (h : Hdr) (k : Fin 16) s c tid t n tm, Solo s c h tid t → s.teamOf? tid = some (n, tm) → Ops.drained s tid = true →
    let r := Meets.kreg tm k
    let i : KInst := r.inst.getD { pc := c.pc, n := r.n, m := r.m, signed := [], cmd := none }
    let i' : KInst := { i with signed := NSet.add i.signed tid }
    let s1 := Meets.park (Meets.setInst s n k (some i')) tid k true
    (i.pc ≠ c.pc ∨ i.signed.contains tid = true →
      exec (.meet h (.k k)) s = .next (Meets.settleLanes (Meets.park s tid k false) [tid]))
    ∧ (i.pc = c.pc → i.signed.contains tid = false → i.cmd = none →
      exec (.meet h (.k k)) s = .next (Meets.settleLanes (if Meets.proceeds s1 n i' then
          Ops.depart (Meets.unpark (Meets.setInst s1 n k none) n k) (i'.signed.filter (fun x => match s1.thread? x with
            | some t => t.status == Status.meet k true
            | none => false))
        else s1) [tid])))
  ∧ (∀ (h : Hdr) s c tid t n tm, Solo s c h tid t → s.teamOf? tid = some (n, tm) → Ops.drained s tid = true →
    let arrived := (s.modTeam n (fun tm => { tm with bar := NSet.add tm.bar tid })).modThread tid
      (fun t => { t with status := .bar })
    exec (.bar h) s = .next (Meets.settleLanes (Ops.settleBar arrived n) [tid]))
  ∧ (∀ (h : Hdr) s c tid t n tm, Solo s c h tid t → s.teamOf? tid = some (n, tm) → Ops.drained s tid = true →
    let arrived := ({ s with clusters := s.clusters.modify tm.cluster (fun x => { x with cbar := NSet.add x.cbar tid }) }).modThread
      tid (fun t => { t with status := .cbar })
    exec (.cbar h) s = .next (Meets.settleLanes (Ops.settleCbar arrived tm.cluster) [tid]))
  ∧ (∀ (h : Hdr) s c tid t, Solo s c h tid t → Ops.drained s tid = false →
    exec (.bar h) s = .next (Ops.stall s [tid]) ∧ exec (.cbar h) s = .next (Ops.stall s [tid]))

/-- R368: a team barrier holds every thread that has arrived until the last thread that has not retired arrives, and then
lets all of them go on at their next slot and empties. -/
def Sys2Proof.Claims.BarrierReleasesAll : Prop :=
  ∀ s n tm, s.teams.get? n = some tm →
    ((∃ x ∈ Ops.liveOf s n, x ∉ tm.bar) → Ops.settleBar s n = s)
    ∧ ((∀ x ∈ Ops.liveOf s n, x ∈ tm.bar) → ∃ u, Ops.settleBar s n = u
      ∧ u.teams.get? n = some { tm with bar := [] }
      ∧ (∀ x t, x ∈ tm.bar → s.thread? x = some t → ∃ t', u.thread? x = some t' ∧ WentOn t t' (nextPc t.pc) {})
      ∧ (∀ x, x ∉ tm.bar → u.thread? x = s.thread? x)
      ∧ (∀ x ∈ tm.bar, ∀ w ∈ (u.core (gidCore (tidGid x))).l1, w.2.st ≠ L1State.S)
      ∧ u.mem = s.mem ∧ u.groups = s.groups)

/-- Meets and barriers. -/
def Obligations.MeetsAndBarriersMeet : Prop := Sys2Proof.Claims.MeetsAndBarriers ∧ Sys2Proof.Claims.BarrierReleasesAll

/-! ### Handles -/

/-- R230 to R233: `wait` on a completed handle is an acquire, on a pending one it waits; `htest` writes whether it has
completed; `hcancel` marks a pending command and does nothing to a completed one; `hmov` reads the status, `hmov.tok` the
token; a bad token raises HANDLE. -/
def Obligations.HandleInstructions : Prop :=
  ∀ (h : Hdr) s c tid t, Solo s c h tid t →
    (∀ a, (Handles.named s (tidGid tid) t a = .complete ∨ ∃ g n, Handles.named s (tidGid tid) t a = .handle g n
        ∧ (Ops.handleOf s g n).pend = none ∧ (Ops.handleOf s g n).trap = false) → Ops.loadsBack s tid = true →
      exec (.wait h a) s = .next (wentOn (Ops.acquireCore s (gidCore (tidGid tid))) tid))
    ∧ (∀ a g n, Handles.named s (tidGid tid) t a = .handle g n → (Ops.handleOf s g n).pend.isSome = true →
      exec (.wait h a) s = .next (Ops.stall s [tid]))
    ∧ (∀ a p g n, Handles.named s (tidGid tid) t a = .handle g n → ∃ u t', exec (.htest h a p) s = .next u
      ∧ u.thread? tid = some t' ∧ WentOn t t' (nextPc t.pc) (Results.bit p (Ops.handleOf s g n).pend.isNone)
      ∧ u = { s with threads := u.threads })
    ∧ (∀ a p, Handles.named s (tidGid tid) t a = .complete → ∃ u t', exec (.htest h a p) s = .next u
      ∧ u.thread? tid = some t' ∧ WentOn t t' (nextPc t.pc) (Results.bit p true) ∧ u = { s with threads := u.threads })
    ∧ (∀ a g n id, Handles.named s (tidGid tid) t a = .handle g n → (Ops.handleOf s g n).pend = some id →
      exec (.hcancel h a) s = .next (wentOn (Handles.cancel s id) tid))
    ∧ (∀ a g n, Handles.named s (tidGid tid) t a = .handle g n → (Ops.handleOf s g n).pend = none →
      exec (.hcancel h a) s = .next (wentOn s tid))
    ∧ (∀ (d : Fin 384) (n : Fin 32) g, s.group? (tidGid tid) = some g → (g.handle n).pend = none → (g.handle n).trap = false →
      (g.handle n).readers = [] → ∃ u, exec (.hmov h (.s d) (.h n)) s = .next u
        ∧ (∀ k, u.s (tidGid tid) k = if k = d.val then (g.handle n).status else s.s (tidGid tid) k)
        ∧ u = { s with threads := u.threads, groups := u.groups })
    ∧ (∀ (d : Fin 384) (n : Fin 32) g, s.group? (tidGid tid) = some g → (g.handle n).pend.isSome = true →
      ∃ u, exec (.hmov h (.s d) (.h n)) s = .next u ∧ (u.thread? tid).map Thread.status = some .waiting
        ∧ (u.thread? tid).map Thread.pc = some t.pc)
    ∧ (∀ (d : Fin 384) (n : Fin 32) g, s.group? (tidGid tid) = some g →
      ∃ u, exec (.hmovTok h (.s d) (.h n)) s = .next u
        ∧ (∀ k, u.s (tidGid tid) k = if k = d.val then Ops.token (tidGid tid) n (g.handle n).gen else s.s (tidGid tid) k)
        ∧ u = { s with threads := u.threads, groups := u.groups })
    ∧ (∀ a p tok, Handles.named s (tidGid tid) t a = .bad tok →
      let trapped := Ops.takeTraps s [(tid, .vector 7 0x11 (tok.setWidth 64) false)]
      exec (.wait h a) s = .next trapped ∧ exec (.htest h a p) s = .next trapped ∧ exec (.hcancel h a) s = .next trapped)

/-! ### Stage rings and presence (R180 to R184) -/

/-- The header of a ring at the address in A is in the thread's window at core and o, of a core that is awake, present, with slot j in range. -/
def Sys2Proof.Claims.HeaderAt (s : State) (tid : Nat) (t : Thread) (a d : Reg) (core o j : Nat) : Prop :=
  (Operands.val64 s (tidGid tid) t a).toNat % 128 = 0
    ∧ Rings.spadPlace s tid t (Operands.val64 s (tidGid tid) t a) 128 = some (core, o)
    ∧ (s.core core).ret = .awake ∧ Mem.spadAbsent s core o 128 = false ∧ j = (Operands.val s (tidGid tid) t d).toNat
    ∧ j ≤ Mem.ofBytes (Mem.spadBytes s core o 4) % 64

/-- R181 to R183, R180: giving and freeing a slot toggle its FULL and FREE bit after a release; taking one goes on when the phase is
met, an acquire, and else parks at the header, or is sent again when the peer's table is full; trying one writes whether the phase was
met; a misaligned header faults. pres tells whether lines are present. -/
def Sys2Proof.Claims.StageRings : Prop :=
  ∀ (h : Hdr) s c tid t, Solo s c h tid t →
    (∀ a d core o j, HeaderAt s tid t a d core o j → Ops.drained s tid = true →
      exec (.sgive h a d) s = .next (wentOn (Rings.toggle s core o 8 j) tid)
      ∧ exec (.sfree h a d) s = .next (wentOn (Rings.toggle s core o 0x10 j) tid))
    ∧ (∀ a d core o j, HeaderAt s tid t a d core o j → Ops.drained s tid = false →
      exec (.sgive h a d) s = .next (Ops.stall s [tid]) ∧ exec (.sfree h a d) s = .next (Ops.stall s [tid]))
    ∧ (∀ a d ph fr core o j, HeaderAt s tid t a d core o j → Ops.loadsBack s tid = true →
      Rings.phase s core o j ph fr = true →
      exec (.stake h a d ph fr) s = .next (wentOn (Ops.acquireCore s (gidCore (tidGid tid))) tid))
    ∧ (∀ a d ph fr core o j, HeaderAt s tid t a d core o j → t.status ≠ .acquires → Rings.phase s core o j ph fr = false →
      (core = gidCore (tidGid tid) ∨ Rings.heldAt s core < 32 →
        exec (.stake h a d ph fr) s = .next (s.mapThreads [tid] (fun _ t => { t with status := .staked core o j ph fr })))
      ∧ (core ≠ gidCore (tidGid tid) → 32 ≤ Rings.heldAt s core → ∃ till, s.now ≤ till ∧
        exec (.stake h a d ph fr) s = .next (s.mapThreads [tid] (fun _ t => { t with status := .resend till }))))
    ∧ (∀ a d ph fr p core o j, HeaderAt s tid t a d core o j → Ops.loadsBack s tid = true →
      ∃ u t', exec (.stakeTry h a d ph fr p) s = .next u ∧ u.thread? tid = some t'
        ∧ WentOn t t' (nextPc t.pc) (Results.bit p (Rings.phase s core o j ph fr))
        ∧ u = { (if Rings.phase s core o j ph fr then Ops.acquireCore s (gidCore (tidGid tid)) else s) with threads := u.threads })
    ∧ (∀ a d, (Operands.val64 s (tidGid tid) t a).toNat % 128 ≠ 0 → Ops.drained s tid = true →
      exec (.sgive h a d) s = .next (Ops.takeTraps s [(tid, Ops.plain 0x12 (Operands.val64 s (tidGid tid) t a))])
      ∧ exec (.sfree h a d) s = .next (Ops.takeTraps s [(tid, Ops.plain 0x12 (Operands.val64 s (tidGid tid) t a))]))
    ∧ (∀ base idx l p core o, let ea := Operands.addr s (tidGid tid) t { base := base, idx := idx, off := 0 }
      Rings.spadPlace s tid t (ea &&& ~~~127) (128 * (l.toNat + 1)) = some (core, o) → (s.core core).ret = .awake →
      ∃ u t', exec (.pres h base idx l p) s = .next u ∧ u.thread? tid = some t'
        ∧ WentOn t t' (nextPc t.pc) (Results.bit p (!Mem.spadAbsent s core o (128 * (l.toNat + 1))))
        ∧ u = { s with threads := u.threads })

/-- R183: toggling slot j of a ring field inverts bit j of that field and changes no byte of main memory; every thread parked at the
header for a slot whose phase is then met goes on, where its group's loads have returned. -/
def Sys2Proof.Claims.RingToggleInvertsOneBit : Prop :=
  ∀ s core o f j, j < 64 → Mem.spadAbsent s core (o + f) 8 = false →
    let u := Rings.toggle s core o f j
    Rings.bits u core (o + f) = Rings.bits s core (o + f) ^^^ 2 ^ j ∧ u.mem = s.mem
    ∧ (∀ tid t j' ph fr, s.thread? tid = some t → t.status = .staked core o j' ph fr → (∀ k, Ops.loadsBack s k = true) →
        Rings.phase u core o j' ph fr = true → ∃ t', u.thread? tid = some t' ∧ WentOn t t' (nextPc t.pc) {})

/-- Stage rings. -/
def Obligations.StageRingsAndToggle : Prop := Sys2Proof.Claims.StageRings ∧ Sys2Proof.Claims.RingToggleInvertsOneBit

/-! ### Cross-lane instructions -/

/-- A cohort of one thread of a group with no open cross-lane instance, the only lane of the mask that has not exited. -/
def Sys2Proof.Claims.Alone (s : State) (c : Cohort) (m : Reg) (tid : Nat) : Prop :=
  s.cur = some c ∧ c.tids = [tid] ∧ (s.thread? tid).isSome = true ∧ ∃ g, s.group? (tidGid tid) = some g ∧ g.xinsts = []
    ∧ (CrossLane.maskOf g m).contains (tidLane tid) = true
    ∧ ∀ l ∈ CrossLane.maskOf g m, l ≠ tidLane tid →
        s.thread? (tidOf (tidGid tid) l) = none ∨ (s.thread? (tidOf (tidGid tid) l)).map Thread.status = some .retired

/-- The values of the segment of a lane, when only that lane contributes. -/
def Sys2Proof.Claims.loneSegment (w op lane : Nat) (x : DWord) : List DWord :=
  (List.range w).map (fun k => if lane / w * w + k = lane then x else CrossLane.identity op)

/-- R229, R264 to R275: a cross-lane instruction whose mask holds one lane that has not exited executes at once, with the
results that one contributing lane gives: its own bit, its own value, or zero where it names another lane. -/
def Sys2Proof.Claims.CrossLaneOfOneLane : Prop :=
  ∀ (h : Hdr) s c tid,
    let lane := tidLane tid
    let gid := tidGid tid
    (∀ o : BallotOps, Alone s c o.mask tid → ∃ u, exec (.ballot h o) s = .next u ∧ Executed s c h (fun _ t =>
      { regs := (CrossLane.selectWords o.d o.wsel o.x4 (if t.q o.p.toNat then 2 ^ lane else 0)).d }) u)
    ∧ (∀ o : VoteOps, Alone s c o.mask tid → ∃ u, exec (.vote h o) s = .next u ∧ Executed s c h (fun _ t =>
      Results.bit o.dp (if o.kind = 2 then true else t.q o.xp.toNat)) u)
    ∧ (∀ o : ShflOps, Alone s c o.mask tid → ∃ u, exec (.shfl h o) s = .next u ∧ Executed s c h (fun _ t =>
      let own := CrossLane.shflLane o.mode (CrossLane.width o.seg) lane (Operands.src7 s gid t o.b) = lane
      if o.b64 then Results.dword o.d (if own then Operands.val64 s gid t o.a else 0)
      else Results.word o.d (if own then Operands.val s gid t o.a else 0)) u)
    ∧ (∀ o : MatchOps, Alone s c o.mask tid → ∃ u, exec (.matchx h o) s = .next u ∧ Executed s c h (fun _ _ =>
      { regs := (CrossLane.selectWords o.d o.wsel o.x4 (2 ^ lane)).d }) u)
    ∧ (∀ o : RedxOps, Alone s c o.mask tid → ∃ u, exec (.redx h o) s = .next u ∧ Executed s c h (fun _ t =>
      let w := CrossLane.width o.seg
      if o.op = 11 then
        let r := CrossLane.tree 11 8 (loneSegment w 11 lane (Operands.val64 s gid t o.a))
        { Results.dword o.d r.1 with flags := r.2 }
      else
        let r := CrossLane.tree o.op.toNat 8 (loneSegment w o.op.toNat lane ((Operands.val s gid t o.a).setWidth 64))
        { Results.word o.d (r.1.setWidth 32) with flags := r.2 }) u)
    ∧ (∀ o : ScanOps, Alone s c o.mask tid → o.excl = false → ∃ u, exec (.scan h o) s = .next u ∧ Executed s c h (fun _ t =>
      let w := CrossLane.width o.seg
      let r := CrossLane.scanAll o.op.toNat (loneSegment w o.op.toNat lane ((Operands.val s gid t o.a).setWidth 64))
      { Results.word o.d ((r.1.getD (lane - lane / w * w) 0).setWidth 32) with flags := r.2 }) u)
    ∧ (∀ o : ScanOps, Alone s c o.mask tid → o.excl = true → ∃ u, exec (.scan h o) s = .next u ∧ Executed s c h (fun _ t =>
      let w := CrossLane.width o.seg
      let r := CrossLane.scanAll o.op.toNat
        (loneSegment w o.op.toNat lane ((Operands.val s gid t o.a).setWidth 64)).dropLast
      { Results.word o.d (((CrossLane.identity o.op.toNat :: r.1).getD (lane - lane / w * w) 0).setWidth 32) with
        flags := r.2 }) u)
    ∧ (∀ o : BfpOps, Alone s c o.c tid → ∃ u, exec (.bfpq h o) s = .next u ∧ Executed s c h (fun _ t =>
      let n := o.n.toNat + 2
      let r := Flags.quantise n ((List.range 16).map (fun j => if lane / 16 * 16 + j = lane then Operands.val s gid t o.a else 0))
      { Results.word o.d (BitVec.ofNat 32 (256 * r.1 + (r.2.1.getD (lane % 16) 0 * 2 ^ (8 - n) % 256).toNat)) with
        flags := r.2.2 }) u)
    ∧ (∀ (d : Fin 384) a b, (∀ r, b = Src7.reg r → r.isS = true) → Alone s c .zero tid → ∃ u, exec (.rdl h (.s d) a b) s = .next u ∧ Executed s c h (fun _ t =>
      Results.word (.s d) (if Operands.src7 s gid t b = lane then Operands.val s gid t a else 0)) u)
    ∧ (∀ (d : Fin 64) (a : Fin 384) b, (∀ r, b = Src7.reg r → r.isS = true) → Alone s c .zero tid → ∃ u, exec (.wrl h (.v d) (.s a) b) s = .next u
      ∧ Executed s c h (fun _ t => if Operands.src7 s gid t b = lane then Results.word (.v d) (s.s gid a) else {}) u)

/-- R271: `lmask` writes the lane numbers that stand in a relation to the lane's own, without a meet. -/
def Sys2Proof.Claims.LaneMasks : Prop :=
  ∀ (h : Hdr) (o : LmaskOps), o.d.isV = true → Gives (.lmask h o) h (fun _ tid _ =>
    { regs := (CrossLane.selectWords o.d o.wsel o.x4 (NSet.toMask ((List.range 128).filter (fun j =>
        if o.rel = 0 then j == tidLane tid else if o.rel = 1 then decide (j < tidLane tid)
        else if o.rel = 2 then decide (j ≤ tidLane tid) else if o.rel = 3 then decide (j > tidLane tid)
        else decide (j ≥ tidLane tid))))).d })

/-- Cross-lane instructions of one lane, and the masks of lanes. -/
def Obligations.CrossLaneInstructions : Prop := Sys2Proof.Claims.CrossLaneOfOneLane ∧ Sys2Proof.Claims.LaneMasks

/-- R274: the integer sum of `redx.add` is the sum modulo 2^32 of the contributed values of the segment, whatever the order
of the tree, and raises no flag. -/
def Sys2Proof.Claims.ReductionAddsTheSegment : Prop :=
  ∀ (h : Hdr) (o : RedxOps) (arr : List Arrival) (a : Arrival), o.op = 0 → o.seg ≠ 7 →
    let w := CrossLane.width o.seg
    CrossLane.laneOut (.redx h o) arr a =
      (Results.word o.d ((List.range w).map (fun k =>
        (CrossLane.contributed arr 0 false (a.lane / w * w + k)).setWidth 32)).sum).out

/-- R272: every mode of `shfl` names a lane of the reader's own segment. -/
def Sys2Proof.Claims.ShuffleStaysInSegment : Prop :=
  ∀ (mode : BitVec 2) (seg : BitVec 3) (l b : Nat), seg ≠ 7 →
    let w := CrossLane.width seg
    CrossLane.shflLane mode w l b / w = l / w

/-- Reductions and shuffles within segments. -/
def Obligations.CrossLaneSegments : Prop := Sys2Proof.Claims.ReductionAddsTheSegment ∧ Sys2Proof.Claims.ShuffleStaysInSegment

/-! ### Memory accesses (R148 to R160) -/

/-- The access of one thread passes its checks (R152), needs no wait, finds its scratchpad lines present, and does not migrate. -/
def Sys2Proof.Claims.Checked (s : State) (tid : Nat) (t : Thread) (mig : Bool) (i : Instr) (ea : DWord) (n : Nat)
    (acc : Mem.Acc) (aop : Option (Bool × Nat)) (a : Mem.Access) : Prop :=
  Mem.check s tid t ea n acc aop = .ok a ∧ a.walk = false ∧ a.wait = false ∧ a.park = [] ∧ Access.acquiring t = false
    ∧ (mig = true → Hops.migTarget s tid t i ea = none ∧ Hops.walks s tid t ea = false)

/-- A place that performs its accesses at once: a scratchpad or a vault. -/
def Sys2Proof.Claims.Near (a : Mem.Access) : Prop := (∃ k o, a.tgt = .spad k o) ∨ ∃ v, a.tgt = .vault v

/-- Two words of near memory with no byte in common. -/
def Sys2Proof.Claims.Apart : Mem.Target → Mem.Target → Prop
  | .spad k x, .spad l y => k ≠ l ∨ x + 4 ≤ y ∨ y + 4 ≤ x
  | .vault x, .vault y => x + 4 ≤ y ∨ y + 4 ≤ x
  | _, _ => True

/-- The register words of a load from its bytes (R153). -/
def Sys2Proof.Claims.loaded (o : LdOps) (b : List Byte) : Results :=
  let x := Mem.ofBytes b
  if o.sz = 0 then Results.word o.d (BitVec.ofNat 32 x)
  else if o.sz = 1 then Results.dword o.d (BitVec.ofNat 64 x)
  else if o.sz = 2 then
    Results.word o.d (if o.sgn then (BitVec.ofNat 16 x).signExtend 32 else (BitVec.ofNat 16 x).setWidth 32)
  else Results.word o.d (if o.sgn then (BitVec.ofNat 8 x).signExtend 32 else (BitVec.ofNat 8 x).setWidth 32)

/-- The value that a store writes. -/
def Sys2Proof.Claims.stored (s : State) (t : Thread) (o : StOps) : DWord :=
  if o.sz = 1 then Operands.val64 s 0 t o.d else (Operands.val s 0 t o.d).setWidth 64

/-- R153, R154: a load from a scratchpad or a vault with LA 0 writes the bytes there, sign- or zero-extended, to D, and changes
nothing else but the names the model counts and the record of failed joins. -/
def Sys2Proof.Claims.NearLoadsReturnTheBytes : Prop :=
  ∀ (h : Hdr) (o : LdOps) s c tid t a, Solo s c h tid t → h.la = 0 → o.acq = false → o.d.isV = true → t.visit = none →
    Checked s tid t o.mig (.ld h o) (Operands.addr s (tidGid tid) t o.addr) (Memory.size o.sz) .rd none a → Near a →
    Mem.poisoned s c.core a (Memory.size o.sz) = false →
    ∃ u t', exec (.ld h o) s = .next u ∧ u.thread? tid = some t' ∧ t'.pc = nextPc t.pc ∧ t'.status = .ready
      ∧ (∀ j, j < 64 → t'.v j = wroteV (loaded o (Mem.readAt s a.tgt (Memory.size o.sz))).regs t.v j)
      ∧ (∀ j, t'.q j = t.q j) ∧ t'.flags = t.flags
      ∧ (∀ k, k ≠ tid → u.thread? k = s.thread? k) ∧ u = { s with threads := u.threads, nextId := u.nextId, linkDown := u.linkDown }

/-- R153: a store to a scratchpad or a vault writes the low bytes of D there and goes on; the words it stores are those its
address names, and no other register or memory changes. -/
def Sys2Proof.Claims.NearStoresWriteTheBytes : Prop :=
  ∀ (h : Hdr) (o : StOps) s c tid t a, Solo s c h tid t →
    Checked s tid t o.mig (.st h o) (Operands.addr s (tidGid tid) t o.addr) (Memory.size o.sz) .wr none a → Near a →
    (o.rel = true → Ops.drained s tid = true) →
    let b := Mem.toBytes (Memory.size o.sz) (stored s t o).toNat
    ∃ u, exec (.st h o) s = .next u
      ∧ u = wentOn { Mem.writeAt s (s.ctxPart (s.ctxOf tid)) false a.tgt b with linkDown := u.linkDown } tid
      ∧ Mem.readAt u a.tgt (Memory.size o.sz) = b
      ∧ (∀ k x, (∀ off, a.tgt = .spad k off → x < off ∨ off + Memory.size o.sz ≤ x) →
          Mem.spadByte (u.core k) x = Mem.spadByte (s.core k) x)
      ∧ u.mem = s.mem ∧ u.groups = s.groups
      ∧ (∀ k off, a.tgt = .spad k off → u.vault = s.vault)

/-- Loads and stores of near memory. -/
def Obligations.NearLoadsAndStores : Prop := Sys2Proof.Claims.NearLoadsReturnTheBytes ∧ Sys2Proof.Claims.NearStoresWriteTheBytes

/-- R152 to R160: on every kind of memory, an access that passes its checks and finds no poison is performed: loads, atomics
and reductions start as their places say, stores enter the L1 or their place, and the thread goes on. -/
def Sys2Proof.Claims.AccessesArePerformed : Prop :=
  ∀ (h : Hdr) s c tid t a, Solo s c h tid t →
    let l : Access.Lane := { tid := tid, t := t, a := a }
    (∀ (o : LdOps) u,
      Checked s tid t o.mig (.ld h o) (Operands.addr s (tidGid tid) t o.addr) (Memory.size o.sz) .rd none a →
      Mem.poisoned s c.core a (Memory.size o.sz) = false →
      Access.startLoads (Access.note s l) c.core o.acq [l] (Memory.size o.sz) h.la
        (fun l => .load (l.a.ea.toNat % 4) o.sz o.sgn) (fun l => Memory.dests l.t o.d (if o.sz = 1 then 2 else 1)) = some u →
      exec (.ld h o) s = .next u)
    ∧ (∀ (o : StOps) u,
      Checked s tid t o.mig (.st h o) (Operands.addr s (tidGid tid) t o.addr) (Memory.size o.sz) .wr none a →
      (o.rel = true → Ops.drained s tid = true) →
      Access.storeAll (Access.note s l) c.core [l] (Memory.size o.sz) (fun t => stored s t o) = some u →
      exec (.st h o) s = .next (wentOn u tid))
    ∧ (∀ (o : PldOps) u, Checked s tid t false (.pld h o) (Operands.addr s (tidGid tid) t o.addr) 4 .rd none a →
      Mem.poisoned s c.core a 4 = false →
      Access.startLoads (Access.note s l) c.core false [l] 4 0 (fun _ => .pred o.n.toNat)
        (fun _ => Memory.predDests o.n.toNat) = some u →
      exec (.pld h o) s = .next u)
    ∧ (∀ (o : PldOps) u, Checked s tid t false (.pst h o) (Operands.addr s (tidGid tid) t o.addr) 4 .wr none a →
      Access.storeAll (Access.note s l) c.core [l] 4 (fun t => (Memory.predWord t o.n.toNat).setWidth 64) = some u →
      exec (.pst h o) s = .next (wentOn u tid))
    ∧ (∀ (o : AtomOps) u,
      Checked s tid t o.mig (.atom h o) (Operands.addr20 s (tidGid tid) t o.addr) (if o.w64 then 8 else 4) .atom
        (some (false, o.op.toNat)) a →
      (o.rel = true → Ops.drained s tid = true) → Mem.poisoned s c.core a (if o.w64 then 8 else 4) = false →
      Memory.startAtoms h o c.core (Access.note s l) [l] = some u →
      exec (.atom h o) s = .next u)
    ∧ (∀ (o : RedOps),
      Checked s tid t o.mig (.red h o) (Operands.addr20 s (tidGid tid) t o.addr) (if o.op = 1 then 8 else 4) .wr
        (some (true, o.op.toNat)) a →
      (o.rel = true → Ops.drained s tid = true) →
      Access.atomReady (Access.note s l) c.core false l (if o.op = 1 then 8 else 4) = true →
      exec (.red h o) s = .next (wentOn (Memory.startRed c.core o.op.toNat (if o.op = 1 then 8 else 4) (Access.note s l) l
        (if o.op = 1 then Operands.val64 s (tidGid tid) t o.d else (Operands.val s (tidGid tid) t o.d).setWidth 64)) tid))

/-- R149, R155, R156: an atomic on a scratchpad or a vault with LA 0 returns the old value in D and leaves the new one there. -/
def Sys2Proof.Claims.NearAtomicsReadModifyWrite : Prop :=
  ∀ (h : Hdr) (o : AtomOps) s c tid t a, Solo s c h tid t → h.la = 0 → o.acq = false → o.d.isV = true → t.visit = none →
    let n := if o.w64 then 8 else 4
    Checked s tid t o.mig (.atom h o) (Operands.addr20 s (tidGid tid) t o.addr) n .atom (some (false, o.op.toNat)) a → Near a →
    (o.rel = true → Ops.drained s tid = true) → Mem.poisoned s c.core a n = false →
    let old := Access.value (Mem.readAt s a.tgt n)
    let val (r : Reg) : DWord := if o.w64 then Operands.val64 s (tidGid tid) t r else (Operands.val s (tidGid tid) t r).setWidth 64
    let r := Access.atomOp o.op.toNat o.w64 old (val o.c) (val o.d)
    ∃ u t', exec (.atom h o) s = .next u ∧ u.thread? tid = some t' ∧ t'.pc = nextPc t.pc ∧ t'.status = .ready
      ∧ (∀ j, j < 64 → t'.v j = wroteV (if o.w64 then Results.dword o.d old else Results.word o.d (old.setWidth 32)).regs t.v j)
      ∧ t'.flags = t.flags ||| r.2
      ∧ Mem.readAt u a.tgt n = (match r.1 with
        | some v => Mem.toBytes n v.toNat
        | none => Mem.readAt s a.tgt n)
      ∧ u.mem = s.mem ∧ u.groups = s.groups

/-- Accesses are performed, and atomics read, modify and write. -/
def Obligations.AccessesAndAtomics : Prop := Sys2Proof.Claims.AccessesArePerformed ∧ Sys2Proof.Claims.NearAtomicsReadModifyWrite

/-- R158: a full fence is a release and an acquire, the others one of the two; one that is not drained, or whose loads are out,
waits. -/
def Sys2Proof.Claims.Fences : Prop :=
  ∀ (h : Hdr) s c tid t, Solo s c h tid t →
    (Ops.drained s tid = true → Ops.loadsBack s tid = true →
      exec (.fence h) s = .next (wentOn (Ops.acquireCore s c.core) tid))
    ∧ (Ops.loadsBack s tid = true → exec (.fenceAcq h) s = .next (wentOn (Ops.acquireCore s c.core) tid))
    ∧ (Ops.drained s tid = true → exec (.fenceRel h) s = .next (wentOn s tid))
    ∧ (Ops.drained s tid = false →
      exec (.fence h) s = .next (Ops.stall s [tid]) ∧ exec (.fenceRel h) s = .next (Ops.stall s [tid]))
    ∧ (Ops.loadsBack s tid = false →
      exec (.fence h) s = .next (Ops.stall s [tid]) ∧ exec (.fenceAcq h) s = .next (Ops.stall s [tid]))
    ∧ (∀ k, ∀ w ∈ ((Ops.acquireCore s k).core k).l1, w.2.st ≠ L1State.S)

/-- R154, R160: on near memory, lds goes on with the words there in consecutive s-registers of the group, sts with those
s-registers in memory; gath with the word of each element in its v-register, scat with each element's v-register in memory unless a
later element takes the same bytes; both leave %pix at the number of elements. Nothing else of the group or main memory changes. -/
def Sys2Proof.Claims.NearGroupAndElements : Prop :=
  ∀ (h : Hdr) s c tid t, Solo s c h tid t →
    (∀ (o : LdsOps) (d : Fin 384) a, let n := 2 ^ o.n.toNat
      o.d = .s d → d.val + n ≤ 384 → h.la = 0 → (s.group? (tidGid tid)).isSome = true → (o.ord = true → Ops.loadsBack s tid = true) →
      Checked s tid t false (.lds h o) (Operands.addr s (tidGid tid) t o.addr) (4 * n) .rd none a → Near a →
      Mem.poisoned s c.core a (4 * n) = false →
      ∃ u t', exec (.lds h o) s = .next u ∧ u.thread? tid = some t' ∧ t'.pc = nextPc t.pc ∧ t'.status = .ready
        ∧ (∀ j, t'.v j = t.v j) ∧ (∀ j, t'.q j = t.q j) ∧ t'.flags = t.flags
        ∧ (∀ j, j < n → u.s (tidGid tid) (d.val + j)
            = BitVec.ofNat 32 (Mem.ofBytes (((Mem.readAt s a.tgt (4 * n)).drop (4 * j)).take 4)))
        ∧ (∀ k, k < d.val ∨ d.val + n ≤ k → u.s (tidGid tid) k = s.s (tidGid tid) k) ∧ u.mem = s.mem ∧ u.vault = s.vault)
    ∧ (∀ (o : LdsOps) a, let n := 2 ^ o.n.toNat
      (o.ord = true → Ops.drained s tid = true) →
      Checked s tid t false (.sts h o) (Operands.addr s (tidGid tid) t o.addr) (4 * n) .wr none a → Near a →
      ∃ u t', exec (.sts h o) s = .next u ∧ u.thread? tid = some t' ∧ WentOn t t' (nextPc t.pc) {}
        ∧ Mem.readAt u a.tgt (4 * n)
          = (List.range n).flatMap (fun j => Mem.toBytes 4 (Operands.val s (tidGid tid) t (Operands.next o.d j)).toNat)
        ∧ u.mem = s.mem ∧ u.groups = s.groups)
    ∧ (∀ (o : GathOps) (d : Fin 64) (a : Nat → Mem.Access), let n := o.n.toNat + 1
      o.d = .v d → d.val + n ≤ 64 → h.la = 0 → t.visit = none → t.resumed = false → Memory.gathering t = false →
      (∀ j, j < n → Checked s tid t false (.gath h o) (Memory.elemAddr s (tidGid tid) t o j) 4 .rd none (a j) ∧ Near (a j)
        ∧ Mem.poisoned s c.core (a j) 4 = false) →
      ∃ u t', exec (.gath h o) s = .next u ∧ u.thread? tid = some t' ∧ t'.pc = nextPc t.pc ∧ t'.status = .ready ∧ t'.pix = n
        ∧ (∀ j, j < n → t'.v (d.val + j) = BitVec.ofNat 32 (Mem.ofBytes (Mem.readAt s (a j).tgt 4)))
        ∧ (∀ j, j < 64 → j < d.val ∨ d.val + n ≤ j → t'.v j = t.v j) ∧ (∀ j, t'.q j = t.q j) ∧ t'.flags = t.flags
        ∧ u.mem = s.mem ∧ u.groups = s.groups)
    ∧ (∀ (o : GathOps) (a : Nat → Mem.Access), let n := o.n.toNat + 1
      t.resumed = false → Memory.gathering t = false →
      (∀ j, j < n → Checked s tid t false (.scat h o) (Memory.elemAddr s (tidGid tid) t o j) 4 .wr none (a j) ∧ Near (a j)) →
      ∃ u t', exec (.scat h o) s = .next u ∧ u.thread? tid = some t' ∧ t'.pc = nextPc t.pc ∧ t'.status = .ready ∧ t'.pix = n
        ∧ (∀ j, t'.v j = t.v j) ∧ (∀ j, t'.q j = t.q j) ∧ t'.flags = t.flags
        ∧ (∀ j, j < n → (∀ k, j < k → k < n → Apart (a j).tgt (a k).tgt) →
            Mem.readAt u (a j).tgt 4 = Mem.toBytes 4 (Operands.val s (tidGid tid) t (Operands.next o.d j)).toNat)
        ∧ u.mem = s.mem ∧ u.groups = s.groups)

/-- R154, R159, R160: on any memory, shared loads and stores are performed by the group's s-registers, gath and scat take their
elements in order and leave %pix at the number done, and prefl fills a cached line or is dropped. -/
def Sys2Proof.Claims.GroupAndElementAccesses : Prop :=
  ∀ (h : Hdr) s c tid t, Solo s c h tid t →
    (∀ (o : LdsOps) a u, Checked s tid t false (.lds h o) (Operands.addr s (tidGid tid) t o.addr) (4 * 2 ^ o.n.toNat) .rd none a →
      Mem.poisoned s c.core a (4 * 2 ^ o.n.toNat) = false →
      let l : Access.Lane := { tid := tid, t := t, a := a }
      Access.startLoads (Access.note s l) c.core o.ord [l] (4 * 2 ^ o.n.toNat) h.la (fun _ => .words)
        (fun l => Memory.dests l.t o.d (2 ^ o.n.toNat)) = some u →
      exec (.lds h o) s = .next u)
    ∧ (∀ (o : LdsOps) a u, Checked s tid t false (.sts h o) (Operands.addr s (tidGid tid) t o.addr) (4 * 2 ^ o.n.toNat) .wr none a →
      (o.ord = true → Ops.drained s tid = true) →
      let l : Access.Lane := { tid := tid, t := t, a := a }
      Memory.storeShared c.core o (Access.note s l) [{ gid := tidGid tid, lead := l, lanes := [(tid, t)] }] = some u →
      exec (.sts h o) s = .next u)
    ∧ (∀ (o : GathOps) s1 got, Access.acquiring t = false → Memory.gathering t = false →
      Memory.elements c o true [(tid, t)] (o.n.toNat + 1) 0 s [] = .done s1 got →
      exec (.gath h o) s = .next (Memory.openGath
        (wentOn (s1.mapThreads [tid] (fun _ t => { t with pix := o.n.toNat + 1 })) tid) o h.la.toNat (h.la == 0) got [(tid, t)]))
    ∧ (∀ (o : GathOps) s1 got, Access.acquiring t = false → Memory.gathering t = false →
      Memory.elements c o false [(tid, t)] (o.n.toNat + 1) 0 s [] = .done s1 got →
      exec (.scat h o) s = .next (Memory.openGath
        (wentOn (s1.mapThreads [tid] (fun _ t => { t with pix := o.n.toNat + 1 })) tid) o h.la.toNat (h.la == 0) got [(tid, t)]))
    ∧ (∀ ad llc a, Mem.check s tid t (Operands.addr s (tidGid tid) t ad) 1 .rd none = .ok a →
      (∀ pa, a.tgt = .cached pa → a.wait = false → a.stale = false → Mem.servable s c.core (pa / 4) = true →
        let s1 := Access.note s { tid := tid, t := t, a := a }
        let part := s.ctxPart (s.ctxOf tid)
        exec (.prefl h ad llc) s = .next (wentOn
          (if llc then Mem.fill s1 part (pa / 64) else (Mem.readHome s1 c.core part (pa / 4)).2) tid))
      ∧ (Near a ∨ a.wait = true ∨ a.stale = true → exec (.prefl h ad llc) s = .next (wentOn s tid)))
    ∧ (∀ ad llc e, Mem.check s tid t (Operands.addr s (tidGid tid) t ad) 1 .rd none = .error e →
      exec (.prefl h ad llc) s = .next (wentOn s tid))

/-- Fences, group and element accesses. -/
def Obligations.FencesGroupsAndElements : Prop := Sys2Proof.Claims.Fences ∧ Sys2Proof.Claims.NearGroupAndElements ∧ Sys2Proof.Claims.GroupAndElementAccesses

/-- R132, R133: a thread that stores to cached memory reads its own bytes back from its L1 at once, where the L1 has a way for the line, before their registration
has reached the home, and the home's copy is not yet changed by the store. -/
def Sys2Proof.Claims.StoresAreSeenByTheirThread : Prop :=
  ∀ s core part tid w x mask, Mem.l1? s core w = none → (Mem.l1Set s core (w / 16)).length < 16 →
    let u := Mem.storeWord s core part [tid] w x mask
    Mem.l1Read u core tid w mask = .hit x ∧ u.mem = s.mem ∧ u.llc = s.llc
      ∧ (∃ r, u.regs.get? s.nextId = some r ∧ r.word = w ∧ r.val = x ∧ r.mask = mask ∧ r.tids = [tid] ∧ r.acked = false)

/-- The memory model at one byte: a byte reads as written, and every other as before; the canonical form stays.
Model's choice in it: log 6. -/
def Obligations.MemoryReadAfterWrite : Prop :=
  ∀ m, Memory.wf m = true → ∀ a (l : List Byte),
    Memory.wf (Memory.writeAll m a l) = true
    ∧ (∀ i, i < l.length → some (Memory.byte (Memory.writeAll m a l) (a + i)) = l[i]?)
    ∧ (∀ x, x < a ∨ a + l.length ≤ x → Memory.byte (Memory.writeAll m a l) x = Memory.byte m x)

/-- R152, R167: an access that fails its checks faults, with no access performed, and one whose scratchpad line is absent parks. -/
def Sys2Proof.Claims.FailedAccessesFault : Prop :=
  ∀ (h : Hdr) s c tid t, Solo s c h tid t → Access.acquiring t = false →
    (∀ (o : LdOps) e, o.mig = false →
      Mem.check s tid t (Operands.addr s (tidGid tid) t o.addr) (Memory.size o.sz) .rd none = .error e →
      exec (.ld h o) s = .next (Mem.takeFaults s [(tid, .fault e)]))
    ∧ (∀ (o : StOps) e, o.mig = false → o.rel = false →
      Mem.check s tid t (Operands.addr s (tidGid tid) t o.addr) (Memory.size o.sz) .wr none = .error e →
      exec (.st h o) s = .next (Mem.takeFaults s [(tid, .fault e)]))
    ∧ (∀ (o : LdOps) a, o.mig = false → o.acq = false →
      Mem.check s tid t (Operands.addr s (tidGid tid) t o.addr) (Memory.size o.sz) .rd none = .ok a →
      a.walk = false → a.wait = false → a.park ≠ [] →
      ∃ u, exec (.ld h o) s = .next u ∧ u.thread? tid = some { t with status := .parked a.park } ∧ u.mem = s.mem)
    ∧ (∀ ea n acc, (∃ pl, Mem.classify s tid t ea n false = some pl) → ea.toNat % n ≠ 0 →
      Mem.check s tid t ea n acc none = .error { code := 0x12, sub := 0, eaddr := ea, syn := 0, gpa := 0 })

/-- A thread sees its stores, and failed accesses fault. -/
def Obligations.StoresSeenAndFaults : Prop := Sys2Proof.Claims.StoresAreSeenByTheirThread ∧ Sys2Proof.Claims.FailedAccessesFault

/-! ### Floating-point instructions -/

namespace Sys2Proof.Claims

/-- A bit pattern in D with its flags. -/
def fword (d : Reg) (r : Nat × Flags.Fl) : Results := { Results.word d (BitVec.ofNat 32 r.1) with flags := r.2 }

/-- An exact value rounded once to a format, with its flags (R79). -/
def once (f : Flags.Fmt) (rm : BitVec 2) (ftz : Bool) (x : Flags.Fp × Flags.Fl) : Nat × Flags.Fl :=
  ((Flags.deliver f rm ftz x.1).1, x.2 ||| (Flags.deliver f rm ftz x.1).2)

/-- A two-operand FP32 result of the values of A and B. -/
def fp2 (o : FpOps) (f : Flags.Fp → Flags.Fp → Nat × Flags.Fl) (s : State) (tid : Nat) (t : Thread) : Results :=
  fword o.d (f (Flags.unpack Flags.f32 o.ftz (Operands.val s (tidGid tid) t o.a).toNat)
    (Flags.unpack Flags.f32 o.ftz (Operands.src s (tidGid tid) t o.b).toNat))

/-- A one-operand result. -/
def fp1 (o : FpOps) (f : Word → Word × Flags.Fl) (s : State) (tid : Nat) (t : Thread) : Results :=
  let r := f (Operands.val s (tidGid tid) t o.a)
  { Results.word o.d r.1 with flags := r.2 }

/-- The two elements of a packed result and the union of their flags (R78). -/
def pair (d : Reg) (lo hi : Nat × Flags.Fl) : Results :=
  { Results.word d (BitVec.ofNat 16 hi.1 ++ BitVec.ofNat 16 lo.1) with flags := lo.2 ||| hi.2 }

/-- A packed result of A and B, element by element (R259). -/
def half2 (o : HalfOps) (f : BitVec 16 → BitVec 16 → Nat × Flags.Fl) (s : State) (tid : Nat) (t : Thread) : Results :=
  let a := Operands.val s (tidGid tid) t o.a
  let b := Operands.src s (tidGid tid) t o.b
  pair o.d (f (a.extractLsb' 0 16) (b.extractLsb' 0 16)) (f (a.extractLsb' 16 16) (b.extractLsb' 16 16))

/-- Whether a pair of values meets a condition of Table 09.5. -/
def orders (c : Nat) : Option Int → Bool
  | none => decide (c = 7 ∨ 8 ≤ c)
  | some t =>
    if c = 6 then true else if c = 7 then false
    else match c % 8 with
      | 0 => t == 0
      | 1 => t != 0
      | 2 => decide (t < 0)
      | 3 => decide (t ≤ 0)
      | 4 => decide (t > 0)
      | _ => decide (t ≥ 0)

/-- The bit of the class word of an FP32 pattern (R256). -/
def classBit (a : Word) : Nat :=
  let neg := a.getLsbD 31
  let e := a.extractLsb' 23 8
  let f := a.extractLsb' 0 23
  if e = 255 then (if f = 0 then (if neg then 0 else 7) else if f.getLsbD 22 then 9 else 8)
  else if e = 0 then (if f = 0 then (if neg then 3 else 4) else if neg then 2 else 5)
  else if neg then 1 else 6

end Sys2Proof.Claims

/-- R252 to R255: sums, differences, products and fused products are the exact value rounded once in the mode, with its flags;
the smaller or larger operand keeps its bits. -/
def Sys2Proof.Claims.FloatArithmetic : Prop :=
  ∀ (h : Hdr) (o : FpOps),
    Gives (.fadd h o) h (fp2 o (fun a b => once Flags.f32 o.rm o.ftz (Flags.addX o.rm a b)))
    ∧ Gives (.fsub h o) h (fp2 o (fun a b => once Flags.f32 0 o.ftz (Flags.addX 0 a (Flags.negate b))))
    ∧ Gives (.fmul h o) h (fp2 o (fun a b => once Flags.f32 o.rm o.ftz (Flags.mulX a b)))
    ∧ Gives (.ffma h o) h (fun s tid t => fword o.d (
        let x (w : Word) := Flags.unpack Flags.f32 o.ftz w.toNat
        let p := Flags.mulX (x (Operands.val s (tidGid tid) t o.a)) (x (Operands.src s (tidGid tid) t o.b))
        let q := Flags.addX o.rm p.1 (x (Operands.val s (tidGid tid) t o.c))
        once Flags.f32 o.rm o.ftz (q.1, p.2 ||| q.2)))
    ∧ Gives (.fmin h o) h (fun s tid t => fword o.d (Flags.minmax Flags.f32 o.ftz (o.xop == 1) false
        (Operands.val s (tidGid tid) t o.a).toNat (Operands.src s (tidGid tid) t o.b).toNat))
    ∧ Gives (.fmax h o) h (fun s tid t => fword o.d (Flags.minmax Flags.f32 o.ftz (o.xop == 1) true
        (Operands.val s (tidGid tid) t o.a).toNat (Operands.src s (tidGid tid) t o.b).toNat))
    ∧ (∀ ftz nan a b, a < 2 ^ 32 → b < 2 ^ 32 →
        (Flags.minmax Flags.f32 ftz nan false a b).1 ∈ [a, b, a / 2 ^ 31 * 2 ^ 31, b / 2 ^ 31 * 2 ^ 31, 0x7FC00000]
        ∧ (Flags.minmax Flags.f32 ftz nan true a b).1 ∈ [a, b, a / 2 ^ 31 * 2 ^ 31, b / 2 ^ 31 * 2 ^ 31, 0x7FC00000])

/-- R255, R256: a comparison writes one predicate and raises IV by Table 09.5; a class word has the one bit of its class. -/
def Sys2Proof.Claims.FloatComparisonsAndClasses : Prop :=
  (∀ (h : Hdr) (o : FcmpOps), o.xop.toNat < 14 → Gives (.fcmp h o) h (fun s tid t =>
    let x := Flags.unpack Flags.f32 o.ftz (Operands.val s (tidGid tid) t o.a).toNat
    let y := Flags.unpack Flags.f32 o.ftz (Operands.srcF s (tidGid tid) t o.b).toNat
    let nan := Flags.isNan x || Flags.isNan y
    { Results.bit o.p (orders o.xop.toNat (Flags.cmpNum x y)) with
      flags := if nan && decide (2 ≤ o.xop.toNat ∧ o.xop.toNat ≤ 5) then Flags.iv else Flags.sig x ||| Flags.sig y }))
  ∧ (∀ (h : Hdr) (o : FpOps), Gives (.fclass h o) h (fun s tid t =>
      Results.word o.d (1 <<< classBit (Operands.val s (tidGid tid) t o.a))))

/-- Floating-point arithmetic, comparisons and classes. -/
def Obligations.FloatArithmeticAndComparisons : Prop := Sys2Proof.Claims.FloatArithmetic ∧ Sys2Proof.Claims.FloatComparisonsAndClasses

/-- R253, R258: the reciprocal, the root and the quotient are correctly rounded, the other functions within their bounds. With
LA 0 the result is written at once. Model's choice in it: log 9. -/
def Sys2Proof.Claims.FloatFunctions : Prop :=
  ∀ (h : Hdr) (o : FpOps), h.la = 0 →
    Gives (.frcp h o) h (fun s tid t => fword o.d (once Flags.f32 0 o.ftz (Flags.divX 26 (.fin false (2 ^ 23) (-23))
      (Flags.unpack Flags.f32 o.ftz (Operands.val s (tidGid tid) t o.a).toNat))))
    ∧ Gives (.fsqrt h o) h (fun s tid t => fword o.d (once Flags.f32 o.rm o.ftz (Flags.sqrtX 26
      (Flags.unpack Flags.f32 o.ftz (Operands.val s (tidGid tid) t o.a).toNat))))
    ∧ Gives (.fdiv h o) h (fp2 o (fun a b => once Flags.f32 o.rm o.ftz (Flags.divX 26 a b)))
    ∧ Gives (.frsq h o) h (fp1 o (Flags.frsq o.ftz))
    ∧ Gives (.fexp2 h o) h (fp1 o (Flags.fexp2 o.ftz))
    ∧ Gives (.flog2 h o) h (fp1 o (Flags.flog2 o.ftz))
    ∧ Gives (.fsin h o) h (fp1 o (Flags.fsincos false o.ftz))
    ∧ Gives (.fcos h o) h (fp1 o (Flags.fsincos true o.ftz))

/-- R257: Table 09.6, and the exact results of R258, of the functions that take one operand. -/
def Sys2Proof.Claims.FloatSpecialInputs : Prop :=
  ∀ ftz : Bool,
    let inf : Word := 0x7F800000
    let ninf : Word := 0xFF800000
    let nan : Word := 0x7FC00000
    let nz : Word := 0x80000000
    let fs := [Flags.frsq ftz, Flags.fexp2 ftz, Flags.flog2 ftz, Flags.fsincos false ftz, Flags.fsincos true ftz]
    fs.map (· 0) = [(inf, Flags.dz), (0x3F800000, 0), (ninf, Flags.dz), (0, 0), (0x3F800000, 0)]
    ∧ fs.map (· nz) = [(ninf, Flags.dz), (0x3F800000, 0), (ninf, Flags.dz), (nz, 0), (0x3F800000, 0)]
    ∧ fs.map (· inf) = [(0, 0), (inf, 0), (inf, 0), (nan, Flags.iv), (nan, Flags.iv)]
    ∧ fs.map (· ninf) = [(nan, Flags.iv), (0, 0), (nan, Flags.iv), (nan, Flags.iv), (nan, Flags.iv)]
    ∧ (∀ f ∈ fs, ∀ x : Word, x.extractLsb' 22 9 = 0x1FF → f x = (nan, 0))
    ∧ (∀ f ∈ fs, ∀ x : Word, x.extractLsb' 22 9 = 0x1FE → x.extractLsb' 0 22 ≠ 0 → f x = (nan, Flags.iv))
    ∧ (∀ x : Word, x.getLsbD 31 = true → 0x80800000 ≤ x.toNat → x.toNat < 0xFF800000 →
        Flags.frsq ftz x = (nan, Flags.iv) ∧ Flags.flog2 ftz x = (nan, Flags.iv))
    ∧ (∀ n : Nat, n < 254 → Flags.flog2 ftz (BitVec.ofNat 32 ((n + 1) * 2 ^ 23))
        = (BitVec.ofNat 32 (Flags.round Flags.f32 0 ftz (decide (n < 126)) ((n : Int) - 126).natAbs 0).1, 0))
    ∧ (∀ n : Nat, n < 126 → Flags.frsq ftz (BitVec.ofNat 32 ((2 * n + 1) * 2 ^ 23)) = (BitVec.ofNat 32 ((190 - n) * 2 ^ 23), 0))

/-- The approximated functions. -/
def Obligations.FloatFunctionsAndSpecialInputs : Prop := Sys2Proof.Claims.FloatFunctions ∧ Sys2Proof.Claims.FloatSpecialInputs

/-- R79: rounding a magnitude gives the nearest unit with ties to even, the one toward zero, or the one in the direction of the
mode, and says whether anything was lost. -/
def Sys2Proof.Claims.RoundingByMode : Prop :=
  ∀ (neg : Bool) (m s : Nat),
    let r (rm : BitVec 2) := Flags.roundShift rm neg m s
    (∀ k, ((r 0).1 * 2 ^ s : Int) - m ≤ |(k * 2 ^ s : Int) - m| ∧ (m : Int) - (r 0).1 * 2 ^ s ≤ |(k * 2 ^ s : Int) - m|)
    ∧ (2 * (m % 2 ^ s) = 2 ^ s → (r 0).1 % 2 = 0)
    ∧ (r 1).1 * 2 ^ s ≤ m ∧ m < ((r 1).1 + 1) * 2 ^ s
    ∧ (if neg then (r 2).1 = (r 1).1 else m ≤ (r 2).1 * 2 ^ s ∧ (r 2).1 * 2 ^ s < m + 2 ^ s)
    ∧ (if neg then m ≤ (r 3).1 * 2 ^ s ∧ (r 3).1 * 2 ^ s < m + 2 ^ s else (r 3).1 = (r 1).1)
    ∧ (∀ rm, (r rm).2 = false ↔ 2 ^ s ∣ m) ∧ (∀ rm, 2 ^ s ∣ m → (r rm).1 * 2 ^ s = m)

/-- R75, R79: every number of a format rounds to itself in every mode, and raises no flag. -/
def Sys2Proof.Claims.RepresentableNumbersRoundToThemselves : Prop :=
  ∀ f ∈ [Flags.f32, Flags.f16, Flags.bf16], ∀ (rm : BitVec 2) (n : Nat), n < 2 * f.signBit →
    n / 2 ^ f.fb % 2 ^ f.eb ≠ f.emax → Flags.deliver f rm false (Flags.unpack f false n) = (n, 0)

/-- Rounding. -/
def Obligations.Rounding : Prop := Sys2Proof.Claims.RoundingByMode ∧ Sys2Proof.Claims.RepresentableNumbersRoundToThemselves

/-- R259 to R264: packed halves work element by element, conversions and roundings by the table of types, and bfpx expands a
byte with its exponent. -/
def Sys2Proof.Claims.PackedHalvesAndConversions : Prop :=
  ∀ (h : Hdr),
    (∀ o : HalfOps, Gives (.hadd2 h o) h (half2 o (fun a b => once Flags.f16 0 o.ftz
        (Flags.addX 0 (Flags.unpack Flags.f16 o.ftz a.toNat) (Flags.unpack Flags.f16 o.ftz b.toNat)))))
    ∧ (∀ o : HalfOps, Gives (.hmul2 h o) h (half2 o (fun a b => once Flags.f16 0 o.ftz
        (Flags.mulX (Flags.unpack Flags.f16 o.ftz a.toNat) (Flags.unpack Flags.f16 o.ftz b.toNat)))))
    ∧ (∀ o : HalfOps, Gives (.hfma2 h o) h (fun s tid t =>
        let a := Operands.val s (tidGid tid) t o.a
        let b := Operands.src s (tidGid tid) t o.b
        let c := Operands.val s (tidGid tid) t o.c
        let e (i : Nat) := Flags.fma Flags.f16 0 o.ftz (a.extractLsb' i 16).toNat (b.extractLsb' i 16).toNat (c.extractLsb' i 16).toNat
        pair o.d (e 0) (e 16)))
    ∧ (∀ o : HalfOps, Gives (.hmax2 h o) h (half2 o (fun a b =>
        Flags.minmax (if o.bf then Flags.bf16 else Flags.f16) o.ftz o.nan true a.toNat b.toNat)))
    ∧ (∀ o : HalfOps, Gives (.hmin2 h o) h (half2 o (fun a b =>
        Flags.minmax (if o.bf then Flags.bf16 else Flags.f16) o.ftz o.nan false a.toNat b.toNat)))
    ∧ (∀ o : CvtOps, CvtOps.isPacked o.dt = true → Gives (.cvt h o) h (fun s tid t =>
        pair o.d (FloatArith.convert o (Operands.val s (tidGid tid) t o.a).toNat)
          (FloatArith.convert o (Operands.val s (tidGid tid) t o.b).toNat)))
    ∧ (∀ o : CvtOps, CvtOps.isPacked o.dt = false → Gives (.cvt h o) h (fun s tid t =>
        let r := FloatArith.convert o (if CvtOps.isPair o.st then (Operands.val64 s (tidGid tid) t o.a).toNat
          else (Operands.val s (tidGid tid) t o.a).toNat)
        { (if CvtOps.isPair o.dt then Results.dword o.d (BitVec.ofNat 64 r.1) else Results.word o.d (BitVec.ofNat 32 r.1)) with
          flags := r.2 }))
    ∧ (∀ o : FroundOps, Gives (.fround h o) h (fun s tid t =>
        let r := Flags.fround o.ftz o.mode (Operands.val s (tidGid tid) t o.a)
        { Results.word o.d r.1 with flags := r.2 }))
    ∧ (∀ o : BfpOps, Gives (.bfpx h o) h (fun s tid t =>
        let a := Operands.val s (tidGid tid) t o.a
        let k := 8 - (o.n.toNat + 2)
        Results.word o.d (Flags.expand (((a.extractLsb' 0 8) >>> k <<< k).toInt) (a.extractLsb' 8 8).toNat)))

/-- R87: a float becomes the nearer integer of the mode, the nearer end of the range with IV outside it, and 0 with IV from a
NaN; NX tells a value that was no integer. R86: an integer saturates under SAT or wraps. -/
def Sys2Proof.Claims.ConversionsToIntegers : Prop :=
  (∀ (rm : BitVec 2) sgn w, 0 < w → (∀ q, Flags.fpToInt rm sgn w (.nan q) = (0, Flags.iv))
    ∧ Flags.fpToInt rm sgn w (.inf true) = (if sgn then -(2 ^ (w - 1)) else 0, Flags.iv)
    ∧ Flags.fpToInt rm sgn w (.inf false) = (if sgn then 2 ^ (w - 1) - 1 else 2 ^ w - 1, Flags.iv)
    ∧ (∀ neg m e, let r := Flags.fpToInt rm sgn w (.fin neg m e)
        Flags.intLo sgn w ≤ r.1 ∧ r.1 ≤ Flags.intHi sgn w
        ∧ (r.2 = Flags.iv ↔ (Flags.toInt rm neg m e).1 ≠ r.1)
        ∧ (r.2 = Flags.nx ↔ (Flags.toInt rm neg m e).1 = r.1 ∧ (Flags.toInt rm neg m e).2 = true)))
  ∧ (∀ (o : CvtOps) (x : Nat), CvtOps.isFloat o.dt = false → CvtOps.isFloat o.st = false → o.dt = 7 → x < 2 ^ 64 →
    (FloatArith.convert o x).2 = 0
    ∧ ((FloatArith.intType o.st) = (true, 64) →
      (BitVec.ofNat 32 (FloatArith.convert o x).1).toInt
        = if o.sat then clamp false 32 (BitVec.ofNat 64 x).toInt else ((BitVec.ofNat 64 x).setWidth 32).toInt))

/-- Packed halves and conversions. -/
def Obligations.PackedHalvesAndAllConversions : Prop := Sys2Proof.Claims.PackedHalvesAndConversions ∧ Sys2Proof.Claims.ConversionsToIntegers

/-- R49 to R51: a long instruction with LA not 0 goes on at once and changes no register or flag; its results stand with the
thread under a shadow of LA instructions, and results that were pending stay pending. -/
def Sys2Proof.Claims.LongResultsWaitForTheirShadow : Prop :=
  ∀ (h : Hdr) s c tid t, Solo s c h tid t → h.la ≠ 0 →
    (∀ (i : Instr) (o : FpOps), i ∈ [Instr.frcp h o, .frsq h o, .fsqrt h o, .fdiv h o, .fexp2 h o, .flog2 h o, .fsin h o,
      .fcos h o] → ∃ u t' x, exec i s = .next u ∧ u.thread? tid = some t' ∧ t'.pc = nextPc t.pc ∧ t'.status = .ready
        ∧ (∀ j, t'.v j = t.v j) ∧ (∀ j, t'.q j = t.q j) ∧ t'.flags = t.flags
        ∧ t'.longs.getLast? = some x ∧ x.left = h.la.toNat ∧ x.arrived = false ∧ x.vals.isSome = true
        ∧ t'.longs.dropLast.map LongOp.dests = t.longs.map LongOp.dests
        ∧ u = { s with threads := u.threads, nextId := s.nextId + 1 })
    ∧ (∀ (i : Instr) (o : IntOps), i ∈ [Instr.idiv h o, .irem h o] →
      ∃ u t' x, exec i s = .next u ∧ u.thread? tid = some t' ∧ t'.pc = nextPc t.pc
        ∧ (∀ j, t'.v j = t.v j) ∧ (∀ j, t'.q j = t.q j) ∧ t'.flags = t.flags
        ∧ t'.longs.getLast? = some x ∧ x.left = h.la.toNat ∧ x.arrived = false ∧ x.vals.isSome = true
        ∧ u = { s with threads := u.threads, nextId := s.nextId + 1 })

/-- R50, R51: when a shadow has ended and the result is there, it is written to the destinations that no later instruction has
written, its flags join the thread's, and it is closed; results issued before it no longer write that destination; before that nothing
changes. -/
def Sys2Proof.Claims.ShadowsEnd : Prop :=
  ∀ s tid t (o : LongOp), s.thread? tid = some t → t.visit = none → t.longs.find? (fun x => x.id == o.id) = some o →
    (∀ k w, o.kind = .value → Ops.unread s o.inst = false → o.left = 0 → o.arrived = true → o.vals = some [w] → o.dests = [(0, .v k)] →
      ∃ u t', exec (.shadowEnd tid o.id) s = .next u ∧ u.thread? tid = some t' ∧ t'.word k = w
        ∧ (∀ j, j ≠ k → t'.word j = t.word j) ∧ t'.flags = t.flags ||| o.flags
        ∧ (∀ y ∈ t'.longs, y.id ≠ o.id ∧ (y.id < o.id → ∀ d ∈ y.dests, d.2 ≠ .v k)) ∧ t'.pc = t.pc ∧ u = { s with threads := u.threads })
    ∧ (0 < o.left ∨ o.arrived = false → exec (.shadowEnd tid o.id) s = .next s)

/-- Long results and their shadows. -/
def Obligations.LongResultsAndShadows : Prop := Sys2Proof.Claims.LongResultsWaitForTheirShadow ∧ Sys2Proof.Claims.ShadowsEnd

/-! ### Copy commands (R166 to R179) -/

/-- A copy command of one thread that can enter the queue now: drained, its checks passed, its destination handle free, no
scratchpad line of it absent, room in the queue, its translations known, and its lines free for the ownership step. -/
def Sys2Proof.Claims.CopyReady (s : State) (c : Cohort) (h : Hdr) (tid : Nat) (t : Thread) (hr : Fin 32) (q : Copy.Req)
    (lens : List DWord) (g : Group) (tm : Team) : Prop :=
  Solo s c h tid t ∧ Ops.drained s tid = true ∧ s.group? (tidGid tid) = some g ∧ s.teams.get? g.team = some tm
    ∧ Copy.checks s tm q lens = none ∧ (g.handle hr.val).pend = none ∧ (g.handle hr.val).readers.contains tid = false

/-- The room and the lines that a command waits for. -/
def Sys2Proof.Claims.CopyFits (s : State) (tid : Nat) (tm : Team) (q : Copy.Req) : Prop :=
  let ps := Copy.pieces s tm q
  (ps.flatMap Copy.spadLines).all (fun x => !(s.core x.1).absent.contains x.2) = true
    ∧ Copy.queued (s.core (gidCore (tidGid tid))) < 32
    ∧ Copy.walks s tm q ps = false ∧ Engine.canHold s (Copy.ownLines s tm ps) (Copy.pinLines s tm q ps) = true

/-- The three copy instructions, as requests with the lengths whose alignment is checked. -/
def Sys2Proof.Claims.copyReq (s : State) (tid : Nat) (t : Thread) (h : Hdr) : Instr → Option (Copy.Req × List DWord × Reg)
  | .cpy h' o => if h' = h then some ({ kind := 0, dst := Operands.val64 s (tidGid tid) t o.a
                                        src := Operands.val64 s (tidGid tid) t o.b, fill := 0
                                        rb := (Operands.src s (tidGid tid) t o.len).toNat, rows := 1, ss := 0, ds := 0 },
      [(Operands.src s (tidGid tid) t o.len).setWidth 64], o.d) else none
  | .cfill h' o => if h' = h then some ({ kind := 2, dst := Operands.val64 s (tidGid tid) t o.a, src := 0
                                          fill := Operands.val s (tidGid tid) t o.b
                                          rb := (Operands.src s (tidGid tid) t o.len).toNat, rows := 1, ss := 0, ds := 0 },
      [(Operands.src s (tidGid tid) t o.len).setWidth 64], o.d) else none
  | .cpy2 h' d a b cc =>
    let w (i : Nat) : Word := Operands.val s (tidGid tid) t (Operands.next cc i)
    if h' = h then some ({ kind := 1, dst := Operands.val64 s (tidGid tid) t a, src := Operands.val64 s (tidGid tid) t b
                           fill := 0, rb := (w 0).toNat, rows := (w 1).toNat, ss := (w 2).toInt, ds := (w 3).toInt },
      [(w 0).setWidth 64, (w 2).signExtend 64, (w 3).signExtend 64], d) else none
  | _ => none

/-- R173, R177 to R179: a copy command that passes its checks enters its core's queue under a fresh name, its handle pends on
that name with the next GEN, its scratchpad lines become absent, and the thread goes on; one of length 0 completes at once.
Model's choice in it: log 26. -/
def Sys2Proof.Claims.CopyCommandsAreQueued : Prop :=
  ∀ (h : Hdr) s c tid t (i : Instr) q lens (hr : Fin 32) g tm, copyReq s tid t h i = some (q, lens, .h hr) →
    CopyReady s c h tid t hr q lens g tm →
    (0 < q.rb → CopyFits s tid tm q → ∃ u g' t', exec i s = .next u ∧ u.group? (tidGid tid) = some g'
      ∧ (g'.handle hr.val).pend = some s.nextId ∧ (g'.handle hr.val).gen = ((g.handle hr.val).gen + 1) % 8192
      ∧ u.thread? tid = some t' ∧ t'.pc = nextPc t.pc ∧ (∀ j, t'.v j = t.v j) ∧ (∀ j, t'.q j = t.q j)
      ∧ (∃ x, (u.core (gidCore (tidGid tid))).copyq.getLast? = some x ∧ x.id = s.nextId ∧ Copy.reqOf x = q ∧ x.landed = []
          ∧ x.started = false ∧ x.err = 0 ∧ x.cancel = false)
      ∧ (∀ x ∈ (Copy.pieces s tm q).flatMap Copy.spadLines, (u.core x.1).absent.contains x.2 = true))
    ∧ (q.rb = 0 → ∃ u g' t', exec i s = .next u ∧ u.group? (tidGid tid) = some g'
      ∧ (g'.handle hr.val).pend = none ∧ (g'.handle hr.val).status = 0
      ∧ u.thread? tid = some t' ∧ t'.pc = nextPc t.pc ∧ (∀ j, t'.v j = t.v j) ∧ u.mem = s.mem ∧ u.cores = s.cores)

/-- R178, Table 06.8: a copy command whose checks fail faults, and one whose handle still pends waits and has no other effect
than to count as a reader of it. -/
def Sys2Proof.Claims.CopyCommandsFaultOrWait : Prop :=
  ∀ (h : Hdr) s c tid t (i : Instr) q lens (hr : Fin 32) g tm, copyReq s tid t h i = some (q, lens, .h hr) →
    Solo s c h tid t → Ops.drained s tid = true → s.group? (tidGid tid) = some g → s.teams.get? g.team = some tm →
    (∀ f, Copy.checks s tm q lens = some f → exec i s = .next (Ops.trapAll s [tid] f))
    ∧ (Copy.checks s tm q lens = none → (g.handle hr.val).pend.isSome = true →
      exec i s = .next (Ops.stall (Ops.modHandle s (tidGid tid) hr.val (fun x => { x with readers := NSet.addAll x.readers [tid] })) [tid]))
    ∧ (∀ x, x.toNat % 4 ≠ 0 → x ∈ q.dst :: lens → 0 < q.rb → q.kind = 0 → q.rb ≤ 16777216 →
      ∃ f a, Copy.checks s tm q lens = some f ∧ f t = Ops.plain 0x12 a ∧ a.toNat % 4 ≠ 0)

/-- Copy commands are queued, fault or wait. -/
def Obligations.CopyCommandsIssue : Prop := Sys2Proof.Claims.CopyCommandsAreQueued ∧ Sys2Proof.Claims.CopyCommandsFaultOrWait

/-- R171 to R174, R379, R380: an idle engine takes the oldest queued command of a running context, one that a restore has put back
first; while all four engines of the core work, none is taken; a landed piece counts as landed; a command that has landed whole, failed
or was cancelled leaves the queue, gives up its lines and completes its handles with its code. -/
def Sys2Proof.Claims.CopyEnginesRun : Prop :=
  (∀ s core x, (((s.core core).copyq.filter CopyCmd.started).length < 4) →
    (((s.core core).copyq.filter (fun c => !c.started && Copy.runs s c)).find? CopyCmd.restored).or
      ((s.core core).copyq.filter (fun c => !c.started && Copy.runs s c)).head? = some x →
    ∃ u, exec (.copyCommandStart core) s = .next u ∧ u = { s with cores := u.cores }
      ∧ (u.core core).copyq = (s.core core).copyq.map (fun c => if c.id = x.id then { c with started := true } else c)
      ∧ x.started = false)
  ∧ (∀ s core, 4 ≤ ((s.core core).copyq.filter CopyCmd.started).length → exec (.copyCommandStart core) s = .next s)
  ∧ (∀ s core id line x tm p, Copy.find? s core id = some x → s.teams.get? x.team = some tm →
    (Copy.pieces s tm (Copy.reqOf x))[line]? = some p → x.started = true → x.err = 0 → x.cancel = false →
    x.landed.contains line = false → Copy.mayLand s core tm x (Copy.pieces s tm (Copy.reqOf x)) p = true →
    exec (.lineLanded core id line) s
      = .next (Meets.resettle (Copy.land s core tm x (Copy.pieces s tm (Copy.reqOf x)) line p)))
  ∧ (∀ s core id x tm, Copy.find? s core id = some x → s.teams.get? x.team = some tm →
    x.cancel = true ∨ (x.started = true ∧ (x.err ≠ 0 ∨ Copy.left x (Copy.pieces s tm (Copy.reqOf x)) = [])) →
    exec (.copyCompletion core id) s = .next (Meets.resettle (Copy.finish s core x))
      ∧ Copy.find? (Copy.finish s core x) core id = none
      ∧ (∀ y ∈ (Copy.finish s core x).holds, y.cmd ≠ id)
      ∧ (∀ g ∈ (Copy.finish s core x).groups, ∀ y ∈ g.2.handles, y.2.pend ≠ some id))

/-- R166, R169, R176: a piece between two scratchpads lands the bytes of its source, and a piece of a fill the bytes of the
pattern; no byte outside it, no other memory and no register changes. -/
def Sys2Proof.Claims.CopyMovesTheBytes : Prop :=
  ∀ s core tm (x : CopyCmd) ps i (p : Copy.Piece) dc d, p.dst = .spad dc d →
    let u := Copy.land s core tm x ps i p
    let same := u.mem = s.mem ∧ u.vault = s.vault ∧ u.groups = s.groups
      ∧ (∀ k y, (k ≠ dc ∨ y < d ∨ d + p.len ≤ y) → Mem.spadByte (u.core k) y = Mem.spadByte (s.core k) y)
      ∧ (∀ k, (u.thread? k).map (fun t => { t with status := .ready }) = (s.thread? k).map (fun t => { t with status := .ready }))
    (x.kind = 2 → Mem.spadBytes u dc d p.len = Copy.fillBytes x.fill p.len ∧ same)
    ∧ (∀ sc o, x.kind ≠ 2 → Copy.srcPlace s tm (Copy.reqOf x) p.row p.off p.len = some (.spad sc o) →
      (∀ j, j < p.len → (s.core sc).spoison.contains ((o + j) / 4) = false
        ∧ Copy.shared s tm (Copy.reqOf x) (.spad dc (d + j)) = false) →
      Mem.spadBytes u dc d p.len = Mem.spadBytes s sc o p.len ∧ same)

/-- The copy engines run and move the bytes. -/
def Obligations.CopyEnginesMoveBytes : Prop := Sys2Proof.Claims.CopyEnginesRun ∧ Sys2Proof.Claims.CopyMovesTheBytes

/-! ### Migration (R188 to R212) -/

/-- R195, R197, R208, R405: `go` to the core that owns its address: staying, leaving with a continuation, or refused with MIGREF; a
failed translation faults, one under way is waited for, and in a handler it is ILL_OP. `where` tells the owner and stays. -/
def Sys2Proof.Claims.MigrationStarts : Prop :=
  ∀ (h : Hdr) (ad : Addr) s c tid t, Solo s c h tid t →
    let ea := Operands.addr s (tidGid tid) t ad
    (∀ o p q, Mem.ownerOf s tid t ea .owner = .ok (o, p, q) → Mem.ownerWalks s tid t ea = false → t.inH = false →
      let home := t.away = true ∧ o = gidCore (tidGid tid)
      (o = Hops.here tid t → exec (.go h ad) s = .next (wentOn (Mem.foundOwner s tid t q) tid))
      ∧ (o ≠ Hops.here tid t → home ∨ Hops.refusal s tid t o = none → Ops.mayLeave s tid t = true →
          let u := Hops.depart (Mem.foundOwner s tid t q) tid o false ea
          exec (.go h ad) s = .next (Ops.send u [tid])
          ∧ (¬home → u.thread? tid = some { t with
              status := .transit, hop := some { dest := o, impl := false, refused := false, ea := ea } })
          ∧ (home → u.thread? tid = some (Hops.goHome t (nextPc t.pc)))
          ∧ (∀ k, k ≠ tid → u.thread? k = s.thread? k))
      ∧ (∀ sub, o ≠ Hops.here tid t → ¬home → Hops.refusal s tid t o = some sub →
          exec (.go h ad) s = .next (Ops.takeTraps (Mem.foundOwner s tid t q) [(tid, Hops.refusedTrap sub ea)]))
      ∧ (o ≠ Hops.here tid t → home ∨ Hops.refusal s tid t o = none → Ops.mayLeave s tid t = false →
          exec (.go h ad) s = .next (Ops.stall s [tid])))
    ∧ (∀ e, Mem.ownerOf s tid t ea .owner = .error e → Mem.ownerWalks s tid t ea = false → t.inH = false →
      exec (.go h ad) s = .next (Mem.takeFaults s [(tid, .fault e)]))
    ∧ (t.inH = true → exec (.go h ad) s = .next (Ops.takeTraps s [(tid, Ops.illOp t)]))
    ∧ (Mem.ownerWalks s tid t ea = true → ∀ d, exec (.whereIs h d ad) s = .next (Ops.stall s [tid])
        ∧ (t.inH = false → exec (.go h ad) s = .next (Ops.stall s [tid])))
    ∧ (∀ i : Fin 64, Mem.ownerWalks s tid t ea = false →
        let s' := match Mem.ownerOf s tid t ea .owner with
          | .ok (_, _, q) => Mem.foundOwner s tid t q
          | .error e => Mem.faultWalk s tid e
        ∃ u t', exec (.whereIs h (.v i) ad) s = .next u ∧ u.thread? tid = some t'
        ∧ WentOn t t' (nextPc t.pc) (Results.word (.v i) (Migration.whereWord s tid t ea))
        ∧ (∀ k, k ≠ tid → u.thread? k = s.thread? k) ∧ u = { s' with threads := u.threads })

/-- R196: `back` does nothing at home, and away sends the thread home, to go on at the next slot, once its accesses are performed. -/
def Sys2Proof.Claims.BackGoesHome : Prop :=
  ∀ (h : Hdr) s c tid t, Solo s c h tid t →
    (t.visit = none → exec (.back h) s = .next (wentOn s tid))
    ∧ (∀ x, t.visit = some x →
      (Ops.mayLeave s tid t = true →
        let u := Hops.depart s tid (gidCore (tidGid tid)) false 0
        exec (.back h) s = .next (Ops.send u [tid])
        ∧ u.thread? tid = some { t with
            status := .transit, pc := nextPc t.pc, stay := false, resumed := false
            visit := some { x with home := true, exits := false, trap := none } }
        ∧ (∀ k, k ≠ tid → u.thread? k = s.thread? k) ∧ u.mem = s.mem)
      ∧ (Ops.mayLeave s tid t = false → exec (.back h) s = .next (Ops.stall s [tid])))

/-- Migration starts, and back goes home. -/
def Obligations.MigrationAndBack : Prop := Sys2Proof.Claims.MigrationStarts ∧ Sys2Proof.Claims.BackGoesHome

/-- R192, R193: the bytes of a continuation give back its fields, and its words are those of the registers that CMASK names. A lane that
departs travels in a packet of its source, destination and direction; no packet holds more than 32 continuations. -/
def Sys2Proof.Claims.ContinuationsAreBytes : Prop :=
  (∀ c : Ops.Cont, gidCore (tidGid c.tid) < 256 → c.ctx < 2048 → c.hops < 8 → c.dest < 256 → c.pred.getLsbD 0 = false →
    Ops.unpackCont (Ops.packCont c) = c ∧ (Ops.packCont c).length = 32 + 4 * c.words.length)
  ∧ (∀ s tid t, (t.hop.isSome = true ∨ ∀ x, t.visit = some x → x.exits = false) → ∀ i, i < 32 →
    (Migration.wordsOf (Ops.contOf s tid t)).getD i 0 = if t.carryV.getLsbD i = true then t.v i else 0)
  ∧ (∀ s tid t, s.thread? tid = some t → t.status = .transit → Ops.mayLeave s tid t = true →
    (Ops.send s [tid]).packets.get? s.nextId = some
      { src := Hops.here tid t, dest := (Ops.contOf s tid t).dest, home := t.hop.isNone, conts := [Ops.packCont (Ops.contOf s tid t)] }
    ∧ Ops.send s [tid] = { s with packets := (Ops.send s [tid]).packets, nextId := s.nextId + 1 })
  ∧ (∀ s tids, ∀ p ∈ (Ops.send s tids).packets, p ∈ s.packets ∨ p.2.conts.length ≤ 32)

/-- R192, R199, R200: a continuation that finds a guest lane starts there with the registers and, under Q, the predicates of
its carried set; every other register reads 0. One that finds none is refused. Model's choice in it: log 33. -/
def Sys2Proof.Claims.ContinuationsSettle : Prop :=
  ∀ s pkt p b t, s.packets.get? pkt = some p → p.home = false → (s.core p.dest).ret = .awake → p.conts = [b] →
    let c := Ops.unpackCont b
    s.thread? c.tid = some t →
    (∀ g, Migration.placeFor s p.dest c.ctx (Migration.roleOf s c.tid) = some g →
      ∃ u t' x, exec (.continuationArrival pkt) s = .next u ∧ u.thread? c.tid = some t' ∧ t'.visit = some x
        ∧ x.core = p.dest ∧ x.guest = g ∧ x.hops = c.hops ∧ x.home = false
        ∧ t'.status = .ready ∧ t'.hop = none ∧ t'.pc = c.pc
        ∧ (∀ i, t'.v i = (Migration.wordsOf c).getD i 0) ∧ (∀ n, 0 < n → t'.q n = c.pred.getLsbD n)
        ∧ t'.flags = c.flags ∧ t'.trapen = c.trapen ∧ t'.carryV = c.cmask ∧ t'.carryQ = c.qc
        ∧ (∀ k, k ≠ c.tid → u.thread? k = s.thread? k) ∧ u.mem = s.mem ∧ u.groups = s.groups ∧ u.packets.get? pkt = none)
    ∧ (Migration.placeFor s p.dest c.ctx (Migration.roleOf s c.tid) = none →
      ∃ u, exec (.continuationArrival pkt) s = .next u
        ∧ u.thread? c.tid = some { t with hop := t.hop.map (fun h => { h with refused := true }) }
        ∧ (∀ k, k ≠ c.tid → u.thread? k = s.thread? k) ∧ u.mem = s.mem ∧ u.groups = s.groups)

/-- R192, R193, R199, R200: continuations are bytes in packets, and settle where they find a guest lane.
Model's choice in it: log 33. -/
def Sys2Proof.Claims.ContinuationsCarryTheNamedRegisters : Prop := ContinuationsAreBytes ∧ ContinuationsSettle

/-- R203 to R206: a thread that comes home brings the registers and predicates of its continuation and finds the others as it
left them, to go on, to take the trap it came home for, or to retire; R198, R208: a refused access is then performed in place, and a
refused `go` raises MIGREF. Model's choice in it: log 87. -/
def Sys2Proof.Claims.ThreadsComeHome : Prop :=
  (∀ s pkt p b t x, s.packets.get? pkt = some p → p.home = true → (s.core p.dest).ret = .awake → p.conts = [b] →
    let c := Ops.unpackCont b
    s.thread? c.tid = some t → t.visit = some x →
    (∀ i, i < 64 → (Migration.bringHome t c).v i = ((Migration.wordsOf c).get? i).getD (t.word (t.vkey i)))
    ∧ (∀ n, 0 < n → n < 96 → (Migration.bringHome t c).q n
        = if (c.qc && !c.exits) = true ∧ n < 32 then c.pred.getLsbD n else t.preds.getLsbD n)
    ∧ (Migration.bringHome t c).visit = none ∧ (Migration.bringHome t c).status = .ready ∧ (Migration.bringHome t c).pc = c.pc
    ∧ (Migration.bringHome t c).flags = c.flags ∧ (Migration.bringHome t c).trapen = c.trapen ∧ (Migration.bringHome t c).hop = none
    ∧ (Migration.bringHome t c).stay = false
    ∧ ∃ u, (∀ k, k ≠ c.tid → u.thread? k = s.thread? k) ∧ u.mem = s.mem ∧ u.groups = s.groups
      ∧ (c.exits = false → x.trap = none → exec (.returnArrival pkt) s = .next u ∧ u.thread? c.tid = some (Migration.bringHome t c))
      ∧ (∀ tr pc, c.exits = false → x.trap = some (tr, pc) → exec (.returnArrival pkt) s = .next (Ops.takeTraps u [(c.tid, tr)])
          ∧ u.thread? c.tid = some { Migration.bringHome t c with pc := pc })
      ∧ (c.exits = true → x.trap = none → exec (.returnArrival pkt) s = .next (Control.settleExit u [c.tid])
          ∧ u.thread? c.tid = some (Control.retire (Migration.bringHome t c))))
  ∧ (∀ s tid t hp, s.thread? tid = some t → t.hop = some hp → hp.refused = true → hp.impl = true →
    exec (.migrationRefusalReturn tid) s = .next (s.setThread tid { t with hop := none, status := .ready, stay := true }))
  ∧ (∀ s tid t hp, s.thread? tid = some t → t.hop = some hp → hp.refused = true → hp.impl = false →
    (∀ k x y, s.thread? k = some x → x.hop = some y → y.refused = true → k = tid) → s.threads.rising = true →
    exec (.migrationRefusalReturn tid) s = .next (Ops.takeTraps
      (s.mapThreads [tid] (fun _ t => { t with hop := none, status := .ready, stay := false })) [(tid, Hops.refusedTrap 1 hp.ea)]))

/-- Continuations carry the named registers, and threads come home. -/
def Obligations.ContinuationsTravel : Prop := Sys2Proof.Claims.ContinuationsCarryTheNamedRegisters ∧ Sys2Proof.Claims.ThreadsComeHome

/-! ### The matrix unit (R277 to R300) -/

/-- The header of a matrix command. -/
def Sys2Proof.Claims.matrixHdr : Instr → Option Hdr
  | .mzero h _ _ _ | .mma h _ _ _ | .mmab h _ _ _ | .mld h _ _ | .mst h _ _ | .mscl h _ | .msclU h _ _ _ _ => some h
  | _ => none

/-- The instance that the first signature of a matrix command opens (R281, R366). -/
def Sys2Proof.Claims.firstSigned (s : State) (c : Cohort) (tid : Nat) (i : Instr) (tile : Nat) (r : KReg) : KInst :=
  { pc := c.pc, n := r.n, m := r.m, signed := [tid], cmd := some { instr := i, tile := tile, id := s.nextId } }

/-- R277, R281 to R283: the first signature of a matrix command opens its meet instance, its handle pends on the command, and
the thread goes on; the instance then proceeds if it can. A tile that the team does not hold raises ILL_OP, a thread that is not drained
waits, and so does the last signer while the queue cannot take the command. -/
def Sys2Proof.Claims.MatrixCommandsAreSigned : Prop :=
  ∀ (h : Hdr) s c tid t (i : Instr) (hr : Nat) tile k n tm g, matrixHdr i = some h → Matrix.operands i = some (some hr, tile, k) →
    Solo s c h tid t → s.teamOf? tid = some (n, tm) → s.teams.get? n = some tm → s.group? (tidGid tid) = some g →
    (tile < tm.kernel.tiles → Ops.drained s tid = true → (Meets.kreg tm k).inst = none →
      (g.handle hr).pend = none → (g.handle hr).readers.contains tid = false → g.xinsts = [] →
      let x := firstSigned s c tid i tile (Meets.kreg tm k)
      let room := Matrix.mayEnter s tm.core tm i (Meets.descOf s i [tid])
      let u0 := Ops.advance (Meets.setInst (Ops.issueHandle { s with nextId := s.nextId + 1 } (tidGid tid) hr s.nextId false) n k
        (some x)) [tid]
      (Meets.proceeds s n x = false ∨ room = true → exec i s = .next (Meets.settleLanes (Meets.settleK u0 n k) [tid]))
      ∧ (Meets.proceeds s n x = false → ∃ u tm' g' t', exec i s = .next u ∧ u.teams.get? n = some tm'
        ∧ (Meets.kreg tm' k).inst = some x ∧ u.group? (tidGid tid) = some g' ∧ (g'.handle hr).pend = some s.nextId
        ∧ (g'.handle hr).gen = ((g.handle hr).gen + 1) % 8192 ∧ u.thread? tid = some t' ∧ t'.pc = nextPc t.pc
        ∧ (∀ j, t'.v j = t.v j) ∧ (∀ j, t'.q j = t.q j) ∧ u.mem = s.mem ∧ u.nextId = s.nextId + 1)
      ∧ (Meets.proceeds s n x = true → room = false → exec i s = .next (Meets.settleLanes (Ops.stall s [tid]) [tid])))
    ∧ (tm.kernel.tiles ≤ tile →
      exec i s = .next (Ops.takeTraps s [(tid, Ops.plain 0x01 (BitVec.ofNat 64 (0x70 + tile)))]))
    ∧ (tile < tm.kernel.tiles → Ops.drained s tid = false → exec i s = .next (Meets.settleLanes (Ops.stall s [tid]) [tid]))

/-- R281, R282, R284: when the instance of a matrix command proceeds and the unit has room, the command stands last in the
queue with the instruction, the tile and the descriptor that the signers' group holds, and its meet register is free. -/
def Sys2Proof.Claims.SignedCommandsEnterTheQueue : Prop :=
  ∀ s n tm k (i : KInst) (q : MatReq), s.teams.get? n = some tm → (Meets.kreg tm k).inst = some i → i.cmd = some q →
    Meets.proceeds s n i = true →
    let desc := Meets.descOf s q.instr i.signed
    (Matrix.mayEnter s tm.core tm q.instr desc = true → ∃ u tm' x, Meets.settleK s n k = u ∧ u.teams.get? n = some tm'
      ∧ (Meets.kreg tm' k).inst = none ∧ (u.core tm.core).matq.getLast? = some x ∧ x.id = q.id ∧ x.instr = q.instr
      ∧ x.phys = tm.tiles.getD q.tile 0 ∧ x.desc = desc ∧ x.started = false ∧ x.cancel = false)
    ∧ (Matrix.mayEnter s tm.core tm q.instr desc = false → Meets.settleK s n k = s)

/-- Matrix commands are signed and enter the queue. -/
def Obligations.MatrixCommandsMeet : Prop := Sys2Proof.Claims.MatrixCommandsAreSigned ∧ Sys2Proof.Claims.SignedCommandsEnterTheQueue

/-- R283 to R287, R297, R299: a command of a running context that may start starts, with the error of its rows; a started one works up to a
unit, and one that leaves the unit gives up its lines and completes its handles; a check record goes to the telemetry ring. Model's
choice in it: log 56. -/
def Sys2Proof.Claims.MatrixUnitRuns : Prop :=
  ∀ s core id,
    (∀ x tm, Matrix.find? s core id = some x → s.teams.get? x.team = some tm →
      (x.started = false → Matrix.mayStart s (s.core core) x = true → (s.ctxs.get? x.ctx).map Ctx.phase = some .running →
        Matrix.walksAt s x.ctx tm (Matrix.sources x.instr x.desc) .rd = false →
        Matrix.walksAt s x.ctx tm (Matrix.dests x.instr x.desc) .wr = false →
        exec (.matrixCommandStart core id) s = .next (Meets.resettle (Matrix.modify s core id (fun y => { y with
          started := true, err := if x.err = 0 then Matrix.rowError s x.ctx tm x.instr x.desc else x.err }))))
      ∧ (∀ upto, x.started = true →
        let q := min upto (Matrix.units x.instr)
        let held := Matrix.blockedAt s x.ctx tm id (Matrix.sourcesIn x.instr x.desc x.kstep q) false
          || Matrix.blockedAt s x.ctx tm id (Matrix.destsIn x.instr x.desc x.kstep q) true
        (held = false → exec (.matrixCompletion core ⟨id, upto⟩) s = .next (Meets.resettle (Matrix.runTo s core tm x upto)))
        ∧ (held = true → ∃ u, exec (.matrixCompletion core ⟨id, upto⟩) s = .next u ∧ u = { s with cores := u.cores }
            ∧ (u.core core).matq = (s.core core).matq))
      ∧ (∀ st, let u := Matrix.leave s core x st
        Matrix.find? u core id = none ∧ (∀ y ∈ u.holds, y.cmd ≠ id) ∧ (∀ g ∈ u.groups, ∀ y ∈ g.2.handles, y.2.pend ≠ some id)))
    ∧ (∀ p r rest, (s.core core).matChecks = (p, r) :: rest →
      (Telemetry.waits s p = false → ∃ u, exec (.matrixCheck core) s = .next u
        ∧ u = Telemetry.write (s.modCore core (fun k => { k with matChecks := rest })) p r ∧ (u.core core).matChecks = rest)
      ∧ (Telemetry.waits s p = true → exec (.matrixCheck core) s = .next s))

/-- R287, R289 to R292: what a command that is done leaves: mzero zeros and clear flags, mld the elements of its
rows, mscl.u one scale in every column, mma the sums of its k-steps; no other tile of the core changes. An mst of a tile with ERR or CANC
reports them and stores nothing. -/
def Sys2Proof.Claims.MatrixCommandsFillTheirTile : Prop :=
  ∀ s core tm (x : MatCmd), Matrix.find? s core x.id = some x → x.err = 0 → x.cancel = false → x.marks = [] → x.flags = 0 →
    let t := Matrix.tile (s.core core) x.phys
    let u := Matrix.runTo s core tm x (Matrix.units x.instr)
    let t' := Matrix.tile (u.core core) x.phys
    (∀ h d m k, x.instr = .mzero h d m k → x.kstep = 0 →
      (∀ n, n < 4096 → Matrix.word t' n = 0) ∧ t'.flags = 0 ∧ t'.err = 0 ∧ t'.canc = false ∧ t'.scale = t.scale
        ∧ (∀ j, j ≠ x.phys → Matrix.tile (u.core core) j = Matrix.tile (s.core core) j) ∧ u.mem = s.mem)
    ∧ (∀ h o bs s1, x.instr = .mld h o 0 → x.kstep = 0 →
      Matrix.readAll s x.ctx tm (Matrix.sourcesIn x.instr x.desc 0 64) = .ok (bs, s1) → Matrix.find? s1 core x.id = some x →
      (∀ n, n < 4096 → Matrix.word t' n = BitVec.ofNat 32 (Matrix.elem (bs.getD 0 []) (n / 64) (n % 64) 4))
        ∧ t'.flags = 0 ∧ t'.err = 0 ∧ t'.canc = false)
    ∧ (∀ h d m k f, x.instr = .msclU h d m k f → x.kstep = 0 →
      (∀ j, j < 64 → Matrix.scaleAt t'.scale j = f) ∧ (∀ n, n < 4096 → Matrix.word t' n = Matrix.word t n)
        ∧ t'.flags = t.flags ∧ u.mem = s.mem)
    ∧ (∀ h o ty k16 bs s1, x.instr = .mma h o ty k16 → x.kstep < k16.toNat + 1 → (s.core core).tilePoison.contains x.phys = false →
      Matrix.readAll s x.ctx tm (Matrix.sourcesIn x.instr x.desc x.kstep (k16.toNat + 1)) = .ok (bs, s1) →
      Matrix.find? s1 core x.id = some x → Matrix.tile (s1.core core) x.phys = t →
      ∀ n, n < 4096 → Matrix.word t' n
        = (Matrix.product x.instr x.desc bs 0 (k16.toNat + 1 - x.kstep) (n / 64) (n % 64) (Matrix.word t n)).1)
    ∧ (∀ h o ty, x.instr = .mst h o ty → x.kstep = 0 → t.err ≠ 0 ∨ t.canc = true →
      u.mem = s.mem ∧ t' = t ∧ ∀ gid g g' n, s.group? gid = some g → (g.handle n).pend = some x.id → u.group? gid = some g' →
        (g'.handle n).pend = none ∧ (g'.handle n).status = Matrix.status t.err t.canc t.flags)

/-- The matrix unit runs, and its commands fill their tile. -/
def Obligations.MatrixCommandsRun : Prop := Sys2Proof.Claims.MatrixUnitRuns ∧ Sys2Proof.Claims.MatrixCommandsFillTheirTile

/-- R97, R293: the integer product step adds the sixteen exact products modulo 2^32, whatever their order. -/
def Obligations.IntegerProductStepIsExact : Prop :=
  ∀ (a b : Nat → Nat) (k0 : Nat) (c : Word) (fl : Flags.Fl),
    Matrix.intStep a b k0 (c, fl) = (c + ((List.range 16).map (fun j =>
      (BitVec.ofNat 8 (a (k0 + j))).signExtend 32 * (BitVec.ofNat 8 (b (k0 + j))).signExtend 32)).sum, fl)

/-! ### Array commands (R301 to R341) -/

/-- R309 to R311, R327: acall, acorr and astat put a command on its way to their die under a fresh name, and their handle
pends on it; a full queue or a pending handle makes them wait, and a word or an address that breaks the rules faults.
Model's choice in it: log 41. -/
def Sys2Proof.Claims.ArrayCommandsAreIssued : Prop :=
  ∀ (h : Hdr) s c tid t (hr : Fin 32) g tm, Solo s c h tid t → Ops.drained s tid = true → s.group? (tidGid tid) = some g →
    s.teams.get? g.team = some tm → (g.handle hr.val).pend = none → (g.handle hr.val).readers.contains tid = false →
    let gid := tidGid tid
    let trapped (i : Instr) (tr : Trap) : Prop := exec i s = .next (Ops.takeTraps s [(tid, tr)])
    let lost (i : Instr) : Prop := exec i s = .next (Ops.takeTraps (s.takeFree 2)
      [(tid, Ops.plain 0x50 (Config.freeWord (s.free + 1) ++ Config.freeWord s.free))])
    let Issued (i : Instr) (die entry : Nat) (trap : Bool) (arg : DWord) (n : Nat) : Prop :=
      let full := Arrays.waiting s (s.die die) (((s.ctxs.get? tm.ctx).map Ctx.vf).getD 0)
      (16 ≤ full → exec i s = .next (Ops.stall s [tid]))
      ∧ (full < 16 → ∃ u g' t' x, exec i s = .next u ∧ u.group? gid = some g' ∧ (g'.handle hr.val).pend = some s.nextId
        ∧ (g'.handle hr.val).trap = trap ∧ u.thread? tid = some t' ∧ t'.pc = nextPc t.pc ∧ (∀ j, t'.v j = t.v j)
        ∧ (u.die die).cmds.getLast? = some x ∧ x.id = s.nextId ∧ x.entry = entry ∧ x.argAddr = arg ∧ x.tile = n
        ∧ x.queued = false ∧ x.started = false ∧ x.ctx = tm.ctx ∧ u.mem = s.mem)
    (∀ a x tr, let w := Arrays.targetWord s gid t x
      let n := w.toNat
      let e := n / 256 % 8
      let arg := Operands.val64 s gid t a
      let no := e = 2 ∨ e = 6 ∨ (e = 3 ∨ e = 4) ∧ Arrays.partOf s gid ≠ 0
      (n < 2048 → ¬no → s.lost.contains (4 + n % 16) = false →
        Arrays.argFault s gid arg = none → Issued (.acall h (.h hr) a x tr) (n % 16) e tr arg 0)
      ∧ (∀ f, n < 2048 → ¬no → s.lost.contains (4 + n % 16) = false → Arrays.argFault s gid arg = some f →
        trapped (.acall h (.h hr) a x tr) f)
      ∧ (n < 2048 → ¬no → s.lost.contains (4 + n % 16) = true → lost (.acall h (.h hr) a x tr))
      ∧ (2048 ≤ n → trapped (.acall h (.h hr) a x tr) (Ops.plain 0x01 (w.setWidth 64)))
      ∧ (n < 2048 → no → trapped (.acall h (.h hr) a x tr) (Ops.plain 0x30 (w.setWidth 64))))
    ∧ (∀ a b, let n := (Operands.val s gid t b).toNat
      let ok := n / 8192 % 8 = 0 ∧ n < 2 ^ 20
      (ok → s.lost.contains (4 + n / 65536 % 16) = false →
        Issued (.acorr h (.h hr) a b) (n / 65536 % 16) 8 false (Operands.val64 s gid t a) (n % 8192)
        ∧ Issued (.astat h (.h hr) b) (n / 65536 % 16) 9 false 0 (n % 8192))
      ∧ (ok → s.lost.contains (4 + n / 65536 % 16) = true → lost (.acorr h (.h hr) a b) ∧ lost (.astat h (.h hr) b))
      ∧ (¬ok → trapped (.acorr h (.h hr) a b) (Ops.illOp t) ∧ trapped (.astat h (.h hr) b) (Ops.illOp t)))

/-- R307, R311 to R314: the oldest command of its VF on its way enters the queue with its argument block, its lines held; one whose block
breaks a check ends with that code, one whose die is not ready or whose sequencer has faulted with that of R307 or R338. -/
def Sys2Proof.Claims.ArrayQueueEntry : Prop :=
  ∀ s die id x tm, Arrays.find? s die id = some x → s.teams.get? x.team = some tm → x.queued = false → x.cancel = false →
    ((s.die die).cmds.find? (fun y => y.vf == x.vf && !y.queued && y.entry != 10 && !y.cancel && Arrays.stands s y)).map ACmd.id = some id →
    Arrays.entries (s.die die) x.vf < 16 →
    let run := exec (.arrayQueueEntry die id) s
    let halted := ((s.die die).seqrs.getD x.seq Seqr.reset).halted
    let s' := s.cross (coreDie tm.core) (4 + die)
    ((s.die die).replayed = false → run = .next (Arrays.fail s die id 0x31 0))
    ∧ ((s.die die).replayed = true → halted = true → run = .next (Arrays.fail s die id 0x01 0xFFFF))
    ∧ ((s.die die).replayed = true → halted = false →
      (8 ≤ x.entry → ∃ u, run = .next u ∧ Arrays.find? u die id = some { x with queued := true, block := [] }
        ∧ u = { s' with orng := u.orng })
      ∧ (∀ b s1, x.entry < 8 → Arrays.blocked s' x.ctx none tm [{ ea := x.argAddr, n := 64, wr := false }] = false →
        Arrays.readRange s' x.ctx tm x.argAddr 64 = .ok (b, s1) →
        let rs := Arrays.ranges { x with block := b }
        let e := Arrays.blockError s1 x.ctx tm x.entry b
        let own := Arrays.linesOf s1 x.ctx tm rs true
        let pin := Arrays.linesOf s1 x.ctx tm rs false
        Arrays.walks s1 x.ctx tm rs = false →
        (e ≠ 0 → run = .next (Arrays.fail s1 die id e 0))
        ∧ (e = 0 → Engine.canHold s1 own pin = true → run = .next (Arrays.modify
            (Engine.hold (Arrays.use s1 x.ctx tm rs) id tm.core (s'.ctxPart x.ctx) own pin) die id
            (fun y => { y with queued := true, block := b })))))

/-- Array commands are issued and enter their queue. -/
def Obligations.ArrayCommandsEnter : Prop := Sys2Proof.Claims.ArrayCommandsAreIssued ∧ Sys2Proof.Claims.ArrayQueueEntry

/-- The command that a sequencer starts next on its lane k, by the behaviour that its entry point has (R322). -/
def Sys2Proof.Claims.Next (s : State) (die seq k : Nat) (x : ACmd) (tm : Team) : Prop :=
  Arrays.laneFor (s.die die) seq = some k ∧ x.lane = k ∧ (∃ y, Arrays.next s (s.die die) seq = some y ∧ x = { y with lane := k })
    ∧ Arrays.microStart (s.die die) x = none ∧ s.teams.get? x.team = some tm

/-- R317, R321, R332 to R335, R339: a free lane starts the next command of its entry: layers with latched versions and
quantised input, a verify, a stage with the levels of its image, a commit of a usable staging. Each one whose checks fail ends
with its code. With a loaded micro-word at its entry point it executes micro-words, and with no free lane nothing starts.
Model's choice in it: log 53. -/
def Sys2Proof.Claims.ArrayCommandsStart : Prop :=
  ∀ s die seq k x tm, Next s die seq k x tm →
    (x.entry = 0 → exec (.alay die seq) s = .next (Arrays.startLayer s die x tm))
    ∧ (x.entry = 1 → exec (.abat die seq) s = .next (Arrays.startLayer s die x tm))
    ∧ (∀ xs fl cx s1 z, x.entry = 0 ∨ x.entry = 1 → Arrays.tileCheck (s.die die) x (Arrays.segTiles x) = none →
        let l := Arrays.layerOf x.block
        Arrays.present s tm (Arrays.layerRanges l) = true →
        Arrays.blocked s x.ctx (some x.id) tm ((List.range l.nv).map (Arrays.xRange l)) = false →
        Arrays.readVectors s x tm l = .ok (xs, fl, cx, s1) → Arrays.find? s1 die x.id = some z →
        ∃ y, Arrays.find? (Arrays.startLayer s die x tm) die x.id = some y ∧ y.started = true ∧ y.lane = k ∧ y.xq = xs
          ∧ y.latched = Arrays.latch (s.die die) (Arrays.segTiles x) ∧ y.flags = fl ∧ y.clipx = cx)
    ∧ (∀ z, x.entry = 5 → Arrays.tileCheck (s.die die) x (Arrays.segTiles x) = none → Arrays.find? s die x.id = some z →
        ∃ u y, exec (.avfy die seq) s = .next u ∧ Arrays.find? u die x.id = some y ∧ y.started = true ∧ y.lane = k
          ∧ y.latched = Arrays.latch (s.die die) (Arrays.segTiles x) ∧ u = { s with orng := u.orng })
    ∧ (∀ b img s1, x.entry = 3 → Arrays.stagingCheck s die x = none → Arrays.present s tm (Arrays.imgRanges x.block) = true →
        Arrays.blocked s x.ctx (some x.id) tm (Arrays.imgRanges x.block) = false →
        Arrays.readRange s x.ctx tm (Arrays.imgOf x.block) Arrays.imgBytes = .ok (b, s1) →
        (Arrays.levels b = some img →
          exec (.astg die seq) s = .next (Arrays.begin_ (Engine.release s1 x.id) die x (fun y => { y with img := img })))
        ∧ (Arrays.levels b = none → exec (.astg die seq) s = .next (Arrays.fail s1 die x.id 0x01 0)))
    ∧ (x.entry = 4 → Arrays.stagingCheck s die x = none →
        let usable := (Arrays.stageDone (s.die die).journal (Arrays.targetOf x.block) (Arrays.stgOf x.block)).isSome
        (usable = true → exec (.acmt die seq) s = .next (Arrays.begin_ s die x id))
        ∧ (usable = false → exec (.acmt die seq) s = .next (Arrays.fail s die x.id 0x01 0)))
    ∧ (∀ e d, Arrays.stagingCheck s die x = some (e, d) →
        (x.entry = 3 → exec (.astg die seq) s = .next (Arrays.fail s die x.id e d))
        ∧ (x.entry = 4 → exec (.acmt die seq) s = .next (Arrays.fail s die x.id e d)))
    ∧ (∀ e d, Arrays.tileCheck (s.die die) x (Arrays.segTiles x) = some (e, d) →
        (x.entry = 0 → exec (.alay die seq) s = .next (Arrays.failStart s die x e d))
        ∧ (x.entry = 1 → exec (.abat die seq) s = .next (Arrays.failStart s die x e d))
        ∧ (x.entry = 5 → exec (.avfy die seq) s = .next (Arrays.failStart s die x e d)))

/-- R306, R322: what the start events of a sequencer do where no lane is free, and where the store lists a micro-word at the entry point of
the next command. Model's choice in it: log 53. -/
def Sys2Proof.Claims.LanesTakeWork : Prop :=
  ∀ s die seq,
    (Arrays.laneFor (s.die die) seq = none → ∀ i ∈ [Instr.alay die seq, .abat die seq, .astg die seq, .acmt die seq, .avfy die seq,
      .aqry die seq], exec i s = .next s)
    ∧ (∀ k y a, Arrays.laneFor (s.die die) seq = some k → Arrays.next s (s.die die) seq = some y →
      Arrays.microStart (s.die die) y = some a →
      ∀ p ∈ [(0, Instr.alay die seq), (1, .abat die seq), (3, .astg die seq), (4, .acmt die seq), (5, .avfy die seq), (7, .aqry die seq)],
        y.entry = p.1 → exec p.2 s = .next (Arrays.begin_ s die { y with lane := k }
          (fun z => { z with micro := some (Arrays.Micro.fresh a) })))

/-- R318 to R320, R332, R339: a pass of a layer stores the partials of its codes, and one of a verify the levels of a row; both
note the activation of their tile. Model's choice in it: log 10. -/
def Sys2Proof.Claims.TilePasses : Prop :=
  ∀ s die id x, Arrays.find? s die id = some x → x.started = true → x.cancel = false → x.err = 0 → x.micro = none →
    let l := Arrays.layerOf x.block
    (∀ v t, Arrays.isLayer x = true → (Arrays.passes l x.xq)[x.pass]? = some (v, t) →
      let n := (x.latched.getD t (0, false, 0)).1
      (Arrays.mayRead (s.die die) n x.vf = true → ∃ u y, exec (.tilePass die id) s = .next u
        ∧ Arrays.find? u die id = some y ∧ y.pass = x.pass + 1 ∧ u.free = s.free + l.cols
        ∧ (∀ j, j < l.cols → l.cols ≤ 1024 → y.parts.get? (Arrays.partKey v t j) = some (
            let lat := x.latched.getD t (0, false, 0)
            let a := Arrays.tile (s.die die) lat.1
            let q (i : Nat) : Int := (x.xq.getD v (0, [], false)).2.1.getD (t * l.rows + i) 0
            let sum := ((List.range l.rows).map (fun i => q i * Arrays.level a (l.row0 + i) (l.col0 + j))).sum
            (Arrays.partialOf (Arrays.code sum a.rsh.toNat (Config.adcDeviation (s.free + j))) (Arrays.bank a lat.2.1) (l.col0 + j)
              (x.xq.getD v (0, [], false)).1 a.sw).1))
        ∧ (Arrays.tile (u.die die) n).lastAct = some s.now ∧ u.mem = s.mem)
      ∧ (Arrays.mayRead (s.die die) n x.vf = false → ∃ u y, exec (.tilePass die id) s = .next u
        ∧ Arrays.find? u die id = some y ∧ y.err = 0x30 ∧ y.detail = t))
    ∧ (x.entry = 5 → x.pass < l.rows → l.cols ≤ 1024 → Arrays.mayRead (s.die die) l.tile0 x.vf = true →
      ∃ u y, exec (.tilePass die id) s = .next u ∧ Arrays.find? u die id = some y ∧ y.pass = x.pass + 1
        ∧ (∀ j, j < l.cols → y.parts.get? (x.pass * 1024 + j)
            = some (BitVec.ofInt 32 (Arrays.level (Arrays.tile (s.die die) l.tile0) (l.row0 + x.pass) (l.col0 + j))))
        ∧ (Arrays.tile (u.die die) l.tile0).lastAct = some s.now)

/-- R306, R307: FLOW gives the next micro-address and ALU the work registers; an illegal micro-word faults its sequencer.
Model's choice in it: log 53. -/
def Sys2Proof.Claims.MicroWordsExecute : Prop :=
  (∀ o c u w, let f := Arrays.Micro.field w
    let pc := (Arrays.Micro.flow o c u w).pc
    (f 8 3 = 0 ∨ f 8 3 = 4 → pc = (u.pc + 1) % 256) ∧ (f 8 3 = 1 → pc = f 0 8)
    ∧ (f 8 3 = 2 → pc = if Arrays.Micro.cond o c u w then f 0 8 else (u.pc + 1) % 256)
    ∧ (f 8 3 = 3 → 1 < u.lc → u.lc < 2 ^ 32 → pc = f 0 8 ∧ (Arrays.Micro.flow o c u w).lc = u.lc - 1)
    ∧ (f 8 3 = 3 → u.lc = 1 → pc = (u.pc + 1) % 256))
  ∧ (∀ u w free, let f := Arrays.Micro.field w
    let a := Arrays.Micro.ws u w
    let b := Arrays.Micro.wt u w
    let v := Arrays.Micro.alu u w free
    let d := Arrays.Micro.reg v (f 20 4)
    (f 16 4 = 0 → v = u) ∧ (f 16 4 = 1 → d = a + b) ∧ (f 16 4 = 2 → d = a - b) ∧ (f 16 4 = 3 → d = a &&& b)
    ∧ (f 16 4 = 4 → d = a ||| b) ∧ (f 16 4 = 5 → b.toNat < 32 → d = a <<< b.toNat)
    ∧ (f 16 4 = 6 → b.toNat < 32 → d = a >>> b.toNat) ∧ (f 16 4 = 7 → d = BitVec.ofNat 32 (f 32 16))
    ∧ (f 16 4 = 8 → v.lc = a.toNat ∧ v.work = u.work)
    ∧ (∀ k, k ≠ f 20 4 → Arrays.Micro.reg v k = Arrays.Micro.reg u k))
  ∧ (∀ s die id x u, Arrays.find? s die id = some x → x.started = true → x.cancel = false → x.err = 0 → x.micro = some u →
    let store := ((s.die die).seqrs.getD x.seq Seqr.reset).store
    exec (.tilePass die id) s = .next (Arrays.Micro.next s die x false)
    ∧ (∀ w, store.get? u.pc = some w → Arrays.illegalMicro w = true →
      Arrays.Micro.next s die x false = Arrays.seqFault s die x.seq)
    ∧ (∀ w tm, store.get? u.pc = some w → Arrays.illegalMicro w = false → x.entry < 8 → s.teams.get? x.team = some tm →
      Arrays.Micro.next s die x false = Arrays.Micro.legal s die x tm u w false))

/-- R98, R318: a code is the sum rounded to RSH bits below it and clamped to ten bits, plus the converter's deviation, clamped
again; with no deviation it is the ideal one. -/
def Sys2Proof.Claims.CodesAreClamped : Prop :=
  ∀ (sum : Int) (rsh : Nat) (dev : Int),
    -512 ≤ Arrays.code sum rsh dev ∧ Arrays.code sum rsh dev ≤ 511
    ∧ (-512 * 2 ^ rsh ≤ sum → sum ≤ 511 * 2 ^ rsh → 2 ^ rsh ∣ sum → Arrays.code sum rsh 0 = sum / 2 ^ rsh)

/-- Tile passes and the codes of inputs. -/
def Obligations.TilePassesAndCodes : Prop := Sys2Proof.Claims.TilePasses ∧ Sys2Proof.Claims.MicroWordsExecute ∧ Sys2Proof.Claims.CodesAreClamped

/-- R333, R335, R337: a stage writes STAGE_BEGIN, its rows, STAGE_DONE; a commit ROW_BEGIN, the row of the tile, ROW_DONE, and
at its end COMMIT, which publishes the identity version and puts the tile in PROBE; a record has its MAGIC and its CRC. Model's choices
in it: logs 47, 49. -/
def Obligations.StagesAndCommits : Prop :=
  ∀ s die id x ok, Arrays.find? s die id = some x → x.started = true → x.micro = none →
    (x.entry = 3 → exec (.rowProgramVerify die id ok) s = .next (Arrays.stageMove s die x))
    ∧ (x.entry = 4 → exec (.rowProgramVerify die id ok) s = .next (Arrays.commitMove s die x ok))
    ∧ (x.phase = 1 → ∀ j, j < 1024 →
        let u := Arrays.stageMove s die x
        (Arrays.staging (u.die die) (Arrays.stgOf x.block)).getD (1024 * x.row + j) 0 = x.img.getD (1024 * x.row + j) 0
          ∧ (u.die die).journal = (s.die die).journal)
    ∧ (x.phase = 1 → x.begun = false → (s.die die).journal.length < 4096 →
        let u := Arrays.commitMove s die x ok
        ∃ r, (u.die die).journal = (s.die die).journal ++ [r] ∧ r.type = 3 ∧ r.tile = Arrays.targetOf x.block ∧ r.row = x.row
          ∧ r.seq = (s.die die).nextSeq % 2 ^ 32 ∧ Arrays.recOk r = true ∧ (Arrays.tile (u.die die) r.tile).state = .commit)
    ∧ (x.phase = 1 → x.begun = true → ok = true → (s.die die).journal.length < 4096 →
        let u := Arrays.commitMove s die x ok
        ∃ r, (u.die die).journal = (s.die die).journal ++ [r] ∧ r.type = 4 ∧ r.row = x.row ∧ Arrays.recOk r = true
          ∧ ∀ j, j < 1024 → Arrays.level (Arrays.tile (u.die die) (Arrays.targetOf x.block)) x.row j
              = (Arrays.staging (s.die die) (Arrays.stgOf x.block)).getD (1024 * x.row + j) 0)
    ∧ (x.phase = 1 → x.begun = true → ok = false → (Arrays.tile ((Arrays.commitMove s die x ok).die die)
        (Arrays.targetOf x.block)).state = .failed)
    ∧ (∀ i r, x.phase = 2 → (s.die die).journal.length < 4096 →
        Arrays.stageDone (s.die die).journal (Arrays.targetOf x.block) (Arrays.stgOf x.block) = some (i, r) →
        let t := Arrays.tile ((Arrays.commitMove s die x ok).die die) (Arrays.targetOf x.block)
        t.state = .probe ∧ t.sw = r.sw ∧ t.rsh = r.rsh ∧ Arrays.bank t t.cur1 = Bank.identity
          ∧ t.ver = (Arrays.tile (s.die die) (Arrays.targetOf x.block)).ver + 1)

/-- R315, R322, R327, R339 to R341: a command that has done all its work ends: a layer with its outputs, a verify with the
levels, a stage or commit with its status, a status block or report written, a cancelled or failed one with free output. -/
def Sys2Proof.Claims.ArrayCommandsComplete : Prop :=
  ∀ s die id x tm, s.teams.get? x.team = some tm → x.id = id →
    let l := Arrays.layerOf x.block
    (Arrays.find? s die id = some x → x.entry ≠ 10 →
      let run := exec (.arrayCompletion die id) s
      (x.cancel = true → run = .next (Arrays.leave (Arrays.undefine s x) die id (Arrays.status x)))
      ∧ (x.cancel = false → x.started = true → x.micro = none →
        (x.entry = 3 ∨ x.entry = 4 → x.phase = 3 → run = .next (Arrays.leave s die id (Arrays.status x)))
        ∧ (x.entry ≠ 3 → x.entry ≠ 4 → x.err ≠ 0 → run = .next (Arrays.leave (Arrays.undefine s x) die id (Arrays.status x)))
        ∧ (x.err = 0 → Arrays.isLayer x = true → x.pass = (Arrays.passes l x.xq).length →
          run = .next (Arrays.endLayer (s.cross (coreDie tm.core) (4 + die)) die x tm))
        ∧ (∀ s1, x.err = 0 → x.entry = 5 → x.pass = l.rows → Arrays.blocked s x.ctx (some id) tm (Arrays.verifyRanges l) = false →
          Arrays.writeRange s x.ctx tm l.ybase ((List.range l.rows).flatMap (fun i => (List.range l.cols).map (fun j =>
            BitVec.ofNat 8 (x.parts.getD (i * 1024 + j) 0).toNat))) = .ok s1 →
          run = .next (Arrays.leave s1 die id (Arrays.status x)))))
    ∧ (∀ st, Arrays.find? (Arrays.leave s die id st) die id = none
        ∧ (∀ y ∈ (Arrays.leave s die id st).holds, y.cmd ≠ id)
        ∧ (∀ g ∈ (Arrays.leave s die id st).groups, ∀ y ∈ g.2.handles, y.2.pend ≠ some id))
    ∧ (∀ k, Next s die 0 k x tm →
        let run := exec (.acorrAstatRun die id) s
        let a := Arrays.tile (s.die die) x.tile
        let may := Arrays.mayRead (s.die die) x.tile x.vf
        (x.entry = 8 ∨ x.entry = 9 → may = false → run = .next (Arrays.failStart s die x 0x30 0))
        ∧ (x.entry = 9 → may = true → run = .next (Arrays.leave (Arrays.startedVf s die x) die id (BitVec.ofNat 32
            (256 * Arrays.stateCode a.state + 2048 * a.ver.toNat))))
        ∧ (x.entry = 8 → may = true → a.state ≠ .ready → a.state ≠ .probe → run = .next (Arrays.failStart s die x 0x31 0))
        ∧ (∀ (s1 : List Byte → State), x.entry = 8 → may = true → a.state = .ready ∨ a.state = .probe → x.argAddr.toNat % 16 = 0 →
          let rs := Arrays.ranges x
          let own := Arrays.linesOf s x.ctx tm rs true
          Arrays.walks s x.ctx tm rs = false → Arrays.rangesError s x.ctx tm rs = 0 → Engine.canHold s own [] = true →
          Arrays.blocked s x.ctx (some id) tm rs = false →
          (∀ b : List Byte, b.length = 8208 → Arrays.writeRange (Engine.hold (Arrays.use (Arrays.startedVf s die x) x.ctx tm rs) id tm.core
            (s.ctxPart x.ctx) own []) x.ctx tm x.argAddr b = .ok (s1 b)) →
          ∃ b, run = .next (Arrays.leave (s1 b) die id 0) ∧ b.length = 8208 ∧ Engine.field b 0 4 = a.ver.toNat
            ∧ ∀ j, j < 1024 → Engine.field b (16 + 4 * j) 4 = (Arrays.gain (Arrays.bank a a.cur1) j).toNat
              ∧ Engine.field b (4112 + 4 * j) 4 = (Arrays.off (Arrays.bank a a.cur1) j).toNat))
    ∧ (∀ seq k (s1 : List Byte → State), Next s die seq k x tm → x.entry = 7 →
        Arrays.blocked s x.ctx (some x.id) tm (Arrays.statusRanges x.block) = false →
        (∀ b : List Byte, b.length = 64 → Arrays.writeRange (Arrays.startedVf s die x) x.ctx tm
          (BitVec.ofNat 64 (Engine.field x.block 0 8)) b = .ok (s1 b)) →
        ∃ b, exec (.aqry die seq) s = .next (Arrays.leave (s1 b) die x.id 0) ∧ b.length = 64
          ∧ Engine.field b 0 1 = (die + 16 * seq) % 256 ∧ Engine.field b 8 8 = s.now % 2 ^ 64)

/-- Array commands start and complete. -/
def Obligations.ArrayCommandsRun : Prop := Sys2Proof.Claims.ArrayCommandsStart ∧ Sys2Proof.Claims.LanesTakeWork ∧ Sys2Proof.Claims.ArrayCommandsComplete

/-- R305, R307, R324 to R331, R334, R338: probes, published versions, checks, replay, staging owners, permissions and the
control block of a sequencer. Model's choices in it: logs 50, 52, 62. -/
def Obligations.ArrayManagement : Prop :=
  (∀ s die n, (s.die die).replayed = true → (Arrays.tile (s.die die) n).state = .probe →
    (s.die die).cmds.any (fun x => x.entry == 10 && x.tile == n) = false →
    ∃ u x, exec (.probeRequest die n) s = .next u ∧ (u.die die).cmds = (s.die die).cmds ++ [x] ∧ x.entry = 10 ∧ x.tile = n
      ∧ x.started = false ∧ u = { s with orng := u.orng, nextId := s.nextId + 1 })
  ∧ (∀ s die seq k x, (s.die die).cmds.find? (fun y => y.entry == 10 && !y.started) = some x →
    Arrays.probeLane s (s.die die) seq = some k →
    ∃ u y, exec (.calibrationProbe die seq) s = .next u ∧ Arrays.find? u die x.id = some y ∧ y.started = true ∧ y.seq = seq ∧ y.lane = k
      ∧ y.entry = 10 ∧ y.tile = x.tile ∧ u = { s with orng := u.orng })
  ∧ (∀ s die id x, Arrays.find? s die id = some x → x.entry = 10 → x.started = true → x.micro = none →
    (x.cancel = false → x.err = 0 →
      ∃ u, exec (.tilePass die id) s = .next u ∧ Arrays.find? u die id = some { x with pass := 1 } ∧ u = { s with orng := u.orng })
    ∧ (x.pass = 1 → ∃ u, exec (.arrayCompletion die id) s = .next u ∧ (∀ y ∈ (u.die die).cmds, y.id ≠ id)
      ∧ ((Arrays.tile (s.die die) x.tile).state = .probe → (Arrays.tile (u.die die) x.tile).state = .ready)
      ∧ (∀ n, n ≠ x.tile → Arrays.tile (u.die die) n = Arrays.tile (s.die die) n) ∧ u = { s with orng := u.orng }))
  ∧ (∀ s die n j g f, let t := Arrays.tile (s.die die) n
    j < 1024 → t.state = .ready → t.lastPub = none →
    (s.die die).cmds.any (fun x => x.started && x.latched.any (fun y => y.1 == n && y.2.1 != t.cur1)) = false →
    ∃ u, exec (.correctionPublish die n [(j, g, f)]) s = .next u ∧ u = { s with orng := u.orng }
      ∧ let t' := Arrays.tile (u.die die) n
        t'.ver = t.ver + 1 ∧ t'.cur1 = !t.cur1 ∧ Arrays.gain (Arrays.bank t' t'.cur1) j = g
          ∧ Arrays.off (Arrays.bank t' t'.cur1) j = f ∧ Arrays.bank t' t.cur1 = Arrays.bank t t.cur1
          ∧ (∀ k, k ≠ j → Arrays.gain (Arrays.bank t' t'.cur1) k = Arrays.gain (Arrays.bank t t.cur1) k))
  ∧ (∀ s die m rest, (s.die die).samples = m :: rest → Telemetry.waits s m.part = false →
    let ps := Arrays.shadowParts (Arrays.shadowBase s die m) m
    (∀ x ∈ ps, ∀ i, i < x.2 / 64 + 2 → Mem.heldBack s (x.1 + min (64 * i) x.2) = false) →
    let s' := ps.foldl (fun s x => Mem.serveRange s x.1 x.2) s
    exec (.arrayCheck die) s = .next
      (Telemetry.write (s'.setDie die { s'.die die with samples := rest }) m.part (Arrays.record s' die m)))
  ∧ (∀ s die, ((s.die die).replayed = true → exec (.journalReplay die) s = .next s)
    ∧ ((s.die die).replayed = false → ((s.die die).journal.filter Arrays.recOk = [] →
        exec (.journalReplay die) s = .next (s.setDie die { s.die die with journal := [], replayed := true }))
      ∧ ∃ u, exec (.journalReplay die) s = .next u ∧ u = { s with orng := u.orng } ∧ (u = s ∨ (u.die die).replayed = true)))
  ∧ (∀ s die stg (v : BitVec 32), stg < 64 → (s.die die).cmds.any (fun x => Arrays.usesStg x stg) = false →
    (v.extractLsb' 2 5).toNat < 24 →
    ∃ u, exec (.stagingOwnerWrite die stg v) s = .next u ∧ u = { s with orng := u.orng }
      ∧ let e := (s.die die).stgOwner.getD stg StgOwner.reset
        let e' := (u.die die).stgOwner.getD stg StgOwner.reset
        e'.valid = v.getLsbD 0 ∧ e'.owner = (v.extractLsb' 2 5).toNat
          ∧ (e'.erase = true ↔ e.erase = true ∨ e'.owner ≠ e.owner ∨ (e.valid = true ∧ e'.valid = false)))
  ∧ (∀ s die stg, ((s.die die).stgOwner.getD stg StgOwner.reset).erase = true → (s.die die).replayed = true →
    ∃ u, exec (.stagingEraseEnd die stg) s = .next u ∧ Arrays.staging (u.die die) stg = []
      ∧ ((u.die die).stgOwner.getD stg StgOwner.reset).erase = false ∧ u = { s with orng := u.orng })
  ∧ (∀ s die row vf (v : BitVec 32), row < 64 → vf < 128 →
    (v.getLsbD 1 = true → (s.vf vf).part = some 0) →
    ∃ u, exec (.permissionEntryWrite die row vf v) s = .next u ∧ u = { s with orng := u.orng }
      ∧ Arrays.perm (u.die die) (128 * row) vf = v &&& 3)
  ∧ (∀ s die row vf (v : BitVec 32), v.getLsbD 1 = true → (s.vf vf).part ≠ some 0 →
    exec (.permissionEntryWrite die row vf v) s = .next s)
  ∧ (∀ s die seq (v : BitVec 32), seq < 16 → ∃ u, exec (.sequencerCtlWrite die seq v) s = .next u ∧ u = { s with orng := u.orng }
      ∧ let q := (s.die die).seqrs.getD seq Seqr.reset
        let q' := (u.die die).seqrs.getD seq Seqr.reset
        q'.stop = v.getLsbD 0 ∧ q'.fault = (q.fault && !v.getLsbD 2))
  ∧ (∀ s die seq (v : BitVec 32), let q := (s.die die).seqrs.getD seq Seqr.reset
    seq < 16 → q.stop = true → Arrays.busyLanes (s.die die) seq = 0 →
    ∃ u, exec (.cwd3Write die seq v) s = .next u ∧ u = { s with orng := u.orng }
      ∧ let q' := (u.die die).seqrs.getD seq Seqr.reset
        q'.caddr = q.caddr + 1
          ∧ q'.store.get? q.caddr.toNat = some (v ++ q.cwd.getD 2 0 ++ q.cwd.getD 1 0 ++ q.cwd.getD 0 0))

/-! ### Tasks, counters and launches (R342 to R351, R370 to R378) -/

/-- The eight words of a task record. -/
def Sys2Proof.Claims.taskWords (s : State) (tid : Nat) (t : Thread) (a : Reg) : List Word :=
  (List.range 8).map (fun i => Operands.val s (tidGid tid) t (Operands.next a i))

/-- A counter number that a record may name: none, or one that is allocated. -/
def Sys2Proof.Claims.known (p : Part) (c : Nat) : Prop := c = 0xFFFF ∨ (p.counters.get? c).isSome = true

/-- R373, R375: a well-formed record joins the pool with its home, runnable at once when it waits for no counter or for one at 0;
a full pool faults, or answers 0; a malformed record is illegal. R374: tdeq takes the head of its own deque, else the nearest
tail, and an empty queue is told by a 1. Both are releases: an undrained thread waits. Model's choice in it: log 41. -/
def Obligations.TaskQueues : Prop :=
  ∀ (h : Hdr) s c tid t, Solo s c h tid t →
    let n := Tasks.partOf s (tidGid tid)
    let p := s.part n
    (Ops.drained s tid = false → ∀ a b tr q k, exec (.tenq h a tr) s = .next (Ops.stall s [tid])
      ∧ exec (.tdeq h b q k) s = .next (Ops.stall s [tid]))
    ∧ (∀ a (tr : Option (BitVec 7)), Ops.drained s tid = true → let r := taskWords s tid t a
      (Tasks.malformed p r = false → known p (Tasks.waitDc r) → known p (Tasks.doneDc r) →
        (p.tasks.length < 16384 → ∃ u t' x, exec (.tenq h a tr) s = .next u
          ∧ (u.part n).tasks = p.tasks ++ [x] ∧ x.words = r.take 7 ++ [BitVec.ofNat 32 (gidCore (tidGid tid))]
          ∧ x.home = gidCore (tidGid tid) ∧ x.ctx = Tasks.ctxOf s (tidGid tid)
          ∧ (x.waits = false ↔ Tasks.waitDc r = 0xFFFF ∨ p.counters.get? (Tasks.waitDc r) = some 0)
          ∧ u.thread? tid = some t' ∧ t'.pc = nextPc t.pc ∧ (∀ j, t'.v j = t.v j)
          ∧ (t.visit = none → ∀ q j, j < 96 → tr = some q → t'.q j = if j = q.toNat ∧ j ≠ 0 then true else t.q j)
          ∧ u.mem = s.mem)
        ∧ (16384 ≤ p.tasks.length →
          (tr = none → ∃ e, exec (.tenq h a none) s = .next (Ops.takeTraps (s.takeFree 2) [(tid, Ops.plain 0x41 e)]))
          ∧ (∀ q, tr = some q → ∃ u t', exec (.tenq h a (some q)) s = .next u ∧ u = { s with threads := u.threads }
              ∧ u.thread? tid = some t' ∧ t'.pc = nextPc t.pc
              ∧ (t.visit = none → ∀ j, j < 96 → t'.q j = if j = q.toNat ∧ j ≠ 0 then false else t.q j))))
      ∧ (Tasks.malformed p r = false → ¬(known p (Tasks.waitDc r) ∧ known p (Tasks.doneDc r)) →
        ∃ e, exec (.tenq h a tr) s = .next (Ops.takeTraps (s.takeFree 2)
          [(tid, .fault { code := 0x40, sub := 2, eaddr := e, syn := 0, gpa := 0 })]))
      ∧ (Tasks.malformed p r = true → exec (.tenq h a tr) s = .next (Ops.takeTraps s [(tid, Ops.illOp t)])))
    ∧ (∀ (b : Fin 384) (q : BitVec 7) (k : BitVec 3), Ops.drained s tid = true → Tasks.launchQueue p k.toNat = false →
      t.visit = none → b.val < 377 →
      (Tasks.pick p k.toNat (gidCore (tidGid tid)) = none → ∃ u t', exec (.tdeq h (.s b) q k) s = .next u
        ∧ u.thread? tid = some t' ∧ t'.pc = nextPc t.pc ∧ (∀ j, j < 96 → t'.q j = if j = q.toNat ∧ j ≠ 0 then true else t.q j)
        ∧ u = { s with threads := u.threads })
      ∧ (∀ i x, Tasks.pick p k.toNat (gidCore (tidGid tid)) = some i → p.tasks[i]? = some x → x.words.length = 8 →
        (s.group? (tidGid tid)).isSome = true →
        ∃ u t', exec (.tdeq h (.s b) q k) s = .next u ∧ (u.part n).tasks = p.tasks.eraseIdx i
          ∧ (∀ j, j < 8 → some (u.s (tidGid tid) (b.val + j)) = x.words[j]?)
          ∧ (∀ j, (j < b.val ∨ b.val + 8 ≤ j) → u.s (tidGid tid) j = s.s (tidGid tid) j)
          ∧ u.thread? tid = some t' ∧ t'.pc = nextPc t.pc
          ∧ (∀ j, j < 96 → t'.q j = if j = q.toNat ∧ j ≠ 0 then false else t.q j)))
    ∧ (∀ a q (k : BitVec 3), Ops.drained s tid = true → Tasks.launchQueue p k.toNat = true →
      exec (.tdeq h a q k) s = .next (Ops.takeTraps s [(tid, Ops.illOp t)]))

/-- R371, R377, R378: a new counter takes the amount and its number is returned; adding and subtracting move it within its
range; reading returns it; freeing releases its waiters. What is out of range, or no counter, raises DC_UNDERFLOW.
Model's choice in it: log 41. -/
def Obligations.DependencyCounters : Prop :=
  ∀ (h : Hdr) s c tid t, Solo s c h tid t → (s.group? (tidGid tid)).isSome = true → Ops.drained s tid = true →
    let gid := tidGid tid
    let n := Tasks.partOf s gid
    let p := s.part n
    let under (i : Instr) (sub : Nat) : Prop := ∃ e, exec i s = .next (Ops.takeTraps (s.takeFree 2)
      [(tid, .fault { code := 0x40, sub := sub, eaddr := e, syn := 0, gpa := 0 })])
    (∀ (d : Fin 384) (a : Src), match Tasks.freeSlot p.counters with
      | some k => ∃ u, exec (.dcnew h (.s d) a) s = .next u ∧ u.s gid d.val = BitVec.ofNat 32 k
          ∧ (u.part n).counters.get? k = some (Operands.src s gid t a) ∧ k < 0xFFFF ∧ p.counters.get? k = none
          ∧ (∀ j, j ≠ k → (u.part n).counters.get? j = p.counters.get? j) ∧ (u.part n).tasks = p.tasks
          ∧ (u.thread? tid).map Thread.pc = some (nextPc t.pc)
      | none => ∃ u, exec (.dcnew h (.s d) a) s = .next u ∧ u.s gid d.val = 0xFFFFFFFF ∧ u.part n = p)
    ∧ (∀ (a : Reg) (m : Src) k v, Tasks.counterOf p (Operands.val s gid t a) = some (k, v) →
      let amt := (Operands.src s gid t m).toNat
      (v.toNat + amt < 2 ^ 32 → ∃ u, exec (.dcadd h a m) s = .next u
        ∧ (u.part n).counters.get? k = some (v + BitVec.ofNat 32 amt) ∧ (u.part n).tasks = p.tasks
        ∧ u.threads = (wentOn s tid).threads ∧ u.mem = s.mem)
      ∧ (2 ^ 32 ≤ v.toNat + amt → under (.dcadd h a m) 1)
      ∧ (amt ≤ v.toNat → ∃ u, exec (.dcdec h a m) s = .next u
        ∧ (u.part n).counters.get? k = some (v - BitVec.ofNat 32 amt)
        ∧ (v.toNat ≠ amt → (u.part n).tasks = p.tasks)
        ∧ (v.toNat = amt → amt ≠ 0 → ∀ x ∈ (u.part n).tasks, x.waits = true → Tasks.waitDc x.words ≠ k)
        ∧ (u.part n).tasks.length = p.tasks.length ∧ u.threads = (wentOn s tid).threads)
      ∧ (v.toNat < amt → under (.dcdec h a m) 0))
    ∧ (∀ (d : Fin 384) (b : Reg) k v, Tasks.counterOf p (Operands.val s gid t b) = some (k, v) →
      ∃ u, exec (.dcrd h (.s d) b) s = .next u ∧ u.s gid d.val = v ∧ u.parts = s.parts
        ∧ (∀ j, j ≠ d.val → u.s gid j = s.s gid j) ∧ u.mem = s.mem ∧ (u.thread? tid).map Thread.pc = some (nextPc t.pc))
    ∧ (∀ (a : Reg) k v, Tasks.counterOf p (Operands.val s gid t a) = some (k, v) →
      ∃ u, exec (.dcfree h a) s = .next u ∧ (u.part n).counters.get? k = none
        ∧ (∀ x ∈ (u.part n).tasks, x.waits = true → Tasks.waitDc x.words ≠ k)
        ∧ (∀ j, j ≠ k → (u.part n).counters.get? j = p.counters.get? j) ∧ u.threads = (wentOn s tid).threads)
    ∧ (∀ (a : Reg) (m : Src) d, Tasks.counterOf p (Operands.val s gid t a) = none →
      under (.dcadd h a m) 2 ∧ under (.dcdec h a m) 2 ∧ under (.dcrd h d a) 2 ∧ under (.dcfree h a) 2)

/-- R346, R351: launch hands its packet to the command processor, under the handle's fresh name where it has one; an address
outside global memory faults, and one that is not aligned to a line. -/
def Sys2Proof.Claims.LaunchHandsOverItsPacket : Prop :=
  ∀ (h : Hdr) s c tid t (a : Reg), Solo s c h tid t → Ops.drained s tid = true →
    let gid := tidGid tid
    let ea := Operands.val64 s gid t a
    (ea.toNat + 64 ≤ 0x800000000000 → ea.toNat % 64 = 0 →
      (∃ u t', exec (.launch h .zero a) s = .next u ∧ u.thread? tid = some t' ∧ t'.pc = nextPc t.pc
        ∧ u.launchReqs.get? s.nextId = some { ctx := Tasks.ctxOf s gid, packet := ea, cmd := none }
        ∧ u.groups = s.groups ∧ u.nextId = s.nextId + 1)
      ∧ (∀ (n : Fin 32) g, s.group? gid = some g → (g.handle n.val).pend = none → (g.handle n.val).readers.contains tid = false →
        ∃ u g' t', exec (.launch h (.h n) a) s = .next u ∧ u.thread? tid = some t' ∧ t'.pc = nextPc t.pc
          ∧ u.group? gid = some g' ∧ (g'.handle n.val).pend = some s.nextId
          ∧ u.launchReqs.get? s.nextId = some { ctx := Tasks.ctxOf s gid, packet := ea, cmd := some s.nextId }))
    ∧ (ea.toNat + 64 ≤ 0x800000000000 → ea.toNat % 64 ≠ 0 → ∀ d,
      exec (.launch h d a) s = .next (Ops.takeTraps s [(tid, Ops.plain 0x12 ea)]))
    ∧ (0x800000000000 < ea.toNat + 64 → ∀ d,
      exec (.launch h d a) s = .next (Ops.takeTraps s [(tid, .fault (Mem.mapFault .rd ea))]))

/-- R346 to R350, R375, R376, R437: the command processor reads a packet and queues its grid, and does nothing while it has to wait for a
line; the next cluster of a grid that is first and fits is placed; a grid with nothing left completes; a core takes the head of its
deque, or steals. Model's choice in it: log 40. -/
def Obligations.LaunchesProceed : Prop :=
  (∀ s req r, s.launchReqs.get? req = some r →
    let out := Launch.packet { s with launchReqs := s.launchReqs.erase req } r.ctx r.packet r.cmd
    (∀ u, out = some u → exec (.launchPacket none req) s = .next u) ∧ (out = none → exec (.launchPacket none req) s = .next s))
  ∧ (∀ s f req n, Launch.ringSize (s.vf f).lqcfg = some n → (s.vf f).lqhead ≠ (s.vf f).lqtail →
    Launch.live s f ((s.vf f).lqcfg.extractLsb' 5 11).toNat = true →
    let out := Launch.packet (s.setVf f { s.vf f with lqhead := (s.vf f).lqhead + 1 }) ((s.vf f).lqcfg.extractLsb' 5 11).toNat
      ((s.vf f).lqbase + BitVec.ofNat 64 (64 * ((s.vf f).lqhead.toNat % 2 ^ n))) none
    (∀ u, out = some u → exec (.launchPacket (some f) req) s = .next u)
      ∧ (out = none → exec (.launchPacket (some f) req) s = .next s))
  ∧ (∀ s ctx ea b s1 g s2, Launch.readNow s ctx ea 64 = some (.ok (b, s1)) → Launch.packetOk b = true →
    Launch.admitLaunch s1 ctx (Launch.ofPacket b) none none = some (.ok (g, s2)) →
    ∃ u, Launch.packet s ctx ea none = some u ∧ u.grids.get? s2.nextId = some g
      ∧ u = { s2 with grids := u.grids, nextId := s2.nextId + 1 })
  ∧ (∀ s key g l, s.grids.get? key = some g → g.next < g.nclus → Launch.placing s g.ctx = true →
    Launch.classWaits s (s.ctxPart g.ctx) g = false → Launch.firstInOrder s (s.ctxPart g.ctx) g.prio key = true →
    Launch.seats s (s.ctxPart g.ctx) g.kernel g.origin = some l →
    ∃ u cl, exec (.clusterPlacement key) s = .next u ∧ u.grids.get? key = some { g with next := g.next + 1 }
      ∧ u.clusters.get? (key * 2 ^ 24 + g.next) = some cl ∧ cl.grid = key ∧ cl.index = g.next ∧ cl.teams.length = l.length
      ∧ u.now = s.now)
  ∧ (∀ s key g, let s' := Life.reap s
    s'.grids.get? key = some g → g.next = g.nclus → (∀ x ∈ s'.clusters, x.2.grid ≠ key) → s'.fabric = [] → s'.orng = [] →
    (∀ x ∈ s'.ctxs, x.2.image = none) →
    (g.donedc = 0xFFFF → exec (.launchCompletion key) s
      = .next ((Launch.finish { s' with grids := s'.grids.erase key } g.ctx g.crec g.cmd 0).getD s'))
    ∧ (∀ p, g.donedc ≠ 0xFFFF → Tasks.dec (s'.part (s'.ctxPart g.ctx)) g.donedc 1 = some p → exec (.launchCompletion key) s
      = .next ((Launch.finish (({ s' with grids := s'.grids.erase key } : State).setPart (s'.ctxPart g.ctx) p) g.ctx g.crec g.cmd 0).getD s'))
    ∧ (g.donedc ≠ 0xFFFF → Tasks.dec (s'.part (s'.ctxPart g.ctx)) g.donedc 1 = none → exec (.launchCompletion key) s
      = .next ((Launch.finish { s' with grids := s'.grids.erase key } g.ctx g.crec g.cmd 5).getD s')))
  ∧ (∀ s ctx cmd st, Launch.finish s ctx 0 (some cmd) st = some (Life.complete s cmd (BitVec.ofNat 32 st)))
  ∧ (∀ s core q i l, let n := Mem.partOfCore s core
    s.partOwns n core = true → Launch.queuesIn (s.part n) (fun h => h == core) = some q →
    Tasks.deque (s.part n) q core true = i :: l → exec (.schedulerTake core) s = .next (Launch.takeRecord s n core i))
  ∧ (∀ s core q i, let n := Mem.partOfCore s core
    s.partOwns n core = true → (s.part n).tasks.any (fun t => t.launches && !t.waits && t.home == core) = false →
    (s.part n).emptyFrom.getD core 0 + 256 ≤ s.now → Launch.queuesIn (s.part n) (fun _ => true) = some q →
    (Tasks.nearest core (Tasks.holders (s.part n) q true)).bind (fun c => (Tasks.deque (s.part n) q c true).getLast?) = some i →
    exec (.schedulerSteal core) s = .next (Launch.takeRecord s n core i))

/-- R236, R349: the 128 threads of a launched group stand ready at the first slot after the header, with empty stacks, no flags and
their return-stack ranges, and the group's first words hold the argument, its index and the number of clusters or teams; words that
another context held last read 0. Model's choice in it: log 44. -/
def Sys2Proof.Claims.LaunchedGroupsStartAtTheirEntry : Prop :=
  ∀ s g team index gid rs s3 u, Launch.startGroup s g team index gid rs s3 = u →
    let k := s.core (gidCore gid)
    (∀ l, l < 128 → ∃ t, u.thread? (tidOf gid l) = some t ∧ t.status = .ready ∧ t.pc = BitVec.ofNat 48 (g.kernel.addr + 64)
      ∧ t.preds = 0 ∧ t.flags = 0 ∧ t.nres = 1 ∧ t.nspill = 0 ∧ t.rstack = [] ∧ t.inH = false ∧ t.visit = none ∧ t.longs = []
      ∧ t.fresh = true ∧ t.rspill = BitVec.ofNat 48 ((rs + g.rsstr * l) % 2 ^ 48)
      ∧ (Launch.vUndef k g.ctx = false → ∀ j, t.v j = 0))
    ∧ (∃ x, u.group? gid = some x ∧ x.team = team ∧ x.index = index ∧ x.sPair 0 = g.arg ∧ x.s 2 = BitVec.ofNat 32 index
      ∧ x.s 3 = BitVec.ofNat 32 s3 ∧ (∀ n, (x.handle n).pend = none) ∧ x.stop = none
      ∧ (Launch.sUndef k g.ctx (gidSlot gid) = false → ∀ n, 4 ≤ n → x.s n = 0))
    ∧ (∀ k, tidGid k ≠ gid → u.thread? k = s.thread? k) ∧ u.mem = s.mem

/-- Launches hand over their packet, and launched groups start at their entry. -/
def Obligations.LaunchesHandOverAndStart : Prop := Sys2Proof.Claims.LaunchHandsOverItsPacket ∧ Sys2Proof.Claims.LaunchedGroupsStartAtTheirEntry

/-- R385 to R387, R392: dln opens a step where none is open, dprog counts work, dend closes it, dslack tells the time left. -/
def Obligations.Deadlines : Prop :=
  ∀ (h : Hdr) s c tid t g tm, Solo s c h tid t → s.group? (tidGid tid) = some g → s.teams.get? g.team = some tm →
    let gid := tidGid tid
    (∀ (ns : Src) b, let n := Operands.src s gid t ns
      (n ≠ 0 → ∃ u, exec (.dln h ns b) s = .next u ∧ u.teams.get? g.team = some { tm with step := some (tm.step.getD {
          deadline := s.now + n.toNat, work := (Operands.val s gid t b).toNat, done := 0, cycles := 0, owner := gid, risk := false }) }
        ∧ u = { wentOn s tid with teams := u.teams })
      ∧ (n = 0 → exec (.dln h ns b) s = .next (Ops.takeTraps s [(tid, Ops.illOp t)])))
    ∧ (∀ (n : Src), ∃ u, exec (.dprog h n) s = .next u ∧ u.teams.get? g.team = some { tm with step := tm.step.map (fun x =>
        { x with done := min (x.done + (Operands.src s gid t n).toNat) (2 ^ 32 - 1) }) } ∧ u = { wentOn s tid with teams := u.teams })
    ∧ (∃ u, exec (.dend h) s = .next u ∧ u.teams.get? g.team = some { tm with step := none }
        ∧ u = { wentOn s tid with teams := u.teams })
    ∧ (∀ d : Fin 384, ∃ u, exec (.dslack h (.s d)) s = .next u ∧ u.s gid d.val = Steps.slack s gid
        ∧ (∀ j, j ≠ d.val → u.s gid j = s.s gid j) ∧ u.teams = s.teams ∧ u.mem = s.mem)
    ∧ (tm.step = none → Steps.slack s gid = 0x7FFFFFFF)
    ∧ (∀ x, tm.step = some x → let left : Int := (x.deadline : Int) - s.now
      let f : Int := coreClock (s.core (gidCore gid)).point
      (Steps.slack s gid).toInt = clamp false 32 (match Steps.remaining x with
        | none => left
        | some r => (left * f - 10 * r) / f))
    ∧ (∀ x : Step, (x.work ≤ x.done → Steps.remaining x = some 0)
      ∧ (x.done = 0 → 0 < x.work → Steps.remaining x = none)
      ∧ (0 < x.done → x.done < x.work → ∃ r, Steps.remaining x = some r ∧ (x.work - x.done) * Steps.clocks x ≤ x.done * r
        ∧ x.done * r < (x.work - x.done) * Steps.clocks x + x.done))

/-! ### The fabric (R444 to R453) -/

/-- The fabric instructions with their header, destination, descriptor register and number of descriptor words. -/
def Sys2Proof.Claims.fabricForm : Instr → Option (Hdr × Reg × Reg × Nat)
  | .coll h d a _ _ => some (h, d, a, 8)
  | .fput h d a | .fget h d a => some (h, d, a, 8)
  | .fsig h d a => some (h, d, a, 4)
  | _ => none

/-- The descriptor words of a fabric command. -/
def Sys2Proof.Claims.fabricDesc (s : State) (tid : Nat) (t : Thread) (a : Reg) (n : Nat) : List Word :=
  (List.range n).map (fun k => Operands.val s (tidGid tid) t (Operands.next a k))

/-- R446, R448, R453: a fabric command that passes its checks joins its VF's queue under a fresh name on which its handle pends;
on a communicator that is not valid or dead its handle completes at once and says so; a failed check faults.
Model's choice in it: log 65. -/
def Sys2Proof.Claims.FabricCommandsAreQueued : Prop :=
  ∀ (h : Hdr) s c tid t (i : Instr) (hr : Fin 32) a n g tm, fabricForm i = some (h, .h hr, a, n) → Solo s c h tid t →
    Ops.drained s tid = true → s.group? (tidGid tid) = some g → s.teams.get? g.team = some tm →
    let l := fabricDesc s tid t a n
    let q := Fabric.reqOf i l
    let m := Fabric.comm s tm.ctx (Fabric.commNo q)
    (∀ f, Fabric.checks s tm q = some f → exec i s = .next (Ops.trapAll s [tid] f))
    ∧ (Fabric.checks s tm q = none → (g.handle hr.val).pend = none → (g.handle hr.val).readers.contains tid = false →
      (m.valid = true → m.dead = false → q.form = 0 ∨ q.form = 3 ∨ q.n ≠ 0 →
        Fabric.queued s (((s.ctxs.get? tm.ctx).map Ctx.vf).getD 0) < 64 →
        Fabric.walks s tm.ctx tm (Fabric.target q m) .wr = false → Fabric.walks s tm.ctx tm (Fabric.source q m) .rd = false →
        Engine.canHold s (Fabric.ownLines s tm.ctx tm (Fabric.target q m) .wr) (Fabric.ownLines s tm.ctx tm (Fabric.source q m) .rd)
          = true →
        ∃ u g' t' x, exec i s = .next u ∧ u.group? (tidGid tid) = some g' ∧ (g'.handle hr.val).pend = some s.nextId
          ∧ u.fabric = s.fabric ++ [x] ∧ x.id = s.nextId ∧ x.instr = i ∧ x.desc = l ∧ x.ctx = tm.ctx ∧ x.cancel = false
          ∧ u.thread? tid = some t' ∧ t'.pc = nextPc t.pc ∧ (∀ j, t'.v j = t.v j) ∧ (∀ j, t'.q j = t.q j))
      ∧ (m.valid = true → m.dead = false → (q.form = 1 ∨ q.form = 2) → q.n = 0 →
        ∃ u g' t', exec i s = .next u ∧ u.group? (tidGid tid) = some g' ∧ (g'.handle hr.val).pend = none
          ∧ (g'.handle hr.val).status = 0 ∧ u.fabric = s.fabric ∧ u.thread? tid = some t' ∧ t'.pc = nextPc t.pc)
      ∧ (m.valid = false ∨ m.dead = true → Fabric.walks s tm.ctx tm (Fabric.target q m) .wr = false →
        Engine.canHold s (Fabric.ownLines s tm.ctx tm (Fabric.target q m) .wr) [] = true → ∃ u g' t', exec i s = .next u ∧ u.group? (tidGid tid) = some g'
          ∧ (g'.handle hr.val).pend = none ∧ (g'.handle hr.val).status = (if m.valid then 0x4000 else 0x14000)
          ∧ u.fabric = s.fabric ∧ u.thread? tid = some t' ∧ t'.pc = nextPc t.pc))

/-- R449, R450: a command completes with what its peers sent: their words, an error, a peer's refusal, or CANCELLED; a signal
waits for the puts before it. A command that has ended is gone, its lines free and its handles complete.
Model's choices in it: logs 67, 68, 73. -/
def Sys2Proof.Claims.FabricCommandsComplete : Prop :=
  ∀ s id x tm (r : FabResult), s.fabric.find? (fun y => y.id == id) = some x → s.teams.get? x.team = some tm →
    let q := Fabric.reqOf x.instr x.desc
    let m := Fabric.comm s x.ctx x.comm
    let s1 := Fabric.countFlits s x.ctx
    Fabric.legal q r = true →
    (Fabric.signalWaits s x q = true → exec (.fabricCompletion id r) s = .next s)
    ∧ (Fabric.signalWaits s x q = false →
      (x.cancel = true → exec (.fabricCompletion id r) s = .next (Fabric.fail s1 x 0x100))
      ∧ (x.cancel = false → r.code = 0 → r.fst = 0 → Fabric.outOfRange q m = true →
        exec (.fabricCompletion id r) s = .next (Fabric.finish s x 0x10000))
      ∧ (x.cancel = false → r.fst = 4 → exec (.fabricCompletion id r) s = .next (Fabric.finish s x 0x10000))
      ∧ (x.cancel = false → r.code ≠ 0 ∨ r.fst ≠ 0 → r.fst ≠ 4 →
        exec (.fabricCompletion id r) s = .next (Fabric.fail s1 x (Fabric.status r.code.toNat false 0 r.fst.toNat)))
      ∧ (x.cancel = false → r.code = 0 → r.fst = 0 → Fabric.outOfRange q m = false → r.data.length = Fabric.needs q m →
        (Fabric.blocked s x.ctx id tm (Fabric.source q m) false = false →
          Fabric.blocked s x.ctx id tm (Fabric.target q m) true = false →
          exec (.fabricCompletion id r) s = .next (Fabric.succeed s1 x tm q m r.data))
        ∧ (Fabric.blocked s x.ctx id tm (Fabric.source q m) false = true ∨ Fabric.blocked s x.ctx id tm (Fabric.target q m) true = true →
          exec (.fabricCompletion id r) s
            = .next (Fabric.ask (Fabric.ask s tm (Fabric.source q m)) tm (Fabric.target q m)))))
    ∧ (∀ st, (Fabric.finish s x st).fabric = s.fabric.filter (fun y => decide (y.id ≠ x.id))
      ∧ (∀ k ∈ (Fabric.finish s x st).holds, k.cmd ≠ x.id))

/-- Fabric commands are queued and complete. -/
def Obligations.FabricCommandsRun : Prop := Sys2Proof.Claims.FabricCommandsAreQueued ∧ Sys2Proof.Claims.FabricCommandsComplete

/-- R450: a collective's results: a broadcast gives every rank the root's words, an all-gather the words of all ranks in order,
an all-to-all the part of each rank for this one, and an integer sum the sum modulo 2^32. -/
def Sys2Proof.Claims.CollectiveResults : Prop :=
  ∀ (q : Fabric.Req) (m : Comm) (mine data : List Word), q.form = 0 →
    (q.kind = 3 → (Fabric.result q m mine data).1 = if m.myrank = Fabric.peer q then mine else data)
    ∧ (∀ r i, q.kind = 1 → r < m.nrank → i < q.n → mine.length = q.n → data.length = q.n * (m.nrank - 1) → m.myrank < m.nrank →
        (Fabric.result q m mine data).1[r * q.n + i]? = if r = m.myrank then mine[i]?
          else data[(if r < m.myrank then r else r - 1) * q.n + i]?)
    ∧ (∀ i, q.kind = 0 → q.op = 0 → i < q.n → m.nrank = 2 → m.myrank = 0 → mine.length = q.n → data.length = q.n →
        (Fabric.result q m mine data).1[i]? = some (mine.getD i 0 + data.getD i 0)
          ∧ (Fabric.result q m mine data).2 = 0)

/-- R444, R446, R447, R449, R453: a peer's put, get or signal inside the window acts on it, and outside it does nothing; an abort
makes the communicator dead; a setup loads a list that names this module and context; unreachable and lost ports.
Model's choices in it: logs 69, 70, 71. -/
def Sys2Proof.Claims.FabricEvents : Prop :=
  (∀ s ctx comm off (b : List Byte), let m := Fabric.comm s ctx comm
    let ea := m.wbase + BitVec.ofNat 64 off
    (∀ u, m.valid = true → m.dead = false → off + b.length ≤ m.wlen.toNat → Fabric.windowWaits s ctx ea b.length true = false →
      Engine.writeGlobal s ctx ea b = .ok u → exec (.fabricRemoteAccess ctx comm off (.put b)) s = .next u)
    ∧ (m.valid = false ∨ m.dead = true ∨ m.wlen.toNat < off + b.length →
      exec (.fabricRemoteAccess ctx comm off (.put b)) s = .next s))
  ∧ (∀ s ctx comm off n b s1, let m := Fabric.comm s ctx comm
    let ea := m.wbase + BitVec.ofNat 64 off
    m.valid = true → m.dead = false → off + n ≤ m.wlen.toNat → Fabric.windowWaits s ctx ea n false = false →
    Engine.readGlobal s ctx ea n = .ok (b, s1) → exec (.fabricRemoteAccess ctx comm off (.get n)) s = .next (Fabric.countFlits s1 ctx))
  ∧ (∀ s ctx comm off (v : Word) b s1 u, let m := Fabric.comm s ctx comm
    let ea := m.wbase + BitVec.ofNat 64 off
    m.valid = true → m.dead = false → off + 4 ≤ m.wlen.toNat → Fabric.windowWaits s ctx ea 4 true = false →
    Engine.readGlobal s ctx ea 4 = .ok (b, s1) → Engine.writeGlobal s1 ctx ea (Mem.toBytes 4 (Mem.ofBytes b + v.toNat)) = .ok u →
    exec (.fabricRemoteAccess ctx comm off (.sig v)) s = .next u)
  ∧ (∀ s ctx comm x, s.ctxs.get? ctx = some x → (Fabric.comm s ctx comm).valid = true →
    s.fabric.filter (fun c => c.ctx == ctx && c.comm == comm) = [] →
    Fabric.windowWaits s ctx (x.commbase + BitVec.ofNat 64 (32 * comm)) 1 true = false →
    ∃ u, exec (.communicatorAbort ctx comm) s = .next u
      ∧ Fabric.comm u ctx comm = { Fabric.comm s ctx comm with dead := true } ∧ u.fabric = s.fabric ∧ u.threads = s.threads)
  ∧ (∀ s ctx comm, (Fabric.comm s ctx comm).valid = false → exec (.communicatorAbort ctx comm) s = .next s)
  ∧ (∀ s ctx comm peer x, (Fabric.comm s ctx comm).list[peer]? = some x →
    (∀ k, k < 18 → (s.route.getD x.1 0).getLsbD k = true → s.portsDown.contains k = true) →
    exec (.fabricUnreachable ctx comm peer) s = .next ((s.fabric.filter (fun c =>
      c.ctx == ctx && c.comm == comm && (c.peer == peer || (Fabric.reqOf c.instr c.desc).form == 0))).foldl
        (fun s c => Fabric.fail s c 0xC000) s))
  ∧ (∀ s ctx comm (e : CommEntry) x, s.ctxs.get? ctx = some x → comm < 256 →
    Fabric.windowWaits s ctx (x.commbase + BitVec.ofNat 64 (32 * comm)) 32 true = false →
    Fabric.windowWaits s ctx e.members (16 * (e.nrankm1.toNat + 1)) false = false →
    (e.valid = false → ∃ u, exec (.communicatorSetup ctx comm e) s = .next u ∧ (Fabric.comm u ctx comm).valid = false
      ∧ (Fabric.comm u ctx comm).wbase = e.wbase ∧ u.threads = s.threads)
    ∧ (∀ l s1, e.valid = true → e.nrankm1 ≠ 0 → e.members.toNat % 16 = 0 →
      Fabric.readList s ctx e.members (e.nrankm1.toNat + 1) = (some l, s1) →
      l[e.myrank.toNat]? = some (Config.moduleNumber.toNat, ctx, e.wlen) →
      ∃ u, exec (.communicatorSetup ctx comm e) s = .next u ∧ Fabric.comm u ctx comm = {
        valid := true, dead := false, myrank := e.myrank.toNat, nrank := e.nrankm1.toNat + 1, wbase := e.wbase, wlen := e.wlen
        list := l })
    ∧ (∀ l s1, e.valid = true → e.nrankm1 ≠ 0 → e.members.toNat % 16 = 0 →
      Fabric.readList s ctx e.members (e.nrankm1.toNat + 1) = (l, s1) →
      (∀ y, l = some y → y[e.myrank.toNat]? ≠ some (Config.moduleNumber.toNat, ctx, e.wlen)) →
      ∃ u, exec (.communicatorSetup ctx comm e) s = .next u ∧ (Fabric.comm u ctx comm).valid = false))
  ∧ (∀ s port, port < 18 → exec (.fevasPortDown port) s = .next { s with portsDown := s.portsDown.add port })

/-- Collective results and fabric events. -/
def Obligations.CollectivesAndFabricEvents : Prop := Sys2Proof.Claims.CollectiveResults ∧ Sys2Proof.Claims.FabricEvents

/-! ### System instructions (R427 to R432, R443) -/

/-- The context of a thread has the SYS attribute. -/
def Sys2Proof.Claims.HasSys (s : State) (tid : Nat) : Prop := ((s.ctxs.get? (s.ctxOf tid)).map Ctx.sys) = some true

/-- R427, R428, R443: with SYS, sysrd reads a word of the system address space, syswr writes one that a context may write;
elsewhere they raise PERM. Without SYS they raise ILL_OP. Model's choice in it: log 60. -/
def Obligations.SystemRegisterAccess : Prop :=
  ∀ (h : Hdr) s c tid t (ad : BitVec 32), Solo s c h tid t →
    (HasSys s tid → Ops.drained s tid = true →
      (∀ (d : Fin 384) w, System.read s ad.toNat = some w → (s.group? (tidGid tid)).isSome = true →
        ∃ u, exec (.sysrd h (.s d) ad) s = .next u ∧ u.s (tidGid tid) d.val = w
          ∧ (∀ j, j ≠ d.val → u.s (tidGid tid) j = s.s (tidGid tid) j) ∧ u.mem = s.mem ∧ u.gov = s.gov
          ∧ (u.thread? tid).map Thread.pc = some (nextPc t.pc))
      ∧ (∀ d, System.read s ad.toNat = none → exec (.sysrd h d ad) s
        = .next (Ops.takeTraps s [(tid, .fault (Mem.mapFault .rd (ad.setWidth 64)))]))
      ∧ (∀ (a : Reg) x, (System.read s ad.toNat).isSome = true →
        System.write s ad.toNat (Operands.val s (tidGid tid) t a) = some x →
        exec (.syswr h a ad) s = .next (wentOn (Ops.acquireCore x (gidCore (tidGid tid))) tid))
      ∧ (∀ (a : Reg), System.read s ad.toNat = none →
        exec (.syswr h a ad) s = .next (Ops.takeTraps s [(tid, .fault (Mem.mapFault .wr (ad.setWidth 64)))]))
      ∧ (∀ (a : Reg), (System.read s ad.toNat).isSome = true →
        System.write s ad.toNat (Operands.val s (tidGid tid) t a) = none → exec (.syswr h a ad) s
          = .next (Ops.takeTraps s [(tid, .fault (Mem.xfault 0x11 0 0 2 .wr (ad.setWidth 64) 0))])))
    ∧ (¬HasSys s tid → (∀ d, exec (.sysrd h d ad) s = .next (Ops.takeTraps s [(tid, Ops.plain 0x01 0xF1)]))
      ∧ (∀ a, exec (.syswr h a ad) s = .next (Ops.takeTraps s [(tid, Ops.plain 0x01 0xF2)]))
      ∧ (∀ a, exec (.tlbiOth h a) s = .next (Ops.takeTraps s [(tid, Ops.plain 0x01 0xF3)]))
      ∧ (∀ a, exec (.tlbiPart h a) s = .next (Ops.takeTraps s [(tid, Ops.plain 0x01 0xF3)]))
      ∧ exec (.tlbiAll h) s = .next (Ops.takeTraps s [(tid, Ops.plain 0x01 0xF3)])
      ∧ exec (.halt h) s = .next (Ops.takeTraps s [(tid, Ops.plain 0x01 0xF5)])
      ∧ (∀ a n, exec (.chkset h a n) s = .next (Ops.takeTraps s [(tid, Ops.plain 0x01 0xF6)])))

/-- R110, R111, R429: after a tlbi no cached translation of what it names is left, and every other one is. R431, R432: halt ends
the context of the cohort; chkset sets a partition's sampling interval and restarts its counters.
Model's choice in it: log 77. -/
def Sys2Proof.Claims.TranslationInvalidationAndControl : Prop :=
  ∀ (h : Hdr) s c tid t, Solo s c h tid t → Ops.drained s tid = true →
    let gid := tidGid tid
    let ctx := s.ctxOf tid
    let Keeps (i : Instr) (p : TlbEntry → Bool) (q : Walk → Bool) : Prop := ∃ u, exec i s = .next u
      ∧ (∀ k, u.core k = { s.core k with tlb := (s.core k).tlb.filter (fun e => !p e) })
      ∧ (∀ d, u.dieTlb.getD d [] = (s.dieTlb.getD d []).filter (fun e => !p e))
      ∧ u.walks = s.walks.filter (fun w => !q w) ∧ u.walkers = []
      ∧ u = { wentOn s tid with cores := u.cores, dieTlb := u.dieTlb, walks := u.walks, walkers := u.walkers }
    (∀ a, let va := (Operands.val64 s gid t a).toNat
      Keeps (.tlbiVa h a) (fun e => e.ctx == ctx && decide (e.base ≤ va) && decide (va < e.base + e.size))
        (fun w => w.ctx == ctx && w.page / 2 ^ 30 == va / 2 ^ 30))
    ∧ Keeps (.tlbiCtx h) (fun e => e.ctx == ctx) (fun w => w.ctx == ctx)
    ∧ (HasSys s tid → (∀ a, let x := (Operands.val s gid t a).toNat
        Keeps (.tlbiOth h a) (fun e => e.ctx == x) (fun w => w.ctx == x))
      ∧ (∀ a, let p := (Operands.val s gid t a).toNat
        Keeps (.tlbiPart h a) (fun e => ((s.ctxs.get? e.ctx).map Ctx.part) == some p)
          (fun w => ((s.ctxs.get? w.ctx).map Ctx.part) == some p))
      ∧ Keeps (.tlbiAll h) (fun _ => true) (fun _ => true)
      ∧ exec (.halt h) s = .next (wentOn (Stops.endSoon s ctx) tid)
      ∧ (∀ (a : Reg) (n : Src), let p := (Operands.val s gid t a).toNat
        let v := (Operands.src s gid t n).toNat
        (p < 24 → (v = 0 ∨ ∃ k, k < 21 ∧ v = 2 ^ k) → ∃ u, exec (.chkset h a n) s = .next u ∧ (u.part p).interval = v
          ∧ (∀ k x, s.partOwns p k = true → u.cores.get? k = some x → x.matCount = 0) ∧ u.mem = s.mem
          ∧ u.threads = (wentOn s tid).threads)
        ∧ (24 ≤ p ∨ (v ≠ 0 ∧ ∀ k, k < 21 → v ≠ 2 ^ k) → exec (.chkset h a n) s = .next (Ops.takeTraps s [(tid, Ops.illOp t)]))))

/-- R430: cmaint writes a line's registered words and dirty bytes to memory; with `i` no L1 and no slice holds it afterwards;
`ic` drops the line from every core's fetch copies. A thread that is not drained waits, a failed check faults.
Model's choice in it: log 81. -/
def Sys2Proof.Claims.CacheMaintenance : Prop :=
  ∀ (h : Hdr) s c tid t (ad : Addr), Solo s c h tid t →
    let ea := Operands.addr s (tidGid tid) t ad
    (∀ l, Ops.drained s tid = true → System.lineWalks s tid t ea .rd = false → System.checkLine s tid t ea .rd = .ok l →
      System.lineBusy s l.phys = false → l.phys.stale = false → l.phys.unc = false →
      let s1 := Mem.translated s (Mem.coreOf tid t) (s.ctxOf tid) l.phys
      let line := l.phys.pa / 64
      exec (.cmaintWb h ad) s = .next (wentOn (System.writeLine s1 (s1.ctxPart (s1.ctxOf tid)) line) tid)
      ∧ ∃ u, exec (.cmaintWbi h ad) s = .next u ∧ (∀ k, ∀ w ∈ (u.core k).l1, w.1 / 16 ≠ line)
        ∧ u.llc.get? line = none ∧ (u.thread? tid).map Thread.pc = some (nextPc t.pc))
    ∧ (∀ l, Ops.drained s tid = true → System.lineWalks s tid t ea .fetch = false → System.checkLine s tid t ea .fetch = .ok l →
      l.phys.stale = false →
      let s1 := Mem.translated s (Mem.coreOf tid t) (s.ctxOf tid) l.phys
      ∃ u, exec (.cmaintIc h ad) s = .next u ∧ (∀ k, (u.core k).ifetch.get? (l.phys.pa / 64) = none)
        ∧ (∀ k n, n ≠ l.phys.pa / 64 → (u.core k).ifetch.get? n = (s1.core k).ifetch.get? n)
        ∧ u = { wentOn s1 tid with cores := u.cores })
    ∧ (∀ e, Ops.drained s tid = true → System.lineWalks s tid t ea .rd = false → System.checkLine s tid t ea .rd = .error e →
      exec (.cmaintWb h ad) s = .next (Mem.takeFaults s [(tid, .fault e)])
        ∧ exec (.cmaintWbi h ad) s = .next (Mem.takeFaults s [(tid, .fault e)]))
    ∧ (∀ e, Ops.drained s tid = true → System.lineWalks s tid t ea .fetch = false → System.checkLine s tid t ea .fetch = .error e →
      exec (.cmaintIc h ad) s = .next (Mem.takeFaults s [(tid, .fault e)]))
    ∧ (Ops.drained s tid = false → exec (.cmaintWb h ad) s = .next (Ops.stall s [tid])
      ∧ exec (.cmaintWbi h ad) s = .next (Ops.stall s [tid]) ∧ exec (.cmaintIc h ad) s = .next (Ops.stall s [tid]))

/-- Translation invalidation and control, and cache maintenance. -/
def Obligations.SystemInstructions : Prop := Sys2Proof.Claims.TranslationInvalidationAndControl ∧ Sys2Proof.Claims.CacheMaintenance

/-! ### Events of the caches, the homes and the hub (R128 to R150) -/

/-- The LLC holds a line, whole. -/
def Sys2Proof.Claims.Held (s : State) (line : Nat) : Prop := ∃ l, s.llc.get? line = some l ∧ l.bytes.length = 64

/-- No core owns a word of a line. -/
def Sys2Proof.Claims.unowned (s : State) (line : Nat) : Prop := ∀ w, w / 16 = line → s.owner.get? w = none

/-- An empty way of a set of a slice, of the way set of a partition. -/
def Sys2Proof.Claims.FreeWay (s : State) (part slice set way : Nat) : Prop :=
  (Mem.ways s slice part).find? (fun w => (Mem.lineIn s slice set w).isNone && (Mem.partialIn s slice set w).isNone) = some way

/-- R132, R133: a registration makes its core the owner, and its acknowledgement moves the word from P to O; a read at the home
answers the value the home holds, the owner's if a core owns the word; poison found there is the fault of the lane.
Model's choice in it: log 34. -/
def Sys2Proof.Claims.RegistrationsAndReads : Prop :=
  (∀ s id r, s.regs.get? id = some r → r.acked = false → Mem.engineHolds s (r.word / 16) = false →
    Mem.exclHeld s r.core (r.word / 16) = false →
    ∃ u r', exec (.registration id) s = .next u ∧ u.owner.get? r.word = some r.core ∧ u.regs.get? id = some r'
      ∧ r'.acked = true ∧ r' = { r with val := r'.val, acked := true } ∧ (r.mask = 0xF → r'.val = r.val))
  ∧ (∀ s id r x, s.regs.get? id = some r → r.acked = true → Mem.l1? s r.core r.word = some x → x.st = .P → x.reg = id →
    ∃ u y, exec (.registrationAck id) s = .next u ∧ Mem.l1? u r.core r.word = some y ∧ y.st = .O ∧ y.val = r.val
      ∧ u.regs.get? id = none ∧ u.owner = s.owner ∧ u.mem = s.mem)
  ∧ (∀ s tid op part t o p, s.thread? tid = some t → Coherence.long? s tid op = some o → o.parts[part]? = some p →
    p.val = none → o.acq = false → Mem.servable s (Mem.coreOf tid t) p.word = true → Mem.mustWait s (4 * p.word) = false →
    (Mem.linePoisoned s (p.word / 16) = false →
      let v := (Mem.readHome s (Mem.coreOf tid t) (s.ctxPart (s.ctxOf tid)) p.word).1
      (∃ u o', exec (.homeRead tid op part) s = .next u ∧ Coherence.long? u tid op = some o'
        ∧ o'.parts[part]? = some { p with val := some v })
      ∧ (Held s (p.word / 16) → s.reduce.get? (p.word / 16) = none →
        (s.owner.get? p.word = none → v = Mem.homeWord s p.word)
        ∧ (∀ c x, s.owner.get? p.word = some c → Mem.l1? s c p.word = some x → x.st ≠ .P → v = x.val)))
    ∧ (Mem.linePoisoned s (p.word / 16) = true → Coherence.earlierUnread s tid o part = false →
      exec (.homeRead tid op part) s = .next (Coherence.poisonFound s tid t o (Coherence.elemOf o part) p.ea)))

/-- R134, R130, R131: a recall takes the owner's value home and leaves an S copy; an evicted L1 line leaves no copy; an evicted
LLC line leaves its dirty bytes in memory and the slice; a directory eviction leaves no owner off the home die. None of them takes a
line from a core that holds it exclusively (R150). -/
def Sys2Proof.Claims.RecallsAndEvictions : Prop :=
  (∀ s w c x, s.owner.get? w = some c → Coherence.mayTake s (w / 16) = true → Mem.l1? s c w = some x → x.st ≠ .P →
    Held s (w / 16) →
    ∃ u, exec (.wordRecall w) s = .next u ∧ Mem.homeWord u w = x.val ∧ Mem.l1? u c w = some { x with st := .S }
      ∧ u.owner.get? w = none ∧ u.mem = s.mem)
  ∧ (∀ s core line, Mem.l1Free s core line = true →
    ((∀ w, w / 16 = line → s.owner.get? w ≠ some core ∧ ∀ x, Mem.l1? s core w = some x → x.st = .S) →
      ∃ u, exec (.l1Eviction core line) s = .next u ∧ (∀ w, w / 16 = line → Mem.l1? u core w = none)
        ∧ (∀ w, w / 16 ≠ line → Mem.l1? u core w = Mem.l1? s core w) ∧ u.owner = s.owner ∧ u.llc = s.llc ∧ u.mem = s.mem)
    ∧ (∀ w x, w / 16 = line → Mem.l1? s core w = some x → x.st = .O → s.owner.get? w = some core → Held s line →
      (∀ w', w' / 16 = line → w' ≠ w → Mem.l1? s core w' = none) →
      ∃ u, exec (.l1Eviction core line) s = .next u ∧ Mem.homeWord u w = x.val ∧ Mem.l1? u core w = none))
  ∧ (∀ s line l, s.llc.get? line = some l → l.bytes.length = 64 → (∀ i ∈ l.dirty, i < 64) → Mem.engineOwns s line = false →
    Coherence.mayTake s line = true → unowned s line → s.reduce.get? line = none → Mem.regionOk s l.part (64 * line) = true →
    Mem.isView (64 * line) = false → s.garbled = [] →
    ∃ u, exec (.llcEviction line) s = .next u ∧ u.llc.get? line = none
      ∧ (∀ a, Memory.byte u.mem a = if a / 64 = line ∧ a % 64 ∈ l.dirty then l.bytes.getD (a % 64) 0 else Memory.byte s.mem a))
  ∧ (∀ s line, Mem.engineOwns s line = false → Coherence.mayTake s line = true →
    ∃ u, exec (.directoryEviction line) s = .next u
      ∧ (∀ w c, w / 16 = line → u.owner.get? w = some c → coreDie c = Mem.homeDie (64 * line) ∧ s.owner.get? w = some c)
      ∧ (∀ w c, s.owner.get? w = some c → (w / 16 ≠ line ∨ coreDie c = Mem.homeDie (64 * line)) → u.owner.get? w = some c))
  ∧ (∀ s line, Coherence.mayTake s line = false → exec (.llcEviction line) s = .next s ∧ exec (.directoryEviction line) s = .next s
    ∧ ∀ w, w / 16 = line → exec (.wordRecall w) s = .next s)

/-- R129, R142, R143: a `red` that reaches its slice becomes or joins the slice's partial, which stands in a way of its partition; an
evicted partial is combined into the value of the home. -/
def Sys2Proof.Claims.ReduceState : Prop :=
  (∀ s id r, s.reds.get? id = some r → Mem.engineHolds s (r.word / 16) = false →
    Mem.exclHeld s Config.cores (r.word / 16) = false → Mem.mustWait s (64 * (r.word / 16)) = false → Held s (r.word / 16) →
    s.owner.get? r.word = none → (r.op = 1 → s.owner.get? (r.word + 1) = none) →
    (∀ way, s.reduce.get? (r.word / 16) = none → FreeWay s r.part r.core (Mem.llcSet (r.word / 16)) way →
      ∃ u, exec (.reducePartialUpdate id) s = .next u ∧ u.reds.get? id = none
        ∧ u.reduce.get? (r.word / 16)
          = some { op := r.op, partials := [(r.core, r.word % 16, r.val)], entries := [(r.core, r.part, way)] }
        ∧ u.mem = s.mem ∧ u.llc = s.llc)
    ∧ (∀ y es, es.any (fun e => e.1 == r.core) = true →
      s.reduce.get? (r.word / 16) = some { op := r.op, partials := [(r.core, r.word % 16, y)], entries := es } →
      ∃ u, exec (.reducePartialUpdate id) s = .next u ∧ u.reds.get? id = none
        ∧ u.reduce.get? (r.word / 16)
          = some { op := r.op, partials := [(r.core, r.word % 16, Mem.combine r.op y r.val)], entries := es }
        ∧ u.mem = s.mem ∧ u.llc = s.llc))
  ∧ (∀ s line slice w x es, Mem.engineHolds s line = false → Held s line → w < 16 →
    s.reduce.get? line = some { op := 0, partials := [(slice, w, x)], entries := es } →
    ∃ u, exec (.partialEviction line slice) s = .next u ∧ u.reduce.get? line = none
      ∧ Mem.homeWord u (16 * line + w) = Mem.homeWord s (16 * line + w) + x.setWidth 32)

/-- R150, R50: a lone request is granted its line, every word of it owned by the requester, which holds it for 64 core cycles; a
request that backed off asks again when its time is over; a request whose line is held executes, its word taking the atomic's result;
a known result waits for its shadow, else it is written. Model's choice in it: log 31. -/
def Sys2Proof.Claims.ExclusiveLines : Prop :=
  (∀ s line id e, s.excl = [(id, e)] → e.line = line → e.st = .queued → Mem.engineHolds s line = false →
    Mem.exclHeld s e.core line = false → Mem.mustWait s (64 * line) = false → Mem.l1Room s e.core line = true →
    ∃ u, exec (.exclusiveRequest line) s = .next u ∧ u.excl.get? id = some { e with st := .held }
      ∧ (∃ till, u.exclTill.get? line = some (e.core, till) ∧ 640 ≤ (till - s.now) * coreClock (u.core e.core).point)
      ∧ (∀ w, w / 16 = line → u.owner.get? w = some e.core ∧ ∃ x, Mem.l1? u e.core w = some x ∧ x.st = .O))
  ∧ (∀ s id e till, s.excl.get? id = some e → e.st = .backoff till → till ≤ s.now →
    ∃ u, exec (.atomBackoffExpiry id) s = .next u ∧ u.excl.get? id = some { e with st := .queued, asked := s.nextId }
      ∧ u = { s with excl := u.excl, nextId := s.nextId + 1 })
  ∧ (∀ s tid op e, s.excl = [(op, e)] → e.tid = tid → e.st = .held → Coherence.atomPoison s e.inst = none →
    ∃ u, exec (.resultArrival tid op) s = .next u ∧ u.excl = []
      ∧ (∀ y v, e.w64 = false → s.owner.get? (e.addr / 4) = some e.core → Mem.l1? s e.core (e.addr / 4) = some y → y.st = .O →
        (Access.atomOp e.op.toNat false (y.val.setWidth 64) e.src e.cmp).1 = some v →
        (Mem.l1? u e.core (e.addr / 4)).map L1Word.val = some (v.extractLsb' 0 32)))
  ∧ (∀ s tid op o, s.excl.get? op = none → Coherence.long? s tid op = some o → o.vals ≠ none → Ops.unread s o.inst = false →
    (o.left ≠ 0 → ∃ u, exec (.resultArrival tid op) s = .next u ∧ Coherence.long? u tid op = some { o with arrived := true }
      ∧ u = { s with threads := u.threads })
    ∧ (o.left = 0 → exec (.resultArrival tid op) s = .next (Ops.landLong s tid { o with arrived := true })))

/-- R128 to R150: the events of the caches, the homes and the hub. -/
def Obligations.CacheAndHomeEvents : Prop := RegistrationsAndReads ∧ RecallsAndEvictions ∧ ReduceState ∧ ExclusiveLines

/-! ### Events of translation, memory and regions (R27, R106 to R126) -/

/-- R27, R28: a fetched line stands in the core. R110: a miss starts one walk for its page, which the misses of other cores join; a
walk that ends well installs a translation with the permissions of both stages in the TLBs of its cores and of their dies, one that
fails installs none; 64 walks at most are in flight. R115, R122: a burst fills a line from memory into a way of its partition, poisons
it when its error is not corrected, or writes a held line back. Model's choices in it: logs 8, 14, 43. -/
def Obligations.FetchesWalksAndBursts : Prop :=
  (∀ s core ctx va, (∀ b t, Issue.fetch s core ctx none (BitVec.ofNat 48 va) 0 = .line b t →
      exec (.instructionFetch core ctx va) s = .next t
        ∧ ∃ line bs, (t.core core).ifetch.get? line = some bs ∧ Mem.ofBytes bs = b)
    ∧ ((∀ b t, Issue.fetch s core ctx none (BitVec.ofNat 48 va) 0 ≠ .line b t) → exec (.instructionFetch core ctx va) s = .next s))
  ∧ (∀ s core ctx va, (s.ctxs.get? ctx).isSome = true →
    let mine (w : Walk) : Bool := w.ctx == ctx && w.page == va / 4096 * 4096
    (s.walks.any mine = false → s.walks.length < 64 → ∃ u, exec (.tlbMissWalk ctx ⟨core, va⟩) s = .next u
      ∧ u.walks = s.walks ++ [{ ctx := ctx, page := va / 4096 * 4096, cores := [core] }]
      ∧ u = { s with walks := u.walks, hubEvcnt := u.hubEvcnt })
    ∧ (s.walks.any mine = true → exec (.tlbMissWalk ctx ⟨core, va⟩) s = .next { s with
        walks := s.walks.map (fun w => if mine w then { w with cores := w.cores.add core } else w) })
    ∧ (s.walks.any mine = false → 64 ≤ s.walks.length → exec (.tlbMissWalk ctx ⟨core, va⟩) s = .next s))
  ∧ (∀ s ctx va w, s.walks.find? (fun w => w.ctx == ctx && w.page == va / 4096 * 4096) = some w →
    (Mem.walkTables s ctx w.page).any (fun x => Mem.heldBack s x.2) = false →
    (∀ l1 l2, Mem.walk s ctx w.page .owner 0 = .ok (l1, l2) →
      Mem.finalCheck s (s.ctxPart ctx) l2.pa 2 l2.lev .owner 0 0 = none →
      ∃ u e, exec (.walkCompletion ctx va) s = .next u ∧ u.walks = s.walks.erase w ∧ e.ctx = ctx ∧ e.size = min l1.size l2.size
        ∧ e.rd = (l1.rd && l2.rd) ∧ e.wr = (l1.wr && l2.wr) ∧ e.ex = (l1.ex && l2.ex)
        ∧ (∀ c ∈ w.cores, c < Config.cores → e ∈ (u.core c).tlb ∧ e ∈ u.dieTlb.getD (coreDie c) [])
        ∧ (0 < l1.size → 0 < l2.size → w.page % e.size ≤ l2.pa →
          e.base ≤ w.page ∧ w.page < e.base + e.size ∧ e.pa + (w.page - e.base) = l2.pa))
    ∧ (∀ x, Mem.walk s ctx w.page .owner 0 = .error x →
      ∃ u, exec (.walkCompletion ctx va) s = .next u ∧ u.walks = s.walks.erase w ∧ u.dieTlb = s.dieTlb
        ∧ (∀ c, (u.core c).tlb = (s.core c).tlb)))
  ∧ (∀ s part pa ecc, Mem.isDram pa = true →
    (∀ way, s.llc.get? (pa / 64) = none → Mem.regionOk s part pa = true → Mem.mustWait s pa = false →
      FreeWay s part (Mem.homeSlice (64 * (pa / 64))) (Mem.llcSet (pa / 64)) way →
      ∃ u, exec (.memoryControllerAccess part pa false ecc) s = .next u
        ∧ u.llc.get? (pa / 64)
          = some { bytes := Mem.dramBytes s (64 * (pa / 64)) 64, dirty := [], part := part, way := way, cured := [] }
        ∧ (ecc = 2 → u.poison.contains (pa / 64) = true)
        ∧ (ecc ≠ 2 → u.poison.contains (pa / 64) = Mem.linePoisoned s (pa / 64)) ∧ u.mem = s.mem)
    ∧ (∀ l, s.llc.get? (pa / 64) = some l → Mem.regionOk s l.part (64 * (pa / 64)) = true →
      ∃ u, exec (.memoryControllerAccess part pa true ecc) s = .next u ∧ u.llc.get? (pa / 64) = some { l with dirty := [] }
        ∧ u = { s with llc := u.llc, mem := u.mem, poison := u.poison, poison8 := u.poison8, regrown := u.regrown }))

/-- R124, R125: a view line is expanded from its window and narrowed into it; a write of EN = 1 enables a window that keeps the rules
and clears ERR, and sets ERR of another (R123); a disabled one is busy till its view has been flushed. R116: a new owner, or a set of
VALID, scrubs the region, which then reads zeros without poison and holds back every access until the fill has reached its unit; the
fill takes 1.8 ms. Model's choices in it: logs 97, 104. -/
def Obligations.WindowsAndRegions : Prop :=
  (∀ s line k w, Mem.fmtwOf s (64 * line) = some (k, w) → Mem.isView (64 * line) = true →
    (∀ way, w.busy = false → s.llc.get? line = none → FreeWay s w.part (Mem.homeSlice (64 * line)) (Mem.llcSet line) way →
      ∃ u, exec (.formatViewFill line) s = .next u
        ∧ u.llc.get? line = some { bytes := Mem.memLine s line, dirty := [], part := w.part, way := way, cured := [] }
        ∧ u.mem = s.mem)
    ∧ (∀ l a, s.llc.get? line = some l → l.dirty ≠ [] → Mem.regionOk s l.part (64 * line) = true →
      Mem.backing s (64 * line) = some a → s.poison.contains line = false → s.garbled = [] →
      ∃ u, exec (.formatViewWriteback line) s = .next u ∧ u.llc.get? line = some { l with dirty := [] }
        ∧ u.mem = Memory.writeAll s.mem a (Mem.toBytes (8 * w.m.toNat) (Mem.packView w.m.toNat l.bytes).1)))
  ∧ (∀ s n, n < 64 → let x := s.fmtw.getD n Fmtw.reset
    let y : Fmtw := if Regions.mayEnable s n x then { x with en := true, err := false } else { x with err := true }
    (x.en = false → exec (.fmtwEnable n) s = .next { s with fmtw := s.fmtw.set n y } ∧ exec (.fmtwDisable n) s = .next s)
    ∧ (x.en = true → exec (.fmtwEnable n) s = .next s
      ∧ exec (.fmtwDisable n) s = .next { s with fmtw := s.fmtw.set n { x with busy := true } })
    ∧ (x.busy = true → Regions.busyWhere s (Regions.inView x) = false → ∃ u, exec (.fmtwFlushEnd n) s = .next u
      ∧ (u.fmtw.getD n Fmtw.reset).en = false ∧ (u.fmtw.getD n Fmtw.reset).busy = false))
  ∧ (∀ s g (v : BitVec 32), g < 768 →
    let old := s.regions.getD g Region.reset
    let o := (v.extractLsb' 8 5).toNat
    let owner := if o < 24 then o else old.owner
    (owner ≠ old.owner ∨ (v.getLsbD 0 = true ∧ old.valid = false) → ∃ u, exec (.regionEntryWrite g v) s = .next u
      ∧ u.regions.getD g Region.reset = { valid := v.getLsbD 0, scrub := some s.now, owner := owner }
      ∧ (∀ a, a / 2 ^ 30 = g → Mem.dramByte u a = 0 ∧ Mem.unfilled u a = true)
      ∧ (∀ l, l / 2 ^ 24 = g → u.poison.contains l = false))
    ∧ (owner = old.owner → (v.getLsbD 0 = false ∨ old.valid = true) →
      exec (.regionEntryWrite g v) s = .next { s with regions := s.regions.set g { old with valid := v.getLsbD 0 } }))
  ∧ (∀ s g from_, (s.regions.getD g Region.reset).scrub = some from_ → exec (.regionScrubEnd g) s = .next
      (if from_ + 1800000 ≤ s.now then { s with regions := s.regions.set g { s.regions.getD g Region.reset with scrub := none } }
       else s))

/-! ### Events of the sectors and of threads (R352 to R356, R364, R406) -/

/-- R353, R363: regrouping makes the yielded threads of its sector ready, and bundles of at most 128, every 16 cycles. R354, R355: a
cycle issues at most four cohorts, ages every ready cohort that did not issue, and sets the others to 0; an aged cohort is served
first. R382: a cycle in which the sector issued is counted. R364: a sleep ends when its time comes. R390, R406: a pending DEADLINE is
taken at a boundary, and not in a handler, away, or within a shadow. R183: a `stake` that was refused is sent again when its 128 cycles
are over. Model's choice in it: log 18. -/
def Obligations.SchedulingEvents : Prop :=
  (∀ s core sec,
    ((s.sector core sec).bundles = [] ∨ 16 ≤ (s.sector core sec).since → ∃ u, exec (.regrouping core sec) s = .next u
      ∧ (∀ b ∈ (u.sector core sec).bundles, b.length ≤ 128) ∧ (u.sector core sec).since = 0
      ∧ (s.threads.rising = true → ∀ tid t, s.thread? tid = some t → u.thread? tid = some
          (if t.status = .yielded ∧ Mem.coreOf tid t = core ∧ Issue.sectorOf tid t = sec then { t with status := .ready } else t))
      ∧ u.mem = s.mem)
    ∧ ((s.sector core sec).bundles ≠ [] → (s.sector core sec).since < 16 → exec (.regrouping core sec) s = .next s))
  ∧ (∀ s core sec, let x := s.sector core sec
    (x.since < 16 → ∃ u, exec (.sectorIssueCycle core sec) s = .next u
      ∧ (u.sector core sec).cycles = x.cycles + 1 ∧ (u.sector core sec).since = x.since + 1
      ∧ (u.sector core sec).issued = x.issued + (if x.served = [] then 0 else 1)
      ∧ (u.sector core sec).offers.length ≤ 4 ∧ (u.sector core sec).served = []
      ∧ ((s.core core).capHold = false → (s.core core).rampHold = false → Sched.halvedNow (s.core core) x = false →
        ∀ b pc, (b, pc) ∈ Sched.cohorts s core sec x.bundles → Sched.age (u.sector core sec) b pc
          = if x.served.contains (b, pc) then 0 else Sched.age x b pc + 1)
      ∧ u = { s with cores := u.cores })
    ∧ (16 ≤ x.since → exec (.sectorIssueCycle core sec) s = .next s))
  ∧ (∀ s core sec a, a ∈ (s.sector core sec).ages → 64 ≤ a.2.2 → (∀ b ∈ (s.sector core sec).ages, b ≠ a → b.2.2 < a.2.2) →
    ∃ u, exec (.cohortAged core sec) s = .next u ∧ (u.sector core sec).rr = a.1 ∧ u = { s with cores := u.cores })
  ∧ (∀ s tid t till, s.thread? tid = some t → t.status = .sleeping till → ∃ u, exec (.sleepExpiry tid) s = .next u
    ∧ u.thread? tid = some (if till ≤ s.now then { t with status := .ready } else t)
    ∧ (∀ k, k ≠ tid → u.thread? k = s.thread? k) ∧ u = { s with threads := u.threads })
  ∧ (∀ s tid t tm hd ea, s.thread? tid = some t → s.teamOf? tid = some tm → t.deadline = some ea →
    (t.visit = none → t.inH = false → (t.status = .ready ∨ t.status = .yielded ∨ ∃ till, t.status = .sleeping till) →
      (∀ o ∈ t.longs, o.left = 0) → Issue.unsure s tid t = false → Issue.running s tid = true →
      Ops.handlerPc tm.2.kernel 1 = some hd →
      ∃ u, exec (.asyncTrapDelivery tid) s = .next u
        ∧ Entered (s.setThread tid { t with deadline := none }) tid { t with deadline := none } 1 hd t.pc 0 ea u)
    ∧ (t.away = true ∨ t.inH = true ∨ (∃ o ∈ t.longs, 0 < o.left) → exec (.asyncTrapDelivery tid) s = .next s))
  ∧ (∀ s gid, s.threads.rising = true → ∃ u l, exec (.stakeRetry gid) s = .next u
    ∧ u = { s with threads := u.threads, agenda := l ++ s.agenda }
    ∧ (∀ tid t till, s.thread? tid = some t → tidGid tid = gid → t.status = .resend till → till ≤ s.now →
      u.thread? tid = some { t with status := .parked [] }
        ∧ ∃ x ∈ l, ∃ tids, x.what = .issue (Mem.coreOf tid t) tids ∧ tid ∈ tids)
    ∧ (∀ tid t, s.thread? tid = some t → (tidGid tid ≠ gid ∨ ∀ till, t.status = .resend till → s.now < till) →
      u.thread? tid = some t))

/-! ### Events of the governor and of the current controls (R381 to R398, R237) -/

/-- R388, R394: an evaluation is a microsecond after the last one; it applies the pending message, clamped, and marks a step that no
point meets as at risk, with a DEADLINE pending in its owner group (R390). A message newer than the last one applied waits for it,
another is ignored; an expired lease gives the fallback. R389: a rising rail settles, a held one starts its fall.
Model's choice in it: log 36. -/
def Sys2Proof.Claims.Governor : Prop :=
  (∀ s, s.now < s.gov.lastEval + 1000 → exec .evaluation s = .next s)
  ∧ (∀ s, s.gov.lastEval + 1000 ≤ s.now → ∃ u, exec .evaluation s = .next u ∧ u.gov.lastEval = s.now ∧ u.gov.pending = []
    ∧ (s.gov.pending = [] → u.gov = { s.gov with
        lastEval := s.now, power := u.gov.power, filler := u.gov.filler, floorFill := u.gov.floorFill, falls := u.gov.falls })
    ∧ (∀ seq cap lease, s.gov.pending = [(seq, cap, lease)] → u.gov.lastseq = seq
      ∧ (lease ≠ 0 → u.gov.capseq = seq ∧ u.gov.cap.toNat = max 400 (min cap.toNat 1500)
        ∧ u.gov.leaseEnd = some (s.now + lease.toNat * 1000000))
      ∧ (lease = 0 → u.gov.capseq = 0 ∧ u.gov.cap = s.gov.fallback ∧ u.gov.leaseEnd = none))
    ∧ (∀ n tm x, s.teams.rising = true → s.teams.get? n = some tm → tm.step = some x → x.risk = false → Power.need s x = 12 →
      (u.teams.get? n).bind Team.step = some { x with risk := true }
        ∧ ∀ tid t, s.thread? tid = some t → tidGid tid = x.owner → t.status ≠ .retired →
          ∃ t', u.thread? tid = some t' ∧ t'.deadline.isSome = true ∧ t'.pc = t.pc)
    ∧ u.mem = s.mem ∧ u.groups = s.groups ∧ u.now = s.now)
  ∧ (∀ s r since, let x := Power.rail s r
    x.phase = .rising since → since + (x.target - x.level + 49) / 50 + 1000 ≤ s.now →
    ∃ u, exec (.railSettled r) s = .next u ∧ Power.rail u r = { x with level := x.target, phase := .steady }
      ∧ u = { s with rails := u.rails, cores := u.cores })
  ∧ (∀ s r till, let x := Power.rail s r
    x.phase = .holding till →
    (till ≤ s.now → ∃ u, exec (.railHoldExpiry r) s = .next u ∧ Power.rail u r = { x with phase := .falling till }
      ∧ u = { s with rails := u.rails })
    ∧ (s.now < till → exec (.railHoldExpiry r) s = .next s))
  ∧ (∀ s seq cap lease,
    (Power.newer seq s.gov.lastseq = true → exec (.capMessage seq cap lease) s
      = .next { s with gov := { s.gov with pending := s.gov.pending ++ [(seq, cap, lease)] } })
    ∧ (Power.newer seq s.gov.lastseq = false → exec (.capMessage seq cap lease) s = .next s))
  ∧ (∀ s, (∀ t, s.gov.leaseEnd = some t →
      (t ≤ s.now → exec .leaseExpiry s
        = .next { s with gov := { s.gov with cap := s.gov.fallback, capseq := 0, leaseEnd := none } })
      ∧ (s.now < t → exec .leaseExpiry s = .next s))
    ∧ (s.gov.leaseEnd = none → exec .leaseExpiry s = .next s))

/-- R395: a low bank holds the cores of its rail, a recharged one frees them. R398: a droop alarm stretches six cycles of the cores of
its rail, then halved issue follows for 64 cycles, then full issue; an alarm in a stretch changes nothing but the counter, one later
begins a stretch. -/
def Sys2Proof.Claims.CurrentControls : Prop :=
  (∀ s r, ∃ u, exec (.capacitorHold r) s = .next u ∧ u = { s with cores := u.cores }
    ∧ (∀ c, c < 192 → coreRail c = r → (u.core c).capHold = true) ∧ (∀ c, coreRail c ≠ r → u.core c = s.core c))
  ∧ (∀ s r, ∃ u, exec (.capacitorRecharged r) s = .next u ∧ u = { s with cores := u.cores }
    ∧ (∀ c, coreRail c = r → (u.core c).capHold = false) ∧ (∀ c, coreRail c ≠ r → u.core c = s.core c))
  ∧ (∀ s r mv, s.gov.drth ≠ 0 → 1000 * (mv + s.gov.drth.toNat) < (Power.rail s r).target →
    ∃ u, exec (.droopAlarm r mv) s = .next u ∧ u = { s with cores := u.cores }
      ∧ (∀ c, c < 192 → coreRail c = r → (∀ t, (s.core c).droop ≠ .stretch t) → (u.core c).droop = .stretch s.now)
      ∧ (∀ c t, c < 192 → coreRail c = r → (s.core c).droop = .stretch t → (u.core c).droop = .stretch t)
      ∧ (∀ c, coreRail c ≠ r → u.core c = s.core c))
  ∧ (∀ s r mv, (s.gov.drth = 0 ∨ (Power.rail s r).target ≤ 1000 * (mv + s.gov.drth.toNat)) →
    exec (.droopAlarm r mv) s = .next s)
  ∧ (∀ s core t, (s.core core).droop = .stretch t →
    (120 ≤ (s.now - t) * coreClock (s.core core).point →
      exec (.droopStretchEnd core) s = .next (s.setCore core { s.core core with droop := .halved s.now }))
    ∧ ((s.now - t) * coreClock (s.core core).point < 120 → exec (.droopStretchEnd core) s = .next s))
  ∧ (∀ s core t, (s.core core).droop = .halved t →
    (640 ≤ (s.now - t) * coreClock (s.core core).point →
      exec (.droopHalvingEnd core) s = .next (s.setCore core { s.core core with droop := .none }))
    ∧ ((s.now - t) * coreClock (s.core core).point < 640 → exec (.droopHalvingEnd core) s = .next s))

/-- R397, R131: a slice gates the ways of a partition beyond those it keeps, never its first two, after what stands in them has left,
and enables one again when misses grow. R383, R237: an idle, drained core enters retention with an empty L1; it wakes on an event, in
2 µs; then the words that fail the sweep are poisoned, also those that no thread or group holds.
Model's choices in it: logs 35, 105. -/
def Sys2Proof.Claims.GatingAndRetention : Prop :=
  (∀ s slice p est, let ways := (List.range 16).filter (fun w => (s.part p).waymask.getLsbD w)
    let keep := max 2 ((125 * est + 204799) / 204800)
    ∃ u, exec (.wayGatingWindow slice p est) s = .next u
      ∧ (∀ w ∈ ways.drop keep, (∀ l ∈ s.llc, l.2.way = w → Mem.homeSlice (64 * l.1) = slice → Mem.locked s l.1 = false) →
        (slice, w) ∈ u.gated
          ∧ ((slice, w) ∉ s.gated → ∀ l ∈ u.llc, ¬(l.2.way = w ∧ Mem.homeSlice (64 * l.1) = slice)))
      ∧ (∀ w ∈ ways.take keep, (slice, w) ∈ u.gated → (slice, w) ∈ s.gated)
      ∧ (∀ g ∈ s.gated, g ∈ u.gated))
  ∧ (∀ s slice p misses accesses g,
    s.gated.find? (fun g => g.1 == slice && (s.part p).waymask.getLsbD g.2) = some g →
    (s.wgth.getD slice 50 * accesses < 1000 * misses → exec (.wayReenable ⟨slice, p⟩ misses accesses) s
      = .next { s with gated := s.gated.filter (fun x => x != g) })
    ∧ (1000 * misses ≤ s.wgth.getD slice 50 * accesses → exec (.wayReenable ⟨slice, p⟩ misses accesses) s = .next s))
  ∧ (∀ s core, (s.core core).ret = .awake → Power.idle s core = true → Power.draining s core = false →
    ∃ u, exec (.retentionEntry core) s = .next u ∧ (u.core core).ret = .retained ∧ (u.core core).l1 = []
      ∧ (u.core core).point = 0 ∧ (u.core core).want = 0)
  ∧ (∀ s core, (s.core core).ret = .retained → Power.wakes s core = true →
    ∃ u, exec (.coreWake core) s = .next u ∧ u.core core = { s.core core with ret := .waking (s.now + 2000) }
      ∧ u = { s with cores := u.cores })
  ∧ (∀ s core till, (s.core core).ret = .waking till →
    (till ≤ s.now → ∃ u, exec (.coreWake core) s = .next u ∧ u.core core = { s.core core with ret := .unswept, asked := false }
      ∧ u = { s with cores := u.cores })
    ∧ (s.now < till → exec (.coreWake core) s = .next s))
  ∧ (∀ s core fails sfails hfails qfails rfails spad tiles, (s.core core).ret = .unswept →
    ∃ u, exec (.paritySweep core fails sfails hfails qfails rfails spad tiles) s = .next u
      ∧ u.core core = { s.core core with
          ret := .awake, spoison := (u.core core).spoison, tilePoison := (u.core core).tilePoison
          spareV := (u.core core).spareV, spareS := (u.core core).spareS }
      ∧ (∀ w ∈ spad, w < 131072 → w ∈ (u.core core).spoison) ∧ (∀ n ∈ tiles, n < 16 → n ∈ (u.core core).tilePoison)
      ∧ (∀ tid k, gidCore (tidGid tid) = core → (tid, k) ∈ fails →
        (∀ t, s.thread? tid = some t → ∃ t', u.thread? tid = some t' ∧ k ∈ t'.vpoison ∧ t'.vregs = t.vregs ∧ t'.pc = t.pc)
        ∧ (s.thread? tid = none → (tid, k) ∈ (u.core core).spareV))
      ∧ (∀ gid g k, s.group? gid = some g → gidCore gid = core →
        ((gid, k) ∈ sfails → k < 384 → ∃ g', u.group? gid = some g' ∧ k ∈ g'.spoison ∧ g'.sregs = g.sregs)
        ∧ ((gid, k) ∈ hfails → k < 64 → ∃ g', u.group? gid = some g' ∧ k ∈ g'.hpoison ∧ g'.handles = g.handles))
      ∧ (∀ tid, gidCore (tidGid tid) ≠ core → u.thread? tid = s.thread? tid) ∧ u.mem = s.mem)

/-- R381 to R398, R237: the events of the governor and of the current controls. -/
def Obligations.PowerEvents : Prop := Governor ∧ CurrentControls ∧ GatingAndRetention

/-! ### Stops, pre-emption and the end of a context (R414 to R425, R439, R17) -/

/-- R414, R421: once a stopping group is quiet its record stands in the save area of its core, the host is told, and the stop is made.
R415, R422: RESUME puts the lanes of the record at EPC when the register words are free, and waits otherwise; a save area that changed ends
the context. Model's choices in it: logs 39, 55, 58. -/
def Sys2Proof.Claims.StopsAndResume : Prop :=
  (∀ s gid x g ctx, s.group? gid = some g → g.stop = some x → x.made = false → Stops.ctxOf s gid = some ctx →
    (∀ tid t, s.thread? tid = some t → tidGid tid = gid → t.visit = none) → Stops.quiet s (Life.threadsOf s gid) = true →
    let a := Stops.saveArea s ctx (gidCore gid)
    Stops.areaWaits s a = false →
    let s1 := Stops.writeArea s ctx (gidCore gid) (Stops.recordOf s ctx gid x)
    let g1 : Group := { g with stop := some { x with made := true }, obuf := [] }
    Mem.bytes s1.mem a 64 = Stops.recordOf s ctx gid x
    ∧ ∃ u, exec (.hostServicedStop gid) s = .next u ∧ u.group? gid = some g1
      ∧ u = Events.ofCtx (s1.modGroup gid (fun _ => g1)) ctx 1 (gidCore gid) (gidSlot gid) a 0)
  ∧ (∀ s gid x g, s.group? gid = some g → g.stop = some x → x.made = true → exec (.hostServicedStop gid) s = .next s)
  ∧ (∀ s vf ctx core slot g x c, (s.vf vf).part.isSome = true → s.ctxs.get? ctx = some c → c.vf = vf → c.phase = .running →
    c.ending = false → s.group? (gidOf core slot) = some g → g.stop = some x → x.made = true →
    Stops.ctxOf s (gidOf core slot) = some ctx →
    let gid := gidOf core slot
    let a := Stops.saveArea s ctx core
    let s1 := Stops.openArea s a
    let epc := Stops.epcOf s1 ctx gid x
    (Stops.wordsFree s gid = true → Stops.areaWaits s a = false →
      (Stops.intact s1 ctx core = true → exec (.resume vf ctx core slot) s = .next (Stops.resumeGroup s1 ctx gid x)
        ∧ (pcAligned (epc.setWidth 48) = true → ∃ u, exec (.resume vf ctx core slot) s = .next u
          ∧ u.group? gid = some { g with stop := none }
          ∧ (∀ l t, l ∈ x.lanes → l < 128 → s.thread? (tidOf gid l) = some t →
            ∃ t', u.thread? (tidOf gid l) = some t' ∧ t'.pc = epc.setWidth 48 ∧ t'.status = .ready
              ∧ t'.vregs = t.vregs ∧ t'.preds = t.preds)
          ∧ (∀ k, tidGid k ≠ gid → (∀ l ∈ x.lanes, k ≠ tidOf gid l) → u.thread? k = s.thread? k) ∧ u.mem = s1.mem))
      ∧ (Stops.intact s1 ctx core = false → exec (.resume vf ctx core slot) s = .next (Stops.loseSave s1 ctx)))
    ∧ (Stops.wordsFree s gid = false ∨ Stops.areaWaits s a = true → ∃ u, exec (.resume vf ctx core slot) s = .next u
      ∧ u.group? gid = some { g with stop := some { x with resumeAsked := true } } ∧ u = { s with groups := u.groups }))

/-- R439, R417, R418, R422: PREEMPT stops a running context; its image closes when everything has finished, and RESTORE puts it
back where it was when the place is free, or keeps it queued; a lost save ends it. A command on a context of another VF sets
BADCMD. Model's choices in it: logs 57, 58. -/
def Sys2Proof.Claims.PreemptionAndRestore : Prop :=
  (∀ s vf ctx c, (s.vf vf).part.isSome = true → s.ctxs.get? ctx = some c →
    (c.vf = vf → (∃ u, exec (.kill vf ctx) s = .next u ∧ u.ctxs.get? ctx = some { c with ending := true }
        ∧ u = { s with ctxs := u.ctxs })
      ∧ (c.phase = .running → c.ending = false → ∃ u, exec (.preempt vf ctx) s = .next u
        ∧ u.ctxs.get? ctx = some { c with phase := .stopping } ∧ u = { s with ctxs := u.ctxs }))
    ∧ (c.vf ≠ vf → exec (.kill vf ctx) s = .next (s.setVf vf { s.vf vf with err := (s.vf vf).err ||| 2 })
      ∧ exec (.preempt vf ctx) s = .next (s.setVf vf { s.vf vf with err := (s.vf vf).err ||| 2 })
      ∧ exec (.restore vf ctx) s = .next (s.setVf vf { s.vf vf with err := (s.vf vf).err ||| 2 })))
  ∧ (∀ s ctx c, s.ctxs.get? ctx = some c → c.phase = .stopping → c.ending = false →
    (∀ tid t, s.thread? tid = some t → t.visit = none) → (∀ k ∈ s.cores, k.2.copyq = [] ∧ k.2.matq = []) → s.orng = [] →
    (Stops.mayClose s ctx = true → (∀ k, Stops.areaWaits s (Stops.saveArea s ctx k) = false) →
      ∃ u c' i, exec (.saveImageClose ctx) s = .next u ∧ u.ctxs.get? ctx = some c'
        ∧ c'.phase = .saved ∧ c'.image = some i ∧ (∀ t ∈ u.teams, t.2.ctx ≠ ctx)
        ∧ (∀ n t, s.teams.get? n = some t → t.ctx = ctx → i.teams.get? n = some t)
        ∧ (∀ k g, s.group? k = some g → (s.teams.get? g.team).map Team.ctx = some ctx → i.groups.get? k = some g ∧ u.group? k = none
          ∧ ∀ tid t, tidGid tid = k → s.thread? tid = some t → i.threads.get? tid = some t ∧ u.thread? tid = none))
    ∧ (Stops.mayClose s ctx = false → exec (.saveImageClose ctx) s = .next s))
  ∧ (∀ s vf ctx c i, (s.vf vf).part.isSome = true → s.ctxs.get? ctx = some c → c.vf = vf → c.ending = false →
    (c.phase = .saved ∨ c.phase = .queued) → c.image = some i → (∀ k ∈ i.cores, k.2.copyq = [] ∧ k.2.matq = []) →
    (∀ k ∈ s.cores, (∀ x ∈ k.2.copyq, x.ctx ≠ ctx) ∧ (∀ x ∈ k.2.matq, x.ctx ≠ ctx)) →
    let s' := s.modCtx ctx (fun c => { c with phase := .queued })
    let ks := NSet.addAll [] (i.teams.map (fun t => t.2.core))
    let s1 := ks.foldl (fun s k => Stops.openArea s (Stops.saveArea s ctx k)) s'
    (Stops.placeFree s' c.part i = true → (∀ x ∈ i.cores, Stops.queuesFit x.2 (s.core x.1) = true) →
      (∀ k ∈ ks, Stops.areaWaits s' (Stops.saveArea s' ctx k) = false) →
      ((∀ k ∈ ks, Stops.intact s1 ctx k = true) → ∃ u c', exec (.restore vf ctx) s = .next u ∧ u.ctxs.get? ctx = some c'
        ∧ c'.phase = .running ∧ c'.image = none
        ∧ (∀ k g, i.groups.rising = true → i.groups.get? k = some g → u.group? k = some g)
        ∧ (∀ k t, i.teams.rising = true → i.teams.get? k = some t → u.teams.get? k = some t) ∧ u.mem = s1.mem)
      ∧ ((∃ k ∈ ks, Stops.intact s1 ctx k = false) → exec (.restore vf ctx) s = .next (Stops.loseSave s1 ctx)))
    ∧ (Stops.placeFree s' c.part i = false → exec (.restore vf ctx) s = .next s'))
  ∧ (∀ s ctx c, s.ctxs.get? ctx = some c → c.ending = false → c.phase ≠ .running →
    ∃ u c', exec (.saveLost ctx) s = .next u ∧ u.ctxs.get? ctx = some c' ∧ c'.ending = true)

/-- R425: a context that ends leaves no team, group of a team, translation or launch behind, and its number is free. R17, R424: a
join that fails carries nothing; 100 µs later its dies are lost, and the contexts that touched them stop or end.
Model's choices in it: logs 32, 59. -/
def Sys2Proof.Claims.EndsAndLosses : Prop :=
  (∀ s ctx c, s.ctxs.get? ctx = some c →
    (c.ending = true →
      (∀ s1, Stops.killLaunches (Stops.cancelAll s ctx) ctx = some s1 → ∃ u, exec (.contextEnd ctx) s = .next u
        ∧ u.ctxs.get? ctx = none ∧ (∀ t ∈ u.teams, t.2.ctx ≠ ctx) ∧ (∀ k, ∀ e ∈ (u.core k).tlb, e.ctx ≠ ctx)
        ∧ (∀ d, ∀ e ∈ u.dieTlb.getD d [], e.ctx ≠ ctx) ∧ (∀ w ∈ u.walks, w.ctx ≠ ctx)
        ∧ (∀ g ∈ u.grids, g.2.ctx ≠ ctx) ∧ (∀ r ∈ u.launchReqs, r.2.ctx ≠ ctx))
      ∧ (Stops.killLaunches (Stops.cancelAll s ctx) ctx = none → exec (.contextEnd ctx) s = .next s)
      ∧ ((∀ k ∈ s.cores, k.2.copyq = [] ∧ k.2.matq = []) → s.orng = [] → s.fabric = [] → s.grids = [] → s.launchReqs = [] →
        ∃ u, exec (.contextEnd ctx) s = .next u ∧ u.ctxs.get? ctx = none ∧ (∀ t ∈ u.teams, t.2.ctx ≠ ctx)
          ∧ (∀ n, n ≠ ctx → u.ctxs.get? n = s.ctxs.get? n)
          ∧ (∀ k g, s.group? k = some g → (s.teams.get? g.team).map Team.ctx = some ctx → u.group? k = none)))
    ∧ (c.ending = false → exec (.contextEnd ctx) s = .next s))
  ∧ (∀ s join, join < 20 → exec (.linkFailure join) s = .next { s with linkDown := s.linkDown.set join s.now })
  ∧ (∀ s join t, s.linkDown.get? join = some t → s.now < t + 100000 → exec (.dieLoss join) s = .next s)
  ∧ (∀ s join t, s.linkDown.get? join = some t → t + 100000 ≤ s.now → (∃ b ∈ Stops.lostSet join, s.lost.contains b = false) →
    let new := (Stops.lostSet join).filter (fun b => !s.lost.contains b)
    ((∀ c ∈ s.ctxs, ∀ b ∈ Stops.lostSet join, c.2.touched.getLsbD b = false) →
      ∃ u, exec (.dieLoss join) s = .next u ∧ u = { s with lost := u.lost }
        ∧ (∀ b, b ∈ u.lost ↔ b ∈ s.lost ∨ b ∈ Stops.lostSet join))
    ∧ (∀ ctx c b, s.ctxs = [(ctx, c)] → s.orng = [] → s.fabric = [] → (∀ k ∈ s.cores, k.2.copyq = [] ∧ k.2.matq = []) →
      b ∈ new → c.touched.getLsbD b = true → ∃ u c', exec (.dieLoss join) s = .next u ∧ b ∈ u.lost ∧ u.ctxs.get? ctx = some c'
        ∧ (Stops.fatal s ctx c new = true → c'.ending = true)
        ∧ (Stops.fatal s ctx c new = false → ∀ gid g, s.group? gid = some g → (s.teams.get? g.team).map Team.ctx = some ctx →
          g.stop = none → u.group? gid = some { g with stop := some Stops.lossStop })))

/-- R414 to R425, R439, R17: stops, pre-emption and restore, the end of a context, and the loss of a die. -/
def Obligations.StopsAndContexts : Prop := StopsAndResume ∧ PreemptionAndRestore ∧ EndsAndLosses

/-! ### The host, the management processor and the root of trust (R435 to R442, R454, R456, R467) -/

/-- R437: the doorbell takes a tail that the ring holds and sets BADTAIL for another, BADCTX for a ring without a live context. R438:
the host's writes to the event ring. Model's choice in it: log 91. -/
def Sys2Proof.Claims.Doorbells : Prop :=
  ∀ s vf, vf < 128 → (s.vf vf).part.isSome = true →
    let x := s.vf vf
    (∀ v, (v - x.lqhead).toNat ≤ 2 ^ (x.lqcfg.toNat % 32) →
      exec (.lqtailWrite vf v) s = .next (s.setVf vf { x with
        lqtail := v, err := if Launch.live s vf (x.lqcfg.toNat / 32 % 2048) then x.err else x.err ||| 4 }))
    ∧ (∀ v, 2 ^ (x.lqcfg.toNat % 32) < (v - x.lqhead).toNat →
      exec (.lqtailWrite vf v) s = .next (s.setVf vf { x with err := x.err ||| 1 }))
    ∧ (∀ v, exec (.lqcfgWrite vf v) s = .next (s.setVf vf { x with lqcfg := v &&& 0xFFFF }))
    ∧ (x.held = [] → (∀ v, exec (.eqheadWrite vf v) s = .next (s.setVf vf { x with eqhead := v }))
      ∧ (∀ v, exec (.eqcfgWrite vf true v) s = .next (s.setVf vf { x with eqbase := v }))
      ∧ (∀ v, exec (.eqcfgWrite vf false v) s
        = .next (s.setVf vf { x with eqcfg := v.extractLsb' 0 32 &&& 0x1F })))

/-- R440 to R442, R118, R185: a context is created in its VF's partition, with SYS only in partition 0; a partition's key is generated
and erased; its descriptor is written; a free core moves to a partition with its buffers zeroed.
Model's choices in it: logs 74, 75, 78. -/
def Sys2Proof.Claims.Partitioning : Prop :=
  (∀ s vf (d : CtxDesc) p n, vf < 128 → s.trust.powered = true → s.trust.recovery = false → (s.vf vf).part = some p →
    Boot.freeCtx s = some n →
    ((d.sys = false ∨ p = 0) → ∃ u c, exec (.contextCreate vf d) s = .next u ∧ s.ctxs.get? n = none ∧ u.ctxs.get? n = some c
      ∧ c.part = p ∧ c.vf = vf ∧ c.s1root = d.s1root &&& 0x000FFFFFFFFFF001 ∧ c.savebase = d.savebase ∧ c.debug = d.debug ∧ c.sys = d.sys
      ∧ c.commbase = d.commbase ∧ c.touched = 0 ∧ c.areas = [] ∧ c.image = none ∧ c.phase = .running ∧ c.ending = false ∧ u = { s with ctxs := u.ctxs })
    ∧ (d.sys = true → p ≠ 0 → exec (.contextCreate vf d) s = .next s))
  ∧ (∀ s p, p < 24 → s.trust.powered = true → s.trust.recovery = false → (s.part p).key = none →
    ∃ u, exec (.partitionCreate p) s = .next u ∧ (u.part p).key.isSome = true ∧ (u.part p).peacc = 0
      ∧ (u.part p).cores = (s.part p).cores
      ∧ (∀ g x a, s.regions.get? g = some x → x.owner = p → a / 2 ^ 30 = g → (Mem.garbledAs u a).isSome = true))
  ∧ (∀ s p, p < 24 → (∀ c ∈ s.ctxs, c.2.part ≠ p) → ∃ u, exec (.partitionDestroy p) s = .next u ∧ (u.part p).key = none
    ∧ ((s.part p).key ≠ none → ∀ g x a, s.regions.get? g = some x → x.owner = p → a / 2 ^ 30 = g →
      (Mem.garbledAs u a).isSome = true))
  ∧ (∀ s p, p < 24 →
    (∀ v, exec (.partitionDescriptorWrite p (.s2root v)) s
      = .next (s.setPart p { s.part p with s2root := v &&& 0x000FFFFFFFFFF001 }))
    ∧ (∀ v, exec (.partitionDescriptorWrite p (.tqcfg v)) s = .next (s.setPart p { s.part p with tqcfg := v }))
    ∧ (∀ v, exec (.partitionDescriptorWrite p (.trbase v)) s = .next (s.setPart p { s.part p with trbase := v }))
    ∧ (∀ v, exec (.partitionDescriptorWrite p (.dctbase v)) s = .next (s.setPart p { s.part p with dctbase := v }))
    ∧ (∀ v : BitVec 5, exec (.partitionDescriptorWrite p (.log2nrec v)) s
      = .next (if 4 ≤ v.toNat ∧ v.toNat ≤ 20 then s.setPart p { s.part p with log2nrec := v } else s))
    ∧ (∀ m, Boot.legal s p (s.part p).cores m = true → (∀ l, Mem.locked s l = false) → ∃ u, exec (.partitionDescriptorWrite p (.waymask m)) s = .next u
      ∧ (u.part p).waymask = m)
    ∧ (∀ m, Boot.legal s p (s.part p).cores m = false → exec (.partitionDescriptorWrite p (.waymask m)) s = .next s)
    ∧ (∀ m, Boot.legal s p m (s.part p).waymask = true →
      (∀ c ∈ Boot.minus (s.part p).cores m, Boot.inUse s c = false ∧ Boot.visitors s c = [] ∧ Boot.unsettled s c = false) →
      (∀ c ∈ Boot.minus m (s.part p).cores, Boot.unsettled s c = false) → (∀ l, Mem.locked s l = false) →
      ∃ u, exec (.partitionDescriptorWrite p (.cores m)) s = .next u ∧ (u.part p).cores = m)
    ∧ (∀ m, Boot.legal s p m (s.part p).waymask = false → exec (.partitionDescriptorWrite p (.cores m)) s = .next s))
  ∧ (∀ s core p, core < 192 → Boot.inUse s core = false → Boot.visitors s core = [] → Boot.unsettled s core = false →
    (∀ l, Mem.locked s l = false) →
    (p < 24 → Boot.owner? s core = none → Boot.legal s p (Boot.withCore (s.part p).cores core true) (s.part p).waymask = true →
      ∃ u, exec (.coreReassign core p) s = .next u ∧ (u.part p).cores = (s.part p).cores ||| (1#192 <<< core)
        ∧ (u.core core).spad = [] ∧ (u.core core).tiles = [] ∧ (u.core core).l1 = [] ∧ (u.core core).ifetch = []
        ∧ (u.core core).tlb = [] ∧ (∀ a, a / 0x800000 = core → Memory.byte u.vault a = 0))
    ∧ (∀ q, 24 ≤ p → Boot.owner? s core = some q → ∃ u, exec (.coreReassign core p) s = .next u
      ∧ (u.part q).cores = (s.part q).cores &&& ~~~(1#192 <<< core) ∧ (u.core core).spad = [] ∧ (u.core core).l1 = []))

/-- R454, R467, R6, R456: power-on loads the images in order up to the first that fails, and stays in recovery when one fails; a
replacement image of the right type ends recovery when it verifies; a loss of power, and a warm reset, which the model takes to do
the same (log 27), keep the arrays' non-volatile state and no other; a report answers a nonce of 32 bytes; boundary scan.
Model's choices in it: logs 12, 79. -/
def Sys2Proof.Claims.PowerOnAndTrust : Prop :=
  (∀ s a b c d, s.trust.powered = false → a.ty = 0 → b.ty = 1 → c.ty = 2 → d.ty = 3 →
    ∃ u, exec (.powerOn [a, b, c, d]) s = .next u ∧ u.trust.powered = true
      ∧ u.trust.recovery = !([a, b, c, d].all Boot.verifies)
      ∧ u.trust.images = ([a, b, c, d].takeWhile Boot.verifies).map (fun i => (i.ty, i.svn, Config.sha384 i.body))
      ∧ u = { s with trust := u.trust })
  ∧ (∀ s i, s.trust.powered = true → s.trust.recovery = true → i.ty = 3 → s.trust.images.length = 3 →
    ∃ u, exec (.recoveryImageWrite i) s = .next u ∧ u.trust.recovery = !Boot.verifies i
      ∧ u.trust.images = s.trust.images ++ (if Boot.verifies i then [(i.ty, i.svn, Config.sha384 i.body)] else [])
      ∧ u = { s with trust := u.trust })
  ∧ (∀ s i, s.trust.recovery = false → exec (.recoveryImageWrite i) s = .next s)
  ∧ (∀ s, ∀ e ∈ ([.powerLoss, .warmReset] : List Instr), ∃ u, exec e s = .next u
    ∧ u.now = 0 ∧ u.threads = [] ∧ u.groups = [] ∧ u.teams = [] ∧ u.ctxs = [] ∧ u.parts = [] ∧ u.cores = [] ∧ u.gov = Gov.reset
    ∧ u.regions = [] ∧ u.fmtw = [] ∧ u.trust.powered = false ∧ u.vault = []
    ∧ (∀ a, Memory.byte u.mem a = if Mem.isHost a then Memory.byte s.mem a else 0)
    ∧ (∀ d o, s.orng.get? d = some o → ∃ o', u.orng.get? d = some o' ∧ o'.staging = o.staging ∧ o'.stgOwner = o.stgOwner
      ∧ o'.cmds = [] ∧ (o.cmds = [] → o.replayed = true → o'.journal = o.journal)
      ∧ (∀ n x, o.tiles.get? n = some x → ∃ x', o'.tiles.get? n = some x' ∧ x'.w = x.w ∧ x'.state = x.state ∧ x'.ver = x.ver
        ∧ x'.sw = x.sw ∧ x'.rsh = x.rsh ∧ x'.bank0 = x.bank0 ∧ x'.bank1 = x.bank1)))
  ∧ (∀ s nonce, s.trust.powered = true → nonce.length = 32 → ∃ u r, exec (.attestationRequest nonce) s = .next u
    ∧ u.trust.report = some r ∧ nonce.isPrefixOf r = true ∧ u = { s with trust := { s.trust with report := some r } })
  ∧ (∀ s, exec .bypass s = .next { s with scan := .bypass } ∧ exec .idcode s = .next { s with scan := .idcode }
    ∧ exec .samplePreload s = .next { s with scan := .sample }
    ∧ exec .extest s = .next (if s.ctxs = [] then { s with scan := .extest } else s))
  ∧ Boot.idcode = 0x1A160A6B

/-- R5, R6, Tables 4.9, 11.3, 13.3, 15.2: a register takes a value in its range; a value that its map ignores, and its reserved bits,
change nothing. Model's choices in it: logs 60, 61, 80. -/
def Sys2Proof.Claims.RegisterWrites : Prop :=
  ∀ s (v : BitVec 64), let w : Word := v.extractLsb' 0 32
    exec (.registerWrite .margin v) s = .next (if w.toNat ≤ 1000000 then { s with gov := { s.gov with margin := w } } else s)
    ∧ exec (.registerWrite .fallback v) s = .next (if 400 ≤ (v.extractLsb' 0 16).toNat ∧ (v.extractLsb' 0 16).toNat ≤ 1500
        then { s with gov := { s.gov with fallback := v.extractLsb' 0 16 } } else s)
    ∧ exec (.registerWrite .defpt v) s = .next (if (v.extractLsb' 0 4).toNat ≤ 11
        then { s with gov := { s.gov with defpt := v.extractLsb' 0 4 } } else s)
    ∧ (∀ n x, n < 64 → s.fmtw.get? n = some x → x.en = true → exec (.registerWrite (.fmtwVlen n) v) s = .next s)
    ∧ (∀ n x, n < 64 → s.fmtw.get? n = some x → x.en = false → exec (.registerWrite (.fmtwVlen n) v) s
        = .next { s with fmtw := s.fmtw.set n { x with vlen := w } })
    ∧ (∀ vf, vf < 128 → (s.vf vf).part.isSome = true → exec (.registerWrite (.vfErr vf) v) s
        = .next (s.setVf vf { s.vf vf with err := (s.vf vf).err &&& ~~~(v.extractLsb' 0 3) }))
    ∧ (∀ core n, core < 192 → n < 16 → (s.core core).evsel.rising = true →
        ∃ u, exec (.registerWrite (.coreEvsel core n) v) s = .next u ∧ (u.core core).evsel.getD n 0 = w &&& 0x1FFFF
          ∧ u = { s with cores := u.cores })

/-- R435 to R442, R454, R456, R467: the host, the management processor and the root of trust. -/
def Obligations.HostAndBoot : Prop := Doorbells ∧ Partitioning ∧ PowerOnAndTrust ∧ RegisterWrites

/-! ### The whole machine -/

/-- A step that issues a cohort of ready threads which the running cycle offers, without open shadows, poison or a pending DEADLINE, at
home, whose line passes its checks, executes the instruction that the slot at the PC decodes to, and then the issue is accounted for;
whatever else holds, it executes what the preparation of the issue hands on; a slot that decode refuses raises ILL_OP in every
thread (R59). A cohort that no cycle offers does not issue (R354). A step whose act is an event runs that event; a step without an act
lets a nanosecond pass. Model's choices in it: logs 1, 16, 18, 90. -/
def Obligations.StepRunsTheDecodedInstruction : Prop :=
  (∀ s core tids dt rest a ta o g bits s2, s.agenda = { dt := dt, what := .issue core tids } :: rest →
    let s0 := Ops.leave (Issue.tick { s with agenda := rest } dt)
    let run (i : Instr) (x : State) : Machine.Result := match exec i x with
      | .next t => .next (Issue.settle s0 t core tids)
      | .fault r => .fault r
      | .refused r => .refused r
    Issue.cohortOk s0 core tids = true → tids.head? = some a → s0.thread? a = some ta → ta.status = .ready →
    (Issue.offerOf s0 core (Issue.sectorOf a ta) ta.pc.toNat tids = none → Machine.step s = .next s0)
    ∧ (Issue.offerOf s0 core (Issue.sectorOf a ta) ta.pc.toNat tids = some o →
      (∀ tid ∈ tids, ∀ t, s0.thread? tid = some t → t.deadline = none) →
      let s1 := Issue.firstIssue (Issue.serve s0 core (Issue.sectorOf a ta) o) core tids
      Issue.fetch s1 core (s1.ctxOf a) (some a) ta.pc (ta.pc.setWidth 64) = .line bits s2 → s2.group? (tidGid a) = some g →
      Issue.lineOk bits = true →
      let w : Slot := BitVec.ofNat 96 (bits / 2 ^ (96 * ((ta.pc &&& 0x3F).toNat / 12)))
      (∀ i, decode w = .ok i → (∀ x, i ≠ .unassignedOpcode x) → (s2.core core).capHold = false →
        (Operands.portOf (w.toNat % 256) ≠ .E ∨ Issue.roleOk g.role (w.toNat % 256) = true) →
        (∀ x ∈ s2.threads, x.2.visit = none ∧ x.2.longs = [] ∧ x.2.vpoison = [] ∧ x.2.ppoison = []) →
        (∀ x ∈ s2.groups, x.2.spoison = [] ∧ x.2.hpoison = []) →
        Machine.step s = run i (Issue.issueNow s2 core ta.pc tids))
      ∧ (∀ x, decode w = .ok (.unassignedOpcode x) →
        Machine.step s = run (.unassignedOpcode w) (Issue.issueNow s2 core ta.pc tids))
      ∧ (∀ i x, Issue.prepareSlot s2 core tids ta g.role bits = .run i x → Machine.step s = run i x)
      ∧ (∀ r, decode w = .error r → Machine.step s = .next (Ops.trapAll s2 tids Ops.illOp))))
  ∧ (∀ s i dt rest, s.agenda = { dt := dt, what := .event i } :: rest →
    let s0 := Ops.leave (Issue.tick { s with agenda := rest } dt)
    (Issue.isEvent i = true → Machine.step s = exec i s0) ∧ (Issue.isEvent i = false → Machine.step s = .next s0))
  ∧ (∀ s, s.agenda = [] → Machine.step s = .next (Issue.tick s 1))

/-- Slots that the specification writes out, byte by byte, decode to the instructions it says they are; a slot with a nonzero
field that its instruction does not use, and one with an odd register in a pair, are refused (R37, R35). -/
def Obligations.SlotsDecodeToTheirInstructions : Prop :=
  let h : Hdr := { la := 0, gp := 0, gn := false }
  let mem (r : Reg) (w : BitVec 32) : Addr := { base := r, idx := none, off := w }
  decode 0x000000100000000080700280 = .ok (.ld { h with la := 2 }
      { d := .v 7, addr := mem (.v 4) 16, mig := false, sz := 0, sgn := false, acq := false })
  ∧ decode 0x000000000000230020305030 = .ok (.iadd { h with gp := 5 }
      { d := .v 3, a := .v 1, b := .reg (.s 12), c := .zero, sat := false, u := false, w64 := false, xop := 0 })
  ∧ decode 0x000000000000000000005002 = .ok (.bra { h with gp := 5 } { lines := 0, slot := 0 })
  ∧ decode 0x000000000000000000000001 = .ok (.nop h)
  ∧ decode 0x003000080A05000080800082 = .ok (.atom h
      { d := .v 8, c := .v 10, addr := { base := .v 4, idx := none, off := 8 }, mig := false, op := 10, w64 := true, acq := true
        rel := false })
  ∧ decode 0x00000000004C259285300090 = .ok (.cpy h { d := .h 3, a := .s 20, b := .s 22, len := .reg (.s 24) })
  ∧ decode 0x0000030C81000000000000A2 = .ok (.carry h (.imm 0x30C) true)
  ∧ decode 0x000000060000000000A00026 = .ok (.srd h (.v 10) 6)
  ∧ decode 0x00000064C000000020300030 = .ok (.iadd h
      { d := .v 3, a := .v 1, b := .imm 100, c := .zero, sat := true, u := false, w64 := false, xop := 0 })
  ∧ decode 0x00000009020000C040000056 = .ok (.fcmp h { a := .v 2, b := .reg (.v 3), p := 9, ftz := false, xop := 2 })
  ∧ decode 0x0000000F004C104E251000A9 = .ok (.mma h { d := .h 1, t := .m 1, k := .k 1, c := .s 24 } 0 15)
  ∧ decode 0x0000003500000015052000B0 = .ok (.acall h (.h 2) (.s 40) (.imm 5 3 0) false)
  ∧ decode 0x00005A00000000000000000A = .ok (.trap h 0 0x5A)
  ∧ decode 0x0000000000000012800000F3 = .ok (.tlbiVa h (.s 20))
  ∧ decode 0x000000010000000000000001 = .error .unusedField
  ∧ (∃ r, decode 0x000000060000000000B00026 = .error r)

/-- Table 13.3, Table 15.2, Table 11.3, R454, R467: what reset leaves of the values that the specification gives. -/
def Obligations.ResetLeavesTheStatedValues : Prop :=
  let s := State.reset
  s.gov.margin = 2000 ∧ s.gov.cap = 900 ∧ s.gov.capseq = 0 ∧ s.gov.fallback = 900 ∧ s.gov.floor = 0 ∧ s.gov.ramp = 1000
    ∧ s.gov.drth = 40 ∧ s.gov.defpt = 8 ∧ s.gov.lastseq = 0
    ∧ (∀ p, (s.part p).cores = 0 ∧ (s.part p).waymask = 0 ∧ (s.part p).s2root = 0 ∧ (s.part p).tqcfg = 0x0F
      ∧ (s.part p).log2nrec = 4 ∧ (s.part p).peacc = 0 ∧ (s.part p).key = none)
    ∧ (∀ d q, ((s.die d).seqrs.getD q Seqr.reset).stop = true)
    ∧ s.ctxs = [] ∧ s.threads = [] ∧ s.trust.powered = false ∧ s.scan = .idcode

/-- Decode and encode agree: an instruction whose fields pass the checks of R59 has a slot, and decoding it gives the instruction
back, with every operand as it was; and a slot that decodes is the slot of what it decodes to, so that no bit of it is lost. -/
def Obligations.DecodeOfEncodeIsTheInstruction : Prop :=
  (∀ i : Instr, i.hdr?.isSome = true → i.wellFormed = true → ∃ w, encode i = some w ∧ decode w = .ok i)
  ∧ (∀ w i, decode w = .ok i → encode i = some w)

/-- The memories stay in canonical form over every step: keys strictly rising, and no byte listed that an unlisted address reads
as. Model's choice in it: log 6. -/
def Obligations.MemoryStaysCanonical : Prop :=
  ∀ s u, memoryCanonical s = true → Machine.step s = .next u → memoryCanonical u = true
end

