-- ==== Sys2Proof/Laws/Tab.lean ====
section
/-! SUPPORT. What the operations on sparse tables and memories do: reading after a change, and the canonical form. -/

namespace Sys2Proof

variable {α : Type}

/-! ### Reading after a change -/

@[simp] theorem Tab.get?_nil (n : Nat) : Tab.get? ([] : Tab α) n = none := rfl

theorem Tab.get?_set (t : Tab α) (n m : Nat) (x : α) :
    (t.set n x).get? m = if m = n then some x else t.get? m := by
  induction t with
  | nil => simp [Tab.set, Tab.get?]
  | cons e t ih =>
    obtain ⟨k, v⟩ := e
    simp only [Tab.set]
    split
    · simp [Tab.get?]
    · split
      · subst_vars; simp only [Tab.get?]; split <;> simp_all
      · simp only [Tab.get?, ih]; split <;> split <;> simp_all

@[simp] theorem Tab.get?_set_self (t : Tab α) (n : Nat) (x : α) : (t.set n x).get? n = some x := by
  simp [Tab.get?_set]

theorem Tab.get?_set_ne (t : Tab α) {n m : Nat} (x : α) (h : m ≠ n) : (t.set n x).get? m = t.get? m := by
  simp [Tab.get?_set, h]

@[simp] theorem Tab.getD_set_self (t : Tab α) (n : Nat) (x d : α) : (t.set n x).getD n d = x := by
  simp [Tab.getD]

theorem Tab.getD_set_ne (t : Tab α) {n m : Nat} (x d : α) (h : m ≠ n) : (t.set n x).getD m d = t.getD m d := by
  simp [Tab.getD, Tab.get?_set_ne _ _ h]

theorem Tab.get?_modify (t : Tab α) (n m : Nat) (f : α → α) :
    (t.modify n f).get? m = if m = n then (t.get? m).map f else t.get? m := by
  induction t with
  | nil => simp [Tab.modify, Tab.get?]
  | cons e t ih =>
    obtain ⟨k, v⟩ := e
    simp only [Tab.modify]
    split
    · subst_vars; simp only [Tab.get?]; split <;> simp_all
    · simp only [Tab.get?, ih]; split <;> split <;> simp_all

theorem Tab.get?_update (t : Tab α) (p : Nat → Bool) (f : Nat → α → α) (m : Nat) :
    (t.update p f).get? m = (t.get? m).map (fun x => if p m then f m x else x) := by
  induction t with
  | nil => simp [Tab.update, Tab.get?]
  | cons e t ih =>
    obtain ⟨k, v⟩ := e
    simp only [Tab.update, Tab.get?, ih]
    split <;> simp_all

/-! ### Canonical form -/

theorem Tab.risingFrom_mono {b c : Nat} {t : Tab α} (h : Tab.risingFrom b t = true) (hc : c ≤ b) :
    Tab.risingFrom c t = true := by
  cases t with
  | nil => rfl
  | cons e t => simp only [Tab.risingFrom, Bool.and_eq_true, decide_eq_true_eq] at *; exact ⟨by omega, h.2⟩

theorem Tab.risingFrom_set {b : Nat} {t : Tab α} (h : Tab.risingFrom b t = true) (n : Nat) (x : α) (hn : b ≤ n) :
    Tab.risingFrom b (t.set n x) = true := by
  induction t generalizing b with
  | nil => simp [Tab.set, Tab.risingFrom, hn]
  | cons e t ih =>
    obtain ⟨k, v⟩ := e
    simp only [Tab.risingFrom, Bool.and_eq_true, decide_eq_true_eq] at h
    simp only [Tab.set]
    split
    · simp only [Tab.risingFrom, Bool.and_eq_true, decide_eq_true_eq]; exact ⟨hn, by omega, h.2⟩
    · split
      · subst_vars; simp only [Tab.risingFrom, Bool.and_eq_true, decide_eq_true_eq]; exact ⟨hn, h.2⟩
      · simp only [Tab.risingFrom, Bool.and_eq_true, decide_eq_true_eq]; exact ⟨h.1, ih h.2 (by omega)⟩

theorem Tab.risingFrom_erase {b : Nat} {t : Tab α} (h : Tab.risingFrom b t = true) (n : Nat) :
    Tab.risingFrom b (t.erase n) = true := by
  induction t generalizing b with
  | nil => rfl
  | cons e t ih =>
    obtain ⟨k, v⟩ := e
    simp only [Tab.risingFrom, Bool.and_eq_true, decide_eq_true_eq] at h
    simp only [Tab.erase]
    split
    · exact Tab.risingFrom_mono (ih h.2) (by omega)
    · simp only [Tab.risingFrom, Bool.and_eq_true, decide_eq_true_eq]; exact ⟨h.1, ih h.2⟩

theorem Tab.risingFrom_keep {b : Nat} {t : Tab α} (h : Tab.risingFrom b t = true) (p : Nat → α → Bool) :
    Tab.risingFrom b (t.keep p) = true := by
  induction t generalizing b with
  | nil => rfl
  | cons e t ih =>
    obtain ⟨k, v⟩ := e
    simp only [Tab.risingFrom, Bool.and_eq_true, decide_eq_true_eq] at h
    simp only [Tab.keep]
    split
    · simp only [Tab.risingFrom, Bool.and_eq_true, decide_eq_true_eq]; exact ⟨h.1, ih h.2⟩
    · exact Tab.risingFrom_mono (ih h.2) (by omega)

theorem Tab.get?_of_risingFrom {b : Nat} {t : Tab α} (h : Tab.risingFrom b t = true) {n : Nat} (hn : n < b) :
    t.get? n = none := by
  induction t generalizing b with
  | nil => rfl
  | cons e t ih =>
    obtain ⟨k, v⟩ := e
    simp only [Tab.risingFrom, Bool.and_eq_true, decide_eq_true_eq] at h
    simp only [Tab.get?]
    rw [if_neg (by omega)]
    exact ih h.2 (by omega)

theorem Tab.get?_erase (t : Tab α) (n m : Nat) : (t.erase n).get? m = if m = n then none else t.get? m := by
  induction t with
  | nil => simp [Tab.erase]
  | cons e t ih =>
    obtain ⟨k, v⟩ := e
    simp only [Tab.erase]
    split
    · subst_vars; rw [ih]; simp only [Tab.get?]; split <;> simp_all
    · simp only [Tab.get?, ih]
      split <;> split <;> simp_all

theorem Tab.getD_put [DecidableEq α] (d : α) (t : Tab α) (n m : Nat) (x : α) :
    (Tab.put d t n x).getD m d = if m = n then x else t.getD m d := by
  simp only [Tab.getD, Tab.put]
  split
  · rw [Tab.get?_erase]; split <;> simp_all
  · rw [Tab.get?_set]; split <;> simp_all

theorem Tab.mem_set {t : Tab α} {n : Nat} {x : α} {e : Nat × α} (h : e ∈ t.set n x) : e = (n, x) ∨ e ∈ t := by
  induction t with
  | nil => simpa [Tab.set] using h
  | cons a t ih =>
    obtain ⟨k, v⟩ := a
    simp only [Tab.set] at h
    split at h
    · simpa using h
    · split at h
      · simp only [List.mem_cons] at h ⊢; tauto
      · simp only [List.mem_cons] at h ⊢; tauto

theorem Tab.mem_erase {t : Tab α} {n : Nat} {e : Nat × α} (h : e ∈ t.erase n) : e ∈ t := by
  induction t with
  | nil => simpa [Tab.erase] using h
  | cons a t ih =>
    obtain ⟨k, v⟩ := a
    simp only [Tab.erase] at h
    split at h
    · exact List.mem_cons_of_mem _ (ih h)
    · simp only [List.mem_cons] at h ⊢; exact h.imp id ih

theorem Tab.mem_keep {t : Tab α} {p : Nat → α → Bool} {e : Nat × α} (h : e ∈ t.keep p) : e ∈ t := by
  induction t with
  | nil => simpa [Tab.keep] using h
  | cons a t ih =>
    obtain ⟨k, v⟩ := a
    simp only [Tab.keep] at h
    split at h
    · simp only [List.mem_cons] at h ⊢; tauto
    · simp only [List.mem_cons]; tauto

namespace Machine

/-! ### Memory -/

theorem Memory.wf_iff (m : Tab Byte) : Memory.wf m = true ↔ m.rising = true ∧ ∀ e ∈ m, e.2 ≠ 0 := by
  simp [Memory.wf]

theorem Memory.wf_nil : Memory.wf [] = true := rfl

theorem Memory.wf_write {m : Tab Byte} (h : Memory.wf m = true) (a : Nat) (b : Byte) :
    Memory.wf (Memory.write m a b) = true := by
  rw [Memory.wf_iff] at *
  simp only [Memory.write, Tab.put]
  split
  · exact ⟨Tab.risingFrom_erase h.1 a, fun e he => h.2 e (Tab.mem_erase he)⟩
  · refine ⟨Tab.risingFrom_set h.1 a b (Nat.zero_le _), fun e he => ?_⟩
    obtain rfl | h' := Tab.mem_set he
    · assumption
    · exact h.2 e h'

theorem Memory.wf_writeAll {m : Tab Byte} (h : Memory.wf m = true) (a : Nat) (l : List Byte) :
    Memory.wf (Memory.writeAll m a l) = true := by
  induction l generalizing m a with
  | nil => exact h
  | cons b r ih => exact ih (Memory.wf_write h a b) (a + 1)

theorem Memory.wf_keep {m : Tab Byte} (h : Memory.wf m = true) (p : Nat → Byte → Bool) :
    Memory.wf (m.keep p) = true := by
  rw [Memory.wf_iff] at *
  exact ⟨Tab.risingFrom_keep h.1 p, fun e he => h.2 e (Tab.mem_keep he)⟩

/-- A byte reads as it was written, and every other byte as before. -/
theorem Memory.byte_write (m : Tab Byte) (a n : Nat) (b : Byte) :
    Memory.byte (Memory.write m a b) n = if n = a then b else Memory.byte m n := Tab.getD_put 0 m a n b

/-- Bytes read as they were written, and every other byte as before. -/
theorem Memory.byte_writeAll (l : List Byte) (m : Tab Byte) (a n : Nat) :
    Memory.byte (Memory.writeAll m a l) n = if a ≤ n ∧ n < a + l.length then l.getD (n - a) 0 else Memory.byte m n := by
  induction l generalizing m a with
  | nil => simp [Memory.writeAll]
  | cons b r ih =>
    simp only [Memory.writeAll, ih, Memory.byte_write, List.length_cons]
    rcases Nat.lt_trichotomy n a with h | h | h
    · rw [if_neg (by omega), if_neg (by omega), if_neg (by omega)]
    · subst h; rw [if_neg (by omega), if_pos rfl, if_pos (by omega)]; simp
    · obtain ⟨k, rfl⟩ : ∃ k, n = a + 1 + k := ⟨n - (a + 1), by omega⟩
      rw [if_neg (by omega : a + 1 + k ≠ a)]
      have : a + 1 + k - a = k + 1 := by omega
      by_cases hk : k < r.length
      · rw [if_pos (by omega), if_pos (by omega)]; simp [this]
      · rw [if_neg (by omega), if_neg (by omega)]

end Machine

end Sys2Proof
end

