-- ==== Sys2Proof/Laws/State.lean ====
section
/-! SUPPORT. Each field of the state after each named update: unchanged, but for the one that the update names. -/

namespace Sys2Proof.Machine

open Sys2Proof

namespace State

variable (s : State)

/-! ### setCore -/

@[simp] theorem agenda_setCore (c : Nat) (x : Core) : (s.setCore c x).agenda = s.agenda := rfl
@[simp] theorem cur_setCore (c : Nat) (x : Core) : (s.setCore c x).cur = s.cur := rfl
@[simp] theorem free_setCore (c : Nat) (x : Core) : (s.setCore c x).free = s.free := rfl
@[simp] theorem nextId_setCore (c : Nat) (x : Core) : (s.setCore c x).nextId = s.nextId := rfl
@[simp] theorem now_setCore (c : Nat) (x : Core) : (s.setCore c x).now = s.now := rfl
@[simp] theorem threads_setCore (c : Nat) (x : Core) : (s.setCore c x).threads = s.threads := rfl
@[simp] theorem packets_setCore (c : Nat) (x : Core) : (s.setCore c x).packets = s.packets := rfl
@[simp] theorem groups_setCore (c : Nat) (x : Core) : (s.setCore c x).groups = s.groups := rfl
@[simp] theorem teams_setCore (c : Nat) (x : Core) : (s.setCore c x).teams = s.teams := rfl
@[simp] theorem clusters_setCore (c : Nat) (x : Core) : (s.setCore c x).clusters = s.clusters := rfl
@[simp] theorem grids_setCore (c : Nat) (x : Core) : (s.setCore c x).grids = s.grids := rfl
@[simp] theorem launchReqs_setCore (c : Nat) (x : Core) : (s.setCore c x).launchReqs = s.launchReqs := rfl
@[simp] theorem mem_setCore (c : Nat) (x : Core) : (s.setCore c x).mem = s.mem := rfl
@[simp] theorem vault_setCore (c : Nat) (x : Core) : (s.setCore c x).vault = s.vault := rfl
@[simp] theorem poison_setCore (c : Nat) (x : Core) : (s.setCore c x).poison = s.poison := rfl
@[simp] theorem poison8_setCore (c : Nat) (x : Core) : (s.setCore c x).poison8 = s.poison8 := rfl
@[simp] theorem garbled_setCore (c : Nat) (x : Core) : (s.setCore c x).garbled = s.garbled := rfl
@[simp] theorem regrown_setCore (c : Nat) (x : Core) : (s.setCore c x).regrown = s.regrown := rfl
@[simp] theorem llc_setCore (c : Nat) (x : Core) : (s.setCore c x).llc = s.llc := rfl
@[simp] theorem owner_setCore (c : Nat) (x : Core) : (s.setCore c x).owner = s.owner := rfl
@[simp] theorem reduce_setCore (c : Nat) (x : Core) : (s.setCore c x).reduce = s.reduce := rfl
@[simp] theorem regs_setCore (c : Nat) (x : Core) : (s.setCore c x).regs = s.regs := rfl
@[simp] theorem reds_setCore (c : Nat) (x : Core) : (s.setCore c x).reds = s.reds := rfl
@[simp] theorem excl_setCore (c : Nat) (x : Core) : (s.setCore c x).excl = s.excl := rfl
@[simp] theorem holds_setCore (c : Nat) (x : Core) : (s.setCore c x).holds = s.holds := rfl
@[simp] theorem exclTill_setCore (c : Nat) (x : Core) : (s.setCore c x).exclTill = s.exclTill := rfl
@[simp] theorem dieTlb_setCore (c : Nat) (x : Core) : (s.setCore c x).dieTlb = s.dieTlb := rfl
@[simp] theorem walks_setCore (c : Nat) (x : Core) : (s.setCore c x).walks = s.walks := rfl
@[simp] theorem walkers_setCore (c : Nat) (x : Core) : (s.setCore c x).walkers = s.walkers := rfl
@[simp] theorem gated_setCore (c : Nat) (x : Core) : (s.setCore c x).gated = s.gated := rfl
@[simp] theorem wgth_setCore (c : Nat) (x : Core) : (s.setCore c x).wgth = s.wgth := rfl
@[simp] theorem regions_setCore (c : Nat) (x : Core) : (s.setCore c x).regions = s.regions := rfl
@[simp] theorem fmtw_setCore (c : Nat) (x : Core) : (s.setCore c x).fmtw = s.fmtw := rfl
@[simp] theorem parts_setCore (c : Nat) (x : Core) : (s.setCore c x).parts = s.parts := rfl
@[simp] theorem ctxs_setCore (c : Nat) (x : Core) : (s.setCore c x).ctxs = s.ctxs := rfl
@[simp] theorem vfs_setCore (c : Nat) (x : Core) : (s.setCore c x).vfs = s.vfs := rfl
@[simp] theorem fabric_setCore (c : Nat) (x : Core) : (s.setCore c x).fabric = s.fabric := rfl
@[simp] theorem route_setCore (c : Nat) (x : Core) : (s.setCore c x).route = s.route := rfl
@[simp] theorem portsDown_setCore (c : Nat) (x : Core) : (s.setCore c x).portsDown = s.portsDown := rfl
@[simp] theorem linkDown_setCore (c : Nat) (x : Core) : (s.setCore c x).linkDown = s.linkDown := rfl
@[simp] theorem orng_setCore (c : Nat) (x : Core) : (s.setCore c x).orng = s.orng := rfl
@[simp] theorem gov_setCore (c : Nat) (x : Core) : (s.setCore c x).gov = s.gov := rfl
@[simp] theorem rails_setCore (c : Nat) (x : Core) : (s.setCore c x).rails = s.rails := rfl
@[simp] theorem hubEvsel_setCore (c : Nat) (x : Core) : (s.setCore c x).hubEvsel = s.hubEvsel := rfl
@[simp] theorem hubEvcnt_setCore (c : Nat) (x : Core) : (s.setCore c x).hubEvcnt = s.hubEvcnt := rfl
@[simp] theorem lost_setCore (c : Nat) (x : Core) : (s.setCore c x).lost = s.lost := rfl
@[simp] theorem trust_setCore (c : Nat) (x : Core) : (s.setCore c x).trust = s.trust := rfl
@[simp] theorem scan_setCore (c : Nat) (x : Core) : (s.setCore c x).scan = s.scan := rfl

/-! ### setThread -/

@[simp] theorem agenda_setThread (n : Nat) (x : Thread) : (s.setThread n x).agenda = s.agenda := rfl
@[simp] theorem cur_setThread (n : Nat) (x : Thread) : (s.setThread n x).cur = s.cur := rfl
@[simp] theorem free_setThread (n : Nat) (x : Thread) : (s.setThread n x).free = s.free := rfl
@[simp] theorem nextId_setThread (n : Nat) (x : Thread) : (s.setThread n x).nextId = s.nextId := rfl
@[simp] theorem now_setThread (n : Nat) (x : Thread) : (s.setThread n x).now = s.now := rfl
@[simp] theorem packets_setThread (n : Nat) (x : Thread) : (s.setThread n x).packets = s.packets := rfl
@[simp] theorem groups_setThread (n : Nat) (x : Thread) : (s.setThread n x).groups = s.groups := rfl
@[simp] theorem teams_setThread (n : Nat) (x : Thread) : (s.setThread n x).teams = s.teams := rfl
@[simp] theorem clusters_setThread (n : Nat) (x : Thread) : (s.setThread n x).clusters = s.clusters := rfl
@[simp] theorem grids_setThread (n : Nat) (x : Thread) : (s.setThread n x).grids = s.grids := rfl
@[simp] theorem launchReqs_setThread (n : Nat) (x : Thread) : (s.setThread n x).launchReqs = s.launchReqs := rfl
@[simp] theorem cores_setThread (n : Nat) (x : Thread) : (s.setThread n x).cores = s.cores := rfl
@[simp] theorem mem_setThread (n : Nat) (x : Thread) : (s.setThread n x).mem = s.mem := rfl
@[simp] theorem vault_setThread (n : Nat) (x : Thread) : (s.setThread n x).vault = s.vault := rfl
@[simp] theorem poison_setThread (n : Nat) (x : Thread) : (s.setThread n x).poison = s.poison := rfl
@[simp] theorem poison8_setThread (n : Nat) (x : Thread) : (s.setThread n x).poison8 = s.poison8 := rfl
@[simp] theorem garbled_setThread (n : Nat) (x : Thread) : (s.setThread n x).garbled = s.garbled := rfl
@[simp] theorem regrown_setThread (n : Nat) (x : Thread) : (s.setThread n x).regrown = s.regrown := rfl
@[simp] theorem llc_setThread (n : Nat) (x : Thread) : (s.setThread n x).llc = s.llc := rfl
@[simp] theorem owner_setThread (n : Nat) (x : Thread) : (s.setThread n x).owner = s.owner := rfl
@[simp] theorem reduce_setThread (n : Nat) (x : Thread) : (s.setThread n x).reduce = s.reduce := rfl
@[simp] theorem regs_setThread (n : Nat) (x : Thread) : (s.setThread n x).regs = s.regs := rfl
@[simp] theorem reds_setThread (n : Nat) (x : Thread) : (s.setThread n x).reds = s.reds := rfl
@[simp] theorem excl_setThread (n : Nat) (x : Thread) : (s.setThread n x).excl = s.excl := rfl
@[simp] theorem holds_setThread (n : Nat) (x : Thread) : (s.setThread n x).holds = s.holds := rfl
@[simp] theorem exclTill_setThread (n : Nat) (x : Thread) : (s.setThread n x).exclTill = s.exclTill := rfl
@[simp] theorem dieTlb_setThread (n : Nat) (x : Thread) : (s.setThread n x).dieTlb = s.dieTlb := rfl
@[simp] theorem walks_setThread (n : Nat) (x : Thread) : (s.setThread n x).walks = s.walks := rfl
@[simp] theorem walkers_setThread (n : Nat) (x : Thread) : (s.setThread n x).walkers = s.walkers := rfl
@[simp] theorem gated_setThread (n : Nat) (x : Thread) : (s.setThread n x).gated = s.gated := rfl
@[simp] theorem wgth_setThread (n : Nat) (x : Thread) : (s.setThread n x).wgth = s.wgth := rfl
@[simp] theorem regions_setThread (n : Nat) (x : Thread) : (s.setThread n x).regions = s.regions := rfl
@[simp] theorem fmtw_setThread (n : Nat) (x : Thread) : (s.setThread n x).fmtw = s.fmtw := rfl
@[simp] theorem parts_setThread (n : Nat) (x : Thread) : (s.setThread n x).parts = s.parts := rfl
@[simp] theorem ctxs_setThread (n : Nat) (x : Thread) : (s.setThread n x).ctxs = s.ctxs := rfl
@[simp] theorem vfs_setThread (n : Nat) (x : Thread) : (s.setThread n x).vfs = s.vfs := rfl
@[simp] theorem fabric_setThread (n : Nat) (x : Thread) : (s.setThread n x).fabric = s.fabric := rfl
@[simp] theorem route_setThread (n : Nat) (x : Thread) : (s.setThread n x).route = s.route := rfl
@[simp] theorem portsDown_setThread (n : Nat) (x : Thread) : (s.setThread n x).portsDown = s.portsDown := rfl
@[simp] theorem linkDown_setThread (n : Nat) (x : Thread) : (s.setThread n x).linkDown = s.linkDown := rfl
@[simp] theorem orng_setThread (n : Nat) (x : Thread) : (s.setThread n x).orng = s.orng := rfl
@[simp] theorem gov_setThread (n : Nat) (x : Thread) : (s.setThread n x).gov = s.gov := rfl
@[simp] theorem rails_setThread (n : Nat) (x : Thread) : (s.setThread n x).rails = s.rails := rfl
@[simp] theorem hubEvsel_setThread (n : Nat) (x : Thread) : (s.setThread n x).hubEvsel = s.hubEvsel := rfl
@[simp] theorem hubEvcnt_setThread (n : Nat) (x : Thread) : (s.setThread n x).hubEvcnt = s.hubEvcnt := rfl
@[simp] theorem lost_setThread (n : Nat) (x : Thread) : (s.setThread n x).lost = s.lost := rfl
@[simp] theorem trust_setThread (n : Nat) (x : Thread) : (s.setThread n x).trust = s.trust := rfl
@[simp] theorem scan_setThread (n : Nat) (x : Thread) : (s.setThread n x).scan = s.scan := rfl

/-! ### setGroup -/

@[simp] theorem agenda_setGroup (n : Nat) (x : Group) : (s.setGroup n x).agenda = s.agenda := rfl
@[simp] theorem cur_setGroup (n : Nat) (x : Group) : (s.setGroup n x).cur = s.cur := rfl
@[simp] theorem free_setGroup (n : Nat) (x : Group) : (s.setGroup n x).free = s.free := rfl
@[simp] theorem nextId_setGroup (n : Nat) (x : Group) : (s.setGroup n x).nextId = s.nextId := rfl
@[simp] theorem now_setGroup (n : Nat) (x : Group) : (s.setGroup n x).now = s.now := rfl
@[simp] theorem threads_setGroup (n : Nat) (x : Group) : (s.setGroup n x).threads = s.threads := rfl
@[simp] theorem packets_setGroup (n : Nat) (x : Group) : (s.setGroup n x).packets = s.packets := rfl
@[simp] theorem teams_setGroup (n : Nat) (x : Group) : (s.setGroup n x).teams = s.teams := rfl
@[simp] theorem clusters_setGroup (n : Nat) (x : Group) : (s.setGroup n x).clusters = s.clusters := rfl
@[simp] theorem grids_setGroup (n : Nat) (x : Group) : (s.setGroup n x).grids = s.grids := rfl
@[simp] theorem launchReqs_setGroup (n : Nat) (x : Group) : (s.setGroup n x).launchReqs = s.launchReqs := rfl
@[simp] theorem cores_setGroup (n : Nat) (x : Group) : (s.setGroup n x).cores = s.cores := rfl
@[simp] theorem mem_setGroup (n : Nat) (x : Group) : (s.setGroup n x).mem = s.mem := rfl
@[simp] theorem vault_setGroup (n : Nat) (x : Group) : (s.setGroup n x).vault = s.vault := rfl
@[simp] theorem poison_setGroup (n : Nat) (x : Group) : (s.setGroup n x).poison = s.poison := rfl
@[simp] theorem poison8_setGroup (n : Nat) (x : Group) : (s.setGroup n x).poison8 = s.poison8 := rfl
@[simp] theorem garbled_setGroup (n : Nat) (x : Group) : (s.setGroup n x).garbled = s.garbled := rfl
@[simp] theorem regrown_setGroup (n : Nat) (x : Group) : (s.setGroup n x).regrown = s.regrown := rfl
@[simp] theorem llc_setGroup (n : Nat) (x : Group) : (s.setGroup n x).llc = s.llc := rfl
@[simp] theorem owner_setGroup (n : Nat) (x : Group) : (s.setGroup n x).owner = s.owner := rfl
@[simp] theorem reduce_setGroup (n : Nat) (x : Group) : (s.setGroup n x).reduce = s.reduce := rfl
@[simp] theorem regs_setGroup (n : Nat) (x : Group) : (s.setGroup n x).regs = s.regs := rfl
@[simp] theorem reds_setGroup (n : Nat) (x : Group) : (s.setGroup n x).reds = s.reds := rfl
@[simp] theorem excl_setGroup (n : Nat) (x : Group) : (s.setGroup n x).excl = s.excl := rfl
@[simp] theorem holds_setGroup (n : Nat) (x : Group) : (s.setGroup n x).holds = s.holds := rfl
@[simp] theorem exclTill_setGroup (n : Nat) (x : Group) : (s.setGroup n x).exclTill = s.exclTill := rfl
@[simp] theorem dieTlb_setGroup (n : Nat) (x : Group) : (s.setGroup n x).dieTlb = s.dieTlb := rfl
@[simp] theorem walks_setGroup (n : Nat) (x : Group) : (s.setGroup n x).walks = s.walks := rfl
@[simp] theorem walkers_setGroup (n : Nat) (x : Group) : (s.setGroup n x).walkers = s.walkers := rfl
@[simp] theorem gated_setGroup (n : Nat) (x : Group) : (s.setGroup n x).gated = s.gated := rfl
@[simp] theorem wgth_setGroup (n : Nat) (x : Group) : (s.setGroup n x).wgth = s.wgth := rfl
@[simp] theorem regions_setGroup (n : Nat) (x : Group) : (s.setGroup n x).regions = s.regions := rfl
@[simp] theorem fmtw_setGroup (n : Nat) (x : Group) : (s.setGroup n x).fmtw = s.fmtw := rfl
@[simp] theorem parts_setGroup (n : Nat) (x : Group) : (s.setGroup n x).parts = s.parts := rfl
@[simp] theorem ctxs_setGroup (n : Nat) (x : Group) : (s.setGroup n x).ctxs = s.ctxs := rfl
@[simp] theorem vfs_setGroup (n : Nat) (x : Group) : (s.setGroup n x).vfs = s.vfs := rfl
@[simp] theorem fabric_setGroup (n : Nat) (x : Group) : (s.setGroup n x).fabric = s.fabric := rfl
@[simp] theorem route_setGroup (n : Nat) (x : Group) : (s.setGroup n x).route = s.route := rfl
@[simp] theorem portsDown_setGroup (n : Nat) (x : Group) : (s.setGroup n x).portsDown = s.portsDown := rfl
@[simp] theorem linkDown_setGroup (n : Nat) (x : Group) : (s.setGroup n x).linkDown = s.linkDown := rfl
@[simp] theorem orng_setGroup (n : Nat) (x : Group) : (s.setGroup n x).orng = s.orng := rfl
@[simp] theorem gov_setGroup (n : Nat) (x : Group) : (s.setGroup n x).gov = s.gov := rfl
@[simp] theorem rails_setGroup (n : Nat) (x : Group) : (s.setGroup n x).rails = s.rails := rfl
@[simp] theorem hubEvsel_setGroup (n : Nat) (x : Group) : (s.setGroup n x).hubEvsel = s.hubEvsel := rfl
@[simp] theorem hubEvcnt_setGroup (n : Nat) (x : Group) : (s.setGroup n x).hubEvcnt = s.hubEvcnt := rfl
@[simp] theorem lost_setGroup (n : Nat) (x : Group) : (s.setGroup n x).lost = s.lost := rfl
@[simp] theorem trust_setGroup (n : Nat) (x : Group) : (s.setGroup n x).trust = s.trust := rfl
@[simp] theorem scan_setGroup (n : Nat) (x : Group) : (s.setGroup n x).scan = s.scan := rfl

/-! ### modThread -/

@[simp] theorem agenda_modThread (n : Nat) (f : Thread → Thread) : (s.modThread n f).agenda = s.agenda := rfl
@[simp] theorem cur_modThread (n : Nat) (f : Thread → Thread) : (s.modThread n f).cur = s.cur := rfl
@[simp] theorem free_modThread (n : Nat) (f : Thread → Thread) : (s.modThread n f).free = s.free := rfl
@[simp] theorem nextId_modThread (n : Nat) (f : Thread → Thread) : (s.modThread n f).nextId = s.nextId := rfl
@[simp] theorem now_modThread (n : Nat) (f : Thread → Thread) : (s.modThread n f).now = s.now := rfl
@[simp] theorem packets_modThread (n : Nat) (f : Thread → Thread) : (s.modThread n f).packets = s.packets := rfl
@[simp] theorem groups_modThread (n : Nat) (f : Thread → Thread) : (s.modThread n f).groups = s.groups := rfl
@[simp] theorem teams_modThread (n : Nat) (f : Thread → Thread) : (s.modThread n f).teams = s.teams := rfl
@[simp] theorem clusters_modThread (n : Nat) (f : Thread → Thread) : (s.modThread n f).clusters = s.clusters := rfl
@[simp] theorem grids_modThread (n : Nat) (f : Thread → Thread) : (s.modThread n f).grids = s.grids := rfl
@[simp] theorem launchReqs_modThread (n : Nat) (f : Thread → Thread) : (s.modThread n f).launchReqs = s.launchReqs := rfl
@[simp] theorem cores_modThread (n : Nat) (f : Thread → Thread) : (s.modThread n f).cores = s.cores := rfl
@[simp] theorem mem_modThread (n : Nat) (f : Thread → Thread) : (s.modThread n f).mem = s.mem := rfl
@[simp] theorem vault_modThread (n : Nat) (f : Thread → Thread) : (s.modThread n f).vault = s.vault := rfl
@[simp] theorem poison_modThread (n : Nat) (f : Thread → Thread) : (s.modThread n f).poison = s.poison := rfl
@[simp] theorem poison8_modThread (n : Nat) (f : Thread → Thread) : (s.modThread n f).poison8 = s.poison8 := rfl
@[simp] theorem garbled_modThread (n : Nat) (f : Thread → Thread) : (s.modThread n f).garbled = s.garbled := rfl
@[simp] theorem regrown_modThread (n : Nat) (f : Thread → Thread) : (s.modThread n f).regrown = s.regrown := rfl
@[simp] theorem llc_modThread (n : Nat) (f : Thread → Thread) : (s.modThread n f).llc = s.llc := rfl
@[simp] theorem owner_modThread (n : Nat) (f : Thread → Thread) : (s.modThread n f).owner = s.owner := rfl
@[simp] theorem reduce_modThread (n : Nat) (f : Thread → Thread) : (s.modThread n f).reduce = s.reduce := rfl
@[simp] theorem regs_modThread (n : Nat) (f : Thread → Thread) : (s.modThread n f).regs = s.regs := rfl
@[simp] theorem reds_modThread (n : Nat) (f : Thread → Thread) : (s.modThread n f).reds = s.reds := rfl
@[simp] theorem excl_modThread (n : Nat) (f : Thread → Thread) : (s.modThread n f).excl = s.excl := rfl
@[simp] theorem holds_modThread (n : Nat) (f : Thread → Thread) : (s.modThread n f).holds = s.holds := rfl
@[simp] theorem exclTill_modThread (n : Nat) (f : Thread → Thread) : (s.modThread n f).exclTill = s.exclTill := rfl
@[simp] theorem dieTlb_modThread (n : Nat) (f : Thread → Thread) : (s.modThread n f).dieTlb = s.dieTlb := rfl
@[simp] theorem walks_modThread (n : Nat) (f : Thread → Thread) : (s.modThread n f).walks = s.walks := rfl
@[simp] theorem walkers_modThread (n : Nat) (f : Thread → Thread) : (s.modThread n f).walkers = s.walkers := rfl
@[simp] theorem gated_modThread (n : Nat) (f : Thread → Thread) : (s.modThread n f).gated = s.gated := rfl
@[simp] theorem wgth_modThread (n : Nat) (f : Thread → Thread) : (s.modThread n f).wgth = s.wgth := rfl
@[simp] theorem regions_modThread (n : Nat) (f : Thread → Thread) : (s.modThread n f).regions = s.regions := rfl
@[simp] theorem fmtw_modThread (n : Nat) (f : Thread → Thread) : (s.modThread n f).fmtw = s.fmtw := rfl
@[simp] theorem parts_modThread (n : Nat) (f : Thread → Thread) : (s.modThread n f).parts = s.parts := rfl
@[simp] theorem ctxs_modThread (n : Nat) (f : Thread → Thread) : (s.modThread n f).ctxs = s.ctxs := rfl
@[simp] theorem vfs_modThread (n : Nat) (f : Thread → Thread) : (s.modThread n f).vfs = s.vfs := rfl
@[simp] theorem fabric_modThread (n : Nat) (f : Thread → Thread) : (s.modThread n f).fabric = s.fabric := rfl
@[simp] theorem route_modThread (n : Nat) (f : Thread → Thread) : (s.modThread n f).route = s.route := rfl
@[simp] theorem portsDown_modThread (n : Nat) (f : Thread → Thread) : (s.modThread n f).portsDown = s.portsDown := rfl
@[simp] theorem linkDown_modThread (n : Nat) (f : Thread → Thread) : (s.modThread n f).linkDown = s.linkDown := rfl
@[simp] theorem orng_modThread (n : Nat) (f : Thread → Thread) : (s.modThread n f).orng = s.orng := rfl
@[simp] theorem gov_modThread (n : Nat) (f : Thread → Thread) : (s.modThread n f).gov = s.gov := rfl
@[simp] theorem rails_modThread (n : Nat) (f : Thread → Thread) : (s.modThread n f).rails = s.rails := rfl
@[simp] theorem hubEvsel_modThread (n : Nat) (f : Thread → Thread) : (s.modThread n f).hubEvsel = s.hubEvsel := rfl
@[simp] theorem hubEvcnt_modThread (n : Nat) (f : Thread → Thread) : (s.modThread n f).hubEvcnt = s.hubEvcnt := rfl
@[simp] theorem lost_modThread (n : Nat) (f : Thread → Thread) : (s.modThread n f).lost = s.lost := rfl
@[simp] theorem trust_modThread (n : Nat) (f : Thread → Thread) : (s.modThread n f).trust = s.trust := rfl
@[simp] theorem scan_modThread (n : Nat) (f : Thread → Thread) : (s.modThread n f).scan = s.scan := rfl

/-! ### modGroup -/

@[simp] theorem agenda_modGroup (n : Nat) (f : Group → Group) : (s.modGroup n f).agenda = s.agenda := rfl
@[simp] theorem cur_modGroup (n : Nat) (f : Group → Group) : (s.modGroup n f).cur = s.cur := rfl
@[simp] theorem free_modGroup (n : Nat) (f : Group → Group) : (s.modGroup n f).free = s.free := rfl
@[simp] theorem nextId_modGroup (n : Nat) (f : Group → Group) : (s.modGroup n f).nextId = s.nextId := rfl
@[simp] theorem now_modGroup (n : Nat) (f : Group → Group) : (s.modGroup n f).now = s.now := rfl
@[simp] theorem threads_modGroup (n : Nat) (f : Group → Group) : (s.modGroup n f).threads = s.threads := rfl
@[simp] theorem packets_modGroup (n : Nat) (f : Group → Group) : (s.modGroup n f).packets = s.packets := rfl
@[simp] theorem teams_modGroup (n : Nat) (f : Group → Group) : (s.modGroup n f).teams = s.teams := rfl
@[simp] theorem clusters_modGroup (n : Nat) (f : Group → Group) : (s.modGroup n f).clusters = s.clusters := rfl
@[simp] theorem grids_modGroup (n : Nat) (f : Group → Group) : (s.modGroup n f).grids = s.grids := rfl
@[simp] theorem launchReqs_modGroup (n : Nat) (f : Group → Group) : (s.modGroup n f).launchReqs = s.launchReqs := rfl
@[simp] theorem cores_modGroup (n : Nat) (f : Group → Group) : (s.modGroup n f).cores = s.cores := rfl
@[simp] theorem mem_modGroup (n : Nat) (f : Group → Group) : (s.modGroup n f).mem = s.mem := rfl
@[simp] theorem vault_modGroup (n : Nat) (f : Group → Group) : (s.modGroup n f).vault = s.vault := rfl
@[simp] theorem poison_modGroup (n : Nat) (f : Group → Group) : (s.modGroup n f).poison = s.poison := rfl
@[simp] theorem poison8_modGroup (n : Nat) (f : Group → Group) : (s.modGroup n f).poison8 = s.poison8 := rfl
@[simp] theorem garbled_modGroup (n : Nat) (f : Group → Group) : (s.modGroup n f).garbled = s.garbled := rfl
@[simp] theorem regrown_modGroup (n : Nat) (f : Group → Group) : (s.modGroup n f).regrown = s.regrown := rfl
@[simp] theorem llc_modGroup (n : Nat) (f : Group → Group) : (s.modGroup n f).llc = s.llc := rfl
@[simp] theorem owner_modGroup (n : Nat) (f : Group → Group) : (s.modGroup n f).owner = s.owner := rfl
@[simp] theorem reduce_modGroup (n : Nat) (f : Group → Group) : (s.modGroup n f).reduce = s.reduce := rfl
@[simp] theorem regs_modGroup (n : Nat) (f : Group → Group) : (s.modGroup n f).regs = s.regs := rfl
@[simp] theorem reds_modGroup (n : Nat) (f : Group → Group) : (s.modGroup n f).reds = s.reds := rfl
@[simp] theorem excl_modGroup (n : Nat) (f : Group → Group) : (s.modGroup n f).excl = s.excl := rfl
@[simp] theorem holds_modGroup (n : Nat) (f : Group → Group) : (s.modGroup n f).holds = s.holds := rfl
@[simp] theorem exclTill_modGroup (n : Nat) (f : Group → Group) : (s.modGroup n f).exclTill = s.exclTill := rfl
@[simp] theorem dieTlb_modGroup (n : Nat) (f : Group → Group) : (s.modGroup n f).dieTlb = s.dieTlb := rfl
@[simp] theorem walks_modGroup (n : Nat) (f : Group → Group) : (s.modGroup n f).walks = s.walks := rfl
@[simp] theorem walkers_modGroup (n : Nat) (f : Group → Group) : (s.modGroup n f).walkers = s.walkers := rfl
@[simp] theorem gated_modGroup (n : Nat) (f : Group → Group) : (s.modGroup n f).gated = s.gated := rfl
@[simp] theorem wgth_modGroup (n : Nat) (f : Group → Group) : (s.modGroup n f).wgth = s.wgth := rfl
@[simp] theorem regions_modGroup (n : Nat) (f : Group → Group) : (s.modGroup n f).regions = s.regions := rfl
@[simp] theorem fmtw_modGroup (n : Nat) (f : Group → Group) : (s.modGroup n f).fmtw = s.fmtw := rfl
@[simp] theorem parts_modGroup (n : Nat) (f : Group → Group) : (s.modGroup n f).parts = s.parts := rfl
@[simp] theorem ctxs_modGroup (n : Nat) (f : Group → Group) : (s.modGroup n f).ctxs = s.ctxs := rfl
@[simp] theorem vfs_modGroup (n : Nat) (f : Group → Group) : (s.modGroup n f).vfs = s.vfs := rfl
@[simp] theorem fabric_modGroup (n : Nat) (f : Group → Group) : (s.modGroup n f).fabric = s.fabric := rfl
@[simp] theorem route_modGroup (n : Nat) (f : Group → Group) : (s.modGroup n f).route = s.route := rfl
@[simp] theorem portsDown_modGroup (n : Nat) (f : Group → Group) : (s.modGroup n f).portsDown = s.portsDown := rfl
@[simp] theorem linkDown_modGroup (n : Nat) (f : Group → Group) : (s.modGroup n f).linkDown = s.linkDown := rfl
@[simp] theorem orng_modGroup (n : Nat) (f : Group → Group) : (s.modGroup n f).orng = s.orng := rfl
@[simp] theorem gov_modGroup (n : Nat) (f : Group → Group) : (s.modGroup n f).gov = s.gov := rfl
@[simp] theorem rails_modGroup (n : Nat) (f : Group → Group) : (s.modGroup n f).rails = s.rails := rfl
@[simp] theorem hubEvsel_modGroup (n : Nat) (f : Group → Group) : (s.modGroup n f).hubEvsel = s.hubEvsel := rfl
@[simp] theorem hubEvcnt_modGroup (n : Nat) (f : Group → Group) : (s.modGroup n f).hubEvcnt = s.hubEvcnt := rfl
@[simp] theorem lost_modGroup (n : Nat) (f : Group → Group) : (s.modGroup n f).lost = s.lost := rfl
@[simp] theorem trust_modGroup (n : Nat) (f : Group → Group) : (s.modGroup n f).trust = s.trust := rfl
@[simp] theorem scan_modGroup (n : Nat) (f : Group → Group) : (s.modGroup n f).scan = s.scan := rfl

/-! ### modTeam -/

@[simp] theorem agenda_modTeam (n : Nat) (f : Team → Team) : (s.modTeam n f).agenda = s.agenda := rfl
@[simp] theorem cur_modTeam (n : Nat) (f : Team → Team) : (s.modTeam n f).cur = s.cur := rfl
@[simp] theorem free_modTeam (n : Nat) (f : Team → Team) : (s.modTeam n f).free = s.free := rfl
@[simp] theorem nextId_modTeam (n : Nat) (f : Team → Team) : (s.modTeam n f).nextId = s.nextId := rfl
@[simp] theorem now_modTeam (n : Nat) (f : Team → Team) : (s.modTeam n f).now = s.now := rfl
@[simp] theorem threads_modTeam (n : Nat) (f : Team → Team) : (s.modTeam n f).threads = s.threads := rfl
@[simp] theorem packets_modTeam (n : Nat) (f : Team → Team) : (s.modTeam n f).packets = s.packets := rfl
@[simp] theorem groups_modTeam (n : Nat) (f : Team → Team) : (s.modTeam n f).groups = s.groups := rfl
@[simp] theorem clusters_modTeam (n : Nat) (f : Team → Team) : (s.modTeam n f).clusters = s.clusters := rfl
@[simp] theorem grids_modTeam (n : Nat) (f : Team → Team) : (s.modTeam n f).grids = s.grids := rfl
@[simp] theorem launchReqs_modTeam (n : Nat) (f : Team → Team) : (s.modTeam n f).launchReqs = s.launchReqs := rfl
@[simp] theorem cores_modTeam (n : Nat) (f : Team → Team) : (s.modTeam n f).cores = s.cores := rfl
@[simp] theorem mem_modTeam (n : Nat) (f : Team → Team) : (s.modTeam n f).mem = s.mem := rfl
@[simp] theorem vault_modTeam (n : Nat) (f : Team → Team) : (s.modTeam n f).vault = s.vault := rfl
@[simp] theorem poison_modTeam (n : Nat) (f : Team → Team) : (s.modTeam n f).poison = s.poison := rfl
@[simp] theorem poison8_modTeam (n : Nat) (f : Team → Team) : (s.modTeam n f).poison8 = s.poison8 := rfl
@[simp] theorem garbled_modTeam (n : Nat) (f : Team → Team) : (s.modTeam n f).garbled = s.garbled := rfl
@[simp] theorem regrown_modTeam (n : Nat) (f : Team → Team) : (s.modTeam n f).regrown = s.regrown := rfl
@[simp] theorem llc_modTeam (n : Nat) (f : Team → Team) : (s.modTeam n f).llc = s.llc := rfl
@[simp] theorem owner_modTeam (n : Nat) (f : Team → Team) : (s.modTeam n f).owner = s.owner := rfl
@[simp] theorem reduce_modTeam (n : Nat) (f : Team → Team) : (s.modTeam n f).reduce = s.reduce := rfl
@[simp] theorem regs_modTeam (n : Nat) (f : Team → Team) : (s.modTeam n f).regs = s.regs := rfl
@[simp] theorem reds_modTeam (n : Nat) (f : Team → Team) : (s.modTeam n f).reds = s.reds := rfl
@[simp] theorem excl_modTeam (n : Nat) (f : Team → Team) : (s.modTeam n f).excl = s.excl := rfl
@[simp] theorem holds_modTeam (n : Nat) (f : Team → Team) : (s.modTeam n f).holds = s.holds := rfl
@[simp] theorem exclTill_modTeam (n : Nat) (f : Team → Team) : (s.modTeam n f).exclTill = s.exclTill := rfl
@[simp] theorem dieTlb_modTeam (n : Nat) (f : Team → Team) : (s.modTeam n f).dieTlb = s.dieTlb := rfl
@[simp] theorem walks_modTeam (n : Nat) (f : Team → Team) : (s.modTeam n f).walks = s.walks := rfl
@[simp] theorem walkers_modTeam (n : Nat) (f : Team → Team) : (s.modTeam n f).walkers = s.walkers := rfl
@[simp] theorem gated_modTeam (n : Nat) (f : Team → Team) : (s.modTeam n f).gated = s.gated := rfl
@[simp] theorem wgth_modTeam (n : Nat) (f : Team → Team) : (s.modTeam n f).wgth = s.wgth := rfl
@[simp] theorem regions_modTeam (n : Nat) (f : Team → Team) : (s.modTeam n f).regions = s.regions := rfl
@[simp] theorem fmtw_modTeam (n : Nat) (f : Team → Team) : (s.modTeam n f).fmtw = s.fmtw := rfl
@[simp] theorem parts_modTeam (n : Nat) (f : Team → Team) : (s.modTeam n f).parts = s.parts := rfl
@[simp] theorem ctxs_modTeam (n : Nat) (f : Team → Team) : (s.modTeam n f).ctxs = s.ctxs := rfl
@[simp] theorem vfs_modTeam (n : Nat) (f : Team → Team) : (s.modTeam n f).vfs = s.vfs := rfl
@[simp] theorem fabric_modTeam (n : Nat) (f : Team → Team) : (s.modTeam n f).fabric = s.fabric := rfl
@[simp] theorem route_modTeam (n : Nat) (f : Team → Team) : (s.modTeam n f).route = s.route := rfl
@[simp] theorem portsDown_modTeam (n : Nat) (f : Team → Team) : (s.modTeam n f).portsDown = s.portsDown := rfl
@[simp] theorem linkDown_modTeam (n : Nat) (f : Team → Team) : (s.modTeam n f).linkDown = s.linkDown := rfl
@[simp] theorem orng_modTeam (n : Nat) (f : Team → Team) : (s.modTeam n f).orng = s.orng := rfl
@[simp] theorem gov_modTeam (n : Nat) (f : Team → Team) : (s.modTeam n f).gov = s.gov := rfl
@[simp] theorem rails_modTeam (n : Nat) (f : Team → Team) : (s.modTeam n f).rails = s.rails := rfl
@[simp] theorem hubEvsel_modTeam (n : Nat) (f : Team → Team) : (s.modTeam n f).hubEvsel = s.hubEvsel := rfl
@[simp] theorem hubEvcnt_modTeam (n : Nat) (f : Team → Team) : (s.modTeam n f).hubEvcnt = s.hubEvcnt := rfl
@[simp] theorem lost_modTeam (n : Nat) (f : Team → Team) : (s.modTeam n f).lost = s.lost := rfl
@[simp] theorem trust_modTeam (n : Nat) (f : Team → Team) : (s.modTeam n f).trust = s.trust := rfl
@[simp] theorem scan_modTeam (n : Nat) (f : Team → Team) : (s.modTeam n f).scan = s.scan := rfl

/-! ### mapThreads -/

@[simp] theorem agenda_mapThreads (l : List Nat) (f : Nat → Thread → Thread) : (s.mapThreads l f).agenda = s.agenda := rfl
@[simp] theorem cur_mapThreads (l : List Nat) (f : Nat → Thread → Thread) : (s.mapThreads l f).cur = s.cur := rfl
@[simp] theorem free_mapThreads (l : List Nat) (f : Nat → Thread → Thread) : (s.mapThreads l f).free = s.free := rfl
@[simp] theorem nextId_mapThreads (l : List Nat) (f : Nat → Thread → Thread) : (s.mapThreads l f).nextId = s.nextId := rfl
@[simp] theorem now_mapThreads (l : List Nat) (f : Nat → Thread → Thread) : (s.mapThreads l f).now = s.now := rfl
@[simp] theorem packets_mapThreads (l : List Nat) (f : Nat → Thread → Thread) : (s.mapThreads l f).packets = s.packets := rfl
@[simp] theorem groups_mapThreads (l : List Nat) (f : Nat → Thread → Thread) : (s.mapThreads l f).groups = s.groups := rfl
@[simp] theorem teams_mapThreads (l : List Nat) (f : Nat → Thread → Thread) : (s.mapThreads l f).teams = s.teams := rfl
@[simp] theorem clusters_mapThreads (l : List Nat) (f : Nat → Thread → Thread) : (s.mapThreads l f).clusters = s.clusters := rfl
@[simp] theorem grids_mapThreads (l : List Nat) (f : Nat → Thread → Thread) : (s.mapThreads l f).grids = s.grids := rfl
@[simp] theorem launchReqs_mapThreads (l : List Nat) (f : Nat → Thread → Thread) : (s.mapThreads l f).launchReqs = s.launchReqs := rfl
@[simp] theorem cores_mapThreads (l : List Nat) (f : Nat → Thread → Thread) : (s.mapThreads l f).cores = s.cores := rfl
@[simp] theorem mem_mapThreads (l : List Nat) (f : Nat → Thread → Thread) : (s.mapThreads l f).mem = s.mem := rfl
@[simp] theorem vault_mapThreads (l : List Nat) (f : Nat → Thread → Thread) : (s.mapThreads l f).vault = s.vault := rfl
@[simp] theorem poison_mapThreads (l : List Nat) (f : Nat → Thread → Thread) : (s.mapThreads l f).poison = s.poison := rfl
@[simp] theorem poison8_mapThreads (l : List Nat) (f : Nat → Thread → Thread) : (s.mapThreads l f).poison8 = s.poison8 := rfl
@[simp] theorem garbled_mapThreads (l : List Nat) (f : Nat → Thread → Thread) : (s.mapThreads l f).garbled = s.garbled := rfl
@[simp] theorem regrown_mapThreads (l : List Nat) (f : Nat → Thread → Thread) : (s.mapThreads l f).regrown = s.regrown := rfl
@[simp] theorem llc_mapThreads (l : List Nat) (f : Nat → Thread → Thread) : (s.mapThreads l f).llc = s.llc := rfl
@[simp] theorem owner_mapThreads (l : List Nat) (f : Nat → Thread → Thread) : (s.mapThreads l f).owner = s.owner := rfl
@[simp] theorem reduce_mapThreads (l : List Nat) (f : Nat → Thread → Thread) : (s.mapThreads l f).reduce = s.reduce := rfl
@[simp] theorem regs_mapThreads (l : List Nat) (f : Nat → Thread → Thread) : (s.mapThreads l f).regs = s.regs := rfl
@[simp] theorem reds_mapThreads (l : List Nat) (f : Nat → Thread → Thread) : (s.mapThreads l f).reds = s.reds := rfl
@[simp] theorem excl_mapThreads (l : List Nat) (f : Nat → Thread → Thread) : (s.mapThreads l f).excl = s.excl := rfl
@[simp] theorem holds_mapThreads (l : List Nat) (f : Nat → Thread → Thread) : (s.mapThreads l f).holds = s.holds := rfl
@[simp] theorem exclTill_mapThreads (l : List Nat) (f : Nat → Thread → Thread) : (s.mapThreads l f).exclTill = s.exclTill := rfl
@[simp] theorem dieTlb_mapThreads (l : List Nat) (f : Nat → Thread → Thread) : (s.mapThreads l f).dieTlb = s.dieTlb := rfl
@[simp] theorem walks_mapThreads (l : List Nat) (f : Nat → Thread → Thread) : (s.mapThreads l f).walks = s.walks := rfl
@[simp] theorem walkers_mapThreads (l : List Nat) (f : Nat → Thread → Thread) : (s.mapThreads l f).walkers = s.walkers := rfl
@[simp] theorem gated_mapThreads (l : List Nat) (f : Nat → Thread → Thread) : (s.mapThreads l f).gated = s.gated := rfl
@[simp] theorem wgth_mapThreads (l : List Nat) (f : Nat → Thread → Thread) : (s.mapThreads l f).wgth = s.wgth := rfl
@[simp] theorem regions_mapThreads (l : List Nat) (f : Nat → Thread → Thread) : (s.mapThreads l f).regions = s.regions := rfl
@[simp] theorem fmtw_mapThreads (l : List Nat) (f : Nat → Thread → Thread) : (s.mapThreads l f).fmtw = s.fmtw := rfl
@[simp] theorem parts_mapThreads (l : List Nat) (f : Nat → Thread → Thread) : (s.mapThreads l f).parts = s.parts := rfl
@[simp] theorem ctxs_mapThreads (l : List Nat) (f : Nat → Thread → Thread) : (s.mapThreads l f).ctxs = s.ctxs := rfl
@[simp] theorem vfs_mapThreads (l : List Nat) (f : Nat → Thread → Thread) : (s.mapThreads l f).vfs = s.vfs := rfl
@[simp] theorem fabric_mapThreads (l : List Nat) (f : Nat → Thread → Thread) : (s.mapThreads l f).fabric = s.fabric := rfl
@[simp] theorem route_mapThreads (l : List Nat) (f : Nat → Thread → Thread) : (s.mapThreads l f).route = s.route := rfl
@[simp] theorem portsDown_mapThreads (l : List Nat) (f : Nat → Thread → Thread) : (s.mapThreads l f).portsDown = s.portsDown := rfl
@[simp] theorem linkDown_mapThreads (l : List Nat) (f : Nat → Thread → Thread) : (s.mapThreads l f).linkDown = s.linkDown := rfl
@[simp] theorem orng_mapThreads (l : List Nat) (f : Nat → Thread → Thread) : (s.mapThreads l f).orng = s.orng := rfl
@[simp] theorem gov_mapThreads (l : List Nat) (f : Nat → Thread → Thread) : (s.mapThreads l f).gov = s.gov := rfl
@[simp] theorem rails_mapThreads (l : List Nat) (f : Nat → Thread → Thread) : (s.mapThreads l f).rails = s.rails := rfl
@[simp] theorem hubEvsel_mapThreads (l : List Nat) (f : Nat → Thread → Thread) : (s.mapThreads l f).hubEvsel = s.hubEvsel := rfl
@[simp] theorem hubEvcnt_mapThreads (l : List Nat) (f : Nat → Thread → Thread) : (s.mapThreads l f).hubEvcnt = s.hubEvcnt := rfl
@[simp] theorem lost_mapThreads (l : List Nat) (f : Nat → Thread → Thread) : (s.mapThreads l f).lost = s.lost := rfl
@[simp] theorem trust_mapThreads (l : List Nat) (f : Nat → Thread → Thread) : (s.mapThreads l f).trust = s.trust := rfl
@[simp] theorem scan_mapThreads (l : List Nat) (f : Nat → Thread → Thread) : (s.mapThreads l f).scan = s.scan := rfl

/-! ### setPart -/

@[simp] theorem agenda_setPart (n : Nat) (x : Part) : (s.setPart n x).agenda = s.agenda := rfl
@[simp] theorem cur_setPart (n : Nat) (x : Part) : (s.setPart n x).cur = s.cur := rfl
@[simp] theorem free_setPart (n : Nat) (x : Part) : (s.setPart n x).free = s.free := rfl
@[simp] theorem nextId_setPart (n : Nat) (x : Part) : (s.setPart n x).nextId = s.nextId := rfl
@[simp] theorem now_setPart (n : Nat) (x : Part) : (s.setPart n x).now = s.now := rfl
@[simp] theorem threads_setPart (n : Nat) (x : Part) : (s.setPart n x).threads = s.threads := rfl
@[simp] theorem packets_setPart (n : Nat) (x : Part) : (s.setPart n x).packets = s.packets := rfl
@[simp] theorem groups_setPart (n : Nat) (x : Part) : (s.setPart n x).groups = s.groups := rfl
@[simp] theorem teams_setPart (n : Nat) (x : Part) : (s.setPart n x).teams = s.teams := rfl
@[simp] theorem clusters_setPart (n : Nat) (x : Part) : (s.setPart n x).clusters = s.clusters := rfl
@[simp] theorem grids_setPart (n : Nat) (x : Part) : (s.setPart n x).grids = s.grids := rfl
@[simp] theorem launchReqs_setPart (n : Nat) (x : Part) : (s.setPart n x).launchReqs = s.launchReqs := rfl
@[simp] theorem cores_setPart (n : Nat) (x : Part) : (s.setPart n x).cores = s.cores := rfl
@[simp] theorem mem_setPart (n : Nat) (x : Part) : (s.setPart n x).mem = s.mem := rfl
@[simp] theorem vault_setPart (n : Nat) (x : Part) : (s.setPart n x).vault = s.vault := rfl
@[simp] theorem poison_setPart (n : Nat) (x : Part) : (s.setPart n x).poison = s.poison := rfl
@[simp] theorem poison8_setPart (n : Nat) (x : Part) : (s.setPart n x).poison8 = s.poison8 := rfl
@[simp] theorem garbled_setPart (n : Nat) (x : Part) : (s.setPart n x).garbled = s.garbled := rfl
@[simp] theorem regrown_setPart (n : Nat) (x : Part) : (s.setPart n x).regrown = s.regrown := rfl
@[simp] theorem llc_setPart (n : Nat) (x : Part) : (s.setPart n x).llc = s.llc := rfl
@[simp] theorem owner_setPart (n : Nat) (x : Part) : (s.setPart n x).owner = s.owner := rfl
@[simp] theorem reduce_setPart (n : Nat) (x : Part) : (s.setPart n x).reduce = s.reduce := rfl
@[simp] theorem regs_setPart (n : Nat) (x : Part) : (s.setPart n x).regs = s.regs := rfl
@[simp] theorem reds_setPart (n : Nat) (x : Part) : (s.setPart n x).reds = s.reds := rfl
@[simp] theorem excl_setPart (n : Nat) (x : Part) : (s.setPart n x).excl = s.excl := rfl
@[simp] theorem holds_setPart (n : Nat) (x : Part) : (s.setPart n x).holds = s.holds := rfl
@[simp] theorem exclTill_setPart (n : Nat) (x : Part) : (s.setPart n x).exclTill = s.exclTill := rfl
@[simp] theorem dieTlb_setPart (n : Nat) (x : Part) : (s.setPart n x).dieTlb = s.dieTlb := rfl
@[simp] theorem walks_setPart (n : Nat) (x : Part) : (s.setPart n x).walks = s.walks := rfl
@[simp] theorem walkers_setPart (n : Nat) (x : Part) : (s.setPart n x).walkers = s.walkers := rfl
@[simp] theorem gated_setPart (n : Nat) (x : Part) : (s.setPart n x).gated = s.gated := rfl
@[simp] theorem wgth_setPart (n : Nat) (x : Part) : (s.setPart n x).wgth = s.wgth := rfl
@[simp] theorem regions_setPart (n : Nat) (x : Part) : (s.setPart n x).regions = s.regions := rfl
@[simp] theorem fmtw_setPart (n : Nat) (x : Part) : (s.setPart n x).fmtw = s.fmtw := rfl
@[simp] theorem ctxs_setPart (n : Nat) (x : Part) : (s.setPart n x).ctxs = s.ctxs := rfl
@[simp] theorem vfs_setPart (n : Nat) (x : Part) : (s.setPart n x).vfs = s.vfs := rfl
@[simp] theorem fabric_setPart (n : Nat) (x : Part) : (s.setPart n x).fabric = s.fabric := rfl
@[simp] theorem route_setPart (n : Nat) (x : Part) : (s.setPart n x).route = s.route := rfl
@[simp] theorem portsDown_setPart (n : Nat) (x : Part) : (s.setPart n x).portsDown = s.portsDown := rfl
@[simp] theorem linkDown_setPart (n : Nat) (x : Part) : (s.setPart n x).linkDown = s.linkDown := rfl
@[simp] theorem orng_setPart (n : Nat) (x : Part) : (s.setPart n x).orng = s.orng := rfl
@[simp] theorem gov_setPart (n : Nat) (x : Part) : (s.setPart n x).gov = s.gov := rfl
@[simp] theorem rails_setPart (n : Nat) (x : Part) : (s.setPart n x).rails = s.rails := rfl
@[simp] theorem hubEvsel_setPart (n : Nat) (x : Part) : (s.setPart n x).hubEvsel = s.hubEvsel := rfl
@[simp] theorem hubEvcnt_setPart (n : Nat) (x : Part) : (s.setPart n x).hubEvcnt = s.hubEvcnt := rfl
@[simp] theorem lost_setPart (n : Nat) (x : Part) : (s.setPart n x).lost = s.lost := rfl
@[simp] theorem trust_setPart (n : Nat) (x : Part) : (s.setPart n x).trust = s.trust := rfl
@[simp] theorem scan_setPart (n : Nat) (x : Part) : (s.setPart n x).scan = s.scan := rfl

/-! ### setVf -/

@[simp] theorem agenda_setVf (n : Nat) (x : Vf) : (s.setVf n x).agenda = s.agenda := rfl
@[simp] theorem cur_setVf (n : Nat) (x : Vf) : (s.setVf n x).cur = s.cur := rfl
@[simp] theorem free_setVf (n : Nat) (x : Vf) : (s.setVf n x).free = s.free := rfl
@[simp] theorem nextId_setVf (n : Nat) (x : Vf) : (s.setVf n x).nextId = s.nextId := rfl
@[simp] theorem now_setVf (n : Nat) (x : Vf) : (s.setVf n x).now = s.now := rfl
@[simp] theorem threads_setVf (n : Nat) (x : Vf) : (s.setVf n x).threads = s.threads := rfl
@[simp] theorem packets_setVf (n : Nat) (x : Vf) : (s.setVf n x).packets = s.packets := rfl
@[simp] theorem groups_setVf (n : Nat) (x : Vf) : (s.setVf n x).groups = s.groups := rfl
@[simp] theorem teams_setVf (n : Nat) (x : Vf) : (s.setVf n x).teams = s.teams := rfl
@[simp] theorem clusters_setVf (n : Nat) (x : Vf) : (s.setVf n x).clusters = s.clusters := rfl
@[simp] theorem grids_setVf (n : Nat) (x : Vf) : (s.setVf n x).grids = s.grids := rfl
@[simp] theorem launchReqs_setVf (n : Nat) (x : Vf) : (s.setVf n x).launchReqs = s.launchReqs := rfl
@[simp] theorem cores_setVf (n : Nat) (x : Vf) : (s.setVf n x).cores = s.cores := rfl
@[simp] theorem mem_setVf (n : Nat) (x : Vf) : (s.setVf n x).mem = s.mem := rfl
@[simp] theorem vault_setVf (n : Nat) (x : Vf) : (s.setVf n x).vault = s.vault := rfl
@[simp] theorem poison_setVf (n : Nat) (x : Vf) : (s.setVf n x).poison = s.poison := rfl
@[simp] theorem poison8_setVf (n : Nat) (x : Vf) : (s.setVf n x).poison8 = s.poison8 := rfl
@[simp] theorem garbled_setVf (n : Nat) (x : Vf) : (s.setVf n x).garbled = s.garbled := rfl
@[simp] theorem regrown_setVf (n : Nat) (x : Vf) : (s.setVf n x).regrown = s.regrown := rfl
@[simp] theorem llc_setVf (n : Nat) (x : Vf) : (s.setVf n x).llc = s.llc := rfl
@[simp] theorem owner_setVf (n : Nat) (x : Vf) : (s.setVf n x).owner = s.owner := rfl
@[simp] theorem reduce_setVf (n : Nat) (x : Vf) : (s.setVf n x).reduce = s.reduce := rfl
@[simp] theorem regs_setVf (n : Nat) (x : Vf) : (s.setVf n x).regs = s.regs := rfl
@[simp] theorem reds_setVf (n : Nat) (x : Vf) : (s.setVf n x).reds = s.reds := rfl
@[simp] theorem excl_setVf (n : Nat) (x : Vf) : (s.setVf n x).excl = s.excl := rfl
@[simp] theorem holds_setVf (n : Nat) (x : Vf) : (s.setVf n x).holds = s.holds := rfl
@[simp] theorem exclTill_setVf (n : Nat) (x : Vf) : (s.setVf n x).exclTill = s.exclTill := rfl
@[simp] theorem dieTlb_setVf (n : Nat) (x : Vf) : (s.setVf n x).dieTlb = s.dieTlb := rfl
@[simp] theorem walks_setVf (n : Nat) (x : Vf) : (s.setVf n x).walks = s.walks := rfl
@[simp] theorem walkers_setVf (n : Nat) (x : Vf) : (s.setVf n x).walkers = s.walkers := rfl
@[simp] theorem gated_setVf (n : Nat) (x : Vf) : (s.setVf n x).gated = s.gated := rfl
@[simp] theorem wgth_setVf (n : Nat) (x : Vf) : (s.setVf n x).wgth = s.wgth := rfl
@[simp] theorem regions_setVf (n : Nat) (x : Vf) : (s.setVf n x).regions = s.regions := rfl
@[simp] theorem fmtw_setVf (n : Nat) (x : Vf) : (s.setVf n x).fmtw = s.fmtw := rfl
@[simp] theorem parts_setVf (n : Nat) (x : Vf) : (s.setVf n x).parts = s.parts := rfl
@[simp] theorem ctxs_setVf (n : Nat) (x : Vf) : (s.setVf n x).ctxs = s.ctxs := rfl
@[simp] theorem fabric_setVf (n : Nat) (x : Vf) : (s.setVf n x).fabric = s.fabric := rfl
@[simp] theorem route_setVf (n : Nat) (x : Vf) : (s.setVf n x).route = s.route := rfl
@[simp] theorem portsDown_setVf (n : Nat) (x : Vf) : (s.setVf n x).portsDown = s.portsDown := rfl
@[simp] theorem linkDown_setVf (n : Nat) (x : Vf) : (s.setVf n x).linkDown = s.linkDown := rfl
@[simp] theorem orng_setVf (n : Nat) (x : Vf) : (s.setVf n x).orng = s.orng := rfl
@[simp] theorem gov_setVf (n : Nat) (x : Vf) : (s.setVf n x).gov = s.gov := rfl
@[simp] theorem rails_setVf (n : Nat) (x : Vf) : (s.setVf n x).rails = s.rails := rfl
@[simp] theorem hubEvsel_setVf (n : Nat) (x : Vf) : (s.setVf n x).hubEvsel = s.hubEvsel := rfl
@[simp] theorem hubEvcnt_setVf (n : Nat) (x : Vf) : (s.setVf n x).hubEvcnt = s.hubEvcnt := rfl
@[simp] theorem lost_setVf (n : Nat) (x : Vf) : (s.setVf n x).lost = s.lost := rfl
@[simp] theorem trust_setVf (n : Nat) (x : Vf) : (s.setVf n x).trust = s.trust := rfl
@[simp] theorem scan_setVf (n : Nat) (x : Vf) : (s.setVf n x).scan = s.scan := rfl

/-! ### setDie -/

@[simp] theorem agenda_setDie (n : Nat) (x : Orng) : (s.setDie n x).agenda = s.agenda := rfl
@[simp] theorem cur_setDie (n : Nat) (x : Orng) : (s.setDie n x).cur = s.cur := rfl
@[simp] theorem free_setDie (n : Nat) (x : Orng) : (s.setDie n x).free = s.free := rfl
@[simp] theorem nextId_setDie (n : Nat) (x : Orng) : (s.setDie n x).nextId = s.nextId := rfl
@[simp] theorem now_setDie (n : Nat) (x : Orng) : (s.setDie n x).now = s.now := rfl
@[simp] theorem threads_setDie (n : Nat) (x : Orng) : (s.setDie n x).threads = s.threads := rfl
@[simp] theorem packets_setDie (n : Nat) (x : Orng) : (s.setDie n x).packets = s.packets := rfl
@[simp] theorem groups_setDie (n : Nat) (x : Orng) : (s.setDie n x).groups = s.groups := rfl
@[simp] theorem teams_setDie (n : Nat) (x : Orng) : (s.setDie n x).teams = s.teams := rfl
@[simp] theorem clusters_setDie (n : Nat) (x : Orng) : (s.setDie n x).clusters = s.clusters := rfl
@[simp] theorem grids_setDie (n : Nat) (x : Orng) : (s.setDie n x).grids = s.grids := rfl
@[simp] theorem launchReqs_setDie (n : Nat) (x : Orng) : (s.setDie n x).launchReqs = s.launchReqs := rfl
@[simp] theorem cores_setDie (n : Nat) (x : Orng) : (s.setDie n x).cores = s.cores := rfl
@[simp] theorem mem_setDie (n : Nat) (x : Orng) : (s.setDie n x).mem = s.mem := rfl
@[simp] theorem vault_setDie (n : Nat) (x : Orng) : (s.setDie n x).vault = s.vault := rfl
@[simp] theorem poison_setDie (n : Nat) (x : Orng) : (s.setDie n x).poison = s.poison := rfl
@[simp] theorem poison8_setDie (n : Nat) (x : Orng) : (s.setDie n x).poison8 = s.poison8 := rfl
@[simp] theorem garbled_setDie (n : Nat) (x : Orng) : (s.setDie n x).garbled = s.garbled := rfl
@[simp] theorem regrown_setDie (n : Nat) (x : Orng) : (s.setDie n x).regrown = s.regrown := rfl
@[simp] theorem llc_setDie (n : Nat) (x : Orng) : (s.setDie n x).llc = s.llc := rfl
@[simp] theorem owner_setDie (n : Nat) (x : Orng) : (s.setDie n x).owner = s.owner := rfl
@[simp] theorem reduce_setDie (n : Nat) (x : Orng) : (s.setDie n x).reduce = s.reduce := rfl
@[simp] theorem regs_setDie (n : Nat) (x : Orng) : (s.setDie n x).regs = s.regs := rfl
@[simp] theorem reds_setDie (n : Nat) (x : Orng) : (s.setDie n x).reds = s.reds := rfl
@[simp] theorem excl_setDie (n : Nat) (x : Orng) : (s.setDie n x).excl = s.excl := rfl
@[simp] theorem holds_setDie (n : Nat) (x : Orng) : (s.setDie n x).holds = s.holds := rfl
@[simp] theorem exclTill_setDie (n : Nat) (x : Orng) : (s.setDie n x).exclTill = s.exclTill := rfl
@[simp] theorem dieTlb_setDie (n : Nat) (x : Orng) : (s.setDie n x).dieTlb = s.dieTlb := rfl
@[simp] theorem walks_setDie (n : Nat) (x : Orng) : (s.setDie n x).walks = s.walks := rfl
@[simp] theorem walkers_setDie (n : Nat) (x : Orng) : (s.setDie n x).walkers = s.walkers := rfl
@[simp] theorem gated_setDie (n : Nat) (x : Orng) : (s.setDie n x).gated = s.gated := rfl
@[simp] theorem wgth_setDie (n : Nat) (x : Orng) : (s.setDie n x).wgth = s.wgth := rfl
@[simp] theorem regions_setDie (n : Nat) (x : Orng) : (s.setDie n x).regions = s.regions := rfl
@[simp] theorem fmtw_setDie (n : Nat) (x : Orng) : (s.setDie n x).fmtw = s.fmtw := rfl
@[simp] theorem parts_setDie (n : Nat) (x : Orng) : (s.setDie n x).parts = s.parts := rfl
@[simp] theorem ctxs_setDie (n : Nat) (x : Orng) : (s.setDie n x).ctxs = s.ctxs := rfl
@[simp] theorem vfs_setDie (n : Nat) (x : Orng) : (s.setDie n x).vfs = s.vfs := rfl
@[simp] theorem fabric_setDie (n : Nat) (x : Orng) : (s.setDie n x).fabric = s.fabric := rfl
@[simp] theorem route_setDie (n : Nat) (x : Orng) : (s.setDie n x).route = s.route := rfl
@[simp] theorem portsDown_setDie (n : Nat) (x : Orng) : (s.setDie n x).portsDown = s.portsDown := rfl
@[simp] theorem linkDown_setDie (n : Nat) (x : Orng) : (s.setDie n x).linkDown = s.linkDown := rfl
@[simp] theorem gov_setDie (n : Nat) (x : Orng) : (s.setDie n x).gov = s.gov := rfl
@[simp] theorem rails_setDie (n : Nat) (x : Orng) : (s.setDie n x).rails = s.rails := rfl
@[simp] theorem hubEvsel_setDie (n : Nat) (x : Orng) : (s.setDie n x).hubEvsel = s.hubEvsel := rfl
@[simp] theorem hubEvcnt_setDie (n : Nat) (x : Orng) : (s.setDie n x).hubEvcnt = s.hubEvcnt := rfl
@[simp] theorem lost_setDie (n : Nat) (x : Orng) : (s.setDie n x).lost = s.lost := rfl
@[simp] theorem trust_setDie (n : Nat) (x : Orng) : (s.setDie n x).trust = s.trust := rfl
@[simp] theorem scan_setDie (n : Nat) (x : Orng) : (s.setDie n x).scan = s.scan := rfl

/-! ### modCtx -/

@[simp] theorem agenda_modCtx (n : Nat) (f : Ctx → Ctx) : (s.modCtx n f).agenda = s.agenda := rfl
@[simp] theorem cur_modCtx (n : Nat) (f : Ctx → Ctx) : (s.modCtx n f).cur = s.cur := rfl
@[simp] theorem free_modCtx (n : Nat) (f : Ctx → Ctx) : (s.modCtx n f).free = s.free := rfl
@[simp] theorem nextId_modCtx (n : Nat) (f : Ctx → Ctx) : (s.modCtx n f).nextId = s.nextId := rfl
@[simp] theorem now_modCtx (n : Nat) (f : Ctx → Ctx) : (s.modCtx n f).now = s.now := rfl
@[simp] theorem threads_modCtx (n : Nat) (f : Ctx → Ctx) : (s.modCtx n f).threads = s.threads := rfl
@[simp] theorem packets_modCtx (n : Nat) (f : Ctx → Ctx) : (s.modCtx n f).packets = s.packets := rfl
@[simp] theorem groups_modCtx (n : Nat) (f : Ctx → Ctx) : (s.modCtx n f).groups = s.groups := rfl
@[simp] theorem teams_modCtx (n : Nat) (f : Ctx → Ctx) : (s.modCtx n f).teams = s.teams := rfl
@[simp] theorem clusters_modCtx (n : Nat) (f : Ctx → Ctx) : (s.modCtx n f).clusters = s.clusters := rfl
@[simp] theorem grids_modCtx (n : Nat) (f : Ctx → Ctx) : (s.modCtx n f).grids = s.grids := rfl
@[simp] theorem launchReqs_modCtx (n : Nat) (f : Ctx → Ctx) : (s.modCtx n f).launchReqs = s.launchReqs := rfl
@[simp] theorem cores_modCtx (n : Nat) (f : Ctx → Ctx) : (s.modCtx n f).cores = s.cores := rfl
@[simp] theorem mem_modCtx (n : Nat) (f : Ctx → Ctx) : (s.modCtx n f).mem = s.mem := rfl
@[simp] theorem vault_modCtx (n : Nat) (f : Ctx → Ctx) : (s.modCtx n f).vault = s.vault := rfl
@[simp] theorem poison_modCtx (n : Nat) (f : Ctx → Ctx) : (s.modCtx n f).poison = s.poison := rfl
@[simp] theorem poison8_modCtx (n : Nat) (f : Ctx → Ctx) : (s.modCtx n f).poison8 = s.poison8 := rfl
@[simp] theorem garbled_modCtx (n : Nat) (f : Ctx → Ctx) : (s.modCtx n f).garbled = s.garbled := rfl
@[simp] theorem regrown_modCtx (n : Nat) (f : Ctx → Ctx) : (s.modCtx n f).regrown = s.regrown := rfl
@[simp] theorem llc_modCtx (n : Nat) (f : Ctx → Ctx) : (s.modCtx n f).llc = s.llc := rfl
@[simp] theorem owner_modCtx (n : Nat) (f : Ctx → Ctx) : (s.modCtx n f).owner = s.owner := rfl
@[simp] theorem reduce_modCtx (n : Nat) (f : Ctx → Ctx) : (s.modCtx n f).reduce = s.reduce := rfl
@[simp] theorem regs_modCtx (n : Nat) (f : Ctx → Ctx) : (s.modCtx n f).regs = s.regs := rfl
@[simp] theorem reds_modCtx (n : Nat) (f : Ctx → Ctx) : (s.modCtx n f).reds = s.reds := rfl
@[simp] theorem excl_modCtx (n : Nat) (f : Ctx → Ctx) : (s.modCtx n f).excl = s.excl := rfl
@[simp] theorem holds_modCtx (n : Nat) (f : Ctx → Ctx) : (s.modCtx n f).holds = s.holds := rfl
@[simp] theorem exclTill_modCtx (n : Nat) (f : Ctx → Ctx) : (s.modCtx n f).exclTill = s.exclTill := rfl
@[simp] theorem dieTlb_modCtx (n : Nat) (f : Ctx → Ctx) : (s.modCtx n f).dieTlb = s.dieTlb := rfl
@[simp] theorem walks_modCtx (n : Nat) (f : Ctx → Ctx) : (s.modCtx n f).walks = s.walks := rfl
@[simp] theorem walkers_modCtx (n : Nat) (f : Ctx → Ctx) : (s.modCtx n f).walkers = s.walkers := rfl
@[simp] theorem gated_modCtx (n : Nat) (f : Ctx → Ctx) : (s.modCtx n f).gated = s.gated := rfl
@[simp] theorem wgth_modCtx (n : Nat) (f : Ctx → Ctx) : (s.modCtx n f).wgth = s.wgth := rfl
@[simp] theorem regions_modCtx (n : Nat) (f : Ctx → Ctx) : (s.modCtx n f).regions = s.regions := rfl
@[simp] theorem fmtw_modCtx (n : Nat) (f : Ctx → Ctx) : (s.modCtx n f).fmtw = s.fmtw := rfl
@[simp] theorem parts_modCtx (n : Nat) (f : Ctx → Ctx) : (s.modCtx n f).parts = s.parts := rfl
@[simp] theorem vfs_modCtx (n : Nat) (f : Ctx → Ctx) : (s.modCtx n f).vfs = s.vfs := rfl
@[simp] theorem fabric_modCtx (n : Nat) (f : Ctx → Ctx) : (s.modCtx n f).fabric = s.fabric := rfl
@[simp] theorem route_modCtx (n : Nat) (f : Ctx → Ctx) : (s.modCtx n f).route = s.route := rfl
@[simp] theorem portsDown_modCtx (n : Nat) (f : Ctx → Ctx) : (s.modCtx n f).portsDown = s.portsDown := rfl
@[simp] theorem linkDown_modCtx (n : Nat) (f : Ctx → Ctx) : (s.modCtx n f).linkDown = s.linkDown := rfl
@[simp] theorem orng_modCtx (n : Nat) (f : Ctx → Ctx) : (s.modCtx n f).orng = s.orng := rfl
@[simp] theorem gov_modCtx (n : Nat) (f : Ctx → Ctx) : (s.modCtx n f).gov = s.gov := rfl
@[simp] theorem rails_modCtx (n : Nat) (f : Ctx → Ctx) : (s.modCtx n f).rails = s.rails := rfl
@[simp] theorem hubEvsel_modCtx (n : Nat) (f : Ctx → Ctx) : (s.modCtx n f).hubEvsel = s.hubEvsel := rfl
@[simp] theorem hubEvcnt_modCtx (n : Nat) (f : Ctx → Ctx) : (s.modCtx n f).hubEvcnt = s.hubEvcnt := rfl
@[simp] theorem lost_modCtx (n : Nat) (f : Ctx → Ctx) : (s.modCtx n f).lost = s.lost := rfl
@[simp] theorem trust_modCtx (n : Nat) (f : Ctx → Ctx) : (s.modCtx n f).trust = s.trust := rfl
@[simp] theorem scan_modCtx (n : Nat) (f : Ctx → Ctx) : (s.modCtx n f).scan = s.scan := rfl

/-! ### takeFree -/

@[simp] theorem agenda_takeFree (n : Nat) : (s.takeFree n).agenda = s.agenda := rfl
@[simp] theorem cur_takeFree (n : Nat) : (s.takeFree n).cur = s.cur := rfl
@[simp] theorem nextId_takeFree (n : Nat) : (s.takeFree n).nextId = s.nextId := rfl
@[simp] theorem now_takeFree (n : Nat) : (s.takeFree n).now = s.now := rfl
@[simp] theorem threads_takeFree (n : Nat) : (s.takeFree n).threads = s.threads := rfl
@[simp] theorem packets_takeFree (n : Nat) : (s.takeFree n).packets = s.packets := rfl
@[simp] theorem groups_takeFree (n : Nat) : (s.takeFree n).groups = s.groups := rfl
@[simp] theorem teams_takeFree (n : Nat) : (s.takeFree n).teams = s.teams := rfl
@[simp] theorem clusters_takeFree (n : Nat) : (s.takeFree n).clusters = s.clusters := rfl
@[simp] theorem grids_takeFree (n : Nat) : (s.takeFree n).grids = s.grids := rfl
@[simp] theorem launchReqs_takeFree (n : Nat) : (s.takeFree n).launchReqs = s.launchReqs := rfl
@[simp] theorem cores_takeFree (n : Nat) : (s.takeFree n).cores = s.cores := rfl
@[simp] theorem mem_takeFree (n : Nat) : (s.takeFree n).mem = s.mem := rfl
@[simp] theorem vault_takeFree (n : Nat) : (s.takeFree n).vault = s.vault := rfl
@[simp] theorem poison_takeFree (n : Nat) : (s.takeFree n).poison = s.poison := rfl
@[simp] theorem poison8_takeFree (n : Nat) : (s.takeFree n).poison8 = s.poison8 := rfl
@[simp] theorem garbled_takeFree (n : Nat) : (s.takeFree n).garbled = s.garbled := rfl
@[simp] theorem regrown_takeFree (n : Nat) : (s.takeFree n).regrown = s.regrown := rfl
@[simp] theorem llc_takeFree (n : Nat) : (s.takeFree n).llc = s.llc := rfl
@[simp] theorem owner_takeFree (n : Nat) : (s.takeFree n).owner = s.owner := rfl
@[simp] theorem reduce_takeFree (n : Nat) : (s.takeFree n).reduce = s.reduce := rfl
@[simp] theorem regs_takeFree (n : Nat) : (s.takeFree n).regs = s.regs := rfl
@[simp] theorem reds_takeFree (n : Nat) : (s.takeFree n).reds = s.reds := rfl
@[simp] theorem excl_takeFree (n : Nat) : (s.takeFree n).excl = s.excl := rfl
@[simp] theorem holds_takeFree (n : Nat) : (s.takeFree n).holds = s.holds := rfl
@[simp] theorem exclTill_takeFree (n : Nat) : (s.takeFree n).exclTill = s.exclTill := rfl
@[simp] theorem dieTlb_takeFree (n : Nat) : (s.takeFree n).dieTlb = s.dieTlb := rfl
@[simp] theorem walks_takeFree (n : Nat) : (s.takeFree n).walks = s.walks := rfl
@[simp] theorem walkers_takeFree (n : Nat) : (s.takeFree n).walkers = s.walkers := rfl
@[simp] theorem gated_takeFree (n : Nat) : (s.takeFree n).gated = s.gated := rfl
@[simp] theorem wgth_takeFree (n : Nat) : (s.takeFree n).wgth = s.wgth := rfl
@[simp] theorem regions_takeFree (n : Nat) : (s.takeFree n).regions = s.regions := rfl
@[simp] theorem fmtw_takeFree (n : Nat) : (s.takeFree n).fmtw = s.fmtw := rfl
@[simp] theorem parts_takeFree (n : Nat) : (s.takeFree n).parts = s.parts := rfl
@[simp] theorem ctxs_takeFree (n : Nat) : (s.takeFree n).ctxs = s.ctxs := rfl
@[simp] theorem vfs_takeFree (n : Nat) : (s.takeFree n).vfs = s.vfs := rfl
@[simp] theorem fabric_takeFree (n : Nat) : (s.takeFree n).fabric = s.fabric := rfl
@[simp] theorem route_takeFree (n : Nat) : (s.takeFree n).route = s.route := rfl
@[simp] theorem portsDown_takeFree (n : Nat) : (s.takeFree n).portsDown = s.portsDown := rfl
@[simp] theorem linkDown_takeFree (n : Nat) : (s.takeFree n).linkDown = s.linkDown := rfl
@[simp] theorem orng_takeFree (n : Nat) : (s.takeFree n).orng = s.orng := rfl
@[simp] theorem gov_takeFree (n : Nat) : (s.takeFree n).gov = s.gov := rfl
@[simp] theorem rails_takeFree (n : Nat) : (s.takeFree n).rails = s.rails := rfl
@[simp] theorem hubEvsel_takeFree (n : Nat) : (s.takeFree n).hubEvsel = s.hubEvsel := rfl
@[simp] theorem hubEvcnt_takeFree (n : Nat) : (s.takeFree n).hubEvcnt = s.hubEvcnt := rfl
@[simp] theorem lost_takeFree (n : Nat) : (s.takeFree n).lost = s.lost := rfl
@[simp] theorem trust_takeFree (n : Nat) : (s.takeFree n).trust = s.trust := rfl
@[simp] theorem scan_takeFree (n : Nat) : (s.takeFree n).scan = s.scan := rfl

/-! ### modCore -/

@[simp] theorem agenda_modCore (n : Nat) (f : Core → Core) : (s.modCore n f).agenda = s.agenda := rfl
@[simp] theorem cur_modCore (n : Nat) (f : Core → Core) : (s.modCore n f).cur = s.cur := rfl
@[simp] theorem free_modCore (n : Nat) (f : Core → Core) : (s.modCore n f).free = s.free := rfl
@[simp] theorem nextId_modCore (n : Nat) (f : Core → Core) : (s.modCore n f).nextId = s.nextId := rfl
@[simp] theorem now_modCore (n : Nat) (f : Core → Core) : (s.modCore n f).now = s.now := rfl
@[simp] theorem threads_modCore (n : Nat) (f : Core → Core) : (s.modCore n f).threads = s.threads := rfl
@[simp] theorem packets_modCore (n : Nat) (f : Core → Core) : (s.modCore n f).packets = s.packets := rfl
@[simp] theorem groups_modCore (n : Nat) (f : Core → Core) : (s.modCore n f).groups = s.groups := rfl
@[simp] theorem teams_modCore (n : Nat) (f : Core → Core) : (s.modCore n f).teams = s.teams := rfl
@[simp] theorem clusters_modCore (n : Nat) (f : Core → Core) : (s.modCore n f).clusters = s.clusters := rfl
@[simp] theorem grids_modCore (n : Nat) (f : Core → Core) : (s.modCore n f).grids = s.grids := rfl
@[simp] theorem launchReqs_modCore (n : Nat) (f : Core → Core) : (s.modCore n f).launchReqs = s.launchReqs := rfl
@[simp] theorem mem_modCore (n : Nat) (f : Core → Core) : (s.modCore n f).mem = s.mem := rfl
@[simp] theorem vault_modCore (n : Nat) (f : Core → Core) : (s.modCore n f).vault = s.vault := rfl
@[simp] theorem poison_modCore (n : Nat) (f : Core → Core) : (s.modCore n f).poison = s.poison := rfl
@[simp] theorem poison8_modCore (n : Nat) (f : Core → Core) : (s.modCore n f).poison8 = s.poison8 := rfl
@[simp] theorem garbled_modCore (n : Nat) (f : Core → Core) : (s.modCore n f).garbled = s.garbled := rfl
@[simp] theorem regrown_modCore (n : Nat) (f : Core → Core) : (s.modCore n f).regrown = s.regrown := rfl
@[simp] theorem llc_modCore (n : Nat) (f : Core → Core) : (s.modCore n f).llc = s.llc := rfl
@[simp] theorem owner_modCore (n : Nat) (f : Core → Core) : (s.modCore n f).owner = s.owner := rfl
@[simp] theorem reduce_modCore (n : Nat) (f : Core → Core) : (s.modCore n f).reduce = s.reduce := rfl
@[simp] theorem regs_modCore (n : Nat) (f : Core → Core) : (s.modCore n f).regs = s.regs := rfl
@[simp] theorem reds_modCore (n : Nat) (f : Core → Core) : (s.modCore n f).reds = s.reds := rfl
@[simp] theorem excl_modCore (n : Nat) (f : Core → Core) : (s.modCore n f).excl = s.excl := rfl
@[simp] theorem holds_modCore (n : Nat) (f : Core → Core) : (s.modCore n f).holds = s.holds := rfl
@[simp] theorem exclTill_modCore (n : Nat) (f : Core → Core) : (s.modCore n f).exclTill = s.exclTill := rfl
@[simp] theorem dieTlb_modCore (n : Nat) (f : Core → Core) : (s.modCore n f).dieTlb = s.dieTlb := rfl
@[simp] theorem walks_modCore (n : Nat) (f : Core → Core) : (s.modCore n f).walks = s.walks := rfl
@[simp] theorem walkers_modCore (n : Nat) (f : Core → Core) : (s.modCore n f).walkers = s.walkers := rfl
@[simp] theorem gated_modCore (n : Nat) (f : Core → Core) : (s.modCore n f).gated = s.gated := rfl
@[simp] theorem wgth_modCore (n : Nat) (f : Core → Core) : (s.modCore n f).wgth = s.wgth := rfl
@[simp] theorem regions_modCore (n : Nat) (f : Core → Core) : (s.modCore n f).regions = s.regions := rfl
@[simp] theorem fmtw_modCore (n : Nat) (f : Core → Core) : (s.modCore n f).fmtw = s.fmtw := rfl
@[simp] theorem parts_modCore (n : Nat) (f : Core → Core) : (s.modCore n f).parts = s.parts := rfl
@[simp] theorem ctxs_modCore (n : Nat) (f : Core → Core) : (s.modCore n f).ctxs = s.ctxs := rfl
@[simp] theorem vfs_modCore (n : Nat) (f : Core → Core) : (s.modCore n f).vfs = s.vfs := rfl
@[simp] theorem fabric_modCore (n : Nat) (f : Core → Core) : (s.modCore n f).fabric = s.fabric := rfl
@[simp] theorem route_modCore (n : Nat) (f : Core → Core) : (s.modCore n f).route = s.route := rfl
@[simp] theorem portsDown_modCore (n : Nat) (f : Core → Core) : (s.modCore n f).portsDown = s.portsDown := rfl
@[simp] theorem linkDown_modCore (n : Nat) (f : Core → Core) : (s.modCore n f).linkDown = s.linkDown := rfl
@[simp] theorem orng_modCore (n : Nat) (f : Core → Core) : (s.modCore n f).orng = s.orng := rfl
@[simp] theorem gov_modCore (n : Nat) (f : Core → Core) : (s.modCore n f).gov = s.gov := rfl
@[simp] theorem rails_modCore (n : Nat) (f : Core → Core) : (s.modCore n f).rails = s.rails := rfl
@[simp] theorem hubEvsel_modCore (n : Nat) (f : Core → Core) : (s.modCore n f).hubEvsel = s.hubEvsel := rfl
@[simp] theorem hubEvcnt_modCore (n : Nat) (f : Core → Core) : (s.modCore n f).hubEvcnt = s.hubEvcnt := rfl
@[simp] theorem lost_modCore (n : Nat) (f : Core → Core) : (s.modCore n f).lost = s.lost := rfl
@[simp] theorem trust_modCore (n : Nat) (f : Core → Core) : (s.modCore n f).trust = s.trust := rfl
@[simp] theorem scan_modCore (n : Nat) (f : Core → Core) : (s.modCore n f).scan = s.scan := rfl

/-! ### modPart -/

@[simp] theorem agenda_modPart (n : Nat) (f : Part → Part) : (s.modPart n f).agenda = s.agenda := rfl
@[simp] theorem cur_modPart (n : Nat) (f : Part → Part) : (s.modPart n f).cur = s.cur := rfl
@[simp] theorem free_modPart (n : Nat) (f : Part → Part) : (s.modPart n f).free = s.free := rfl
@[simp] theorem nextId_modPart (n : Nat) (f : Part → Part) : (s.modPart n f).nextId = s.nextId := rfl
@[simp] theorem now_modPart (n : Nat) (f : Part → Part) : (s.modPart n f).now = s.now := rfl
@[simp] theorem threads_modPart (n : Nat) (f : Part → Part) : (s.modPart n f).threads = s.threads := rfl
@[simp] theorem packets_modPart (n : Nat) (f : Part → Part) : (s.modPart n f).packets = s.packets := rfl
@[simp] theorem groups_modPart (n : Nat) (f : Part → Part) : (s.modPart n f).groups = s.groups := rfl
@[simp] theorem teams_modPart (n : Nat) (f : Part → Part) : (s.modPart n f).teams = s.teams := rfl
@[simp] theorem clusters_modPart (n : Nat) (f : Part → Part) : (s.modPart n f).clusters = s.clusters := rfl
@[simp] theorem grids_modPart (n : Nat) (f : Part → Part) : (s.modPart n f).grids = s.grids := rfl
@[simp] theorem launchReqs_modPart (n : Nat) (f : Part → Part) : (s.modPart n f).launchReqs = s.launchReqs := rfl
@[simp] theorem cores_modPart (n : Nat) (f : Part → Part) : (s.modPart n f).cores = s.cores := rfl
@[simp] theorem mem_modPart (n : Nat) (f : Part → Part) : (s.modPart n f).mem = s.mem := rfl
@[simp] theorem vault_modPart (n : Nat) (f : Part → Part) : (s.modPart n f).vault = s.vault := rfl
@[simp] theorem poison_modPart (n : Nat) (f : Part → Part) : (s.modPart n f).poison = s.poison := rfl
@[simp] theorem poison8_modPart (n : Nat) (f : Part → Part) : (s.modPart n f).poison8 = s.poison8 := rfl
@[simp] theorem garbled_modPart (n : Nat) (f : Part → Part) : (s.modPart n f).garbled = s.garbled := rfl
@[simp] theorem regrown_modPart (n : Nat) (f : Part → Part) : (s.modPart n f).regrown = s.regrown := rfl
@[simp] theorem llc_modPart (n : Nat) (f : Part → Part) : (s.modPart n f).llc = s.llc := rfl
@[simp] theorem owner_modPart (n : Nat) (f : Part → Part) : (s.modPart n f).owner = s.owner := rfl
@[simp] theorem reduce_modPart (n : Nat) (f : Part → Part) : (s.modPart n f).reduce = s.reduce := rfl
@[simp] theorem regs_modPart (n : Nat) (f : Part → Part) : (s.modPart n f).regs = s.regs := rfl
@[simp] theorem reds_modPart (n : Nat) (f : Part → Part) : (s.modPart n f).reds = s.reds := rfl
@[simp] theorem excl_modPart (n : Nat) (f : Part → Part) : (s.modPart n f).excl = s.excl := rfl
@[simp] theorem holds_modPart (n : Nat) (f : Part → Part) : (s.modPart n f).holds = s.holds := rfl
@[simp] theorem exclTill_modPart (n : Nat) (f : Part → Part) : (s.modPart n f).exclTill = s.exclTill := rfl
@[simp] theorem dieTlb_modPart (n : Nat) (f : Part → Part) : (s.modPart n f).dieTlb = s.dieTlb := rfl
@[simp] theorem walks_modPart (n : Nat) (f : Part → Part) : (s.modPart n f).walks = s.walks := rfl
@[simp] theorem walkers_modPart (n : Nat) (f : Part → Part) : (s.modPart n f).walkers = s.walkers := rfl
@[simp] theorem gated_modPart (n : Nat) (f : Part → Part) : (s.modPart n f).gated = s.gated := rfl
@[simp] theorem wgth_modPart (n : Nat) (f : Part → Part) : (s.modPart n f).wgth = s.wgth := rfl
@[simp] theorem regions_modPart (n : Nat) (f : Part → Part) : (s.modPart n f).regions = s.regions := rfl
@[simp] theorem fmtw_modPart (n : Nat) (f : Part → Part) : (s.modPart n f).fmtw = s.fmtw := rfl
@[simp] theorem ctxs_modPart (n : Nat) (f : Part → Part) : (s.modPart n f).ctxs = s.ctxs := rfl
@[simp] theorem vfs_modPart (n : Nat) (f : Part → Part) : (s.modPart n f).vfs = s.vfs := rfl
@[simp] theorem fabric_modPart (n : Nat) (f : Part → Part) : (s.modPart n f).fabric = s.fabric := rfl
@[simp] theorem route_modPart (n : Nat) (f : Part → Part) : (s.modPart n f).route = s.route := rfl
@[simp] theorem portsDown_modPart (n : Nat) (f : Part → Part) : (s.modPart n f).portsDown = s.portsDown := rfl
@[simp] theorem linkDown_modPart (n : Nat) (f : Part → Part) : (s.modPart n f).linkDown = s.linkDown := rfl
@[simp] theorem orng_modPart (n : Nat) (f : Part → Part) : (s.modPart n f).orng = s.orng := rfl
@[simp] theorem gov_modPart (n : Nat) (f : Part → Part) : (s.modPart n f).gov = s.gov := rfl
@[simp] theorem rails_modPart (n : Nat) (f : Part → Part) : (s.modPart n f).rails = s.rails := rfl
@[simp] theorem hubEvsel_modPart (n : Nat) (f : Part → Part) : (s.modPart n f).hubEvsel = s.hubEvsel := rfl
@[simp] theorem hubEvcnt_modPart (n : Nat) (f : Part → Part) : (s.modPart n f).hubEvcnt = s.hubEvcnt := rfl
@[simp] theorem lost_modPart (n : Nat) (f : Part → Part) : (s.modPart n f).lost = s.lost := rfl
@[simp] theorem trust_modPart (n : Nat) (f : Part → Part) : (s.modPart n f).trust = s.trust := rfl
@[simp] theorem scan_modPart (n : Nat) (f : Part → Part) : (s.modPart n f).scan = s.scan := rfl

/-! ### modDie -/

@[simp] theorem agenda_modDie (n : Nat) (f : Orng → Orng) : (s.modDie n f).agenda = s.agenda := rfl
@[simp] theorem cur_modDie (n : Nat) (f : Orng → Orng) : (s.modDie n f).cur = s.cur := rfl
@[simp] theorem free_modDie (n : Nat) (f : Orng → Orng) : (s.modDie n f).free = s.free := rfl
@[simp] theorem nextId_modDie (n : Nat) (f : Orng → Orng) : (s.modDie n f).nextId = s.nextId := rfl
@[simp] theorem now_modDie (n : Nat) (f : Orng → Orng) : (s.modDie n f).now = s.now := rfl
@[simp] theorem threads_modDie (n : Nat) (f : Orng → Orng) : (s.modDie n f).threads = s.threads := rfl
@[simp] theorem packets_modDie (n : Nat) (f : Orng → Orng) : (s.modDie n f).packets = s.packets := rfl
@[simp] theorem groups_modDie (n : Nat) (f : Orng → Orng) : (s.modDie n f).groups = s.groups := rfl
@[simp] theorem teams_modDie (n : Nat) (f : Orng → Orng) : (s.modDie n f).teams = s.teams := rfl
@[simp] theorem clusters_modDie (n : Nat) (f : Orng → Orng) : (s.modDie n f).clusters = s.clusters := rfl
@[simp] theorem grids_modDie (n : Nat) (f : Orng → Orng) : (s.modDie n f).grids = s.grids := rfl
@[simp] theorem launchReqs_modDie (n : Nat) (f : Orng → Orng) : (s.modDie n f).launchReqs = s.launchReqs := rfl
@[simp] theorem cores_modDie (n : Nat) (f : Orng → Orng) : (s.modDie n f).cores = s.cores := rfl
@[simp] theorem mem_modDie (n : Nat) (f : Orng → Orng) : (s.modDie n f).mem = s.mem := rfl
@[simp] theorem vault_modDie (n : Nat) (f : Orng → Orng) : (s.modDie n f).vault = s.vault := rfl
@[simp] theorem poison_modDie (n : Nat) (f : Orng → Orng) : (s.modDie n f).poison = s.poison := rfl
@[simp] theorem poison8_modDie (n : Nat) (f : Orng → Orng) : (s.modDie n f).poison8 = s.poison8 := rfl
@[simp] theorem garbled_modDie (n : Nat) (f : Orng → Orng) : (s.modDie n f).garbled = s.garbled := rfl
@[simp] theorem regrown_modDie (n : Nat) (f : Orng → Orng) : (s.modDie n f).regrown = s.regrown := rfl
@[simp] theorem llc_modDie (n : Nat) (f : Orng → Orng) : (s.modDie n f).llc = s.llc := rfl
@[simp] theorem owner_modDie (n : Nat) (f : Orng → Orng) : (s.modDie n f).owner = s.owner := rfl
@[simp] theorem reduce_modDie (n : Nat) (f : Orng → Orng) : (s.modDie n f).reduce = s.reduce := rfl
@[simp] theorem regs_modDie (n : Nat) (f : Orng → Orng) : (s.modDie n f).regs = s.regs := rfl
@[simp] theorem reds_modDie (n : Nat) (f : Orng → Orng) : (s.modDie n f).reds = s.reds := rfl
@[simp] theorem excl_modDie (n : Nat) (f : Orng → Orng) : (s.modDie n f).excl = s.excl := rfl
@[simp] theorem holds_modDie (n : Nat) (f : Orng → Orng) : (s.modDie n f).holds = s.holds := rfl
@[simp] theorem exclTill_modDie (n : Nat) (f : Orng → Orng) : (s.modDie n f).exclTill = s.exclTill := rfl
@[simp] theorem dieTlb_modDie (n : Nat) (f : Orng → Orng) : (s.modDie n f).dieTlb = s.dieTlb := rfl
@[simp] theorem walks_modDie (n : Nat) (f : Orng → Orng) : (s.modDie n f).walks = s.walks := rfl
@[simp] theorem walkers_modDie (n : Nat) (f : Orng → Orng) : (s.modDie n f).walkers = s.walkers := rfl
@[simp] theorem gated_modDie (n : Nat) (f : Orng → Orng) : (s.modDie n f).gated = s.gated := rfl
@[simp] theorem wgth_modDie (n : Nat) (f : Orng → Orng) : (s.modDie n f).wgth = s.wgth := rfl
@[simp] theorem regions_modDie (n : Nat) (f : Orng → Orng) : (s.modDie n f).regions = s.regions := rfl
@[simp] theorem fmtw_modDie (n : Nat) (f : Orng → Orng) : (s.modDie n f).fmtw = s.fmtw := rfl
@[simp] theorem parts_modDie (n : Nat) (f : Orng → Orng) : (s.modDie n f).parts = s.parts := rfl
@[simp] theorem ctxs_modDie (n : Nat) (f : Orng → Orng) : (s.modDie n f).ctxs = s.ctxs := rfl
@[simp] theorem vfs_modDie (n : Nat) (f : Orng → Orng) : (s.modDie n f).vfs = s.vfs := rfl
@[simp] theorem fabric_modDie (n : Nat) (f : Orng → Orng) : (s.modDie n f).fabric = s.fabric := rfl
@[simp] theorem route_modDie (n : Nat) (f : Orng → Orng) : (s.modDie n f).route = s.route := rfl
@[simp] theorem portsDown_modDie (n : Nat) (f : Orng → Orng) : (s.modDie n f).portsDown = s.portsDown := rfl
@[simp] theorem linkDown_modDie (n : Nat) (f : Orng → Orng) : (s.modDie n f).linkDown = s.linkDown := rfl
@[simp] theorem gov_modDie (n : Nat) (f : Orng → Orng) : (s.modDie n f).gov = s.gov := rfl
@[simp] theorem rails_modDie (n : Nat) (f : Orng → Orng) : (s.modDie n f).rails = s.rails := rfl
@[simp] theorem hubEvsel_modDie (n : Nat) (f : Orng → Orng) : (s.modDie n f).hubEvsel = s.hubEvsel := rfl
@[simp] theorem hubEvcnt_modDie (n : Nat) (f : Orng → Orng) : (s.modDie n f).hubEvcnt = s.hubEvcnt := rfl
@[simp] theorem lost_modDie (n : Nat) (f : Orng → Orng) : (s.modDie n f).lost = s.lost := rfl
@[simp] theorem trust_modDie (n : Nat) (f : Orng → Orng) : (s.modDie n f).trust = s.trust := rfl
@[simp] theorem scan_modDie (n : Nat) (f : Orng → Orng) : (s.modDie n f).scan = s.scan := rfl

/-! ### touch -/

@[simp] theorem agenda_touch (n b : Nat) : (s.touch n b).agenda = s.agenda := rfl
@[simp] theorem cur_touch (n b : Nat) : (s.touch n b).cur = s.cur := rfl
@[simp] theorem free_touch (n b : Nat) : (s.touch n b).free = s.free := rfl
@[simp] theorem nextId_touch (n b : Nat) : (s.touch n b).nextId = s.nextId := rfl
@[simp] theorem now_touch (n b : Nat) : (s.touch n b).now = s.now := rfl
@[simp] theorem threads_touch (n b : Nat) : (s.touch n b).threads = s.threads := rfl
@[simp] theorem packets_touch (n b : Nat) : (s.touch n b).packets = s.packets := rfl
@[simp] theorem groups_touch (n b : Nat) : (s.touch n b).groups = s.groups := rfl
@[simp] theorem teams_touch (n b : Nat) : (s.touch n b).teams = s.teams := rfl
@[simp] theorem clusters_touch (n b : Nat) : (s.touch n b).clusters = s.clusters := rfl
@[simp] theorem grids_touch (n b : Nat) : (s.touch n b).grids = s.grids := rfl
@[simp] theorem launchReqs_touch (n b : Nat) : (s.touch n b).launchReqs = s.launchReqs := rfl
@[simp] theorem cores_touch (n b : Nat) : (s.touch n b).cores = s.cores := rfl
@[simp] theorem mem_touch (n b : Nat) : (s.touch n b).mem = s.mem := rfl
@[simp] theorem vault_touch (n b : Nat) : (s.touch n b).vault = s.vault := rfl
@[simp] theorem poison_touch (n b : Nat) : (s.touch n b).poison = s.poison := rfl
@[simp] theorem poison8_touch (n b : Nat) : (s.touch n b).poison8 = s.poison8 := rfl
@[simp] theorem garbled_touch (n b : Nat) : (s.touch n b).garbled = s.garbled := rfl
@[simp] theorem regrown_touch (n b : Nat) : (s.touch n b).regrown = s.regrown := rfl
@[simp] theorem llc_touch (n b : Nat) : (s.touch n b).llc = s.llc := rfl
@[simp] theorem owner_touch (n b : Nat) : (s.touch n b).owner = s.owner := rfl
@[simp] theorem reduce_touch (n b : Nat) : (s.touch n b).reduce = s.reduce := rfl
@[simp] theorem regs_touch (n b : Nat) : (s.touch n b).regs = s.regs := rfl
@[simp] theorem reds_touch (n b : Nat) : (s.touch n b).reds = s.reds := rfl
@[simp] theorem excl_touch (n b : Nat) : (s.touch n b).excl = s.excl := rfl
@[simp] theorem holds_touch (n b : Nat) : (s.touch n b).holds = s.holds := rfl
@[simp] theorem exclTill_touch (n b : Nat) : (s.touch n b).exclTill = s.exclTill := rfl
@[simp] theorem dieTlb_touch (n b : Nat) : (s.touch n b).dieTlb = s.dieTlb := rfl
@[simp] theorem walks_touch (n b : Nat) : (s.touch n b).walks = s.walks := rfl
@[simp] theorem walkers_touch (n b : Nat) : (s.touch n b).walkers = s.walkers := rfl
@[simp] theorem gated_touch (n b : Nat) : (s.touch n b).gated = s.gated := rfl
@[simp] theorem wgth_touch (n b : Nat) : (s.touch n b).wgth = s.wgth := rfl
@[simp] theorem regions_touch (n b : Nat) : (s.touch n b).regions = s.regions := rfl
@[simp] theorem fmtw_touch (n b : Nat) : (s.touch n b).fmtw = s.fmtw := rfl
@[simp] theorem parts_touch (n b : Nat) : (s.touch n b).parts = s.parts := rfl
@[simp] theorem vfs_touch (n b : Nat) : (s.touch n b).vfs = s.vfs := rfl
@[simp] theorem fabric_touch (n b : Nat) : (s.touch n b).fabric = s.fabric := rfl
@[simp] theorem route_touch (n b : Nat) : (s.touch n b).route = s.route := rfl
@[simp] theorem portsDown_touch (n b : Nat) : (s.touch n b).portsDown = s.portsDown := rfl
@[simp] theorem linkDown_touch (n b : Nat) : (s.touch n b).linkDown = s.linkDown := rfl
@[simp] theorem orng_touch (n b : Nat) : (s.touch n b).orng = s.orng := rfl
@[simp] theorem gov_touch (n b : Nat) : (s.touch n b).gov = s.gov := rfl
@[simp] theorem rails_touch (n b : Nat) : (s.touch n b).rails = s.rails := rfl
@[simp] theorem hubEvsel_touch (n b : Nat) : (s.touch n b).hubEvsel = s.hubEvsel := rfl
@[simp] theorem hubEvcnt_touch (n b : Nat) : (s.touch n b).hubEvcnt = s.hubEvcnt := rfl
@[simp] theorem lost_touch (n b : Nat) : (s.touch n b).lost = s.lost := rfl
@[simp] theorem trust_touch (n b : Nat) : (s.touch n b).trust = s.trust := rfl
@[simp] theorem scan_touch (n b : Nat) : (s.touch n b).scan = s.scan := rfl

/-! ### The changed field -/

@[simp] theorem cores_setCore (c : Nat) (x : Core) : (s.setCore c x).cores = s.cores.set c x := rfl
@[simp] theorem threads_setThread (n : Nat) (x : Thread) : (s.setThread n x).threads = s.threads.set n x := rfl
@[simp] theorem groups_setGroup (n : Nat) (x : Group) : (s.setGroup n x).groups = s.groups.set n x := rfl
@[simp] theorem threads_modThread (n : Nat) (f : Thread → Thread) : (s.modThread n f).threads = s.threads.modify n f := rfl
@[simp] theorem groups_modGroup (n : Nat) (f : Group → Group) : (s.modGroup n f).groups = s.groups.modify n f := rfl
@[simp] theorem teams_modTeam (n : Nat) (f : Team → Team) : (s.modTeam n f).teams = s.teams.modify n f := rfl
@[simp] theorem threads_mapThreads (l : List Nat) (f : Nat → Thread → Thread) :
    (s.mapThreads l f).threads = s.threads.update (fun k => l.contains k) f := rfl
@[simp] theorem parts_setPart (n : Nat) (x : Part) : (s.setPart n x).parts = s.parts.set n x := rfl
@[simp] theorem vfs_setVf (n : Nat) (x : Vf) : (s.setVf n x).vfs = s.vfs.set n x := rfl
@[simp] theorem orng_setDie (n : Nat) (x : Orng) : (s.setDie n x).orng = s.orng.set n x := rfl
@[simp] theorem ctxs_modCtx (n : Nat) (f : Ctx → Ctx) : (s.modCtx n f).ctxs = s.ctxs.modify n f := rfl
@[simp] theorem free_takeFree (n : Nat) : (s.takeFree n).free = s.free + n := rfl

/-! ### Readers of one entry -/

theorem core_setCore (c d : Nat) (x : Core) : (s.setCore c x).core d = if d = c then x else s.core d := by
  simp only [State.core, State.setCore, Tab.getD, Tab.get?_set]; split <;> simp

@[simp] theorem core_setCore_self (c : Nat) (x : Core) : (s.setCore c x).core c = x := by simp [core_setCore]

theorem core_modCore (c d : Nat) (f : Core → Core) :
    (s.modCore c f).core d = if d = c then f (s.core c) else s.core d := core_setCore s c d _

@[simp] theorem core_modCore_self (c : Nat) (f : Core → Core) : (s.modCore c f).core c = f (s.core c) := by
  simp [core_modCore]

theorem part_setPart (c d : Nat) (x : Part) : (s.setPart c x).part d = if d = c then x else s.part d := by
  simp only [State.part, State.setPart, Tab.getD, Tab.get?_set]; split <;> simp

@[simp] theorem part_setPart_self (c : Nat) (x : Part) : (s.setPart c x).part c = x := by simp [part_setPart]

theorem part_modPart (c d : Nat) (f : Part → Part) :
    (s.modPart c f).part d = if d = c then f (s.part c) else s.part d := part_setPart s c d _

theorem vf_setVf (c d : Nat) (x : Vf) : (s.setVf c x).vf d = if d = c then x else s.vf d := by
  simp only [State.vf, State.setVf, Tab.getD, Tab.get?_set]; split <;> simp

@[simp] theorem vf_setVf_self (c : Nat) (x : Vf) : (s.setVf c x).vf c = x := by simp [vf_setVf]

theorem die_setDie (c d : Nat) (x : Orng) : (s.setDie c x).die d = if d = c then x else s.die d := by
  simp only [State.die, State.setDie, Tab.getD, Tab.get?_set]; split <;> simp

theorem die_modDie (c d : Nat) (f : Orng → Orng) :
    (s.modDie c f).die d = if d = c then f (s.die c) else s.die d := die_setDie s c d _

theorem thread?_setThread (n m : Nat) (x : Thread) :
    (s.setThread n x).thread? m = if m = n then some x else s.thread? m := Tab.get?_set _ _ _ _

theorem thread?_modThread (n m : Nat) (f : Thread → Thread) :
    (s.modThread n f).thread? m = if m = n then (s.thread? m).map f else s.thread? m := Tab.get?_modify _ _ _ _

theorem thread?_mapThreads (l : List Nat) (f : Nat → Thread → Thread) (m : Nat) :
    (s.mapThreads l f).thread? m = (s.thread? m).map (fun t => if l.contains m then f m t else t) :=
  Tab.get?_update _ _ _ _

theorem group?_setGroup (n m : Nat) (x : Group) :
    (s.setGroup n x).group? m = if m = n then some x else s.group? m := Tab.get?_set _ _ _ _

theorem group?_modGroup (n m : Nat) (f : Group → Group) :
    (s.modGroup n f).group? m = if m = n then (s.group? m).map f else s.group? m := Tab.get?_modify _ _ _ _

end State

end Sys2Proof.Machine
end

