-- ==== Sys2Proof/Laws/Lanes.lean ====
section
/-! SUPPORT. What committing the results of a cohort's lanes does, once for every instruction that ends so. -/

namespace Sys2Proof.Machine

open Sys2Proof

/-! ### Registers of one thread -/

theorem Thread.vkey_inj {t : Thread} {i j : Nat} (hi : i < 64) (hj : j < 64) (h : t.vkey i = t.vkey j) : i = j := by
  simp only [Thread.vkey] at h
  split_ifs at h <;> omega

theorem Thread.vkey_congr {t x : Thread} (h1 : x.view = t.view) (h2 : x.nspill = t.nspill) (h3 : x.nres = t.nres) (i : Nat) :
    x.vkey i = t.vkey i := by
  simp only [Thread.vkey, Thread.frame, h1, h2, h3]

theorem Thread.word_set {t x : Thread} {k : Nat} {w : Word} (h1 : x.vregs = t.vregs.set k w) (h2 : x.undef = t.undef)
    (k' : Nat) : x.word k' = if k' = k then w else t.word k' := by
  simp only [Thread.word, h1, h2, Tab.get?_set]
  by_cases h : k' = k <;> simp [h]

/-- What has been written into a thread so far: its registers read as vf and qf say, its flags gained fl, and all else is
as in t. -/
structure Wrote (C : Prop) (t u : Thread) (vf : Nat → Word) (qf : Nat → Bool) (fl : BitVec 5) : Prop where
  v      : ∀ j, j < 64 → u.v j = vf j
  q      : C → ∀ n, n < 96 → u.q n = qf n
  flags  : u.flags = t.flags ||| fl
  frames : t.visit = none → ∀ k, (∀ j, j < 64 → k ≠ t.vkey j) → u.word k = t.word k
  left   : u.longs.map LongOp.left = t.longs.map LongOp.left
  away   : u.visit.map (fun x => { x with vregs := [], preds := 0 }) = t.visit.map (fun x => { x with vregs := [], preds := 0 })
  same   : u = { t with vregs := u.vregs, vpoison := u.vpoison, preds := u.preds, longs := u.longs, flags := u.flags, visit := u.visit }

namespace Wrote

variable {C : Prop} {t u : Thread} {vf : Nat → Word} {qf : Nat → Bool} {fl : BitVec 5}

theorem refl (C : Prop) (t : Thread) : Wrote C t t t.v t.q 0 :=
  ⟨fun _ _ => rfl, fun _ _ _ => rfl, by simp, fun _ _ _ => rfl, rfl, rfl, rfl⟩

theorem frame_eq (h : Wrote C t u vf qf fl) : u.vkey = t.vkey := by
  funext i
  rw [h.same]
  rfl

theorem home_iff (h : Wrote C t u vf qf fl) : u.visit = none ↔ t.visit = none := by
  have := h.away
  cases hu : u.visit <;> cases ht : t.visit <;> simp_all

theorem dropDest (h : Wrote C t u vf qf fl) (d : Dest) : Wrote C t (Ops.dropDest u d) vf qf fl := by
  unfold Ops.dropDest
  split
  · exact h
  · exact ⟨h.v, h.q, h.flags, h.frames, by simpa [Function.comp_def] using h.left, h.away, by
      have := h.same
      cases u; cases t; simp_all⟩

theorem setV (h : Wrote C t u vf qf fl) (i : Nat) (w : Word) (hi : i < 64) :
    Wrote C t (u.setV i w) (fun j => if j = i then w else vf j) qf fl := by
  have hk := h.frame_eq
  unfold Thread.setV
  split
  case h_1 hv =>
    refine ⟨fun j hj => ?_, ?_, h.flags, ?_, h.left, h.away, ?_⟩
    · have h1 := h.v j hj
      simp only [Thread.v, hv] at h1 ⊢
      refine (Thread.word_set (t := u) (k := u.vkey i) (w := w) ?_ ?_ _).trans ?_
      · rfl
      · rfl
      change (if u.vkey j = u.vkey i then w else u.word (u.vkey j)) = _
      by_cases hji : j = i
      · simp [hji]
      · rw [if_neg (fun e => hji (Thread.vkey_inj hj hi e)), if_neg hji]; exact h1
    · intro hc n hn
      have := h.q hc n hn
      simp only [Thread.q, hv] at this ⊢
      exact this
    · intro ht k hne
      refine (Thread.word_set (t := u) (k := u.vkey i) (w := w) ?_ ?_ _).trans ?_
      · rfl
      · rfl
      rw [if_neg (by rw [hk]; exact hne i hi)]
      exact h.frames ht k hne
    · have := h.same
      cases u; cases t; simp_all
  case h_2 x hv =>
    refine ⟨fun j hj => ?_, ?_, h.flags, ?_, h.left, ?_, ?_⟩
    · have h1 := h.v j hj
      simp only [Thread.v, hv] at h1 ⊢
      rw [Tab.getD, Tab.get?_set]
      by_cases hji : j = i
      · simp [hji]
      · rw [if_neg hji, if_neg hji]; exact h1
    · intro hc n hn
      have := h.q hc n hn
      simp only [Thread.q, hv] at this ⊢
      exact this
    · intro ht k hne
      have := h.home_iff.2 ht
      simp_all
    · have := h.away
      simp_all
    · have := h.same
      cases u; cases t; simp_all

theorem writeV (h : Wrote C t u vf qf fl) (i : Nat) (w : Word) (hi : i < 64) :
    Wrote C t (Ops.writeV u i w) (fun j => if j = i then w else vf j) qf fl :=
  (h.dropDest _).setV i w hi

theorem setQ (h : Wrote C t u vf qf fl) (i : Nat) (b : Bool) (hi : C → t.visit = none ∨ i < 32) :
    Wrote C t (u.setQ i b) vf (fun j => if j = i ∧ j ≠ 0 then b else qf j) fl := by
  unfold Thread.setQ
  split
  case isTrue h0 =>
    subst h0
    exact ⟨h.v, fun hc n hn => by rw [if_neg (by omega)]; exact h.q hc n hn, h.flags, h.frames, h.left, h.away, h.same⟩
  case isFalse h0 =>
  split
  case h_1 hv =>
    refine ⟨?_, fun hc n hn => ?_, h.flags, h.frames, h.left, h.away, ?_⟩
    · intro j hj
      have := h.v j hj
      simp only [Thread.v, hv] at this ⊢
      exact this
    · have h1 := h.q hc n hn
      simp only [Thread.q, hv] at h1 ⊢
      by_cases hn0 : n = 0
      · simp_all
      · simp only [hn0, if_false] at h1 ⊢
        rw [← h1]
        by_cases hni : n = i
        · subst hni; cases b <;> simp [hn, hn0]
        · cases b <;> simp [hn, hni] <;> omega
    · have := h.same
      cases u; cases t; simp_all
  case h_2 x hv =>
    refine ⟨?_, fun hc n hn => ?_, h.flags, ?_, h.left, ?_, ?_⟩
    · intro j hj
      have := h.v j hj
      simp only [Thread.v, hv] at this ⊢
      exact this
    · have h1 := h.q hc n hn
      have h2 : i < 32 := by
        rcases hi hc with h2 | h2
        · have := h.home_iff.2 h2; simp_all
        · exact h2
      simp only [Thread.q, hv] at h1 ⊢
      by_cases hn0 : n = 0
      · simp_all
      · simp only [hn0, if_false] at h1 ⊢
        rw [← h1]
        by_cases hni : n = i
        · subst hni; cases b <;> simp [h2, hn0]
        · cases b <;> simp [hni]
          · intro hb
            have := BitVec.lt_of_getLsbD hb
            omega
          · omega
    · intro ht k hne
      have := h.home_iff.2 ht
      simp_all
    · have := h.away
      simp_all
    · have := h.same
      cases u; cases t; simp_all

theorem writeQ (h : Wrote C t u vf qf fl) (i : Nat) (b : Bool) (hi : C → t.visit = none ∨ i < 32) :
    Wrote C t (Ops.writeQ u i b) vf (fun j => if j = i ∧ j ≠ 0 then b else qf j) fl :=
  (h.dropDest _).setQ i b hi

end Wrote

/-! ### One lane's results -/

theorem Wrote.regs {C : Prop} {t : Thread} {qf : Nat → Bool} {fl : BitVec 5} (d : List (Reg × Word)) {u : Thread}
    {vf : Nat → Word} (h : Wrote C t u vf qf fl) :
    Wrote C t (d.foldl (fun t x => match x.1 with
      | .v i => Ops.writeV t i.val x.2
      | _ => t) u) (wroteV d vf) qf fl := by
  induction d generalizing u vf with
  | nil => exact h
  | cons x d ih =>
    simp only [List.foldl_cons, wroteV]
    refine ih (vf := match x.1 with
      | .v i => fun j => if j = i.val then x.2 else vf j
      | _ => vf) ?_
    obtain ⟨r, w⟩ := x
    cases r with
    | v i => exact h.writeV i.val w i.isLt
    | _ => exact h

theorem Wrote.bits {C : Prop} {t : Thread} {vf : Nat → Word} {fl : BitVec 5} (p : List (Nat × Bool))
    (hp : C → t.visit = none ∨ ∀ x ∈ p, x.1 < 32) {u : Thread} {qf : Nat → Bool} (h : Wrote C t u vf qf fl) :
    Wrote C t (p.foldl (fun t x => Ops.writeQ t x.1 x.2) u) vf (wroteQ p qf) fl := by
  induction p generalizing u qf with
  | nil => exact h
  | cons x p ih =>
    simp only [List.foldl_cons, wroteQ]
    refine ih (fun hc => (hp hc).imp_right (fun h y hy => h y (List.mem_cons_of_mem _ hy))) ?_
    exact h.writeQ x.1 x.2 (fun hc => (hp hc).imp_right (fun h => h x List.mem_cons_self))

theorem Wrote.addFlags {C : Prop} {t u : Thread} {vf : Nat → Word} {qf : Nat → Bool} (h : Wrote C t u vf qf 0)
    (fl : BitVec 5) : Wrote C t { u with flags := u.flags ||| fl } vf qf fl := by
  refine ⟨h.v, h.q, by simp [h.flags], h.frames, h.left, h.away, ?_⟩
  have := h.same
  cases u; cases t; simp_all

theorem wrote_commitLane (t : Thread) (r : Results) :
    Wrote (t.visit = none ∨ ∀ x ∈ r.preds, x.1 < 32) t (Operands.commitLane t r.out)
      (wroteV r.regs t.v) (wroteQ r.preds t.q) r.flags := by
  exact ((Wrote.refl (t.visit = none ∨ ∀ x ∈ r.preds, x.1 < 32) t).regs r.regs |>.bits r.preds id).addFlags r.flags

/-- A thread whose pending long results may have lost destinations, and nothing else. -/
def DestsLost (t u : Thread) : Prop := u = { t with longs := u.longs } ∧ u.longs.map LongOp.left = t.longs.map LongOp.left

theorem DestsLost.refl (t : Thread) : DestsLost t t := ⟨rfl, rfl⟩

theorem DestsLost.trans {t u x : Thread} (h : DestsLost t u) (h' : DestsLost u x) : DestsLost t x :=
  ⟨by rw [h'.1, h.1], h'.2.trans h.2⟩

theorem Wrote.destsLost {C : Prop} {t u x : Thread} {vf : Nat → Word} {qf : Nat → Bool} {fl : BitVec 5}
    (h : Wrote C t u vf qf fl) (h' : DestsLost u x) : Wrote C t x vf qf fl := by
  obtain ⟨h1, h2⟩ := h'
  have hv : ∀ j, x.v j = u.v j := fun j => by rw [h1]; rfl
  have hq : ∀ j, x.q j = u.q j := fun j => by rw [h1]; rfl
  have hw : ∀ j, x.word j = u.word j := fun j => by rw [h1]; rfl
  have hvis : x.visit = u.visit := by rw [h1]
  refine ⟨fun j hj => by rw [hv]; exact h.v j hj, fun hc n hn => by rw [hq]; exact h.q hc n hn, by rw [← h.flags, h1],
    fun ht k hk => by rw [hw]; exact h.frames ht k hk, h2.trans h.left, by rw [hvis]; exact h.away, ?_⟩
  have := h.same
  rw [h1]
  simp only
  rw [this]

theorem Wrote.retire {t u : Thread} {r : Results}
    (h : Wrote (t.visit = none ∨ ∀ x ∈ r.preds, x.1 < 32) t u (wroteV r.regs t.v) (wroteQ r.preds t.q) r.flags)
    (pc : BitVec 48) : WentOn t (Ops.retireLane u pc) pc r := by
  have hv : ∀ j, (Ops.retireLane u pc).v j = u.v j := fun j => by unfold Ops.retireLane Ops.tickShadows; split <;> rfl
  have hq : ∀ j, (Ops.retireLane u pc).q j = u.q j := fun j => by unfold Ops.retireLane Ops.tickShadows; split <;> rfl
  have hw : ∀ j, (Ops.retireLane u pc).word j = u.word j := fun j => by unfold Ops.retireLane Ops.tickShadows; split <;> rfl
  have hvis : (Ops.retireLane u pc).visit = u.visit := by unfold Ops.retireLane Ops.tickShadows; split <;> rfl
  have hfl : (Ops.retireLane u pc).flags = u.flags := by unfold Ops.retireLane Ops.tickShadows; split <;> rfl
  refine ⟨fun j hj => by rw [hv]; exact h.v j hj, fun hc n hn => by rw [hq]; exact h.q hc n hn, by rw [hfl, h.flags], rfl, rfl,
    fun ht k hk => by rw [hw]; exact h.frames ht k hk, ?_, by rw [hvis]; exact h.away, ?_⟩
  · have hl := h.left
    unfold Ops.retireLane Ops.tickShadows
    split
    · simp_all
    · simp only [List.map_map]
      calc u.longs.map _ = (u.longs.map LongOp.left).map (fun n => n - 1) := by simp [Function.comp_def]
        _ = _ := by rw [hl]; simp [Function.comp_def]
  · have := h.same
    unfold Ops.retireLane Ops.tickShadows
    split <;> (simp only; rw [this])

/-! ### The executing groups -/

theorem NSet.mem_add (l : NSet) (n m : Nat) : m ∈ NSet.add l n ↔ m = n ∨ m ∈ l := by
  induction l with
  | nil => simp [NSet.add]
  | cons k l ih =>
    simp only [NSet.add]
    split
    · simp
    · split
      · subst_vars; simp
      · simp only [List.mem_cons, ih]; tauto

theorem NSet.sorted_add {l : NSet} (h : l.Pairwise (· < ·)) (n : Nat) : (NSet.add l n).Pairwise (· < ·) := by
  induction l with
  | nil => simp [NSet.add]
  | cons k l ih =>
    simp only [NSet.add]
    rw [List.pairwise_cons] at h
    split
    · rw [List.pairwise_cons]
      refine ⟨fun a ha => ?_, List.pairwise_cons.2 h⟩
      rcases List.mem_cons.1 ha with rfl | ha
      · assumption
      · exact lt_trans (by assumption) (h.1 a ha)
    · split
      · exact List.pairwise_cons.2 h
      · rw [List.pairwise_cons]
        refine ⟨fun a ha => ?_, ih h.2⟩
        rcases (NSet.mem_add l n a).1 ha with rfl | ha
        · omega
        · exact h.1 a ha

theorem Ops.groupsOf_spec (l : List Nat) :
    (Ops.groupsOf l).Pairwise (· < ·) ∧ ∀ g, g ∈ Ops.groupsOf l ↔ ∃ t ∈ l, tidGid t = g := by
  have : ∀ (l : List Nat) (acc : NSet), acc.Pairwise (· < ·) →
      (l.foldl (fun l t => NSet.add l (tidGid t)) acc).Pairwise (· < ·) ∧
      ∀ g, g ∈ l.foldl (fun l t => NSet.add l (tidGid t)) acc ↔ g ∈ acc ∨ ∃ t ∈ l, tidGid t = g := by
    intro l
    induction l with
    | nil => intro acc h; simp [h]
    | cons a l ih =>
      intro acc h
      obtain ⟨h1, h2⟩ := ih _ (NSet.sorted_add h (tidGid a))
      refine ⟨h1, fun g => ?_⟩
      rw [List.foldl_cons, h2, NSet.mem_add]
      simp only [List.mem_cons, exists_eq_or_imp]
      constructor
      · rintro ((rfl | h) | h)
        · exact .inr (.inl rfl)
        · exact .inl h
        · exact .inr (.inr h)
      · rintro (h | rfl | h)
        · exact .inl (.inr h)
        · exact .inl (.inl rfl)
        · exact .inr h
  have h := this l [] List.Pairwise.nil
  exact ⟨h.1, fun g => (h.2 g).trans (by simp)⟩

theorem State.thread?_setS (s : State) (gid n : Nat) (w : Word) (tid : Nat) :
    (∃ t, s.thread? tid = some t ∧ ∃ u, (s.setS gid n w).thread? tid = some u ∧ DestsLost t u) ∨
    (s.thread? tid = none ∧ (s.setS gid n w).thread? tid = none) := by
  unfold State.setS State.thread?
  simp only [State.threads_modGroup, Tab.get?_update]
  cases h : s.threads.get? tid with
  | none => simp
  | some t =>
    refine .inl ⟨t, rfl, _, rfl, ?_⟩
    dsimp only
    split
    · split
      · exact .refl t
      · exact ⟨rfl, by simp [Function.comp_def]⟩
    · exact .refl t

/-- What writing s-registers does: threads lose destinations, one group's s-registers change. -/
structure WroteS (s u : State) (sf : Nat → Nat → Word) : Prop where
  threads : ∀ tid, (∃ t, s.thread? tid = some t ∧ ∃ t', u.thread? tid = some t' ∧ DestsLost t t') ∨
    (s.thread? tid = none ∧ u.thread? tid = none)
  value  : ∀ gid n, (s.group? gid).isSome → u.s gid n = sf gid n
  groups : ∀ gid, (u.group? gid).map (fun g => { g with sregs := [], spoison := [] })
    = (s.group? gid).map (fun g => { g with sregs := [], spoison := [] })
  frame  : u = { s with threads := u.threads, groups := u.groups }

theorem WroteS.refl (s : State) : WroteS s s s.s := by
  refine ⟨fun tid => ?_, fun _ _ _ => rfl, fun _ => rfl, rfl⟩
  cases h : s.thread? tid with
  | none => exact .inr ⟨rfl, rfl⟩
  | some t => exact .inl ⟨t, rfl, t, rfl, .refl t⟩

theorem WroteS.setS {s u : State} {sf : Nat → Nat → Word} (h : WroteS s u sf) (gid n : Nat) (w : Word) :
    WroteS s (u.setS gid n w) (fun g k => if g = gid ∧ k = n then w else sf g k) := by
  have hgrp : ∀ g, (u.setS gid n w).group? g = if g = gid then (u.group? g).map (fun x => x.setS n w) else u.group? g := by
    intro g
    exact State.group?_modGroup u gid g _
  refine ⟨fun tid => ?_, fun g k hs => ?_, fun g => ?_, ?_⟩
  · rcases h.threads tid with ⟨t, h1, t', h2, h3⟩ | ⟨h1, h2⟩
    · rcases State.thread?_setS u gid n w tid with ⟨x, g1, x', g2, g3⟩ | ⟨g1, g2⟩
      · rw [h2] at g1; cases g1
        exact .inl ⟨t, h1, x', g2, h3.trans g3⟩
      · rw [h2] at g1; cases g1
    · rcases State.thread?_setS u gid n w tid with ⟨x, g1, x', g2, g3⟩ | ⟨g1, g2⟩
      · rw [h2] at g1; cases g1
      · exact .inr ⟨h1, g2⟩
  · have hv := h.value g k hs
    have hg := h.groups g
    simp only [State.s, hgrp] at hv ⊢
    by_cases e : g = gid
    · subst e
      cases hu : u.group? g with
      | none => rw [hu] at hg; cases hs' : s.group? g <;> simp_all
      | some x =>
        rw [hu] at hv
        simp only [Option.map_some, Option.getD_some] at hv
        simp only [if_true, Option.map_some, Option.getD_some, true_and]
        simp only [Group.s, Group.setS, Tab.get?_set]
        by_cases e : k = n
        · simp [e]
        · simp only [e, if_false]; exact hv
    · simp only [e, if_false, false_and]; exact hv
  · rw [hgrp, ← h.groups g]
    split
    · cases u.group? g <;> rfl
    · rfl
  · have := h.frame
    unfold State.setS State.modGroup
    rw [this]

theorem WroteS.commitGroup {s : State} (gid : Nat) (o : Operands.LaneOut) {u : State} {sf : Nat → Nat → Word}
    (h : WroteS s u sf) :
    WroteS s (Operands.commitGroup u gid o) (fun g k => if g = gid then wroteS o.d (sf g) k else sf g k) := by
  unfold Operands.commitGroup wroteS
  generalize o.d = d
  induction d generalizing u sf with
  | nil => simpa using h
  | cons x d ih =>
    obtain ⟨r, w⟩ := x
    simp only [List.foldl_cons]
    cases r with
    | s i =>
      have := ih (h.setS gid i.val w)
      refine ⟨this.threads, fun g k hs => ?_, this.groups, this.frame⟩
      rw [this.value g k hs]
      by_cases e : g = gid <;> simp [e]
    | _ => exact ih h

theorem WroteS.each {s : State} (gids : List Nat) (hn : gids.Nodup) (f : Nat → Option Operands.LaneOut) {u : State}
    {sf : Nat → Nat → Word} (h : WroteS s u sf) :
    WroteS s (gids.foldl (fun st gid => match f gid with
      | some o => Operands.commitGroup st gid o
      | none => st) u)
      (fun g k => if g ∈ gids then (match f g with
        | some o => wroteS o.d (sf g) k
        | none => sf g k) else sf g k) := by
  induction gids generalizing u sf with
  | nil => simpa using h
  | cons a gids ih =>
    rw [List.nodup_cons] at hn
    simp only [List.foldl_cons]
    cases hf : f a with
    | none =>
      have := ih hn.2 h
      refine ⟨this.threads, fun g k hs => ?_, this.groups, this.frame⟩
      rw [this.value g k hs]
      by_cases e : g = a
      · subst e; simp [hf]
      · simp [e]
    | some o =>
      have := ih hn.2 (h.commitGroup a o)
      refine ⟨this.threads, fun g k hs => ?_, this.groups, this.frame⟩
      rw [this.value g k hs]
      by_cases e : g = a
      · subst e; simp [hf, hn.1]
      · simp [e]

/-! ### Committing a cohort -/

theorem Ops.mem_active {s : State} {c : Cohort} {h : Hdr} {tid : Nat} :
    tid ∈ Ops.active s c h ↔ tid ∈ c.tids ∧ ∃ t, s.thread? tid = some t ∧ t.guard h = true := by
  unfold Ops.active
  rw [List.mem_filter]
  cases s.thread? tid <;> simp

/-- Results of every active lane, the s destinations of each group's lowest active lane, and the advance of the cohort. -/
theorem executed_of {s : State} {c : Cohort} {h : Hdr} (r : Nat → Thread → Results) :
    Executed s c h r (Ops.advance
      ((Ops.groupsOf (Ops.active s c h)).foldl (fun st gid =>
        match ((activeOf s c h gid).head?.bind (fun tid => (s.thread? tid).map (fun t => (r tid t).out))) with
        | some o => Operands.commitGroup st gid o
        | none => st)
        (s.mapThreads (Ops.active s c h) (fun tid t => Operands.commitLane t (r tid t).out))) c.tids) := by
  obtain ⟨hsort, hmem⟩ := Ops.groupsOf_spec (Ops.active s c h)
  have hnd : (Ops.groupsOf (Ops.active s c h)).Nodup := hsort.imp (fun h => Nat.ne_of_lt h)
  have hw := (WroteS.refl (s.mapThreads (Ops.active s c h) (fun tid t => Operands.commitLane t (r tid t).out))).each _ hnd
    (fun gid => (activeOf s c h gid).head?.bind (fun tid => (s.thread? tid).map (fun t => (r tid t).out)))
  revert hw
  generalize (List.foldl _ _ _) = u2
  intro hw
  refine ⟨fun tid t hc ht => ?_, fun tid hc => ?_, fun gid n hs => ?_, fun gid => ?_, ?_⟩
  · have h1 : (s.mapThreads (Ops.active s c h) (fun tid t => Operands.commitLane t (r tid t).out)).thread? tid
        = some (if (Ops.active s c h).contains tid then Operands.commitLane t (r tid t).out else t) := by
      rw [State.thread?_mapThreads, ht]; rfl
    rcases hw.threads tid with ⟨x, g1, x', g2, g3⟩ | ⟨g1, _⟩
    · rw [h1] at g1
      have hx : x' = x' := rfl
      refine ⟨Ops.retireLane x' (nextPc t.pc), ?_, ?_⟩
      · unfold Ops.advance
        rw [State.thread?_mapThreads, g2]
        have : c.tids.contains tid = true := by simpa using hc
        simp only [Option.map_some, this, if_true]
        have hpc : x'.pc = t.pc := by
          rw [g3.1]
          cases g1
          split
          · rw [(wrote_commitLane t (r tid t)).same]
          · rfl
        rw [hpc]
      · cases g1
        by_cases hg : t.guard h = true
        · have ha : (Ops.active s c h).contains tid = true := by
            simpa using Ops.mem_active.2 ⟨hc, t, ht, hg⟩
          rw [if_pos hg]
          simp only [ha, if_true] at g3
          exact ((wrote_commitLane t (r tid t)).destsLost g3).retire _
        · have ha : (Ops.active s c h).contains tid = false := by
            rw [Bool.eq_false_iff]
            intro hh
            obtain ⟨_, t', ht', hg'⟩ := Ops.mem_active.1 (by simpa using hh)
            rw [ht] at ht'; cases ht'; exact hg hg'
          rw [if_neg hg]
          simp only [ha] at g3
          exact Wrote.retire (r := {}) ((Wrote.refl _ t).destsLost g3) _
    · rw [h1] at g1; cases g1
  · unfold Ops.advance
    rw [State.thread?_mapThreads]
    have hnc : c.tids.contains tid = false := by simpa using hc
    have ha : (Ops.active s c h).contains tid = false := by
      rw [Bool.eq_false_iff]
      intro hh
      exact hc (Ops.mem_active.1 (by simpa using hh)).1
    simp only [hnc]
    rcases hw.threads tid with ⟨x, g1, x', g2, g3⟩ | ⟨g1, g2⟩
    · rw [State.thread?_mapThreads] at g1
      simp only [ha] at g1
      rw [g2]
      cases hs : s.thread? tid with
      | none => simp [hs] at g1
      | some t =>
        simp only [hs, Option.map_some, Option.some.injEq] at g1 ⊢
        have : x = t := by simpa using g1.symm
        subst this
        rw [g3.1]
        simp
    · rw [State.thread?_mapThreads] at g1
      rw [g2]
      cases hs : s.thread? tid with
      | none => rfl
      | some t => simp [hs] at g1
  · have hv := hw.value gid n hs
    have e : (Ops.advance u2 c.tids).s gid n = u2.s gid n := rfl
    rw [e, hv]
    have hmm : gid ∈ Ops.groupsOf (Ops.active s c h) ↔ activeOf s c h gid ≠ [] := by
      rw [hmem]
      unfold activeOf Ops.lanesOf
      constructor
      · rintro ⟨t, ht, rfl⟩ hnil
        have : t ∈ List.filter (fun x => tidGid x == tidGid t) (Ops.active s c h) := by simp [ht]
        rw [hnil] at this
        cases this
      · intro hne
        obtain ⟨x, hx⟩ := List.exists_mem_of_ne_nil _ hne
        rw [List.mem_filter] at hx
        exact ⟨x, hx.1, by simpa using hx.2⟩
    have e2 : ∀ k, (s.mapThreads (Ops.active s c h) (fun tid t => Operands.commitLane t (r tid t).out)).s gid k = s.s gid k :=
      fun _ => rfl
    cases hl : activeOf s c h gid with
    | nil => rw [if_neg (by rw [hmm]; simp [hl])]; simp; rfl
    | cons a l =>
      rw [if_pos (by rw [hmm]; simp [hl])]
      have ha : a ∈ Ops.active s c h := by
        have : a ∈ activeOf s c h gid := by rw [hl]; simp
        unfold activeOf Ops.lanesOf at this
        exact (List.mem_filter.1 this).1
      obtain ⟨_, t, ht, _⟩ := Ops.mem_active.1 ha
      simp only [List.head?_cons, Option.bind_some, ht, Option.map_some, Option.getD_some, Results.out]
      rfl
  · exact hw.groups gid
  · have := hw.frame
    unfold Ops.advance State.mapThreads at *
    rw [this]

theorem executed_commit (s : State) (c : Cohort) (h : Hdr) (f : Nat → Thread → Operands.LaneOut) (r : Nat → Thread → Results)
    (hr : ∀ tid t, f (tidGid tid) t = (r tid t).out) : Executed s c h r (Operands.commit s c h f) := by
  have := executed_of (s := s) (c := c) (h := h) r
  unfold Operands.commit
  convert this using 5
  · rename_i st gid
    cases hl : activeOf s c h gid with
    | nil => unfold activeOf at hl; simp [hl]
    | cons a l =>
      have ha : a ∈ activeOf s c h gid := by rw [hl]; simp
      unfold activeOf at hl
      unfold activeOf Ops.lanesOf at ha
      rw [List.mem_filter] at ha
      obtain ⟨_, t, ht, _⟩ := Ops.mem_active.1 ha.1
      have : tidGid a = gid := by simpa using ha.2
      subst this
      simp [hl, ht, hr]
  · funext t; rw [hr]

/-- An instruction that commits results gives them. -/
theorem gives_commit {i : Instr} {h : Hdr} {f : State → Nat → Thread → Operands.LaneOut} {r : State → Nat → Thread → Results}
    (hx : ∀ s, exec i s = Ops.withCohort s fun c => Operands.commit s c h (f s))
    (hr : ∀ s tid t, f s (tidGid tid) t = (r s tid t).out) : Gives i h r := by
  intro s c hc
  refine ⟨_, ?_, executed_commit s c h (f s) (r s) (hr s)⟩
  rw [hx, Ops.withCohort, hc]

/-! ### One executing thread -/

theorem Tab.update_never {α : Type} (t : Tab α) (p : Nat → Bool) (f : Nat → α → α) (hp : ∀ n, p n = false) :
    t.update p f = t := by
  induction t with
  | nil => rfl
  | cons e t ih => obtain ⟨k, v⟩ := e; simp [Tab.update, hp, ih]

@[simp] theorem State.mapThreads_nil (s : State) (f : Nat → Thread → Thread) : s.mapThreads [] f = s := by
  have := Tab.update_never s.threads (fun k => ([] : List Nat).contains k) f (fun n => rfl)
  rw [State.mapThreads, this]

@[simp] theorem Ops.advance_nil (s : State) : Ops.advance s [] = s := State.mapThreads_nil s _

theorem Solo.active {s : State} {c : Cohort} {h : Hdr} {tid : Nat} {t : Thread} (hs : Solo s c h tid t) :
    Ops.active s c h = [tid] := by
  obtain ⟨_, h2, h3, h4⟩ := hs
  simp [Ops.active, h2, h3, h4]

theorem Solo.run {s : State} {c : Cohort} {h : Hdr} {tid : Nat} {t : Thread} (hs : Solo s c h tid t) (f : Cohort → State) :
    Ops.withCohort s f = .next (f c) := by
  rw [Ops.withCohort, hs.1]

theorem Ops.groupsOf_one (tid : Nat) : Ops.groupsOf [tid] = [tidGid tid] := rfl

theorem Ops.lanesOf_one (tid : Nat) : Ops.lanesOf (tidGid tid) [tid] = [tid] := by simp [Ops.lanesOf]

/-- An instruction that executes once for each home group, of which one lane executes. -/
theorem Solo.perGroup {s : State} {c : Cohort} {h : Hdr} {tid : Nat} {t : Thread} (hs : Solo s c h tid t) (rel : Bool)
    (f : State → Nat → Thread → List Nat → Ops.GroupOut) :
    Ops.perGroup s c h rel f =
      if rel && !Ops.allDrained s [tid] then Ops.stall s [tid]
      else match f s (tidGid tid) t [tid] with
        | .go s' => Ops.advance s' [tid]
        | .stay s' => s'
        | .wait s' => Ops.stall s' [tid]
        | .trap s' g => Ops.trapAll s' [tid] g := by
  have ha := hs.active
  obtain ⟨_, h2, h3, _⟩ := hs
  simp only [Ops.perGroup, ha, h2, Ops.groupsOf_one, List.foldl_cons, List.foldl_nil, Ops.lanesOf_one, List.head?_cons,
    Option.bind_some, h3]
  simp <;> split <;> rfl

/-- Nothing travels where no lane of a list departs. -/
theorem Ops.send_none {s : State} {tids : List Nat} (h : ∀ tid ∈ tids, ∀ t, s.thread? tid = some t → t.status ≠ .transit) :
    Ops.send s tids = s := by
  have hb : ∀ tid, tid ∈ Ops.byLane tids → tid ∈ tids := by
    have hp : ∀ (x : Nat) (l : List Nat) (y : Nat), y ∈ Ops.putLane x l → y = x ∨ y ∈ l := by
      intro x l
      induction l with
      | nil => intro y; simp [Ops.putLane]
      | cons z l ih =>
        intro y
        simp only [Ops.putLane]
        split
        · simp
        · simp only [List.mem_cons]
          rintro (h | h)
          · exact .inr (.inl h)
          · exact (ih y h).imp id .inr
    induction tids with
    | nil => intro tid; simp [Ops.byLane]
    | cons a l ih =>
      intro tid ht
      rcases hp a _ tid ht with h1 | h1
      · simp [h1]
      · exact List.mem_cons_of_mem _ (ih (fun x hx => h x (List.mem_cons_of_mem _ hx)) tid h1)
  have he : (Ops.byLane tids).filterMap (fun tid => (s.thread? tid).bind (fun t =>
      if t.status = .transit && Ops.mayLeave s tid t then some (tid, t) else none)) = [] := by
    rw [List.filterMap_eq_nil_iff]
    intro tid ht
    cases hs : s.thread? tid with
    | none => rfl
    | some t => simp [h tid (hb tid ht) t hs]
  simp only [Ops.send, he]
  rfl

/-- The traps of one lane. -/
theorem Ops.trapAll_one {s : State} {tid : Nat} {t : Thread} (h : s.thread? tid = some t) (f : Thread → Trap) :
    Ops.trapAll s [tid] f = Ops.send (Ops.takeTrap s tid (f t) [tidLane tid]) [tid] := by
  simp [Ops.trapAll, Ops.takeTraps, h, NSet.addAll, NSet.add]

theorem Operands.outW_word (d : Reg) (n : Nat) : Operands.outW d false n = (Results.word d (BitVec.ofNat 32 n)).out := rfl

theorem Operands.outW_dword (d : Reg) (n : Nat) : Operands.outW d true n = (Results.dword d (BitVec.ofNat 64 n)).out := rfl

/-- A lane that only goes on. -/
theorem wentOn_retireLane (t : Thread) (pc : BitVec 48) : WentOn t (Ops.retireLane t pc) pc {} :=
  Wrote.retire (r := {}) (Wrote.refl _ t) pc

@[simp] theorem Ops.retireLane_pc (t : Thread) (pc : BitVec 48) : (Ops.retireLane t pc).pc = pc := rfl
@[simp] theorem Ops.retireLane_status (t : Thread) (pc : BitVec 48) : (Ops.retireLane t pc).status = .ready := rfl

@[simp] theorem Ops.retireLane_v (t : Thread) (pc : BitVec 48) (j : Nat) : (Ops.retireLane t pc).v j = t.v j := by
  unfold Ops.retireLane Ops.tickShadows; split <;> rfl

@[simp] theorem Ops.retireLane_q (t : Thread) (pc : BitVec 48) (j : Nat) : (Ops.retireLane t pc).q j = t.q j := by
  unfold Ops.retireLane Ops.tickShadows; split <;> rfl

theorem Ops.retireLane_rest (t : Thread) (pc : BitVec 48) :
    Ops.retireLane t pc = { t with
      pc := pc, status := .ready, resumed := false, stay := false, fresh := false, longs := (Ops.retireLane t pc).longs } := by
  unfold Ops.retireLane Ops.tickShadows; split <;> rfl

theorem Ops.advance_self (s : State) (tid : Nat) :
    (Ops.advance s [tid]).thread? tid = (s.thread? tid).map (fun t => Ops.retireLane t (nextPc t.pc)) := by
  simp [Ops.advance, State.thread?_mapThreads]

theorem Ops.advance_other (s : State) {tid k : Nat} (h : k ≠ tid) : (Ops.advance s [tid]).thread? k = s.thread? k := by
  simp [Ops.advance, State.thread?_mapThreads, h]

theorem State.mapThreads_self (s : State) (tid : Nat) (f : Nat → Thread → Thread) :
    (s.mapThreads [tid] f).thread? tid = (s.thread? tid).map (f tid) := by
  simp [State.thread?_mapThreads]

theorem State.mapThreads_other (s : State) {tid k : Nat} (f : Nat → Thread → Thread) (h : k ≠ tid) :
    (s.mapThreads [tid] f).thread? k = s.thread? k := by
  simp [State.thread?_mapThreads, h]

/-- An instruction whose lanes only go on gives no result. -/
theorem gives_advance {i : Instr} {h : Hdr} (hx : ∀ s, exec i s = Ops.withCohort s fun c => Ops.advance s c.tids) :
    Gives i h (fun _ _ _ => {}) := by
  intro s c hc
  refine ⟨Ops.advance s c.tids, by rw [hx, Ops.withCohort, hc], fun tid t hm ht => ?_, fun tid hm => ?_, fun gid n hs => ?_,
    fun _ => rfl, rfl⟩
  · refine ⟨Ops.retireLane t (nextPc t.pc), ?_, by simpa using wentOn_retireLane t _⟩
    simp [Ops.advance, State.thread?_mapThreads, ht, hm]
  · simp only [Ops.advance, State.thread?_mapThreads]
    simp [hm]
  · have e : (Ops.advance s c.tids).s gid n = s.s gid n := rfl
    rw [e]
    split
    · rfl
    · rename_i tid _
      cases s.thread? tid <;> rfl

/-! ### Control instructions of one lane -/

theorem Mem.takeFaults_nil (s : State) : Mem.takeFaults s [] = s := by
  simp [Mem.takeFaults, Ops.takeTraps, Ops.send_none]

theorem Solo.eachLane_go {s : State} {c : Cohort} {h : Hdr} {tid : Nat} {t : Thread} (hs : Solo s c h tid t)
    {f : State → Nat → Thread → Control.Lane} {s' : State} {t' : Thread} (hf : f s tid t = .go s' t') :
    Control.eachLane s c h f = Ops.flushBuffer (s'.setThread tid t') (tidGid tid) := by
  have ha := hs.active
  obtain ⟨h1, h2, h3, h4⟩ := hs
  simp [Control.eachLane, ha, h2, h3, hf, Mem.takeFaults_nil]

theorem Solo.eachLane_wait {s : State} {c : Cohort} {h : Hdr} {tid : Nat} {t : Thread} (hs : Solo s c h tid t)
    {f : State → Nat → Thread → Control.Lane} {s' : State} (hf : f s tid t = .wait s') :
    Control.eachLane s c h f = Ops.stall s' [tid] := by
  have ha := hs.active
  obtain ⟨h1, h2, h3, h4⟩ := hs
  simp [Control.eachLane, ha, h2, h3, hf, Mem.takeFaults_nil]

theorem Solo.eachLane_trap {s : State} {c : Cohort} {h : Hdr} {tid : Nat} {t : Thread} (hs : Solo s c h tid t)
    {f : State → Nat → Thread → Control.Lane} {s' : State} {tr : Trap} (hf : f s tid t = .trap s' tr) :
    Control.eachLane s c h f = Mem.takeFaults s' [(tid, tr)] := by
  have ha := hs.active
  obtain ⟨h1, h2, h3, h4⟩ := hs
  simp [Control.eachLane, ha, h2, h3, hf]

@[simp] theorem Ops.flushBuffer_thread? (s : State) (g k : Nat) : (Ops.flushBuffer s g).thread? k = s.thread? k := rfl

end Sys2Proof.Machine
end

