-- ==== Sys2Proof/Laws/PerInstr.lean ====
section
/-! SUPPORT. Statements that are made for every instruction, one lemma for each constructor. -/

namespace Sys2Proof.Laws

/-- An instruction row, and only an instruction row, has an encoding. -/
def Encodable.Statement (i : Instr) : Prop :=
  (Decode.toFields i).isSome = (i.hdr?.isSome || (match i with
    | .unassignedOpcode _ => true
    | _ => false))

namespace Encodable

theorem nop (h : Hdr) : Statement (.nop h) := rfl
theorem bra (h : Hdr) (t : FbTarget) : Statement (.bra h t) := rfl
theorem brx (h : Hdr) (a : Reg) : Statement (.brx h a) := rfl
theorem call (h : Hdr) (t : FbTarget) : Statement (.call h t) := rfl
theorem callx (h : Hdr) (a : Reg) : Statement (.callx h a) := rfl
theorem ret (h : Hdr) : Statement (.ret h) := rfl
theorem exit (h : Hdr) : Statement (.exit h) := rfl
theorem yield (h : Hdr) : Statement (.yield h) := rfl
theorem sleep (h : Hdr) (n : BitVec 32) : Statement (.sleep h n) := rfl
theorem trap (h : Hdr) (v : BitVec 3) (n : BitVec 8) : Statement (.trap h v n) := rfl
theorem tfence (h : Hdr) : Statement (.tfence h) := rfl
theorem meet (h : Hdr) (k : Reg) : Statement (.meet h k) := rfl
theorem kset (h : Hdr) (k : Reg) (m : Reg) (n : BitVec 13) : Statement (.kset h k m n) := rfl
theorem bar (h : Hdr) : Statement (.bar h) := rfl
theorem cbar (h : Hdr) : Statement (.cbar h) := rfl
theorem wait (h : Hdr) (a : Reg) : Statement (.wait h a) := rfl
theorem htest (h : Hdr) (a : Reg) (p : BitVec 7) : Statement (.htest h a p) := rfl
theorem hcancel (h : Hdr) (a : Reg) : Statement (.hcancel h a) := rfl
theorem hmov (h : Hdr) (d a : Reg) : Statement (.hmov h d a) := rfl
theorem hmovTok (h : Hdr) (d a : Reg) : Statement (.hmovTok h d a) := rfl
theorem rgn (h : Hdr) (o : RgnOps) : Statement (.rgn h o) := rfl
theorem brk (h : Hdr) (n : BitVec 16) : Statement (.brk h n) := rfl
theorem mov (h : Hdr) (d a : Reg) (b64 : Bool) : Statement (.mov h d a b64) := rfl
theorem movi (h : Hdr) (d : Reg) (imm : BitVec 32) (b64 : Bool) : Statement (.movi h d imm b64) := rfl
theorem sel (h : Hdr) (o : SelOps) : Statement (.sel h o) := rfl
theorem pmov (h : Hdr) (o : PmovOps) : Statement (.pmov h o) := rfl
theorem pld (h : Hdr) (o : PldOps) : Statement (.pld h o) := rfl
theorem pst (h : Hdr) (o : PldOps) : Statement (.pst h o) := rfl
theorem srd (h : Hdr) (d : Reg) (num : BitVec 8) : Statement (.srd h d num) := rfl
theorem swr (h : Hdr) (a : Reg) (num : BitVec 8) : Statement (.swr h a num) := rfl
theorem rdl (h : Hdr) (d a : Reg) (b : Src7) : Statement (.rdl h d a b) := rfl
theorem wrl (h : Hdr) (d a : Reg) (b : Src7) : Statement (.wrl h d a b) := rfl
theorem iadd (h : Hdr) (o : IntOps) : Statement (.iadd h o) := rfl
theorem isub (h : Hdr) (o : IntOps) : Statement (.isub h o) := rfl
theorem imul (h : Hdr) (o : IntOps) : Statement (.imul h o) := rfl
theorem imulh (h : Hdr) (o : IntOps) : Statement (.imulh h o) := rfl
theorem imad (h : Hdr) (o : IntOps) : Statement (.imad h o) := rfl
theorem idiv (h : Hdr) (o : IntOps) : Statement (.idiv h o) := rfl
theorem irem (h : Hdr) (o : IntOps) : Statement (.irem h o) := rfl
theorem imin (h : Hdr) (o : IntOps) : Statement (.imin h o) := rfl
theorem imax (h : Hdr) (o : IntOps) : Statement (.imax h o) := rfl
theorem iabs (h : Hdr) (o : IntOps) : Statement (.iabs h o) := rfl
theorem iand (h : Hdr) (o : IntOps) : Statement (.iand h o) := rfl
theorem ior (h : Hdr) (o : IntOps) : Statement (.ior h o) := rfl
theorem ixor (h : Hdr) (o : IntOps) : Statement (.ixor h o) := rfl
theorem inot (h : Hdr) (o : IntOps) : Statement (.inot h o) := rfl
theorem shl (h : Hdr) (o : IntOps) : Statement (.shl h o) := rfl
theorem shr (h : Hdr) (o : IntOps) : Statement (.shr h o) := rfl
theorem sar (h : Hdr) (o : IntOps) : Statement (.sar h o) := rfl
theorem rotl (h : Hdr) (o : IntOps) : Statement (.rotl h o) := rfl
theorem clz (h : Hdr) (o : IntOps) : Statement (.clz h o) := rfl
theorem popc (h : Hdr) (o : IntOps) : Statement (.popc h o) := rfl
theorem brev (h : Hdr) (o : IntOps) : Statement (.brev h o) := rfl
theorem bfx (h : Hdr) (o : IntOps) : Statement (.bfx h o) := rfl
theorem bfi (h : Hdr) (o : IntOps) : Statement (.bfi h o) := rfl
theorem icmp (h : Hdr) (o : IntPOps) : Statement (.icmp h o) := rfl
theorem iaddc (h : Hdr) (o : IntPOps) : Statement (.iaddc h o) := rfl
theorem isubb (h : Hdr) (o : IntPOps) : Statement (.isubb h o) := rfl
theorem lea (h : Hdr) (o : IntOps) : Statement (.lea h o) := rfl
theorem dot4 (h : Hdr) (o : IntOps) : Statement (.dot4 h o) := rfl
theorem prmt (h : Hdr) (o : IntOps) : Statement (.prmt h o) := rfl
theorem fadd (h : Hdr) (o : FpOps) : Statement (.fadd h o) := rfl
theorem fsub (h : Hdr) (o : FpOps) : Statement (.fsub h o) := rfl
theorem fmul (h : Hdr) (o : FpOps) : Statement (.fmul h o) := rfl
theorem ffma (h : Hdr) (o : FpOps) : Statement (.ffma h o) := rfl
theorem fmin (h : Hdr) (o : FpOps) : Statement (.fmin h o) := rfl
theorem fmax (h : Hdr) (o : FpOps) : Statement (.fmax h o) := rfl
theorem fcmp (h : Hdr) (o : FcmpOps) : Statement (.fcmp h o) := rfl
theorem fclass (h : Hdr) (o : FpOps) : Statement (.fclass h o) := rfl
theorem frcp (h : Hdr) (o : FpOps) : Statement (.frcp h o) := rfl
theorem frsq (h : Hdr) (o : FpOps) : Statement (.frsq h o) := rfl
theorem fsqrt (h : Hdr) (o : FpOps) : Statement (.fsqrt h o) := rfl
theorem fdiv (h : Hdr) (o : FpOps) : Statement (.fdiv h o) := rfl
theorem fexp2 (h : Hdr) (o : FpOps) : Statement (.fexp2 h o) := rfl
theorem flog2 (h : Hdr) (o : FpOps) : Statement (.flog2 h o) := rfl
theorem fsin (h : Hdr) (o : FpOps) : Statement (.fsin h o) := rfl
theorem fcos (h : Hdr) (o : FpOps) : Statement (.fcos h o) := rfl
theorem hadd2 (h : Hdr) (o : HalfOps) : Statement (.hadd2 h o) := rfl
theorem hmul2 (h : Hdr) (o : HalfOps) : Statement (.hmul2 h o) := rfl
theorem hfma2 (h : Hdr) (o : HalfOps) : Statement (.hfma2 h o) := rfl
theorem hmax2 (h : Hdr) (o : HalfOps) : Statement (.hmax2 h o) := rfl
theorem hmin2 (h : Hdr) (o : HalfOps) : Statement (.hmin2 h o) := rfl
theorem cvt (h : Hdr) (o : CvtOps) : Statement (.cvt h o) := rfl
theorem fround (h : Hdr) (o : FroundOps) : Statement (.fround h o) := rfl
theorem bfpq (h : Hdr) (o : BfpOps) : Statement (.bfpq h o) := rfl
theorem bfpx (h : Hdr) (o : BfpOps) : Statement (.bfpx h o) := rfl
theorem ballot (h : Hdr) (o : BallotOps) : Statement (.ballot h o) := rfl
theorem vote (h : Hdr) (o : VoteOps) : Statement (.vote h o) := rfl
theorem shfl (h : Hdr) (o : ShflOps) : Statement (.shfl h o) := rfl
theorem matchx (h : Hdr) (o : MatchOps) : Statement (.matchx h o) := rfl
theorem redx (h : Hdr) (o : RedxOps) : Statement (.redx h o) := rfl
theorem scan (h : Hdr) (o : ScanOps) : Statement (.scan h o) := rfl
theorem lmask (h : Hdr) (o : LmaskOps) : Statement (.lmask h o) := rfl
theorem ld (h : Hdr) (o : LdOps) : Statement (.ld h o) := rfl
theorem st (h : Hdr) (o : StOps) : Statement (.st h o) := rfl
theorem atom (h : Hdr) (o : AtomOps) : Statement (.atom h o) := rfl
theorem red (h : Hdr) (o : RedOps) : Statement (.red h o) := rfl
theorem fence (h : Hdr) : Statement (.fence h) := rfl
theorem fenceAcq (h : Hdr) : Statement (.fenceAcq h) := rfl
theorem fenceRel (h : Hdr) : Statement (.fenceRel h) := rfl
theorem prefl (h : Hdr) (addr : Addr) (llc : Bool) : Statement (.prefl h addr llc) := rfl
theorem gath (h : Hdr) (o : GathOps) : Statement (.gath h o) := rfl
theorem scat (h : Hdr) (o : GathOps) : Statement (.scat h o) := rfl
theorem lds (h : Hdr) (o : LdsOps) : Statement (.lds h o) := rfl
theorem sts (h : Hdr) (o : LdsOps) : Statement (.sts h o) := rfl
theorem cpy (h : Hdr) (o : CpyOps) : Statement (.cpy h o) := rfl
theorem cpy2 (h : Hdr) (d a b c : Reg) : Statement (.cpy2 h d a b c) := rfl
theorem cfill (h : Hdr) (o : CpyOps) : Statement (.cfill h o) := rfl
theorem pres (h : Hdr) (base : Reg) (idx : Option (Reg × BitVec 2)) (l : BitVec 4) (p : BitVec 7) : Statement (.pres h base idx l p) := rfl
theorem sgive (h : Hdr) (a d : Reg) : Statement (.sgive h a d) := rfl
theorem stake (h : Hdr) (a d : Reg) (ph free : Bool) : Statement (.stake h a d ph free) := rfl
theorem stakeTry (h : Hdr) (a d : Reg) (ph free : Bool) (p : BitVec 7) : Statement (.stakeTry h a d ph free p) := rfl
theorem sfree (h : Hdr) (a d : Reg) : Statement (.sfree h a d) := rfl
theorem go (h : Hdr) (addr : Addr) : Statement (.go h addr) := rfl
theorem back (h : Hdr) : Statement (.back h) := rfl
theorem carry (h : Hdr) (m : Src) (q : Bool) : Statement (.carry h m q) := rfl
theorem whereIs (h : Hdr) (d : Reg) (addr : Addr) : Statement (.whereIs h d addr) := rfl
theorem mzero (h : Hdr) (d t k : Reg) : Statement (.mzero h d t k) := rfl
theorem mma (h : Hdr) (o : MatOps) (ty : BitVec 2) (k16 : BitVec 8) : Statement (.mma h o ty k16) := rfl
theorem mmab (h : Hdr) (o : MatOps) (m : BitVec 3) (k16 : BitVec 8) : Statement (.mmab h o m k16) := rfl
theorem mld (h : Hdr) (o : MatOps) (ty : BitVec 2) : Statement (.mld h o ty) := rfl
theorem mst (h : Hdr) (o : MatOps) (ty : BitVec 3) : Statement (.mst h o ty) := rfl
theorem mscl (h : Hdr) (o : MatOps) : Statement (.mscl h o) := rfl
theorem msclU (h : Hdr) (d t k : Reg) (scale : BitVec 32) : Statement (.msclU h d t k scale) := rfl
theorem acall (h : Hdr) (d a : Reg) (t : ATarget) (trap : Bool) : Statement (.acall h d a t trap) := rfl
theorem acorr (h : Hdr) (d a b : Reg) : Statement (.acorr h d a b) := rfl
theorem astat (h : Hdr) (d b : Reg) : Statement (.astat h d b) := rfl
theorem tenq (h : Hdr) (a : Reg) (try_ : Option (BitVec 7)) : Statement (.tenq h a try_) := rfl
theorem tdeq (h : Hdr) (a : Reg) (p : BitVec 7) (q : BitVec 3) : Statement (.tdeq h a p q) := rfl
theorem dcnew (h : Hdr) (a : Reg) (n : Src) : Statement (.dcnew h a n) := rfl
theorem dcadd (h : Hdr) (a : Reg) (n : Src) : Statement (.dcadd h a n) := rfl
theorem dcdec (h : Hdr) (a : Reg) (n : Src) : Statement (.dcdec h a n) := rfl
theorem dcrd (h : Hdr) (a b : Reg) : Statement (.dcrd h a b) := rfl
theorem launch (h : Hdr) (d a : Reg) : Statement (.launch h d a) := rfl
theorem dcfree (h : Hdr) (a : Reg) : Statement (.dcfree h a) := rfl
theorem dln (h : Hdr) (ns : Src) (b : Reg) : Statement (.dln h ns b) := rfl
theorem dprog (h : Hdr) (n : Src) : Statement (.dprog h n) := rfl
theorem dend (h : Hdr) : Statement (.dend h) := rfl
theorem dslack (h : Hdr) (a : Reg) : Statement (.dslack h a) := rfl
theorem coll (h : Hdr) (d a : Reg) (kind : BitVec 3) (op : BitVec 4) : Statement (.coll h d a kind op) := rfl
theorem fput (h : Hdr) (d a : Reg) : Statement (.fput h d a) := rfl
theorem fget (h : Hdr) (d a : Reg) : Statement (.fget h d a) := rfl
theorem fsig (h : Hdr) (d a : Reg) : Statement (.fsig h d a) := rfl
theorem eret (h : Hdr) : Statement (.eret h) := rfl
theorem sysrd (h : Hdr) (d : Reg) (addr : BitVec 32) : Statement (.sysrd h d addr) := rfl
theorem syswr (h : Hdr) (a : Reg) (addr : BitVec 32) : Statement (.syswr h a addr) := rfl
theorem tlbiVa (h : Hdr) (a : Reg) : Statement (.tlbiVa h a) := rfl
theorem tlbiCtx (h : Hdr) : Statement (.tlbiCtx h) := rfl
theorem tlbiOth (h : Hdr) (a : Reg) : Statement (.tlbiOth h a) := rfl
theorem tlbiPart (h : Hdr) (a : Reg) : Statement (.tlbiPart h a) := rfl
theorem tlbiAll (h : Hdr) : Statement (.tlbiAll h) := rfl
theorem cmaintWb (h : Hdr) (addr : Addr) : Statement (.cmaintWb h addr) := rfl
theorem cmaintWbi (h : Hdr) (addr : Addr) : Statement (.cmaintWbi h addr) := rfl
theorem cmaintIc (h : Hdr) (addr : Addr) : Statement (.cmaintIc h addr) := rfl
theorem halt (h : Hdr) : Statement (.halt h) := rfl
theorem chkset (h : Hdr) (a : Reg) (n : Src) : Statement (.chkset h a n) := rfl
theorem unassignedOpcode (w : Slot) : Statement (.unassignedOpcode w) := rfl
theorem instructionFetch (core ctx va : Nat) : Statement (.instructionFetch core ctx va) := rfl
theorem asyncTrapDelivery (tid : Nat) : Statement (.asyncTrapDelivery tid) := rfl
theorem hostServicedStop (gid : Nat) : Statement (.hostServicedStop gid) := rfl
theorem shadowEnd (tid op : Nat) : Statement (.shadowEnd tid op) := rfl
theorem regrouping (core sector : Nat) : Statement (.regrouping core sector) := rfl
theorem sectorIssueCycle (core sector : Nat) : Statement (.sectorIssueCycle core sector) := rfl
theorem cohortAged (core sector : Nat) : Statement (.cohortAged core sector) := rfl
theorem sleepExpiry (tid : Nat) : Statement (.sleepExpiry tid) := rfl
theorem registration (id : Nat) : Statement (.registration id) := rfl
theorem registrationAck (id : Nat) : Statement (.registrationAck id) := rfl
theorem homeRead (tid op part : Nat) : Statement (.homeRead tid op part) := rfl
theorem wordRecall (word : Nat) : Statement (.wordRecall word) := rfl
theorem l1Eviction (core line : Nat) : Statement (.l1Eviction core line) := rfl
theorem llcEviction (line : Nat) : Statement (.llcEviction line) := rfl
theorem directoryEviction (line : Nat) : Statement (.directoryEviction line) := rfl
theorem reducePartialUpdate (id : Nat) : Statement (.reducePartialUpdate id) := rfl
theorem partialEviction (line slice : Nat) : Statement (.partialEviction line slice) := rfl
theorem exclusiveRequest (line : Nat) : Statement (.exclusiveRequest line) := rfl
theorem atomBackoffExpiry (id : Nat) : Statement (.atomBackoffExpiry id) := rfl
theorem tlbMissWalk (ctx : Nat) (miss : TlbMiss) : Statement (.tlbMissWalk ctx miss) := rfl
theorem walkCompletion (ctx va : Nat) : Statement (.walkCompletion ctx va) := rfl
theorem memoryControllerAccess (part pa : Nat) (wr : Bool) (ecc : Nat) : Statement (.memoryControllerAccess part pa wr ecc) := rfl
theorem formatViewFill (line : Nat) : Statement (.formatViewFill line) := rfl
theorem formatViewWriteback (line : Nat) : Statement (.formatViewWriteback line) := rfl
theorem fmtwEnable (w : Nat) : Statement (.fmtwEnable w) := rfl
theorem fmtwDisable (w : Nat) : Statement (.fmtwDisable w) := rfl
theorem fmtwFlushEnd (w : Nat) : Statement (.fmtwFlushEnd w) := rfl
theorem regionEntryWrite (g : Nat) (v : BitVec 32) : Statement (.regionEntryWrite g v) := rfl
theorem regionScrubEnd (g : Nat) : Statement (.regionScrubEnd g) := rfl
theorem copyCommandStart (core : Nat) : Statement (.copyCommandStart core) := rfl
theorem lineLanded (core id line : Nat) : Statement (.lineLanded core id line) := rfl
theorem copyCompletion (core id : Nat) : Statement (.copyCompletion core id) := rfl
theorem stakeRetry (gid : Nat) : Statement (.stakeRetry gid) := rfl
theorem matrixCommandStart (core id : Nat) : Statement (.matrixCommandStart core id) := rfl
theorem matrixCompletion (core : Nat) (reached : MatrixReach) : Statement (.matrixCompletion core reached) := rfl
theorem matrixCheck (core : Nat) : Statement (.matrixCheck core) := rfl
theorem continuationArrival (pkt : Nat) : Statement (.continuationArrival pkt) := rfl
theorem returnArrival (pkt : Nat) : Statement (.returnArrival pkt) := rfl
theorem migrationRefusalReturn (tid : Nat) : Statement (.migrationRefusalReturn tid) := rfl
theorem arrayQueueEntry (die id : Nat) : Statement (.arrayQueueEntry die id) := rfl
theorem alay (die seq : Nat) : Statement (.alay die seq) := rfl
theorem abat (die seq : Nat) : Statement (.abat die seq) := rfl
theorem calibrationProbe (die seq : Nat) : Statement (.calibrationProbe die seq) := rfl
theorem astg (die seq : Nat) : Statement (.astg die seq) := rfl
theorem acmt (die seq : Nat) : Statement (.acmt die seq) := rfl
theorem avfy (die seq : Nat) : Statement (.avfy die seq) := rfl
theorem journalReplay (die : Nat) : Statement (.journalReplay die) := rfl
theorem aqry (die seq : Nat) : Statement (.aqry die seq) := rfl
theorem tilePass (die id : Nat) : Statement (.tilePass die id) := rfl
theorem rowProgramVerify (die id : Nat) (ok : Bool) : Statement (.rowProgramVerify die id ok) := rfl
theorem arrayCompletion (die id : Nat) : Statement (.arrayCompletion die id) := rfl
theorem correctionPublish (die tile : Nat) (cols : List (Nat × Word × Word)) : Statement (.correctionPublish die tile cols) := rfl
theorem arrayCheck (die : Nat) : Statement (.arrayCheck die) := rfl
theorem stagingOwnerWrite (die stg : Nat) (v : BitVec 32) : Statement (.stagingOwnerWrite die stg v) := rfl
theorem stagingEraseEnd (die stg : Nat) : Statement (.stagingEraseEnd die stg) := rfl
theorem permissionEntryWrite (die row vf : Nat) (v : BitVec 32) : Statement (.permissionEntryWrite die row vf v) := rfl
theorem sequencerCtlWrite (die seq : Nat) (v : BitVec 32) : Statement (.sequencerCtlWrite die seq v) := rfl
theorem cwd3Write (die seq : Nat) (v : BitVec 32) : Statement (.cwd3Write die seq v) := rfl
theorem launchPacket (vf : Option Nat) (req : Nat) : Statement (.launchPacket vf req) := rfl
theorem clusterPlacement (grid : Nat) : Statement (.clusterPlacement grid) := rfl
theorem launchCompletion (grid : Nat) : Statement (.launchCompletion grid) := rfl
theorem schedulerTake (core : Nat) : Statement (.schedulerTake core) := rfl
theorem schedulerSteal (core : Nat) : Statement (.schedulerSteal core) := rfl
theorem evaluation : Statement .evaluation := rfl
theorem railSettled (r : Nat) : Statement (.railSettled r) := rfl
theorem railHoldExpiry (r : Nat) : Statement (.railHoldExpiry r) := rfl
theorem capMessage (seq : BitVec 32) (cap lease : BitVec 16) : Statement (.capMessage seq cap lease) := rfl
theorem leaseExpiry : Statement .leaseExpiry := rfl
theorem capacitorHold (r : Nat) : Statement (.capacitorHold r) := rfl
theorem capacitorRecharged (r : Nat) : Statement (.capacitorRecharged r) := rfl
theorem droopAlarm (r : Nat) (mv : Nat) : Statement (.droopAlarm r mv) := rfl
theorem droopStretchEnd (core : Nat) : Statement (.droopStretchEnd core) := rfl
theorem droopHalvingEnd (core : Nat) : Statement (.droopHalvingEnd core) := rfl
theorem wayGatingWindow (slice part est : Nat) : Statement (.wayGatingWindow slice part est) := rfl
theorem wayReenable (ways : SliceWays) (misses accesses : Nat) : Statement (.wayReenable ways misses accesses) := rfl
theorem retentionEntry (core : Nat) : Statement (.retentionEntry core) := rfl
theorem coreWake (core : Nat) : Statement (.coreWake core) := rfl
theorem paritySweep (core : Nat) (fails sfails hfails qfails rfails : List (Nat × Nat)) (spad tiles : List Nat) : Statement (.paritySweep core fails sfails hfails qfails rfails spad tiles) := rfl
theorem linkFailure (join : Nat) : Statement (.linkFailure join) := rfl
theorem dieLoss (join : Nat) : Statement (.dieLoss join) := rfl
theorem fevasPortDown (port : Nat) : Statement (.fevasPortDown port) := rfl
theorem fabricRemoteAccess (ctx comm : Nat) (off : Nat) (op : RemoteOp) : Statement (.fabricRemoteAccess ctx comm off op) := rfl
theorem fabricCompletion (id : Nat) (r : FabResult) : Statement (.fabricCompletion id r) := rfl
theorem communicatorAbort (ctx comm : Nat) : Statement (.communicatorAbort ctx comm) := rfl
theorem fabricUnreachable (ctx comm peer : Nat) : Statement (.fabricUnreachable ctx comm peer) := rfl
theorem communicatorSetup (ctx comm : Nat) (e : CommEntry) : Statement (.communicatorSetup ctx comm e) := rfl
theorem lqtailWrite (vf : Nat) (v : BitVec 32) : Statement (.lqtailWrite vf v) := rfl
theorem lqcfgWrite (vf : Nat) (v : BitVec 32) : Statement (.lqcfgWrite vf v) := rfl
theorem eqheadWrite (vf : Nat) (v : BitVec 32) : Statement (.eqheadWrite vf v) := rfl
theorem resume (vf ctx core group : Nat) : Statement (.resume vf ctx core group) := rfl
theorem kill (vf ctx : Nat) : Statement (.kill vf ctx) := rfl
theorem preempt (vf ctx : Nat) : Statement (.preempt vf ctx) := rfl
theorem restore (vf ctx : Nat) : Statement (.restore vf ctx) := rfl
theorem saveImageClose (ctx : Nat) : Statement (.saveImageClose ctx) := rfl
theorem saveLost (ctx : Nat) : Statement (.saveLost ctx) := rfl
theorem contextEnd (ctx : Nat) : Statement (.contextEnd ctx) := rfl
theorem contextCreate (vf : Nat) (d : CtxDesc) : Statement (.contextCreate vf d) := rfl
theorem partitionCreate (p : Nat) : Statement (.partitionCreate p) := rfl
theorem partitionDestroy (p : Nat) : Statement (.partitionDestroy p) := rfl
theorem partitionDescriptorWrite (p : Nat) (f : PartField) : Statement (.partitionDescriptorWrite p f) := rfl
theorem coreReassign (core : Nat) (p : Nat) : Statement (.coreReassign core p) := rfl
theorem registerWrite (r : RegName) (v : BitVec 64) : Statement (.registerWrite r v) := rfl
theorem powerOn (images : List BootImage) : Statement (.powerOn images) := rfl
theorem powerLoss : Statement .powerLoss := rfl
theorem warmReset : Statement .warmReset := rfl
theorem recoveryImageWrite (i : BootImage) : Statement (.recoveryImageWrite i) := rfl
theorem attestationRequest (nonce : List Byte) : Statement (.attestationRequest nonce) := rfl
theorem bypass : Statement .bypass := rfl
theorem idcode : Statement .idcode := rfl
theorem samplePreload : Statement .samplePreload := rfl
theorem extest : Statement .extest := rfl
theorem resultArrival (tid op : Nat) : Statement (.resultArrival tid op) := rfl
theorem eqcfgWrite (vf : Nat) (base : Bool) (v : BitVec 64) : Statement (.eqcfgWrite vf base v) := rfl
theorem probeRequest (die tile : Nat) : Statement (.probeRequest die tile) := rfl
theorem acorrAstatRun (die id : Nat) : Statement (.acorrAstatRun die id) := rfl

end Encodable

end Sys2Proof.Laws
end

