-- ==== Sys2Proof/Tests/Slice0.lean ====
section
/-! SUPPORT. Tests of the model: what the checks of WellFormed refuse, slots written out from the encodings of the specification,
results that the specification or hand calculation gives, and for each obligation states that meet its hypotheses. -/

namespace Sys2Proof.Tests

open Sys2Proof Sys2Proof.Machine Sys2Proof.Claims

set_option Elab.async false

/-! ### Small states -/

/-- Unguarded, without lookahead. -/
def h : Hdr := { la := 0, gp := 0, gn := false }

/-- The cohort that executes: thread 0 of core 0 at the first slot of line 64. -/
def c : Cohort := { core := 0, pc := 4096, tids := [0] }

/-- Reset with one instruction placed, and its cohort executing. -/
def m : State := { State.reset.withFetchWord 96 1 with agenda := [], cur := some c }

/-- The same, with its thread changed. -/
def mt (f : Thread → Thread) : State := m.modThread 0 f

/-- The same, with its group, its team, its kernel or its context changed. -/
def mg (f : Group → Group) : State := m.modGroup 0 f
def mtm (f : Team → Team) : State := m.modTeam 0 f
def mk (f : Kernel → Kernel) : State := m.modTeam 0 (fun t => { t with kernel := f t.kernel })
def mctx (f : Ctx → Ctx) : State := m.modCtx 0 f

/-- Whether the cohort of thread 0 executes with its guard holding, and the thread is as said. -/
def solo (s : State) (p : Thread → Bool) : Bool :=
  decide (s.cur = some c) && (match s.thread? 0 with
    | some t => t.guard h && p t
    | none => false)

theorem of_solo {s : State} {p : Thread → Bool} (w : solo s p = true) : ∃ t, Solo s c h 0 t ∧ p t = true := by
  unfold solo at w
  split at w
  · rename_i t ht
    simp only [Bool.and_eq_true, decide_eq_true_eq] at w
    exact ⟨t, ⟨w.1, rfl, ht, w.2.1⟩, w.2.2⟩
  · simp at w

/-- The one lane's word, predicate, and the group's word. -/
def v (s : State) (i : Nat) : Word := ((s.thread? 0).map (fun t => t.v i)).getD 0
def q (s : State) (n : Nat) : Bool := ((s.thread? 0).map (fun t => t.q n)).getD false

/-- The state after an instruction, and whether there is one. -/
def after (i : Instr) (s : State) : State := match exec i s with
  | .next u => u
  | _ => State.reset

/-- Whether an outcome is a next state as said. -/
def nextIs (r : Machine.Result) (p : State → Bool) : Bool := match r with
  | .next u => p u
  | _ => false


/-! ### Witnesses: integer and control instructions -/

/-- Integer operands without modifiers. -/
def io : IntOps := { d := .v 3, a := .v 1, b := .imm 7, c := .zero, sat := false, u := false, w64 := false, xop := 0 }

/-- A second line of code, a branch target at its first slot (R31). -/
def land : State :=
  { m with mem := Memory.writeAll m.mem 4160 ([1] ++ List.replicate 59 0 ++ [1, 2, 0, 0]) }

def nextLine : FbTarget := { lines := 1, slot := 0 }

def lands (s : State) (x : DWord) (tgt : Bool := true) : Bool := match Control.landing s 0 0 tgt x with
  | .ok _ => true
  | _ => false

theorem witness_IntegerArithmeticAndShifts : m.cur = some c ∧ io.xop ≠ 1 ∧ { io with xop := 1 }.xop = 1 := by decide +kernel

theorem witness_IntegerDivision : h.la = 0 ∧ m.cur = some c ∧ ({ h with la := 3 } : Hdr).la ≠ 0
    ∧ (∃ t, Solo m c { h with la := 3 } 0 t) :=
  ⟨by decide +kernel, by decide +kernel, by decide +kernel, by
    obtain ⟨t, w, -⟩ := of_solo (s := m) (p := fun _ => true) (by decide +kernel)
    exact ⟨t, w⟩⟩

theorem witness_IntegerPredicatesFieldsAndBytes : m.cur = some c := by decide +kernel

theorem witness_MovesAndPredicates : m.cur = some c := by decide +kernel

theorem witness_SpecialRegistersAndCarriedSet :
    solo m (fun t => !t.away && popCount (Operands.src m 0 t (.imm 0xFFF)) == 12
      && popCount (Operands.src m 0 t (.imm 0x1FFF)) == 13 && popCount ((Operands.val64 m 0 t (.v 2)).setWidth 32) == 0)
      = true
    ∧ solo (mt (fun t => { t with visit := some { core := 0, guest := 0, hops := 1, vregs := [], preds := 0, home := false
                                                  exits := false, trap := none }, carryV := 3, carryQ := true }))
      (fun t => t.away && (Operands.src m 0 t (.imm 1) &&& ~~~t.carryV) == 0 && t.carryQ) = true
    ∧ (m.group? 0).isSome = true ∧ (0x09 : BitVec 8) ≠ 0x0E := by decide +kernel

theorem witness_BranchesWaitsAndExit :
    solo land (fun t => lands land (Control.target t nextLine)) = true
    ∧ solo (mt (fun t => { t with vregs := [(2, 4096)] })) (fun t => t.pc == 4096) = true
    ∧ solo { land with threads := (mt (fun t => { t with vregs := [(2, 4160)] })).threads } (fun t =>
        lands land (Operands.val64 { land with threads := (mt (fun t => { t with vregs := [(2, 4160)] })).threads } 0 t (.v 2)))
      = true
    ∧ solo m (fun t => t.visit.isNone && Ops.drained m 0) = true
    ∧ Ops.drained { m with regs := [(1, { core := 0, tids := [0], part := 0, word := 0, val := 0, mask := 15, acked := false })] } 0
      = false := by decide +kernel

theorem witness_CallsAndReturns :
    solo land (fun t => (land.teamOf? 0).any (fun tm => decide (t.view = .off) && t.visit.isNone && decide (1 ≤ t.nres)
      && decide (t.nres < tm.2.kernel.frames) && decide (t.rstack.length < tm.2.kernel.depth)
      && lands land (Control.target t nextLine))) = true
    ∧ solo { land with threads := (mt (fun t => { t with nres := 2, rstack := [4160] })).threads } (fun t => decide (t.view = .off)
      && t.visit.isNone && decide (2 ≤ t.nres) && decide (t.rstack.getLast? = some 4160)
      && !t.rpoison.contains (t.rstack.length - 1) && lands land (Ops.pc64 4160) false) = true
    ∧ solo m (fun t => decide (t.nres = 1 ∧ t.nspill = 0 ∧ t.rstack = [] ∧ t.rsmem = 0)) = true
    ∧ solo (mt (fun t => { t with view := .fill })) (fun t => decide (t.view ≠ .off)) = true
    ∧ solo (mt (fun t => { t with nres := 2 })) (fun t => (m.teamOf? 0).any (fun tm => decide (t.view = .off)
      && decide (tm.2.kernel.frames ≤ t.nres))) = true
    ∧ solo (mt (fun t => { t with nspill := 1 })) (fun t => decide (t.view = .off) && decide (t.nres = 1)
      && decide (t.nspill ≠ 0)) = true := by decide +kernel

/-- Every vector has a handler. -/
def vecs : State := mk (fun k => { k with vecs := [16, 16, 16, 16, 16, 16, 16, 16] })

theorem witness_UserTrapEntry :
    solo vecs (fun t => t.visit.isNone && !t.inH && (vecs.teamOf? 0).any (fun tm =>
      (List.range 8).all (fun v => (Ops.handlerPc tm.2.kernel v).isSome))) = true
    ∧ solo (mt (fun t => { t with inH := true })) (fun t => t.inH && t.visit.isNone && (m.group? 0).any (fun g => g.stop.isNone))
      = true
    ∧ solo m (fun t => (m.teamOf? 0).any (fun tm => (Ops.handlerPc tm.2.kernel 5).isNone) && t.visit.isNone) = true := by
  decide +kernel

theorem witness_TrapsAndBreakpoints :
    solo vecs (fun t => t.visit.isNone && !t.inH && t.longs.isEmpty && t.flags &&& t.trapen == 0) = true
    ∧ solo (vecs.modThread 0 (fun t => { t with flags := 3, trapen := 2 })) (fun t => t.visit.isNone && !t.inH
      && t.longs.isEmpty && t.flags &&& t.trapen != 0) = true
    ∧ solo (mt (fun t => { t with longs := [{ id := 1, inst := none, left := 0, arrived := false, kind := .value, dests := [], parts := []
                                              vals := none, flags := 0, acq := false, pc := 0, eas := 0 }] }))
      (fun t => !t.longs.isEmpty) = true
    ∧ (m.ctxs.get? (m.ctxOf 0)).map Ctx.debug = some false
    ∧ solo (mctx (fun x => { x with debug := true })) (fun t => t.visit.isNone
      && ((mctx (fun x => { x with debug := true })).ctxs.get? 0).any Ctx.debug) = true := by decide +kernel

theorem witness_ReturnFromTrap :
    solo { land with threads := (mt (fun t => { t with inH := true, view := .fill, epc := 4160 })).threads } (fun t => t.inH
      && lands land (Ops.pc64 t.epc) false && !Control.awaits m 0 && decide (t.view ≠ .spill)) = true
    ∧ solo (mt (fun t => { t with inH := true, view := .spill, nspill := 65535 })) (fun t => t.inH && !Control.awaits m 0
      && decide (t.view = .spill ∧ t.nspill = 65535)) = true
    ∧ solo m (fun t => !t.inH) = true
    ∧ solo (mt (fun t => { t with inH := true, view := .spill, epc := 60, nspill := 65534 })) (fun t => t.inH
      && !pcAligned t.epc && decide (t.nspill ≠ 65535)) = true := by decide +kernel

theorem witness_UnassignedOpcodes : assigned (0x2A % 256) = false ∧ assigned 0 = false ∧ solo m (fun t => t.visit.isNone) = true
    ∧ (m.teamOf? 0).isSome = true ∧ (m.group? 0).any (fun g => g.stop.isNone) = true := by decide +kernel

theorem witness_BranchTargets :
    let w : Slot := 0x000000050000000000000002
    let line : Nat := w.toNat
    w.toNat % 256 = 0x02 ∧ 5 ≤ w.toNat / 2 ^ 64 % 8 ∧ Issue.slotBits line (pcSlot 4096) = w
    ∧ (match decode 0x000000040000000000000002 with | .ok (.bra _ _) => true | _ => false) = true := by decide +kernel


/-! ### Witnesses: meets, handles, rings, lanes -/

theorem witness_MeetsAndBarriersMeet :
    solo m (fun _ => (m.group? 0).isSome && (m.teamOf? 0).any (fun tm => decide (tm.1 = 0)
      && (Meets.kreg tm.2 3).inst.isNone) && Ops.drained m 0) = true
    ∧ (let s := mtm (fun t => { t with kregs := [(3, { n := 1, m := 0, inst := some { pc := 12, n := 1, m := 0, signed := [], cmd := none } })] })
       (s.teamOf? 0).any (fun tm => (Meets.kreg tm.2 3).inst.any (fun i => decide (i.pc ≠ c.pc)))) = true
    ∧ Ops.drained { m with regs := [(1, { core := 0, tids := [0], part := 0, word := 0, val := 0, mask := 15, acked := false })] } 0
      = false
    ∧ (∃ x ∈ Ops.liveOf m 0, x ∉ ((m.teams.get? 0).map Team.bar).getD [])
    ∧ (let s := mtm (fun t => { t with bar := [0] })
       ∀ x ∈ Ops.liveOf s 0, x ∈ ((s.teams.get? 0).map Team.bar).getD []) := by decide +kernel

/-- Handle h3 pending, or completed with status 5. -/
def pend : State := mg (fun g => { g with handles := [(3, { gen := 2, pend := some 9, status := 0, trap := false, readers := [] })] })
def completed : State := mg (fun g => { g with handles := [(3, { gen := 2, pend := none, status := 5, trap := false, readers := [] })] })

/-- s0 holds a token that names no core; an older token of h3. -/
def badTok : State := mg (fun g => { g with sregs := [(0, 0xFFFFFFFF)] })
def oldTok : State := completed.modGroup 0 (fun g => { g with sregs := [(0, 0x8C000)] })

theorem witness_HandleInstructions :
    solo completed (fun t => decide (Handles.named completed 0 t (.h 3) = .handle 0 3)
      && (Ops.handleOf completed 0 3).pend.isNone && !(Ops.handleOf completed 0 3).trap && Ops.loadsBack completed 0
      && (Ops.handleOf completed 0 3).readers.isEmpty && (completed.group? 0).isSome) = true
    ∧ solo pend (fun t => decide (Handles.named pend 0 t (.h 3) = .handle 0 3) && (Ops.handleOf pend 0 3).pend.isSome) = true
    ∧ solo m (fun t => decide (Handles.named m 0 t (.h 0) = .handle 0 0)) = true
    ∧ solo badTok (fun t => match Handles.named badTok 0 t (.s 0) with | .bad _ => true | _ => false) = true
    ∧ solo oldTok (fun t => match Handles.named oldTok 0 t (.s 0) with | .complete => true | _ => false) = true := by
  decide +kernel

/-- A ring header at offset 128 of the team's scratchpad, with one slot, and its address in s0:s1. -/
def ring : State := mg (fun g => { g with sregs := [(0, 0x80), (1, 0xFF00), (2, 0)] })

/-- The same ring on another core of the team's cluster, whose table of held requests is full. -/
def far : State :=
  let s := { ring with
    clusters := ring.clusters.update (fun _ => true) (fun _ x => { x with teams := [0, 1] })
    teams := ring.teams.append (ring.teams.map (fun (x : Nat × Team) => (1, { x.2 with core := 1, rank := 1 })))
    threads := ring.threads ++ ring.threads.flatMap (fun (x : Nat × Thread) => (List.range 32).map (fun i => (128 * (i + 2),
      { x.2 with status := .staked 1 128 1 true false }))) }
  s.modGroup 0 (fun g => { g with sregs := [(0, 0x80080), (1, 0xFF01), (2, 0)] })

def offRing : State := ring.modGroup 0 (fun g => { g with sregs := [(0, 0x84), (1, 0xFF00)] })

theorem witness_StageRingsAndToggle :
    solo ring (fun t => decide (Rings.spadPlace ring 0 t (Operands.val64 ring 0 t (.s 0)) 128 = some (0, 128))
      && (Operands.val64 ring 0 t (.s 0)).toNat % 128 == 0 && !Mem.spadAbsent ring 0 128 128 && decide ((ring.core 0).ret = .awake) && decide (t.status ≠ .acquires)
      && (Operands.val ring 0 t (.s 2)).toNat == 0 && decide (0 ≤ Mem.ofBytes (Mem.spadBytes ring 0 128 4) % 64) && Ops.drained ring 0 && Ops.loadsBack ring 0
      && !Rings.phase ring 0 128 0 true false && Rings.phase ring 0 128 0 false false) = true
    ∧ solo offRing (fun t =>
        (Operands.val64 offRing 0 t (.s 0)).toNat % 128 != 0) = true
    ∧ solo ring (fun t => (Rings.spadPlace ring 0 t (Operands.addr ring 0 t { base := .s 0, idx := none, off := 0 } &&& ~~~127) 128).isSome)
      = true
    ∧ Ops.drained { ring with regs := [(1, { core := 0, tids := [0], part := 0, word := 0, val := 0, mask := 15, acked := false })] } 0
      = false
    ∧ solo far (fun t => decide (Rings.spadPlace far 0 t (Operands.val64 far 0 t (.s 0)) 128 = some (1, 128))
      && !Mem.spadAbsent far 1 128 128 && decide ((far.core 1).ret = .awake) && (Operands.val64 far 0 t (.s 0)).toNat % 128 == 0
      && !Rings.phase far 1 128 0 true false && decide (32 ≤ Rings.heldAt far 1) && decide (1 ≠ gidCore (tidGid 0))) = true := by
  decide +kernel

theorem witness_RingToggle : (3 : Nat) < 64 ∧ Mem.spadAbsent m 0 (128 + 8) 8 = false
    ∧ (let s := mt (fun t => { t with status := .staked 0 128 3 true false })
       Rings.phase (Rings.toggle s 0 128 8 3) 0 128 3 true false = true
       ∧ Rings.phase (Rings.toggle s 0 128 8 3) 0 128 4 false false = true) := by decide +kernel


/-! ### Witnesses: lanes and memory -/

/-- The lanes that a mask names beside the one that runs have exited. -/
def alone (s : State) (mask : Reg) : Bool := decide (s.cur = some c) && (s.thread? 0).isSome
  && (s.group? 0).any (fun g => g.xinsts.isEmpty && (CrossLane.maskOf g mask).contains 0
    && (CrossLane.maskOf g mask).all (fun l => l == 0 || (s.thread? (tidOf 0 l)).isNone || ((s.thread? (tidOf 0 l)).map Thread.status) == some .retired))

theorem witness_CrossLaneInstructions : alone m .zero = true
    ∧ alone (mg (fun g => { g with sregs := [(4, 1)] })) (.s 4) = true ∧ (Reg.v 3).isV = true
    ∧ (Reg.s 4).isS = true ∧ (m.group? 0).isSome = true := by decide +kernel

theorem witness_CrossLaneSegments : (0 : BitVec 4) = 0 ∧ (3 : BitVec 3) ≠ 7 := by decide

/-- The address in v2:v3 is of the team's scratchpad, of vault 0, of a global page, or of a hole. -/
def spad : State := mt (fun t => { t with vregs := [(2, 0x10), (3, 0xFF00)] })
def vault : State := mt (fun t => { t with vregs := [(2, 0x10), (3, 0xFF02)] })
def glob : State := mt (fun t => { t with vregs := [(2, 0x2000)] })
def hole : State := mt (fun t => { t with vregs := [(2, 0x10), (3, 0xFF03)] })
def odd : State := mt (fun t => { t with vregs := [(2, 0x2001)] })

def ad : Addr := { base := .v 2, idx := none, off := 0 }
def lo : LdOps := { d := .v 4, addr := ad, mig := true, sz := 0, sgn := false, acq := false }
def so : StOps := { d := .v 4, addr := ad, mig := false, sz := 0, rel := false }
def ao : AtomOps :=
  { d := .v 4, c := .v 6, addr := { base := .v 2, idx := none, off := 0 }, mig := false, op := 0, w64 := false, acq := false
    rel := false }

/-- The access of the thread at v2:v3 passes its checks, waits for nothing and does not migrate. -/
def passes (s : State) (i : Instr) (n : Nat) (acc : Mem.Acc) (aop : Option (Bool × Nat)) (p : Mem.Access → Bool) : Bool :=
  solo s (fun t => decide (t.visit = none) && !Access.acquiring t
    && (Hops.migTarget s 0 t i (Operands.addr s 0 t ad)).isNone && !Hops.walks s 0 t (Operands.addr s 0 t ad)
    && match Mem.check s 0 t (Operands.addr s 0 t ad) n acc aop with
      | .ok a => !a.walk && !a.wait && a.park.isEmpty && p a
      | .error _ => false)

def near (a : Mem.Access) : Bool := match a.tgt with
  | .spad _ _ => true
  | .vault _ => true
  | _ => false

def clean (s : State) (a : Mem.Access) : Bool := !Mem.poisoned s 0 a 4

theorem witness_NearLoadsAndStores :
    passes spad (.ld h lo) 4 .rd none (fun a => near a && clean spad a) = true
    ∧ passes vault (.ld h lo) 4 .rd none (fun a => near a && clean vault a) = true
    ∧ passes spad (.st h so) 4 .wr none near = true ∧ passes vault (.st h so) 4 .wr none near = true
    ∧ Ops.drained spad 0 = true ∧ (Reg.v 4).isV = true ∧ h.la = 0 := by decide +kernel

/-- The lane at v2:v3, with its checked access. -/
def lane (s : State) (n : Nat) (acc : Mem.Acc) : Option Access.Lane := (s.thread? 0).bind (fun t =>
  match Mem.check s 0 t (Operands.addr s 0 t ad) n acc none with
  | .ok a => some { tid := 0, t := t, a := a }
  | .error _ => none)

def loadStarts (s : State) (acq : Bool) : Bool := (lane s 4 .rd).any (fun l =>
  (Access.startLoads (Access.note s l) 0 acq [l] 4 0 (fun _ => .words) (fun l => Memory.dests l.t (.v 4) 1)).isSome)

theorem witness_AccessesAndAtomics :
    passes glob (.ld h lo) 4 .rd none (clean glob) = true ∧ passes glob (.st h so) 4 .wr none (fun _ => true) = true
    ∧ passes glob (.atom h ao) 4 .atom (some (false, 0)) (clean glob) = true
    ∧ passes glob (.nop h) 4 .wr (some (true, 0)) (fun _ => true) = true
    ∧ passes spad (.atom h ao) 4 .atom (some (false, 0)) (fun a => near a && clean spad a) = true
    ∧ loadStarts glob false = true ∧ loadStarts glob true = true ∧ loadStarts spad false = true
    ∧ ((lane glob 4 .wr).any (fun l => (Access.storeAll (Access.note glob l) 0 [l] 4 (fun _ => 5)).isSome)) = true
    ∧ ((lane glob 4 .atom).any (fun l => (Memory.startAtoms h ao 0 (Access.note glob l) [l]).isSome
        && true)) = true
    ∧ ((lane glob 4 .wr).any (fun l => Access.atomReady (Access.note glob l) 0 false l 4)) = true := by decide +kernel

/-- The gather of two elements at v2:v3, by the indexes v8 and v9. -/
def go : GathOps := { d := .v 4, base := .v 2, idx := .v 8, sh := 0, off := 0, n := 1 }

def elementsDone (s : State) (gather : Bool) : Bool := (s.thread? 0).any (fun t =>
  match Memory.elements c go gather [(0, t)] 2 0 s [] with
  | .done _ _ => true
  | _ => false)

/-- The address of a line of the scratchpad, in s2:s3. -/
def shared : State := mg (fun g => { g with sregs := [(2, 0x10), (3, 0xFF00)] })

def sharedOps : LdsOps := { d := .s 8, addr := { base := .s 2, idx := none, off := 0 }, n := 0, ord := false }

/-- A load that has not returned. -/
def out : LongOp :=
  { id := 1, inst := none, left := 0, arrived := false, kind := .words, dests := [], parts := [], vals := none, flags := 0
    acq := false, pc := 0, eas := 0 }

theorem witness_FencesGroupsAndElements :
    solo m (fun _ => Ops.drained m 0 && Ops.loadsBack m 0) = true
    ∧ Ops.drained { m with regs := [(1, { core := 0, tids := [0], part := 0, word := 0, val := 0, mask := 15, acked := false })] } 0
      = false
    ∧ solo shared (fun t => match Mem.check shared 0 t (Operands.addr shared 0 t sharedOps.addr) 4 .wr none with
      | .ok a => !a.walk && !a.wait && a.park.isEmpty && near a && clean shared a
        && (Access.startLoads (Access.note shared { tid := 0, t := t, a := a }) 0 false [{ tid := 0, t := t, a := a }] 4 0
          (fun _ => .words) (fun l => Memory.dests l.t sharedOps.d 1)).isSome
        && (Memory.storeShared 0 sharedOps (Access.note shared { tid := 0, t := t, a := a })
          [{ gid := 0, lead := { tid := 0, t := t, a := a }, lanes := [(0, t)] }]).isSome
      | .error _ => false) = true
    ∧ Ops.loadsBack (mt (fun t => { t with longs := [out] })) 0 = false
    ∧ solo spad (fun t => decide (t.visit = none) && !t.resumed && !Memory.gathering t && (List.range 2).all (fun j =>
      match Mem.check spad 0 t (Memory.elemAddr spad 0 t go j) 4 .wr none with
      | .ok a => !a.walk && !a.wait && a.park.isEmpty && near a && clean spad a
      | .error _ => false)) = true
    ∧ elementsDone spad true = true ∧ elementsDone spad false = true
    ∧ solo glob (fun t => match Mem.check glob 0 t (Operands.addr glob 0 t ad) 1 .rd none with
      | .ok a => decide (a.tgt = .cached 0x2000) && !a.wait && !a.stale && Mem.servable glob 0 0x800
      | .error _ => false) = true
    ∧ solo hole (fun t => match Mem.check hole 0 t (Operands.addr hole 0 t ad) 1 .rd none with
      | .ok _ => false
      | .error _ => true) = true := by decide +kernel

theorem witness_MemoryReadAfterWrite : Memory.wf ([] : Tab Byte) = true
    ∧ Memory.wf ([(4, 1), (9, 255)] : Tab Byte) = true := by decide

/-- The line of the address in v2:v3 is absent. -/
def absentLine : State := spad.modCore 0 (fun k => { k with absent := [0] })

theorem witness_StoresSeenAndFaults : Mem.l1? m 0 0x800 = none ∧ (Mem.l1Set m 0 0x80).length < 16
    ∧ solo absentLine (fun t => !Access.acquiring t && (match Mem.check absentLine 0 t (Operands.addr absentLine 0 t ad) 4 .rd none with
      | .ok a => !a.walk && !a.wait && !a.park.isEmpty
      | .error _ => false)) = true
    ∧ solo hole (fun t => !Access.acquiring t && (match Mem.check hole 0 t (Operands.addr hole 0 t ad) 4 .rd none with
      | .ok _ => false
      | .error _ => true)) = true
    ∧ solo odd (fun t => (Mem.classify odd 0 t (Operands.addr odd 0 t ad) 4 false).isSome
      && (Operands.addr odd 0 t ad).toNat % 4 != 0) = true := by decide +kernel


/-! ### Witnesses: long results, copies, migration, the matrix unit -/

theorem witness_FloatFunctionsAndSpecialInputs :
    h.la = 0 ∧ m.cur = some c ∧ (0x7FC00000 : Word).extractLsb' 22 9 = 0x1FF ∧ (0x7F800001 : Word).extractLsb' 22 9 = 0x1FE
    ∧ (0x7F800001 : Word).extractLsb' 0 22 ≠ 0 ∧ (0xC0000000 : Word).getLsbD 31 = true ∧ 0x80800000 ≤ (0xC0000000 : Word).toNat
    ∧ (0xC0000000 : Word).toNat < 0xFF800000 := by decide

theorem witness_FloatArithmeticAndComparisons : m.cur = some c ∧ (13 : BitVec 4).toNat < 14 ∧ 0 < 2 ^ 32 := by decide

theorem witness_Rounding : 2 * (6 % 2 ^ 2) = 2 ^ 2 ∧ 2 ^ 2 ∣ 8 ∧ Flags.f32 ∈ [Flags.f32, Flags.f16, Flags.bf16]
    ∧ 0x3F800000 < 2 * Flags.f32.signBit ∧ 0x3F800000 / 2 ^ Flags.f32.fb % 2 ^ Flags.f32.eb ≠ Flags.f32.emax := by decide

/-- A conversion between types of Table 09.9. -/
def cv (d s : BitVec 4) : CvtOps :=
  { d := .v 4, a := .v 6, b := .zero, ftz := false, rm := 0, sat := false, hi := false, st := s, dt := d }

theorem witness_PackedHalvesAndAllConversions :
    m.cur = some c ∧ CvtOps.isPacked (cv 0xB 0).dt = true ∧ CvtOps.isPacked (cv 0 7).dt = false
    ∧ CvtOps.isFloat (cv 7 9).dt = false ∧ CvtOps.isFloat (cv 7 9).st = false ∧ (cv 7 9).dt = 7
    ∧ FloatArith.intType (cv 7 9).st = (true, 64) := by decide

/-- A long result for v16, with shadow slots left. -/
def long (left : Nat) : LongOp :=
  { id := 1, inst := none, left := left, arrived := true, kind := .value, dests := [(0, .v 16)], parts := [], vals := some [7], flags := 1
    acq := false, pc := 4096, eas := 0 }

theorem witness_LongResultsAndShadows :
    solo m (fun _ => true) = true ∧ { h with la := 3 }.la ≠ 0 ∧ m.cur = some c
    ∧ (∀ n ∈ [0, 1], ((mt (fun t => { t with longs := [long n] })).thread? 0).any (fun t => decide (t.visit = none
      ∧ t.longs.find? (fun x => x.id == 1) = some (long n) ∧ Ops.unread m (long n).inst = false)) = true) := by decide +kernel

/-- Destination and source addresses in s0:s1 and s2:s3, a shape in s4 to s7, and handle h1 free. -/
def cp (d : Word) : State := mg (fun g => { g with sregs := [(0, d), (1, 0xFF00), (2, 0x2000), (4, 64), (5, 1), (6, 64), (7, 64)] })

def cpq (kind : Nat) (d : DWord) (n : Nat) : Copy.Req :=
  { kind := kind, dst := d, src := if kind = 2 then 0 else 0x2000, fill := if kind = 2 then 0x2000 else 0, rb := n, rows := 1
    ss := if kind = 1 then 64 else 0, ds := if kind = 1 then 64 else 0 }

def cpyI (n : BitVec 32) : Instr := .cpy h { d := .h 1, a := .s 0, b := .s 2, len := .imm n }
def cfillI (n : BitVec 32) : Instr := .cfill h { d := .h 1, a := .s 0, b := .s 2, len := .imm n }
def cpy2I : Instr := .cpy2 h (.h 1) (.s 0) (.s 2) (.s 4)

/-- The command passes its checks and finds room, or fails them. -/
def copyReady (s : State) (i : Instr) (q : Copy.Req) (ok : Bool) : Bool :=
  solo s (fun t => Ops.drained s 0 && match copyReq s 0 t h i, s.group? 0, s.teamOf? 0 with
    | some (q', lens, .h hr), some g, some (_, tm) => decide (q'.kind = q.kind ∧ q'.dst = q.dst ∧ q'.src = q.src ∧ q'.fill = q.fill
        ∧ q'.rb = q.rb ∧ q'.rows = q.rows ∧ q'.ss = q.ss ∧ q'.ds = q.ds ∧ hr = 1)
      && (Copy.checks s tm q lens).isNone == ok && (g.handle 1).pend.isNone && (g.handle 1).readers.isEmpty
      && ((Copy.pieces s tm q).flatMap Copy.spadLines).all (fun x => !(s.core x.1).absent.contains x.2)
      && decide (Copy.queued (s.core 0) < 32) && !Copy.walks s tm q (Copy.pieces s tm q)
      && Engine.canHold s (Copy.ownLines s tm (Copy.pieces s tm q)) (Copy.pinLines s tm q (Copy.pieces s tm q))
    | _, _, _ => false)

theorem witness_CopyCommandsIssue :
    copyReady (cp 0x100) (cpyI 64) (cpq 0 0xFF0000000100 64) true = true
    ∧ copyReady (cp 0x100) (cpyI 0) (cpq 0 0xFF0000000100 0) true = true
    ∧ copyReady (cp 0x100) (cfillI 64) (cpq 2 0xFF0000000100 64) true = true
    ∧ copyReady (cp 0x100) cpy2I (cpq 1 0xFF0000000100 64) true = true
    ∧ copyReady (cp 0x102) (cpyI 64) (cpq 0 0xFF0000000102 64) false = true
    ∧ (((cp 0x100).modGroup 0 (fun g => { g with handles := [(1, { gen := 0, pend := some 5, status := 0, trap := false, readers := [] })] })).group? 0).any
      (fun g => (g.handle 1).pend.isSome) = true := by decide +kernel

/-- A copy command that has started, in the queue of core 0. -/
def cmd (kind : Nat) (started : Bool) (landed : NSet) : CopyCmd :=
  { id := 1, ctx := 0, team := 0, gid := 0, kind := kind, dst := 0xFF0000000100, src := 0xFF0000000000, fill := 0x2000, rb := 64
    rows := 1, ss := 0, ds := 0, started := started, cancel := false, restored := false
    landed := landed, pix := 0, err := 0 }

def eng (x : CopyCmd) : State := m.modCore 0 (fun k => { k with copyq := [x] })

theorem witness_CopyEnginesMoveBytes :
    (((eng (cmd 0 false [])).core 0).copyq.filter CopyCmd.started).length < 4
    ∧ (((eng (cmd 0 false [])).core 0).copyq.filter (fun c => !c.started && Copy.runs (eng (cmd 0 false [])) c)).head?
      = some (cmd 0 false [])
    ∧ 4 ≤ (((m.modCore 0 (fun k => { k with copyq := List.replicate 4 (cmd 0 true []) })).core 0).copyq.filter CopyCmd.started).length
    ∧ ((eng (cmd 0 true [])).teams.get? 0).any (fun tm => Copy.find? (eng (cmd 0 true [])) 0 1 == some (cmd 0 true [])
      && match (Copy.pieces (eng (cmd 0 true [])) tm (Copy.reqOf (cmd 0 true [])))[0]? with
        | some p => Copy.mayLand (eng (cmd 0 true [])) 0 tm (cmd 0 true []) (Copy.pieces (eng (cmd 0 true [])) tm
            (Copy.reqOf (cmd 0 true []))) p && decide (p.dst = .spad 0 0x100)
            && decide (Copy.srcPlace (eng (cmd 0 true [])) tm (Copy.reqOf (cmd 0 true [])) p.row p.off p.len = some (.spad 0 0))
            && (List.range p.len).all (fun j => !((eng (cmd 0 true [])).core 0).spoison.contains ((0 + j) / 4)
              && !Copy.shared (eng (cmd 0 true [])) tm (Copy.reqOf (cmd 0 true [])) (.spad 0 (0x100 + j)))
        | none => false) = true
    ∧ ((eng (cmd 0 true [0])).teams.get? 0).any (fun tm => (Copy.left (cmd 0 true [0])
      (Copy.pieces (eng (cmd 0 true [0])) tm (Copy.reqOf (cmd 0 true [0])))).isEmpty) = true
    ∧ (cmd 2 true []).kind = 2 := by decide +kernel

/-- The partition owns core 1 too, and v2:v3 holds an address of its vault. -/
def two (f : Thread → Thread) : State :=
  let s := mt (fun t => f { t with vregs := [(2, 0x00800010), (3, 0xFF02)] })
  { s with parts := s.parts.modify 0 (fun p => { p with cores := 3 }) }

def ownedBy (s : State) (t : Thread) (o : Nat) : Bool := match Mem.ownerOf s 0 t (Operands.addr s 0 t ad) .owner with
  | .ok (x, _, _) => x == o
  | .error _ => false

def guest (core : Nat) (home : Bool) : Visit :=
  { core := core, guest := 0, hops := 1, vregs := [(4, 9)], preds := 2, home := home, exits := false, trap := none }

/-- A walk for every page of context 0 is under way. -/
def walked (s : State) : State := { s with walks := List.replicate 64 { ctx := 0, page := 0, cores := [0] } }

/-- The owner of the thread's address is known without a walk. -/
def known (s : State) (t : Thread) : Bool := !Mem.ownerWalks s 0 t (Operands.addr s 0 t ad)

theorem witness_MigrationAndBack :
    solo (two id) (fun t => known (two id) t && ownedBy (two id) t 1 && !t.inH && decide (1 ≠ Hops.here 0 t) && !t.away
      && decide (Hops.refusal (two id) 0 t 1 = none) && Ops.mayLeave (two id) 0 t) = true
    ∧ solo vault (fun t => known vault t && !t.inH && ownedBy vault t (Hops.here 0 t)) = true
    ∧ solo { two id with lost := [0] } (fun t => ownedBy (two id) t 1
      && (Hops.refusal { two id with lost := [0] } 0 t 1).isSome) = true
    ∧ solo (two (fun t => { t with inH := true })) (fun t => t.inH) = true
    ∧ solo hole (fun t => known hole t && !t.inH && (match Mem.ownerOf hole 0 t (Operands.addr hole 0 t ad) .owner with
      | .ok _ => false
      | .error _ => true)) = true
    ∧ solo (walked glob) (fun t => !known (walked glob) t) = true
    ∧ solo m (fun t => decide (t.visit = none)) = true
    ∧ ((two (fun t => { t with visit := some (guest 1 false) })).thread? 0).any (fun t => t.away
      && Ops.mayLeave (two id) 0 t) = true := by decide +kernel

theorem witness_BackGoesHome :
    solo (two (fun t => { t with visit := some (guest 1 false) })) (fun t => t.away
      && Ops.mayLeave (two (fun t => { t with visit := some (guest 1 false) })) 0 t) = true := by decide +kernel

/-- The thread is on its way to core 1, by `go` or by a `.mig` access, refused or not. -/
def way (impl refused : Bool) : State :=
  two (fun t => { t with status := .transit, hop := some { dest := 1, impl := impl, refused := refused, ea := 0 } })

/-- Every guest group of core 1 is held. -/
def full : State := (List.range 16).foldl (fun s g => match s.thread? 0 with
  | some t => s.setThread (1 + g) { t with hop := none, visit := some { guest 1 false with guest := g } }
  | none => s) (way false false)

/-- The one packet that carries the thread of a state. -/
def sent (s : State) : State := Ops.send s [0]

/-- What is in it: whether it goes home, and its one continuation. -/
def sentBy (s : State) (f : Packet → Ops.Cont → Thread → Bool) : Bool := match (sent s).packets.get? s.nextId with
  | some p => (match p.conts with
    | [b] => decide (((sent s).core p.dest).ret = .awake)
        && ((sent s).thread? (Ops.unpackCont b).tid).any (fun t => f p (Ops.unpackCont b) t)
    | _ => false)
  | none => false

/-- The thread is on its way home, with or without a trap, or exiting. -/
def coming (exits : Bool) (trap : Option (Trap × BitVec 48)) : State :=
  two (fun t => { t with status := .transit, visit := some { guest 1 true with exits := exits, trap := trap } })

theorem witness_ContinuationsTravel :
    sentBy (way false false) (fun p c _ => !p.home && decide (p.dest = 1 ∧ c.tid = 0)
      && (Migration.placeFor (sent (way false false)) p.dest c.ctx (Migration.roleOf (sent (way false false)) c.tid)).isSome) = true
    ∧ sentBy full (fun p c _ => !p.home
      && (Migration.placeFor (sent full) p.dest c.ctx (Migration.roleOf (sent full) c.tid)).isNone) = true
    ∧ sentBy (coming false none) (fun p c t => p.home && !c.exits && t.visit.any (fun x => x.trap.isNone)) = true
    ∧ sentBy (coming false (some (Ops.plain 0x05 0, 4096))) (fun p c t => p.home && !c.exits && t.visit.any (fun x => x.trap.isSome))
      = true
    ∧ sentBy (coming true none) (fun p c t => p.home && c.exits && t.visit.any (fun x => x.trap.isNone)) = true
    ∧ ((way false false).thread? 0).any (fun t => decide (t.status = .transit) && t.hop.isSome
      && Ops.mayLeave (way false false) 0 t) = true
    ∧ ((way true true).thread? 0).any (fun t => t.hop.any (fun x => x.refused && x.impl)) = true
    ∧ ((way false true).thread? 0).any (fun t => t.hop.any (fun x => x.refused && !x.impl)) = true
    ∧ (way false true).threads.map Prod.fst = [0] ∧ (way false true).threads.rising = true := by decide +kernel

theorem witness_ContinuationBytes : ((way false false).thread? 0).any (fun t =>
    let c := Ops.contOf (way false false) 0 t
    decide (gidCore (tidGid c.tid) < 256 ∧ c.ctx < 2048 ∧ c.hops < 8 ∧ c.dest < 256) && !c.pred.getLsbD 0
      && decide (Ops.unpackCont (Ops.packCont c) = c)) = true := by decide +kernel

/-- A matrix command into tile 0, signed at k2 with handle h1. -/
def mz : Instr := .mzero h (.h 1) (.m 0) (.k 2)

def sure (n : Nat) : State := mtm (fun t => { t with kregs := [(2, { n := n, m := 0, inst := none })] })

/-- Its open instance, whose one signer has signed. -/
def open_ : KInst := { pc := 4096, n := 1, m := 0, signed := [0], cmd := some { instr := mz, tile := 0, id := 1 } }

def signed : State := mtm (fun t => { t with kregs := [(2, { n := 1, m := 0, inst := some open_ })] })

/-- A matrix command in the unit. -/
def mx (i : Instr) (started : Bool) : MatCmd :=
  { id := 1, ctx := 0, team := 0, tile := 0, phys := 0, instr := i, desc := [0, 0xFF00, 256, 0], started := started
    cancel := false, scale := [], kstep := 0, err := 0, flags := 0, ref := none, parted := false, marks := [] }

/-- The unit's queue is full. -/
def busy (s : State) : State := s.modCore 0 (fun k => { k with matq := List.replicate 16 (mx mz false) })

theorem witness_MatrixCommandsMeet :
    [signed, busy signed].all (fun s => (s.teamOf? 0).any (fun tm => decide ((Meets.kreg tm.2 2).inst = some open_)
      && Meets.proceeds s 0 open_ && Matrix.mayEnter s 0 tm.2 mz [] == decide (s = signed))) = true
    ∧ ((busy (sure 1)).teamOf? 0).any (fun tm => !Matrix.mayEnter (busy (sure 1)) 0 tm.2 mz []) = true
    ∧ matrixHdr mz = some h ∧ Matrix.operands mz = some (some 1, 0, 2)
    ∧ (∀ n ∈ [1, 2], solo (sure n) (fun _ => Ops.drained (sure n) 0 && ((sure n).teamOf? 0).any (fun tm =>
      decide (0 < tm.2.kernel.tiles) && (Meets.kreg tm.2 2).inst.isNone
        && Meets.proceeds (sure n) 0 (firstSigned (sure n) c 0 mz 0 (Meets.kreg tm.2 2)) == decide (n = 1)
        && Matrix.mayEnter (sure n) 0 tm.2 mz []) && ((sure n).group? 0).any (fun g => (g.handle 1).pend.isNone
        && (g.handle 1).readers.isEmpty && g.xinsts.isEmpty)) = true)
    ∧ Matrix.operands (.mzero h (.h 1) (.m 1) (.k 2)) = some (some 1, 1, 2)
    ∧ (m.teamOf? 0).any (fun tm => decide (tm.2.kernel.tiles ≤ 1)) = true := by decide +kernel

/-- It is the only command of the unit. -/
def unit (x : MatCmd) : State := m.modCore 0 (fun k => { k with matq := [x] })

/-- A team with a large scratchpad. -/
def big : State := mk (fun k => { k with spad := 65536 })

def mo : MatOps := { d := .h 1, t := .m 0, k := .k 2, c := .s 0 }

/-- The sources of a command of a team with a large scratchpad are read, and the command still stands in the unit. -/
def readsIn (i : Instr) (desc : List Word) (n : Nat) : Bool :=
  let x : MatCmd := { mx i true with desc := desc }
  let s := big.modCore 0 (fun k => { k with matq := [x] })
  (s.teams.get? 0).any (fun tm => match Matrix.readAll s 0 tm (Matrix.sourcesIn i desc 0 n) with
    | .ok (_, s1) => decide (Matrix.find? s1 0 1 = some x ∧ Matrix.tile (s1.core 0) 0 = Matrix.tile (s.core 0) 0)
        && !(s.core 0).tilePoison.contains 0
    | .error _ => false)

/-- A tile whose last command failed. -/
def failedTile : Tile := { words := [], undef := none, flags := 0, err := 0x52, canc := false, scale := [] }

theorem witness_MatrixCommandsRun :
    Matrix.find? (unit (mx mz false)) 0 1 = some (mx mz false)
    ∧ Matrix.mayStart (unit (mx mz false)) ((unit (mx mz false)).core 0) (mx mz false) = true
    ∧ Matrix.find? (unit (mx mz true)) 0 1 = some (mx mz true) ∧ (mx mz true).started = true
    ∧ ((m.modCore 0 (fun k => { k with matChecks := [(0, [])] })).core 0).matChecks = [(0, [])]
    ∧ (m.ctxs.get? 0).map Ctx.phase = some .running
    ∧ (m.teams.get? 0).any (fun tm => [mx mz false, mx mz true].all (fun x =>
      !Matrix.walksAt (unit x) 0 tm (Matrix.sources x.instr x.desc) .rd && !Matrix.walksAt (unit x) 0 tm (Matrix.dests x.instr x.desc) .wr
      && !Matrix.blockedAt (unit x) 0 tm 1 (Matrix.sourcesIn x.instr x.desc 0 1) false)) = true
    ∧ readsIn (.mld h mo 0) [0, 0xFF00, 256] 64 = true ∧ readsIn (.mma h mo 0 0) [0, 0xFF00, 256, 0, 0, 0xFF00, 256, 0] 1 = true
    ∧ Matrix.find? (unit (mx (.mst h mo 0) true)) 0 1 = some (mx (.mst h mo 0) true)
    ∧ failedTile.err ≠ 0 ∧ Matrix.tile (((unit (mx (.mst h mo 0) true)).modCore 0 (fun k => { k with tiles := [(0, failedTile)] })).core 0) 0 = failedTile
    ∧ ((mg (fun g => { g with handles := [(1, { gen := 0, pend := some 1, status := 0, trap := false, readers := [] })] })).group? 0).any
      (fun g => decide ((g.handle 1).pend = some 1)) = true := by decide +kernel


/-! ### Witnesses: the arrays -/

theorem witness_ArrayCommandsEnter_issue :
    solo m (fun t => Ops.drained m 0 && (m.group? 0).any (fun g => (g.handle 1).pend.isNone && (g.handle 1).readers.isEmpty
        && (m.teams.get? g.team).isSome)
      && decide ((Arrays.targetWord m 0 t (.imm 5 1 3)).toNat = 0x315 ∧ Arrays.partOf m 0 = 0) && !m.lost.contains (4 + 5)
      && (Arrays.argFault m 0 (Operands.val64 m 0 t (.s 0))).isNone && decide (Arrays.waiting m (m.die 5) 0 < 16)
      && decide ((Operands.val m 0 t (.s 0)).toNat / 8192 % 8 = 0)) = true
    ∧ solo (mg (fun g => { g with sregs := [(0, 2048)] })) (fun t =>
        decide (2048 ≤ (Arrays.targetWord (mg (fun g => { g with sregs := [(0, 2048)] })) 0 t (.reg (.s 0))).toNat)) = true
    ∧ 2 * 256 / 256 % 8 = 2 ∧ 6 * 256 < 2048 := by decide +kernel

/-- An array command of an entry, with an argument block of zeros but for its bytes 16 and up. -/
def acm (e : Nat) (b : List Byte) : ACmd :=
  { id := 1, ctx := 0, vf := 0, gid := 0, team := 0, seq := 0, entry := e, argAddr := 0, tile := 0
    block := List.replicate 16 0 ++ b ++ List.replicate 40 0, queued := true, started := false, lane := 0, micro := none, shipped := false
    pass := 0, latched := []
    parts := [], xq := [], flags := 0, clipx := false, clipc := false, err := 0, detail := 0, cancel := false, phase := 0
    row := 0, begun := false, img := [] }

/-- A STAGE_DONE of tile 0 and staging tile 0. -/
def staged : JRec := { Arrays.jrec 2 0 0 0 0 with sw := 0x3F800000 }

/-- A die with one command, a READY tile 0 that VF 0 reads and programs, and a staging tile of partition 0. -/
def dieOf (s : State) (x : ACmd) (tile : ATile) : State := s.modDie 0 (fun o =>
  { o with
    replayed := true, cmds := [x], perm := [(0, 3)], tiles := [(0, tile)], stgOwner := [(0, StgOwner.reset)]
    seqrs := [(0, { Seqr.reset with stop := false })], journal := [staged] })

def ready : ATile := { ATile.reset with state := .ready }

/-- The command is next at sequencer 0 of die 0. -/
def isNext (s : State) (x : ACmd) : Bool := decide (Arrays.laneFor (s.die 0) 0 = some 0) && decide (x.lane = 0)
  && decide (Arrays.next s (s.die 0) 0 = some x) && (Arrays.microStart (s.die 0) x).isNone && (s.teams.get? x.team).isSome

theorem witness_ArrayCommandsEnter :
    (∀ e ∈ [0, 7, 8, 9], let x := { acm e [] with queued := false }
      let s := dieOf m x ready
      Arrays.find? s 0 1 = some x ∧ ((s.die 0).cmds.find? (fun y => y.vf == x.vf && !y.queued && y.entry != 10 && !y.cancel
          && Arrays.stands s y)).map ACmd.id = some 1 ∧ Arrays.entries (s.die 0) x.vf < 16
        ∧ ((s.ctxs.get? x.ctx).map (fun y => y.phase == Phase.running)).getD false = true ∧ (s.die 0).replayed = true
        ∧ ((s.die 0).seqrs.getD x.seq Seqr.reset).halted = false
        ∧ (s.teams.get? 0).any (fun tm => match Arrays.readRange s x.ctx tm x.argAddr 64 with
          | .ok (b, s1) => !Arrays.walks s1 x.ctx tm (Arrays.ranges { x with block := b })
            && !Arrays.blocked s x.ctx none tm [{ ea := x.argAddr, n := 64, wr := false }] && Engine.canHold s1 (Arrays.linesOf s1 x.ctx tm (Arrays.ranges { x with block := b }) true)
              (Arrays.linesOf s1 x.ctx tm (Arrays.ranges { x with block := b }) false)
          | .error _ => false) = true)
    ∧ (m.teams.get? 0).any (fun tm => Arrays.blockError m 0 tm 7 (List.replicate 64 0) == 0
      && Arrays.blockError m 0 tm 7 (List.replicate 64 1) != 0) = true := by decide +kernel

theorem witness_ArrayCommandsRun_start :
    (∀ e ∈ [0, 1, 5, 3, 4, 7, 9], isNext (dieOf m (acm e []) ready) (acm e []) = true)
    ∧ (∀ e ∈ [0, 1, 5], Arrays.tileCheck ((dieOf m (acm e []) ready).die 0) (acm e []) (Arrays.segTiles (acm e [])) = none)
    ∧ (Arrays.tileCheck ((dieOf m (acm 0 []) ATile.reset).die 0) (acm 0 []) (Arrays.segTiles (acm 0 []))).isSome = true
    ∧ isNext (dieOf m (acm 0 []) ATile.reset) (acm 0 []) = true
    ∧ (∀ e ∈ [0, 1], (m.teams.get? 0).any (fun tm =>
        Arrays.present (dieOf m (acm e []) ready) tm (Arrays.layerRanges (Arrays.layerOf (acm e []).block))
        && match Arrays.readVectors (dieOf m (acm e []) ready) (acm e []) tm (Arrays.layerOf (acm e []).block) with
          | .ok (_, _, _, s1) => decide (Arrays.find? s1 0 1 = some (acm e []))
          | .error _ => false) = true)
    ∧ Arrays.stagingCheck (dieOf m (acm 4 []) ready) 0 (acm 4 []) = none
    ∧ (Arrays.stageDone ((dieOf m (acm 4 []) ready).die 0).journal 0 0).isSome = true
    ∧ (∀ e ∈ [3, 4], (Arrays.stagingCheck ((dieOf m (acm e []) ready).modDie 0 (fun o => { o with perm := [] })) 0
        (acm e [])).isSome = true ∧ isNext ((dieOf m (acm e []) ready).modDie 0 (fun o => { o with perm := [] })) (acm e []) = true)
    := by decide +kernel

/-- With no join down, nothing is crossed. -/
theorem reach_nothing (s : State) (core : Nat) (p : Mem.Place) (h : s.linkDown = []) : Engine.reach s core p = s := by
  cases p <;> simp [Engine.reach, State.cross, h]

/-- Reading an empty scratchpad gives zeros and changes nothing. -/
theorem read_zeros (s : State) (core ctx k o n : Nat) (hk : (s.core k).spad = []) (hp : (s.core k).spoison = [])
    (hu : (s.core k).spadUndef = []) (hl : s.linkDown = []) :
    ∃ b, Engine.read s core ctx (.spad k o) n = .ok (b, s) ∧ ∀ x ∈ b, x = 0 := by
  have step : ∀ (l : List (Nat × Nat)) (b : List Byte), (∀ x ∈ b, x = 0) → ∃ b', (l.foldl (fun r x =>
      match r with
      | .error e => .error e
      | .ok (b, s) =>
        match Engine.readPiece s core ctx (Engine.shift (.spad k o) x.1) x.2 with
        | .error e => .error e
        | .ok (b', s') => .ok (b ++ b', s')) (.ok (b, s) : Except Engine.Err (List Byte × State))) = .ok (b', s)
        ∧ ∀ x ∈ b', x = 0 := by
    intro l
    induction l with
    | nil => intro b hb; exact ⟨b, rfl, hb⟩
    | cons a l ih =>
      intro b hb
      have e : Engine.readPiece s core ctx (Engine.shift (.spad k o) a.1) a.2 = .ok (Mem.spadBytes s k (o + a.1) a.2, s) := by
        simp [Engine.readPiece, Engine.shift, hp, reach_nothing s _ _ hl]
      simp only [List.foldl_cons, e]
      refine ih _ (fun x hx => ?_)
      rcases List.mem_append.mp hx with hx | hx
      · exact hb x hx
      · simp only [Mem.spadBytes, List.mem_map] at hx
        obtain ⟨i, -, rfl⟩ := hx
        simp [Mem.spadByte, hk, Mem.spadDefault, hu]
  exact step _ [] (by simp)

/-- A scratchpad takes every write. -/
theorem write_lands (s : State) (core ctx k o : Nat) (b : List Byte) : ∃ u, Engine.write s core ctx (.spad k o) b = .ok u := by
  have step : ∀ (l : List (Nat × Nat)) (s : State), ∃ u, (l.foldl (fun r x =>
      match r with
      | .error e => .error e
      | .ok s => Engine.writePiece s core ctx (Engine.shift (.spad k o) x.1) ((b.drop x.1).take x.2))
        (.ok s : Except Engine.Err State)) = .ok u := by
    intro l
    induction l with
    | nil => exact fun s => ⟨s, rfl⟩
    | cons a l ih => exact fun s => ih _
  exact step _ s

/-- The image of a stage, in a scratchpad that is large enough. -/
def imaged : ACmd := acm 3 [0, 0, 0, 0, 0, 0xFF, 0, 0]
def stagingState : State := dieOf (mk (fun k => { k with spad := 2 ^ 21 })) imaged ready

theorem witness_ArrayCommandsRun_stage : ∃ tm b img, Next stagingState 0 0 0 imaged tm
    ∧ Arrays.stagingCheck stagingState 0 imaged = none ∧ Arrays.present stagingState tm (Arrays.imgRanges imaged.block) = true
    ∧ Arrays.blocked stagingState 0 (some 1) tm (Arrays.imgRanges imaged.block) = false
    ∧ Arrays.readRange stagingState 0 tm (Arrays.imgOf imaged.block) Arrays.imgBytes = .ok (b, stagingState)
    ∧ Arrays.levels b = some img := by
  obtain ⟨tm, ht⟩ : ∃ tm, stagingState.teams.get? 0 = some tm := Option.isSome_iff_exists.mp (by decide +kernel)
  have hpl : (stagingState.teams.get? 0).all (fun tm => decide (Arrays.place stagingState tm
      (Arrays.imgOf imaged.block) Arrays.imgBytes = some (.spad 0 0))) = true := by decide +kernel
  rw [ht] at hpl
  simp only [Option.all_some, decide_eq_true_eq] at hpl
  obtain ⟨b, hb, hz⟩ := read_zeros stagingState Arrays.agent 0 0 0 Arrays.imgBytes (by decide +kernel) (by decide +kernel)
    (by decide +kernel) (by decide +kernel)
  obtain ⟨img, hi⟩ : ∃ img, Arrays.levels b = some img :=
    ⟨_, if_pos (List.all_eq_true.mpr (fun x hx => by rw [hz x hx]; decide))⟩
  refine ⟨tm, b, img, ⟨by decide +kernel, by decide +kernel, ⟨imaged, by decide +kernel, rfl⟩, by decide +kernel, ht⟩,
    by decide +kernel, ?_, ?_, ?_, hi⟩
  · have ha : (stagingState.core 0).absent = [] := by decide +kernel
    simp [Arrays.present, Arrays.imgRanges, hpl, Engine.absent, Mem.spadAbsent, Mem.absentLines, ha]
  · have ha : (stagingState.core 0).ret = .awake := by decide +kernel
    simp only [Arrays.blocked, Arrays.imgRanges, List.any_cons, List.any_nil, hpl, Engine.blocked, ha]
    rfl
  · simp only [Arrays.readRange, hpl, hb]

/-- A status command whose block goes to the scratchpad, and one that reports the corrections of a tile there. -/
def query : ACmd := { acm 7 [] with block := [0, 0, 0, 0, 0, 0xFF, 0, 0] ++ List.replicate 56 0 }
def report : ACmd := { acm 8 [] with argAddr := 0xFF0000000000 }

/-- A write of n bytes by a state at an address that lies in the scratchpad is done, whatever the bytes. -/
theorem range_lands (s : State) (ctx : Nat) (tm : Team) (ea : DWord) (n : Nat) (hp : Arrays.place s tm ea n = some (.spad 0 0)) :
    ∃ f : List Byte → State, ∀ b : List Byte, b.length = n → Arrays.writeRange s ctx tm ea b = .ok (f b) := by
  refine ⟨fun b => (Classical.choose (write_lands s Arrays.agent ctx 0 0 b)), fun b hb => ?_⟩
  simp only [Arrays.writeRange, hb, hp]
  exact Classical.choose_spec (write_lands s Arrays.agent ctx 0 0 b)

theorem witness_ArrayCommandsRun_query : ∃ tm, ∃ s1 : List Byte → State,
    Next (dieOf m query ready) 0 0 0 query tm ∧ Arrays.blocked (dieOf m query ready) 0 (some 1) tm (Arrays.statusRanges query.block) = false
    ∧ ∀ b : List Byte, b.length = 64 → Arrays.writeRange (Arrays.startedVf (dieOf m query ready) 0 query) query.ctx tm
      (BitVec.ofNat 64 (Engine.field query.block 0 8)) b = .ok (s1 b) := by
  obtain ⟨tm, ht⟩ : ∃ tm, m.teams.get? 0 = some tm := Option.isSome_iff_exists.mp (by decide +kernel)
  have hpl : (m.teams.get? 0).all (fun tm => decide (Arrays.place (Arrays.startedVf (dieOf m query ready) 0 query) tm
      (BitVec.ofNat 64 (Engine.field query.block 0 8)) 64 = some (.spad 0 0))
      && !Arrays.blocked (dieOf m query ready) 0 (some 1) tm (Arrays.statusRanges query.block)) = true := by decide +kernel
  rw [ht] at hpl
  simp only [Option.all_some, decide_eq_true_eq, Bool.and_eq_true, Bool.not_eq_true'] at hpl
  obtain ⟨f, hf⟩ := range_lands _ query.ctx tm _ 64 hpl.1
  exact ⟨tm, f, ⟨by decide +kernel, by decide +kernel, ⟨query, by decide +kernel, rfl⟩, by decide +kernel, ht⟩, hpl.2, hf⟩

/-- A die whose command reports the corrections of tile 0, or its state. -/
def reporting : State := dieOf (mk (fun k => { k with spad := 65536 })) report ready

theorem witness_ArrayCommandsRun_report : ∃ tm, ∃ s1 : List Byte → State,
    Next reporting 0 0 0 report tm ∧ Arrays.mayRead (reporting.die 0) 0 0 = true ∧ (Arrays.tile (reporting.die 0) 0).state = .ready
    ∧ report.argAddr.toNat % 16 = 0 ∧ Arrays.walks reporting 0 tm (Arrays.ranges report) = false
    ∧ Arrays.rangesError reporting 0 tm (Arrays.ranges report) = 0
    ∧ Engine.canHold reporting (Arrays.linesOf reporting 0 tm (Arrays.ranges report) true) [] = true
    ∧ Arrays.blocked reporting 0 (some 1) tm (Arrays.ranges report) = false
    ∧ ∀ b : List Byte, b.length = 8208 → Arrays.writeRange (Engine.hold (Arrays.use (Arrays.startedVf reporting 0 report) 0 tm
        (Arrays.ranges report)) 1 tm.core (reporting.ctxPart 0) (Arrays.linesOf reporting 0 tm (Arrays.ranges report) true) []) 0 tm
        report.argAddr b = .ok (s1 b) := by
  obtain ⟨tm, ht⟩ : ∃ tm, reporting.teams.get? 0 = some tm := Option.isSome_iff_exists.mp (by decide +kernel)
  have hpl : (reporting.teams.get? 0).all (fun tm => decide (Arrays.place (Engine.hold (Arrays.use
        (Arrays.startedVf reporting 0 report) 0 tm (Arrays.ranges report)) 1 tm.core (reporting.ctxPart 0)
        (Arrays.linesOf reporting 0 tm (Arrays.ranges report) true) []) tm report.argAddr 8208 = some (.spad 0 0))
      && !Arrays.walks reporting 0 tm (Arrays.ranges report) && decide (Arrays.rangesError reporting 0 tm (Arrays.ranges report) = 0)
      && Engine.canHold reporting (Arrays.linesOf reporting 0 tm (Arrays.ranges report) true) []
      && !Arrays.blocked reporting 0 (some 1) tm (Arrays.ranges report)) = true := by decide +kernel
  rw [ht] at hpl
  simp only [Option.all_some, decide_eq_true_eq, Bool.and_eq_true, Bool.not_eq_true'] at hpl
  obtain ⟨⟨⟨⟨hp, hw⟩, he⟩, hc⟩, hb⟩ := hpl
  obtain ⟨f, hf⟩ := range_lands _ 0 tm report.argAddr 8208 hp
  exact ⟨tm, f, ⟨by decide +kernel, by decide +kernel, ⟨report, by decide +kernel, rfl⟩, by decide +kernel, ht⟩, by decide +kernel,
    by decide +kernel, by decide +kernel, hw, he, hc, hb, hf⟩

/-- A sequencer with no free lane, and one whose store lists a micro-word at every address; with bits 8 to 19 and 32 to 47 of it. -/
def stored_ (w : BitVec 128) (x : ACmd) : State := (dieOf m x ready).modDie 0 (fun o =>
  { o with seqrs := [(0, { Seqr.reset with stop := false, store := [(0, w)] })] })

/-- A command that executes micro-words, at the first of them. -/
def micro (e : Nat) : ACmd := { acm e [] with started := true, micro := some (Arrays.Micro.fresh 0) }

theorem witness_LanesAndMicroWords :
    Arrays.laneFor (m.die 0) 0 = none
    ∧ (∀ e ∈ [0, 1, 3, 4, 5, 7], Arrays.laneFor ((stored_ 0 (acm e [])).die 0) 0 = some 0
      ∧ Arrays.next (stored_ 0 (acm e [])) ((stored_ 0 (acm e [])).die 0) 0 = some (acm e [])
      ∧ Arrays.microStart ((stored_ 0 (acm e [])).die 0) (acm e []) = some 0)
    ∧ (∀ k ∈ [0, 1, 2, 3, 4], Arrays.Micro.field (BitVec.ofNat 128 (k * 256)) 8 3 = k)
    ∧ (∀ k ∈ [0, 1, 2, 3, 4, 5, 6, 7, 8], Arrays.Micro.field (BitVec.ofNat 128 (k * 65536)) 16 4 = k)
    ∧ [(0x600 : BitVec 128), 0].all (fun w => decide (Arrays.find? (stored_ w (micro 0)) 0 1 = some (micro 0)
      ∧ (((stored_ w (micro 0)).die 0).seqrs.getD 0 Seqr.reset).store.get? 0 = some w)) = true
    ∧ Arrays.illegalMicro 0x600 = true ∧ Arrays.illegalMicro 0 = false ∧ (Arrays.Micro.fresh 0).pc = 0 := by decide +kernel

/-- A layer of one pass that has started, and one whose pass has been driven. -/
def layer (n : Nat) : ACmd :=
  { acm 0 [] with started := true, xq := [(0x3F800000, [1], false)], latched := [(0, false, 0)], pass := n }

theorem witness_TilePassesAndCodes :
    Arrays.find? (dieOf m (layer 0) ready) 0 1 = some (layer 0) ∧ Arrays.isLayer (layer 0) = true
    ∧ (Arrays.passes (Arrays.layerOf (layer 0).block) (layer 0).xq)[0]? = some (0, 0)
    ∧ Arrays.mayRead ((dieOf m (layer 0) ready).die 0) 0 0 = true ∧ (Arrays.layerOf (layer 0).block).cols = 1
    ∧ Arrays.mayRead (((dieOf m (layer 0) ready).modDie 0 (fun o => { o with perm := [] })).die 0) 0 0 = false
    ∧ (let x := { acm 5 [] with started := true }
       Arrays.find? (dieOf m x ready) 0 1 = some x ∧ x.pass < (Arrays.layerOf x.block).rows ∧ (Arrays.layerOf x.block).tile0 = 0)
    ∧ (-512 * 2 ^ 3 ≤ (24 : Int) ∧ (24 : Int) ≤ 511 * 2 ^ 3 ∧ (2 ^ 3 : Int) ∣ 24) := by decide +kernel

/-- A stage or commit in a phase. -/
def prog (e ph : Nat) (begun : Bool) : ACmd := { acm e [] with started := true, phase := ph, begun := begun }

theorem witness_StagesAndCommits :
    (∀ x ∈ [prog 3 1 false, prog 4 1 false, prog 4 1 true, prog 4 2 false], Arrays.find? (dieOf m x ready) 0 1 = some x
      ∧ x.started = true ∧ x.micro = none ∧ ((dieOf m x ready).die 0).journal.length < 4096)
    ∧ Arrays.stageDone ((dieOf m (prog 4 2 false) ready).die 0).journal (Arrays.targetOf (prog 4 2 false).block)
      (Arrays.stgOf (prog 4 2 false).block) = some (0, staged) := by decide +kernel

/-- A verify that has read its one row. -/
def verified : ACmd := { acm 5 [] with started := true, pass := 1 }

theorem witness_ArrayCommandsRun :
    Arrays.find? (dieOf m { acm 0 [] with cancel := true } ready) 0 1 = some { acm 0 [] with cancel := true }
    ∧ (∀ e ∈ [3, 4], Arrays.find? (dieOf m (prog e 3 false) ready) 0 1 = some (prog e 3 false))
    ∧ Arrays.find? (dieOf m { layer 0 with err := 0x30 } ready) 0 1 = some { layer 0 with err := 0x30 }
    ∧ Arrays.find? (dieOf m (layer 1) ready) 0 1 = some (layer 1)
    ∧ (layer 1).pass = (Arrays.passes (Arrays.layerOf (layer 1).block) (layer 1).xq).length
    ∧ Arrays.find? (dieOf m verified ready) 0 1 = some verified ∧ verified.pass = (Arrays.layerOf verified.block).rows
    ∧ (m.teams.get? 0).any (fun tm => !Arrays.blocked (dieOf m verified ready) 0 (some 1) tm
        (Arrays.verifyRanges (Arrays.layerOf verified.block))
      && match Arrays.writeRange (dieOf m verified ready) 0 tm (Arrays.layerOf verified.block).ybase [0] with
        | .ok _ => true
        | .error _ => false) = true
    ∧ isNext (dieOf m (acm 9 []) ready) (acm 9 []) = true ∧ Arrays.mayRead ((dieOf m (acm 9 []) ready).die 0) 0 0 = true
    ∧ (∀ e ∈ [8, 9], let s := (dieOf m (acm e []) ready).modDie 0 (fun o => { o with perm := [] })
      isNext s (acm e []) = true ∧ Arrays.mayRead (s.die 0) 0 0 = false)
    ∧ isNext (dieOf m (acm 8 []) ATile.reset) (acm 8 []) = true := by decide +kernel

theorem witness_ArrayManagement :
    (let s := dieOf m (acm 9 []) { ready with state := .probe }
     (s.die 0).replayed = true ∧ (Arrays.tile (s.die 0) 0).state = .probe
       ∧ (s.die 0).cmds.any (fun x => x.entry == 10 && x.tile == 0) = false)
    ∧ (let s := dieOf m (acm 10 []) { ready with state := .probe }
       (s.die 0).cmds.find? (fun y => y.entry == 10 && !y.started) = some (acm 10 []) ∧ Arrays.probeLane s (s.die 0) 0 = some 0)
    ∧ (∀ n ∈ [0, 1], let x := { acm 10 [] with started := true, pass := n }
       let s := dieOf m x { ready with state := .probe }
       Arrays.find? s 0 1 = some x ∧ (Arrays.tile (s.die 0) 0).state = .probe)
    ∧ (let s := dieOf m (acm 9 []) ready
       let t := Arrays.tile (s.die 0) 0
       t.state = .ready ∧ t.lastPub = none
         ∧ (s.die 0).cmds.any (fun x => x.started && x.latched.any (fun y => y.1 == 0 && y.2.1 != t.cur1)) = false)
    ∧ (let x : ASample := { part := 0, tile := 0, seq := 0, ctx := 0, ver := 0, row0 := 0, col0 := 0, time := 0, sx := 0, q := [], p := [] }
       let s := m.modDie 0 (fun o => { o with samples := [x] })
       (s.die 0).samples = [x] ∧ Telemetry.waits s 0 = false
         ∧ (∀ y ∈ Arrays.shadowParts (Arrays.shadowBase s 0 x) x, ∀ i ∈ List.range (y.2 / 64 + 2),
           Mem.heldBack s (y.1 + min (64 * i) y.2) = false))
    ∧ ((m.die 0).journal.filter Arrays.recOk) = []
    ∧ (m.die 0).replayed = false ∧ (m.die 0).cmds.any (fun x => Arrays.usesStg x 5) = false
    ∧ ((0x7D : BitVec 32).extractLsb' 2 5).toNat ≥ 24 ∧ ((0x5D : BitVec 32).extractLsb' 2 5).toNat < 24
    ∧ (let s := (dieOf m (acm 9 []) ready).modDie 0 (fun o => { o with stgOwner := [(5, { valid := true, erase := true, owner := 1 })] })
       ((s.die 0).stgOwner.getD 5 StgOwner.reset).erase = true ∧ (s.die 0).replayed = true)
    ∧ ((m.setVf 9 { m.vf 9 with part := some 0 }).vf 9).part = some 0 ∧ (3 : BitVec 32).getLsbD 1 = true ∧ (m.vf 9).part ≠ some 0
    ∧ ((0 : Nat) < 16 ∧ ((m.die 0).seqrs.getD 0 Seqr.reset).stop = true ∧ Arrays.busyLanes (m.die 0) 0 = 0) := by decide +kernel

/-! ### Witnesses: tasks, counters and launches -/

/-- A well-formed record in s8 to s15, and counter 3 with a value. -/
def pool (v : Word) (f : Part → Part) : State :=
  let s := mg (fun g => { g with sregs := [(2, 3), (12, 0xFFFF0003), (13, 1), (14, 1)] })
  s.setPart 0 (f { s.part 0 with counters := [(3, v)] })

/-- A record of queue 1 that stands in core 0's deque. -/
def task (launches : Bool) : Task := { words := [0, 0, 0, 0, 0xFFFFFFFF, 1, 1, 0], ctx := 0, home := 0, waits := false, launches := launches }

theorem witness_TaskQueues :
    [0, 5].all (fun n => let s := pool n id
     solo s (fun t => Ops.drained s 0 && !Tasks.malformed (s.part 0) (taskWords s 0 t (.s 8))
      && decide (Tasks.waitDc (taskWords s 0 t (.s 8)) = 3 ∧ Tasks.doneDc (taskWords s 0 t (.s 8)) = 0xFFFF)
      && ((s.part 0).counters.get? 3).isSome && decide ((s.part 0).tasks.length < 16384))) = true
    ∧ (let s := pool 0 (fun p => { p with tqcfg := 2 })
       let s' := s.modGroup 0 (fun g => { g with sregs := [(12, 0xFFFF0003), (13, 1)] })
       solo s' (fun t => Tasks.malformed (s'.part 0) (taskWords s' 0 t (.s 8)) && Ops.drained s' 0) = true)
    ∧ (let p := (pool 0 (fun p => { p with tqcfg := 0 })).part 0
       Tasks.launchQueue p 1 = false ∧ Tasks.pick p 1 0 = none)
    ∧ (let s := pool 0 (fun p => { p with tqcfg := 0, tasks := [task false] })
       Tasks.pick (s.part 0) 1 0 = some 0 ∧ (s.part 0).tasks[0]? = some (task false) ∧ (task false).words.length = 8
         ∧ Ops.drained s 0 = true ∧ (s.group? 0).isSome = true)
    ∧ solo m (fun t => t.visit.isNone) = true
    ∧ solo (pool 0 id) (fun t => let s := (pool 0 id).setPart 0 { (pool 0 id).part 0 with counters := [] }
      !Tasks.malformed (s.part 0) (taskWords s 0 t (.s 8)) && ((s.part 0).counters.get? 3).isNone) = true
    ∧ Tasks.launchQueue ((pool 0 (fun p => { p with tqcfg := 2 })).part 0) 1 = true := by decide +kernel

theorem witness_TaskQueues_full : ∃ s : State, 16384 ≤ (s.part 0).tasks.length :=
  have e : ∀ l : List Task, ((m.setPart 0 { m.part 0 with tasks := l }).part 0).tasks = l := fun _ => rfl
  ⟨m.setPart 0 { m.part 0 with tasks := List.replicate 16384 (task false) }, by rw [e, List.length_replicate]⟩

theorem witness_DependencyCounters :
    [0, 5, 0xFFFFFFFF].all (fun v => let s := pool v id
      solo s (fun t => (s.group? 0).isSome && Ops.drained s 0 && (Tasks.freeSlot (s.part 0).counters).isSome
        && decide (Tasks.counterOf (s.part 0) (Operands.val s 0 t (.s 2)) = some (3, v)
          ∧ Tasks.counterOf (s.part 0) (Operands.val s 0 t (.s 0)) = none) && (s.part 0).counters.rising)) = true
    ∧ (5 : Word).toNat + 1 < 2 ^ 32 ∧ 2 ^ 32 ≤ (0xFFFFFFFF : Word).toNat + 1 ∧ 5 ≤ (5 : Word).toNat ∧ (0 : Word).toNat < 1 := by
  decide +kernel




/-! ### Witnesses: launches, deadlines and the fabric -/

/-- Memory with a packet at 0x10000, its kernel descriptor after it, and a kernel header of one group of one frame. -/
def packet : List Byte := [1, 0, 0, 0, 1, 0, 0, 0, 0x40, 0, 1, 0] ++ List.replicate 20 0 ++ [0xFF, 0xFF] ++ List.replicate 30 0
def header : List Byte := [0x16, 0xA7, 0x01, 0, 0x01, 0x11, 0, 0] ++ List.replicate 8 0 ++ [4, 1, 0, 0] ++ List.replicate 44 0
def launchMem : State :=
  { m with mem := Memory.writeAll m.mem 0x10000 (packet ++ [0x80, 0, 1, 0] ++ List.replicate 60 0 ++ header) }

/-- The state with a grid of one cluster, in place of the one that runs. -/
def withGrid (next done : Nat) : State :=
  let s : State := { m with clusters := [], groups := [], threads := [], teams := [] }
  { s with grids := s.grids.modify 0 (fun g => { g with next := next, donedc := done }) }

theorem witness_LaunchesHandOverAndStart :
    solo (mg (fun g => { g with sregs := [(2, 0x10000)] })) (fun t =>
      decide ((Operands.val64 (mg (fun g => { g with sregs := [(2, 0x10000)] })) 0 t (.s 2)).toNat = 0x10000) && Ops.drained m 0
      && (m.group? 0).any (fun g => (g.handle 1).pend.isNone && (g.handle 1).readers.isEmpty)) = true
    ∧ 0x10004 + 64 ≤ 0x800000000000 ∧ 0x10004 % 64 ≠ 0
    ∧ (1 : Nat) < 128 ∧ tidGid 200 ≠ 0 := by decide +kernel

theorem witness_LaunchesProceed :
    (let s : State := { m with launchReqs := [(4, { ctx := 0, packet := 0x10000, cmd := none })] }
     (s.launchReqs.get? 4).isSome = true)
    ∧ (let s := m.setVf 0 { m.vf 0 with part := some 0, lqcfg := 4, lqtail := 1 }
       Launch.ringSize (s.vf 0).lqcfg = some 4 ∧ (s.vf 0).lqhead ≠ (s.vf 0).lqtail
         ∧ Launch.live s 0 ((s.vf 0).lqcfg.extractLsb' 5 11).toNat = true)
    ∧ (match Launch.readNow launchMem 0 0x10000 64 with
      | some (.ok (b, s1)) => Launch.packetOk b && (match Launch.admitLaunch s1 0 (Launch.ofPacket b) none none with
        | some (.ok _) => true
        | _ => false)
      | _ => false) = true
    ∧ (Launch.packet launchMem 0 0x10000 none).isSome = true
    ∧ (Launch.packet { launchMem with holds := [{ cmd := 9, own := [0x400], pin := [] }] } 0 0x10000 none).isNone = true
    ∧ (let s := withGrid 0 0xFFFF
       (s.grids.get? 0).any (fun g => decide (g.next < g.nclus) && Launch.placing s g.ctx && !Launch.classWaits s (s.ctxPart g.ctx) g
         && Launch.firstInOrder s (s.ctxPart g.ctx) g.prio 0 && (Launch.seats s (s.ctxPart g.ctx) g.kernel g.origin).isSome) = true)
    ∧ [0xFFFF, 3].all (fun d =>
       let s := Life.reap ((withGrid 1 d).setPart 0 { m.part 0 with counters := [(3, 1)] })
       (s.grids.get? 0).any (fun g => decide (g.next = g.nclus) && s.clusters.isEmpty && s.fabric.isEmpty && s.orng.isEmpty
         && s.ctxs.all (fun x => x.2.image.isNone) && (g.donedc == 0xFFFF || (Tasks.dec (s.part (s.ctxPart g.ctx)) 3 1).isSome)))
       = true
    ∧ (let s := pool 0 (fun p => { p with tasks := [task true] })
       s.partOwns (Mem.partOfCore s 0) 0 = true ∧ Launch.queuesIn (s.part 0) (fun h => h == 0) = some 1
         ∧ Tasks.deque (s.part 0) 1 0 true = [0])
    ∧ (let s := pool 0 (fun p => { p with tasks := [task true], cores := 3 })
       let s := { s with now := 256 }
       s.partOwns (Mem.partOfCore s 1) 1 = true
         ∧ (s.part 0).tasks.any (fun t => t.launches && !t.waits && t.home == 1) = false
         ∧ (s.part 0).emptyFrom.getD 1 0 + 256 ≤ s.now ∧ Launch.queuesIn (s.part 0) (fun _ => true) = some 1
         ∧ (Tasks.nearest 1 (Tasks.holders (s.part 0) 1 true)).bind (fun c => (Tasks.deque (s.part 0) 1 c true).getLast?) = some 0)
    := by decide +kernel

/-- A team with an open step. -/
def open' (work done : Nat) : Sys2Proof.Machine.Step :=
  { deadline := 100, work := work, done := done, cycles := 70, owner := 0, risk := false }

theorem witness_Deadlines :
    solo m (fun t => (m.group? 0).any (fun g => (m.teams.get? g.team).any (fun tm => tm.step.isNone))
      && Operands.src m 0 t (.imm 9) != 0 && Operands.src m 0 t (.imm 0) == 0) = true
    ∧ (let s := mtm (fun t => { t with step := some (open' 4 2) })
       ((s.teams.get? 0).any (fun tm => decide (tm.step = some (open' 4 2)))) = true)
    ∧ (open' 4 4).work ≤ (open' 4 4).done ∧ (open' 4 0).done = 0 ∧ 0 < (open' 4 0).work
    ∧ 0 < (open' 4 2).done ∧ (open' 4 2).done < (open' 4 2).work := by decide +kernel

/-- A communicator of two ranks, whose window is at 0x20000. -/
def cm (valid dead : Bool) : Comm :=
  { valid := valid, dead := dead, myrank := 0, nrank := 2, wbase := 0x20000, wlen := 4096, list := [(5, 0, 4096), (6, 0, 4096)] }

/-- The context has it as communicator 0; s0 to s7 hold a descriptor: 0x20000, 0x20040, LEN, rank 1. -/
def fab (valid dead : Bool) (len : Word) : State := (mctx (fun x => { x with comms := [(0, cm valid dead)] })).modGroup 0
  (fun g => { g with sregs := [(0, 0x20000), (2, 0x40), (4, len), (5, 1)] })

def fputI : Instr := .fput h (.h 1) (.s 0)
def collI : Instr := .coll h (.h 1) (.s 0) 0 0
def fsigI : Instr := .fsig h (.h 1) (.s 8)

/-- A command in the queue. -/
def fcmd (i : Instr) (cancel : Bool) (roff : Word) : FabCmd :=
  { id := 1, ctx := 0, gid := 0, team := 0, instr := i, desc := [0x20000, 0, roff, 0, 64, 1, 0, 0], comm := 0, peer := 1
    cancel := cancel }

def answer (code : BitVec 8) : FabResult := { code := code, fst := 0, data := [] }

def fabReady (s : State) (i : Instr) (ok : Bool) : Bool := solo s (fun t => match fabricForm i with
  | some (_, .h 1, a, n) => Ops.drained s 0 && (s.teams.get? 0).any (fun tm =>
    let q := Fabric.reqOf i (fabricDesc s 0 t a n)
    let c := Fabric.comm s 0 (Fabric.commNo q)
    (Fabric.checks s tm q).isNone == ok && decide (Fabric.queued s 0 < 64)
    && !Fabric.walks s 0 tm (Fabric.target q c) .wr && !Fabric.walks s 0 tm (Fabric.source q c) .rd
    && Engine.canHold s (Fabric.ownLines s 0 tm (Fabric.target q c) .wr) (Fabric.ownLines s 0 tm (Fabric.source q c) .rd))
    && (s.group? 0).any (fun g => (g.handle 1).pend.isNone && (g.handle 1).readers.isEmpty)
  | _ => false)

theorem witness_FabricCommandsRun :
    [fputI, collI, fsigI].all (fun i => fabReady (fab true false 64) i true) = true
    ∧ fabReady (fab true false 0) fputI true = true ∧ fabReady (fab true false 62) fputI false = true
    ∧ fabReady (fab false false 64) fputI true = true ∧ fabReady (fab true true 64) fputI true = true
    ∧ Fabric.legal (Fabric.reqOf fputI [0, 0, 0, 0, 64, 1]) (answer 0) = true
    ∧ Fabric.legal (Fabric.reqOf fputI [0, 0, 0, 0, 64, 1]) (answer 0x50) = true
    ∧ (let x := fcmd fputI false 64
       let s : State := { fab true false 64 with fabric := [x] }
       s.fabric.find? (fun y => y.id == 1) = some x ∧ (s.teams.get? 0).isSome = true
         ∧ Fabric.signalWaits s x (Fabric.reqOf x.instr x.desc) = false
         ∧ Fabric.outOfRange (Fabric.reqOf x.instr x.desc) (Fabric.comm s 0 0) = false
         ∧ Fabric.needs (Fabric.reqOf x.instr x.desc) (Fabric.comm s 0 0) = 0
         ∧ (s.teams.get? 0).any (fun tm => !Fabric.blocked s 0 1 tm (Fabric.source (Fabric.reqOf x.instr x.desc) (Fabric.comm s 0 0)) false
           && !Fabric.blocked s 0 1 tm (Fabric.target (Fabric.reqOf x.instr x.desc) (Fabric.comm s 0 0)) true
           && Fabric.blocked { s with holds := [{ cmd := 9, own := [0x800], pin := [] }] } 0 1 tm (Fabric.source (Fabric.reqOf x.instr x.desc)
             (Fabric.comm s 0 0)) false) = true)
    ∧ Fabric.legal (Fabric.reqOf fputI [0, 0, 0, 0, 64, 1]) { answer 0 with fst := 4 } = true
    ∧ Fabric.outOfRange (Fabric.reqOf fputI (fcmd fputI false 4095).desc) (cm true false) = true
    ∧ (let x := { fcmd fsigI false 0 with id := 2, desc := [0, 0, 1, 1] }
       Fabric.signalWaits { fab true false 64 with fabric := [fcmd fputI false 0, x] } x (Fabric.reqOf x.instr x.desc) = true)
    := by decide +kernel

theorem witness_CollectivesAndFabricEvents :
    (let q := Fabric.reqOf collI [0, 0, 0, 0, 2, 0]
     q.form = 0 ∧ q.kind = 0 ∧ q.op = 0 ∧ q.n = 2) ∧ (cm true false).nrank = 2 ∧ (cm true false).myrank = 0
    ∧ (Fabric.reqOf (.coll h (.h 1) (.s 0) 3 0) []).kind = 3 ∧ (Fabric.reqOf (.coll h (.h 1) (.s 0) 1 0) []).kind = 1
    ∧ (let s := fab true false 64
       let ea := (Fabric.comm s 0 0).wbase + BitVec.ofNat 64 4088
       Fabric.windowWaits s 0 ea 8 true = false ∧ Fabric.windowWaits s 0 ea 8 false = false ∧ 4088 + 8 ≤ (Fabric.comm s 0 0).wlen.toNat
         ∧ (match Engine.readGlobal s 0 ea 4 with
           | .ok (b, s1) => (match Engine.writeGlobal s1 0 ea (Mem.toBytes 4 (Mem.ofBytes b + 7)) with
             | .ok _ => true
             | .error _ => false)
           | .error _ => false) = true
         ∧ (match Engine.writeGlobal s 0 ea [1, 2, 3, 4, 5, 6, 7, 8] with
           | .ok _ => true
           | .error _ => false) = true
         ∧ s.fabric.filter (fun c => c.ctx == 0 && c.comm == 0) = [])
    ∧ (Fabric.comm m 0 3).valid = false
    ∧ (let s : State := { fab true false 64 with route := [(6, 4)], portsDown := [2] }
       (Fabric.comm s 0 0).list[1]? = some (6, 0, 4096)
         ∧ ∀ k, k < 18 → (s.route.getD 6 0).getLsbD k = true → s.portsDown.contains k = true)
    ∧ Fabric.windowWaits (mctx (fun x => { x with commbase := 0x30000 })) 0 (0x30000 + BitVec.ofNat 64 (32 * 255)) 32 true = false
    ∧ Fabric.windowWaits m 0 0x40000 32 false = false
    ∧ (17 : Nat) < 18 := by decide +kernel


/-- A member list in the LLC: rank 0 is module n of context 0 with a window of 0 bytes. -/
def membersLine (b0 b1 : Byte) : LlcLine := { bytes := b0 :: b1 :: List.replicate 62 0, dirty := [], part := 0, way := 0, cured := [] }
def members (b0 b1 : Byte) : State := { m with llc := [(0x1000, membersLine b0 b1)] }

/-- The translation of its address. -/
def place : Mem.Phys :=
  { pa := 0x40000, unc := false, wait := false, stale := false, tabs := []
    entry := some { ctx := 0, base := 0, size := 2 ^ 48, pa := 0, rd := true, wr := true, ex := true, unc := false, lvl1 := 0, lvl2 := 0
                    okOwn := true } }

theorem translate_members (b0 b1 : Byte) : Mem.translate (members b0 b1) Config.cores 0 0x40000 .rd 0 = .ok place := by
  with_unfolding_all rfl

theorem serve_unowned (s : State) (w : Nat) (ho : s.owner = []) (hr : s.reduce = []) : Mem.serve s w = s := by
  simp [Mem.serve, Mem.recallWord, Mem.mergeLine, Mem.mergeSome, ho, hr]

theorem read_members (b0 b1 : Byte) : ∃ s1, Engine.readGlobal (members b0 b1) 0 0x40000 32
    = .ok (b0 :: b1 :: List.replicate 30 0, s1) := by
  have hl : Engine.linePieces (.glob 0x40000) 32 = [(0, 32)] := by decide +kernel
  have ho : ((Mem.translated (members b0 b1) Config.cores 0 place).cross (Engine.dieOf Config.cores) (Mem.homeDie 0x40000)).owner = [] := by
    with_unfolding_all rfl
  have hr : ((Mem.translated (members b0 b1) Config.cores 0 place).cross (Engine.dieOf Config.cores) (Mem.homeDie 0x40000)).reduce = [] := by
    with_unfolding_all rfl
  have hp : Mem.linePoisoned ((Mem.translated (members b0 b1) Config.cores 0 place).cross (Engine.dieOf Config.cores)
    (Mem.homeDie 0x40000)) 0x1000 = false := by with_unfolding_all rfl
  have h3 : ((Mem.translated (members b0 b1) Config.cores 0 place).cross (Engine.dieOf Config.cores) (Mem.homeDie 0x40000)).llc.get? 0x1000
    = some (membersLine b0 b1) := by with_unfolding_all rfl
  have e : Engine.readGlobal (members b0 b1) 0 0x40000 32 = (match Engine.readPiece (members b0 b1) Config.cores 0 (.glob 0x40000) 32 with
      | .error e => .error e
      | .ok (b', s') => .ok ([] ++ b', s')) := by
    show Engine.read (members b0 b1) Config.cores 0 (.glob 0x40000) 32 = _
    simp only [Engine.read, hl, List.foldl_cons, List.foldl_nil, Engine.shift, Nat.add_zero] <;> rfl
  rw [e]
  simp only [Engine.readPiece, Engine.reach, translate_members]
  simp only [show place.pa = 0x40000 from rfl, show place.stale = false from rfl, show place.unc = false from rfl]
  generalize hq : (Mem.translated (members b0 b1) Config.cores 0 place).cross (Engine.dieOf Config.cores) (Mem.homeDie 0x40000) = t
    at ho hr h3 hp
  have hs : Mem.serveRange t 0x40000 32 = t := by
    unfold Mem.serveRange
    generalize List.range _ = l
    induction l with
    | nil => rfl
    | cons a l ih => rw [List.foldl_cons, serve_unowned t _ ho hr, ih]
  have hb : (List.range 32).map (fun i => Mem.homeByte t (0x40000 + i)) = b0 :: b1 :: List.replicate 30 0 := by
    have e : ∀ i ∈ List.range 32, Mem.homeByte t (0x40000 + i) = (membersLine b0 b1).bytes.getD i 0 := by
      intro i hi
      have hi : i < 32 := List.mem_range.mp hi
      have h1 : (0x40000 + i) / 64 = 0x1000 := by omega
      have h2 : (0x40000 + i) % 64 = i := by omega
      rw [Mem.homeByte, h1, h2, h3]
    rw [List.map_congr_left e]
    rfl
  refine ⟨t, ?_⟩
  simp [hp, hs, hb]

theorem witness_CommunicatorSetup : ∃ s l s1, Fabric.readList s 0 0x40000 2 = (some l, s1)
    ∧ l[0]? = some (Config.moduleNumber.toNat, 0, 0) := by
  generalize hn : Config.moduleNumber.toNat = n
  have hl : n < 4096 := by rw [← hn]; exact Config.moduleNumber.isLt
  obtain ⟨s1, h1⟩ := read_members (BitVec.ofNat 8 n) (BitVec.ofNat 8 (n / 256))
  have e0 : Engine.field (BitVec.ofNat 8 n :: BitVec.ofNat 8 (n / 256) :: List.replicate 30 0) (16 * 0) 8 = n := by
    simp [Engine.field, Mem.ofBytes, List.replicate]
    omega
  have e1 : Engine.field (BitVec.ofNat 8 n :: BitVec.ofNat 8 (n / 256) :: List.replicate 30 0) (16 * 0 + 8) 8 = 0 := by
    simp [Engine.field, Mem.ofBytes, List.replicate]
  have e2 : Engine.field (BitVec.ofNat 8 n :: BitVec.ofNat 8 (n / 256) :: List.replicate 30 0) (16 * 1) 8 = 0 := by
    simp [Engine.field, Mem.ofBytes, List.replicate]
  have e3 : Engine.field (BitVec.ofNat 8 n :: BitVec.ofNat 8 (n / 256) :: List.replicate 30 0) (16 * 1 + 8) 8 = 0 := by
    simp [Engine.field, Mem.ofBytes, List.replicate]
  refine ⟨members (BitVec.ofNat 8 n) (BitVec.ofNat 8 (n / 256)), [(n, 0, 0), (0, 0, 0)], s1, ?_, rfl⟩
  have r : List.range 2 = [0, 1] := rfl
  simp only [Fabric.readList, h1, r, List.map_cons, List.map_nil, e0, e1, e2, e3, List.all_cons, List.all_nil]
  rw [if_pos (by simp; omega)]
  simp
  omega


/-! ### Witnesses: system instructions and events -/

theorem witness_SystemRegisterAccess :
    solo m (fun _ => Ops.drained m 0 && ((m.ctxs.get? (m.ctxOf 0)).map Ctx.sys) == some true) = true
    ∧ (System.read m 0).isSome = true ∧ (System.write m 0 5).isSome = true ∧ (System.write m 4 5).isNone = true
    ∧ (System.read m 4).isSome = true ∧ System.read m 0x28 = none ∧ (m.group? 0).isSome = true
    ∧ solo (mctx (fun x => { x with sys := false })) (fun _ =>
        (((mctx (fun x => { x with sys := false })).ctxs.get? 0).map Ctx.sys) == some false) = true := by decide +kernel

theorem witness_SystemInstructions :
    solo m (fun t => Ops.drained m 0 && ((m.ctxs.get? (m.ctxOf 0)).map Ctx.sys) == some true
      && decide ((Operands.val m 0 t (.s 0)).toNat < 24) && decide ((Operands.src m 0 t (.imm 16)).toNat = 2 ^ 4)) = true
    ∧ solo (mg (fun g => { g with sregs := [(0, 24)] })) (fun t =>
        decide (24 ≤ (Operands.val (mg (fun g => { g with sregs := [(0, 24)] })) 0 t (.s 0)).toNat)) = true
    ∧ solo glob (fun t => Ops.drained glob 0 && !System.lineWalks glob 0 t (Operands.addr glob 0 t ad) .rd
      && !System.lineWalks glob 0 t (Operands.addr glob 0 t ad) .fetch && (match System.checkLine glob 0 t (Operands.addr glob 0 t ad) .rd with
      | .ok l => !System.lineBusy glob l.phys && !l.phys.stale && !l.phys.unc
      | .error _ => false) && (match System.checkLine glob 0 t (Operands.addr glob 0 t ad) .fetch with
      | .ok l => !l.phys.stale
      | .error _ => false)) = true
    ∧ solo hole (fun t => [Mem.Acc.rd, .fetch].all (fun acc => !System.lineWalks hole 0 t (Operands.addr hole 0 t ad) acc
      && match System.checkLine hole 0 t (Operands.addr hole 0 t ad) acc with
      | .ok _ => false
      | .error _ => true)) = true
    ∧ Ops.drained { m with regs := [(1, { core := 0, tids := [0], part := 0, word := 0, val := 0, mask := 15, acked := false })] } 0
      = false := by decide +kernel

/-- The line 2 in the LLC, and a partition with a way for more. -/
def line2 (dirty : NSet) : LlcLine := { bytes := List.replicate 64 9, dirty := dirty, part := 0, way := 0, cured := [] }
def roomy (s : State) : State := { s with parts := s.parts.modify 0 (fun p => { p with waymask := 3 }) }

/-- An empty way for partition 0 in a set of a slice. -/
def freeWay (s : State) (slice set : Nat) : Bool := ((Mem.ways s slice 0).find? (fun w =>
  (Mem.lineIn s slice set w).isNone && (Mem.partialIn s slice set w).isNone)).isSome

/-- Word 32 of line 2: its registration, its copy in core 0's L1 in a state, and its owner. -/
def word (acked : Bool) (st : L1State) (own : Tab Nat) : State :=
  let s := m.modCore 0 (fun k => { k with l1 := [(32, { st := st, val := 7, mask := 15, writers := [0], reg := 1, poison := false })] })
  { s with regs := [(1, { core := 0, tids := [0], part := 0, word := 32, val := 7, mask := 15, acked := acked })], owner := own }

/-- A load of word 32 that has not been served. -/
def loads : State := mt (fun t => { t with longs := [{ id := 1, inst := none, left := 0, arrived := false, kind := .load 0 0 false
                                                       dests := [(0, .v 16)], parts := [{ word := 32, ea := 128, val := none }]
                                                       vals := none, flags := 0, acq := false, pc := 4096, eas := 128 }] })

theorem witness_CacheAndHomeEvents_registrations :
    (let s := word false .P []
     (s.regs.get? 1).any (fun r => !r.acked && !Mem.engineHolds s (r.word / 16) && !Mem.exclHeld s r.core (r.word / 16)
       && decide (r.mask = 0xF)) = true)
    ∧ (let s := word true .P [(32, 0)]
       (s.regs.get? 1).any (fun r => r.acked && (Mem.l1? s r.core r.word).any (fun x => decide (x.st = .P) && decide (x.reg = 1))) = true)
    ∧ ((Coherence.long? loads 0 1).any (fun o => !o.acq && (o.parts[0]?).any (fun p => p.val.isNone
        && Mem.servable loads (match loads.thread? 0 with | some t => Mem.coreOf 0 t | none => 0) p.word && !Mem.mustWait loads (4 * p.word)
        && !Mem.linePoisoned loads (p.word / 16))) = true
      ∧ loads.owner.get? 32 = none ∧ loads.reduce.get? 2 = none)
    ∧ ({ loads with llc := [(2, line2 [])] } : State).llc.get? 2 = some (line2 []) ∧ (line2 []).bytes.length = 64
    ∧ (let s : State := { (word true .O [(32, 0)]) with threads := loads.threads }
       s.owner.get? 32 = some 0 ∧ (Mem.l1? s 0 32).any (fun x => decide (x.st ≠ .P)) = true ∧ Mem.servable s 0 32 = true)
    ∧ (let s : State := { loads with poison := [2] }
       Mem.linePoisoned s 2 = true ∧ (s.thread? 0).any (fun t => (Coherence.long? s 0 1).any (fun o =>
         !Coherence.earlierUnread s 0 o 0 && Mem.servable s (Mem.coreOf 0 t) 32 && !Mem.mustWait s 128)) = true) := by decide +kernel

/-- Line 2 is held in the LLC with a dirty byte. -/
def heldLine : State := { m with llc := [(2, line2 [5])] }

theorem witness_CacheAndHomeEvents_evictions :
    (let s : State := { word true .O [(32, 0)] with llc := [(2, line2 [])] }
     s.owner.get? 32 = some 0 ∧ (Mem.l1? s 0 32).any (fun x => decide (x.st ≠ .P) && decide (x.st = .O)) = true
       ∧ s.llc.get? (32 / 16) = some (line2 []) ∧ Coherence.mayTake s 2 = true ∧ Mem.l1Free s 0 2 = true ∧ (s.core 0).l1.keys = [32])
    ∧ Coherence.mayTake { m with exclTill := [(2, (0, 100))] } 2 = false
    ∧ (let s := word true .S []
       Mem.l1Free s 0 2 = true ∧ s.owner = [] ∧ (s.core 0).l1.all (fun x => decide (x.2.st = .S)) = true)
    ∧ (heldLine.llc.get? 2).any (fun l => decide (l.bytes.length = 64) && l.dirty.all (fun i => decide (i < 64))
      && Mem.regionOk heldLine l.part 128) = true
    ∧ Coherence.mayTake heldLine 2 = true ∧ heldLine.garbled = [] ∧ Mem.engineOwns heldLine 2 = false ∧ heldLine.owner = [] ∧ heldLine.reduce.get? 2 = none ∧ Mem.isView 128 = false := by decide +kernel

/-- A `red` of 5 to word 32 on its way, and what its slice holds of the line. -/
def reds (y : Tab Reduce) : State :=
  { roomy m with reds := [(1, { tid := 0, core := 0, part := 0, word := 32, op := 0, val := 5 })], reduce := y, llc := [(2, line2 [])] }

theorem witness_CacheAndHomeEvents_reductions :
    [[], [(2, { op := 0, partials := [(0, 0, 6)], entries := [(0, 0, 1)] })]].all (fun y => let s := reds y
      (s.reds.get? 1).any (fun r => !Mem.engineHolds s (r.word / 16) && !Mem.exclHeld s Config.cores (r.word / 16)
        && decide (s.llc.get? (r.word / 16) = some (line2 [])) && !Mem.mustWait s (64 * (r.word / 16)) && (s.owner.get? r.word).isNone && decide (r.op ≠ 1)
        && (match s.reduce.get? 2 with
          | none => freeWay s r.core (Mem.llcSet (r.word / 16))
          | some z => decide (z = { op := r.op, partials := [(r.core, r.word % 16, 6)], entries := [(r.core, 0, 1)] })))) = true
    ∧ (let s := reds [(2, { op := 0, partials := [(0, 3, 6)], entries := [(0, 0, 1)] })]
       Mem.engineHolds s 2 = false ∧ s.llc.get? 2 = some (line2 []) ∧ 3 < 16
         ∧ s.reduce.get? 2 = some { op := 0, partials := [(0, 3, 6)], entries := [(0, 0, 1)] }) := by decide +kernel

/-- One cross-die atomic on line 2. -/
def excl (st : ExclState) : State := { m with now := 50, excl := [(1, {
  tid := 0, core := 0, part := 0, inst := 1, line := 2, addr := 128, op := 0, w64 := false, src := 1, cmp := 0, st := st
  losses := 0, asked := 0 })] }

theorem witness_CacheAndHomeEvents_exclusive :
    Mem.engineHolds (excl .queued) 2 = false ∧ Mem.exclHeld (excl .queued) 0 2 = false ∧ Mem.l1Room (excl .queued) 0 2 = true ∧ Mem.mustWait (excl .queued) 128 = false
    ∧ ((excl .queued).excl.get? 1).any (fun e => decide (e.st = .queued) && e.line == 2 && e.tid == 0) = true
    ∧ ((excl (.backoff 50)).excl.get? 1).any (fun e => decide (e.st = .backoff 50) && decide (50 ≤ (excl .held).now)) = true
    ∧ ((excl .held).excl.get? 1).any (fun e => decide (e.st = .held) && e.tid == 0) = true
    ∧ Coherence.atomPoison (excl .held) 1 = none
    ∧ (let s : State := { word true .O [(32, 0)] with excl := (excl .held).excl }
       s.owner.get? (128 / 4) = some 0 ∧ (Mem.l1? s 0 32).any (fun x => decide (x.st = .O)) = true ∧ Coherence.atomPoison s 1 = none
         ∧ (Access.atomOp 0 false 7 1 0).1 = some 8)
    ∧ (let s := mt (fun t => { t with longs := [{ long 1 with arrived := false }] })
       s.excl.get? 1 = none ∧ (Coherence.long? s 0 1).any (fun o => o.vals.isSome && !Ops.unread s o.inst && decide (o.left ≠ 0))
         = true) := by decide +kernel

theorem witness_FetchesWalksAndBursts :
    (match Issue.fetch m 0 0 none (BitVec.ofNat 48 4096) 0 with
     | .line _ _ => true
     | _ => false) = true
    ∧ (m.ctxs.get? 0).isSome = true ∧ m.walks = [] ∧ 64 ≤ (walked m).walks.length
    ∧ (let s : State := { m with walks := [{ ctx := 0, page := 0x5000, cores := [0] }] }
       (s.walks.find? (fun w => w.ctx == 0 && w.page == 0x5123 / 4096 * 4096)).isSome = true
       ∧ (Mem.walkTables s 0 0x5000).any (fun x => Mem.heldBack s x.2) = false ∧ (match Mem.walk s 0 0x5000 .owner 0 with
        | .ok (l1, l2) => decide (0 < l1.size) && decide (0 < l2.size) && decide (0x5000 % min l1.size l2.size ≤ l2.pa)
          && (Mem.finalCheck s (s.ctxPart 0) l2.pa 2 l2.lev .owner 0 0).isNone
        | .error _ => false) = true)
    ∧ (match Mem.walk (mctx (fun x => { x with s1root := 1 })) 0 0x5123 .owner 0 with
       | .ok _ => false
       | .error _ => true) = true
    ∧ Mem.isDram 0x5000 = true ∧ m.llc.get? (0x5000 / 64) = none ∧ Mem.regionOk m 0 0x5000 = true ∧ Mem.mustWait m 0x5000 = false
    ∧ freeWay (roomy m) (Mem.homeSlice (64 * (0x5000 / 64))) (Mem.llcSet (0x5000 / 64)) = true
    ∧ Mem.regionOk heldLine 0 (64 * 2) = true
    ∧ (heldLine.llc.get? (128 / 64)).isSome = true ∧ Mem.isDram 128 = true := by decide +kernel

/-- A window of one page on die 0 that keeps the rules, in a state of its bits. -/
def window (en busy : Bool) : Fmtw :=
  { en := en, busy := busy, err := false, range := false, m := 4, part := 0, vbase := 0x1000000000000, vlen := 1, mbase := 0
    sbase := 0x40000 }

def windowed (en busy : Bool) (llc : Tab LlcLine) : State := { m with fmtw := [(0, window en busy)], llc := llc }

def viewLine : Nat := 0x1000000000000 / 64

theorem witness_WindowsAndRegions :
    Mem.fmtwOf (windowed true false []) (64 * viewLine) = some (0, window true false) ∧ Mem.isView (64 * viewLine) = true
    ∧ (let s := windowed true false [(viewLine, { line2 [0] with way := 1 })]
       (s.llc.get? viewLine).any (fun l => decide (l.dirty ≠ []) && Mem.regionOk s l.part (64 * viewLine)) = true
         ∧ (Mem.backing s (64 * viewLine)).isSome = true ∧ s.poison.contains viewLine = false ∧ s.garbled = [])
    ∧ freeWay (roomy (windowed true false [])) (Mem.homeSlice (64 * viewLine)) (Mem.llcSet viewLine) = true
    ∧ (window true false).busy = false
    ∧ ((windowed false false []).fmtw.getD 0 Fmtw.reset).en = false
    ∧ Regions.mayEnable (windowed false false []) 0 (window false false) = true
    ∧ ((windowed true false []).fmtw.getD 0 Fmtw.reset).en = true
    ∧ ((windowed true true []).fmtw.getD 0 Fmtw.reset).busy = true
    ∧ Regions.busyWhere (windowed true true []) (Regions.inView (window true true)) = false
    ∧ ((0x100 : BitVec 32).extractLsb' 8 5).toNat ≠ (m.regions.getD 767 Region.reset).owner
    ∧ (m.regions.getD 767 Region.reset).valid = false ∧ (0x1 : BitVec 32).getLsbD 0 = true
    ∧ (({ m with regions := [(1, { valid := true, scrub := some 5, owner := 0 })] } : State).regions.getD 1 Region.reset).scrub = some 5
    := by decide +kernel

theorem witness_SchedulingEvents :
    m.threads.rising = true
    ∧ (let s := m.modCore 0 (fun k => { k with sectors := [(0, { Sector.reset with bundles := [[(0, 0)]], ages := [(0, 4096, 64)] })] })
       (0, 4096, 64) ∈ (s.sector 0 0).ages ∧ (∀ b ∈ (s.sector 0 0).ages, b ≠ (0, 4096, 64) → b.2.2 < 64)
         ∧ (0, 4096) ∈ Sched.cohorts s 0 0 (s.sector 0 0).bundles ∧ (s.sector 0 0).since < 16 ∧ (s.sector 0 0).bundles ≠ []
         ∧ (s.core 0).capHold = false ∧ (s.core 0).rampHold = false ∧ Sched.halvedNow (s.core 0) (s.sector 0 0) = false)
    ∧ (m.sector 0 7).bundles = []
    ∧ 16 ≤ ((m.modCore 0 (fun k => { k with sectors := [(0, { Sector.reset with since := 16 })] })).sector 0 0).since
    ∧ ((mt (fun t => { t with status := .resend 0 })).thread? 0).any (fun t => decide (t.status = .resend 0)) = true
    ∧ ((mt (fun t => { t with status := .sleeping 0 })).thread? 0).any (fun t => decide (t.status = .sleeping 0)) = true
    ∧ (let s := vecs.modThread 0 (fun t => { t with deadline := some 5 })
       (s.thread? 0).any (fun t => decide (t.deadline = some 5) && t.visit.isNone && !t.inH && decide (t.status = .ready)
         && t.longs.all (fun o => decide (o.left = 0)) && Issue.running s 0 && !Issue.unsure s 0 t && (s.teamOf? 0).any (fun tm =>
           (Ops.handlerPc tm.2.kernel 1).isSome)) = true)
    ∧ (let s := mt (fun t => { t with deadline := some 5, inH := true, longs := [long 1] })
       (s.thread? 0).any (fun t => t.inH && t.longs.any (fun o => decide (0 < o.left)) && (s.teamOf? 0).isSome) = true) := by
  decide +kernel

/-- A rail in a phase. -/
def railed (p : RailPhase) : State :=
  { m with now := 100000, rails := [(0, { level := 550000, target := 600000, phase := p, votes := [] })] }

/-- A step of team 0 that no point can meet, and the state that has it. -/
def late : Sys2Proof.Machine.Step := { (open' 40 0) with owner := 0, risk := false, deadline := 1 }

theorem witness_PowerEvents :
    m.now < m.gov.lastEval + 1000 ∧ (railed .steady).gov.lastEval + 1000 ≤ (railed .steady).now ∧ m.gov.pending = []
    ∧ (let s : State := { railed .steady with gov := { m.gov with pending := [(9, 800, 5)] } }
       s.gov.pending = [(9, 800, 5)] ∧ (5 : BitVec 16) ≠ 0)
    ∧ (let s := (railed .steady).modTeam 0 (fun t => { t with step := some late })
       s.teams.rising = true ∧ (s.teams.get? 0).any (fun tm => decide (tm.step = some late)) = true ∧ late.risk = false
         ∧ Power.need s late = 12 ∧ (s.thread? 0).any (fun t => decide (tidGid 0 = late.owner) && decide (t.status ≠ .retired)) = true)
    ∧ (Power.rail (railed (.rising 0)) 0).phase = .rising 0
    ∧ 0 + ((600000 - 550000 + 49) / 50) + 1000 ≤ (railed (.rising 0)).now
    ∧ (Power.rail (railed (.holding 100000)) 0).phase = .holding 100000 ∧ 100000 ≤ (railed .steady).now
    ∧ Power.newer 5 m.gov.lastseq = true ∧ Power.newer 0 m.gov.lastseq = false
    ∧ ({ m.gov with leaseEnd := some 0 } : Gov).leaseEnd = some 0
    ∧ m.gov.drth ≠ 0 ∧ 1000 * (500 + m.gov.drth.toNat) < (Power.rail m 0).target
    ∧ (Power.rail m 0).target ≤ 1000 * (510 + m.gov.drth.toNat)
    ∧ (let s := (railed .steady).modCore 0 (fun k => { k with droop := .stretch 0 })
       (s.core 0).droop = .stretch 0 ∧ 120 ≤ (s.now - 0) * coreClock (s.core 0).point)
    ∧ (let s := (railed .steady).modCore 0 (fun k => { k with droop := .halved 0 })
       (s.core 0).droop = .halved 0 ∧ 640 ≤ (s.now - 0) * coreClock (s.core 0).point
         ∧ (s.now - 100000) * coreClock (s.core 0).point < 120)
    ∧ (let s : State := { roomy m with gated := [(3, 1)] }
       s.gated.find? (fun g => g.1 == 3 && (s.part 0).waymask.getLsbD g.2) = some (3, 1))
    ∧ m.wgth.getD 3 50 * 100 < 1000 * 6 ∧ 1000 * 5 ≤ m.wgth.getD 3 50 * 100
    ∧ (m.core 0).ret = .awake ∧ Power.idle (mt (fun t => { t with status := .sleeping 9 })) 0 = true ∧ Power.draining m 0 = false
    ∧ (let s := m.modCore 0 (fun k => { k with ret := .retained })
       (s.core 0).ret = .retained ∧ Power.wakes s 0 = true)
    ∧ ((m.modCore 0 (fun k => { k with ret := .waking 0 })).core 0).ret = .waking 0
    ∧ ((m.modCore 0 (fun k => { k with ret := .unswept })).core 0).ret = .unswept
    ∧ (m.thread? 0).isSome = true ∧ (m.group? 0).isSome = true ∧ gidCore (tidGid 0) = 0 ∧ 131071 < 131072 ∧ 383 < 384 := by
  decide +kernel


/-- A stop of the group, made or not. -/
def stop (made : Bool) : Stop :=
  { kind := .fault, vec := 0, cause := 1, inH := false, epc := 4096, eaddr := 4096, syn := 0, brkn := 0, gpa := 0, lanes := [0]
    pix := 0, made := made, resumeAsked := false }

def stopped (made : Bool) : State :=
  let s := mg (fun g => { g with stop := some (stop made) })
  s.setVf 0 { s.vf 0 with part := some 0 }

/-- The context in a phase, on its virtual function. -/
def phased (p : Phase) (e : Bool) : State :=
  let s := mctx (fun x => { x with phase := p, ending := e })
  s.setVf 0 { s.vf 0 with part := some 0 }

/-- A saved context, whose place is free or taken by the team that runs. -/
def saved (free : Bool) : State :=
  let s := phased .saved false
  let i : Image := { groups := s.groups, threads := s.threads, teams := s.teams, clusters := s.clusters, cores := [] }
  let s := s.modCtx 0 (fun x => { x with image := some i })
  if free then { s with groups := [], threads := [], teams := [], clusters := [] } else s

theorem witness_StopsAndResume :
    (let s := stopped false
     (s.group? 0).any (fun g => decide (g.stop = some (stop false))) = true ∧ Stops.ctxOf s 0 = some 0
       ∧ s.threads.all (fun t => t.2.visit.isNone) = true ∧ Stops.quiet s (Life.threadsOf s 0) = true
       ∧ Stops.areaWaits s (Stops.saveArea s 0 0) = false)
    ∧ (let s := stopped true
       (s.group? 0).any (fun g => decide (g.stop = some (stop true))) = true ∧ (s.vf 0).part.isSome = true
         ∧ (s.ctxs.get? 0).any (fun c => decide (c.vf = 0) && decide (c.phase = .running) && !c.ending) = true
         ∧ s.group? (gidOf 0 0) = s.group? 0 ∧ Stops.ctxOf s 0 = some 0
         ∧ Stops.wordsFree s 0 = true ∧ Stops.areaWaits s (Stops.saveArea s 0 0) = false
         ∧ (let s1 := Stops.openArea s (Stops.saveArea s 0 0)
            Stops.intact s1 0 0 = true ∧ pcAligned ((Stops.epcOf s1 0 0 (stop true)).setWidth 48) = true))
    ∧ (let s := (stopped true).modCtx 0 (fun c => { c with areas := [(0, 0, [1])] })
       (Stops.areaBytes (Stops.openArea s (Stops.saveArea s 0 0)) (Stops.saveArea s 0 0) 1 == [1]) = false)
    ∧ Stops.wordsFree ((stopped true).modTeam 0 (fun t => { t with kernel := { t.kernel with depth := 2 ^ 20 } })) 0 = false := by
  decide +kernel

theorem witness_PreemptionAndRestore :
    ((phased .running false).vf 0).part.isSome = true ∧ ((phased .running false).ctxs.get? 0).any (fun c => decide (c.vf ≠ 7)) = true
    ∧ (let s := phased .stopping false
       (s.ctxs.get? 0).any (fun c => decide (c.phase = .stopping) && !c.ending) = true
         ∧ s.threads.all (fun t => t.2.visit.isNone) = true
         ∧ s.cores.all (fun k => k.2.copyq.isEmpty && k.2.matq.isEmpty) = true ∧ s.orng.isEmpty = true
         ∧ Stops.mayClose s 0 = true ∧ s.holds = [] ∧ s.excl = [] ∧ s.exclTill = [] ∧ s.regions = [] ∧ s.teams.rising = true
         ∧ Stops.mayClose (s.modGroup 0 (fun g => { g with stop := some (stop false) })) 0 = false)
    ∧ [true, false].all (fun f => let s := saved f
       (s.ctxs.get? 0).any (fun c => decide (c.vf = 0) && !c.ending && decide (c.phase = .saved) && c.image.any (fun i =>
         i.cores.all (fun k => k.2.copyq.isEmpty && k.2.matq.isEmpty) && i.groups.rising && i.teams.rising
         && i.cores.all (fun x => Stops.queuesFit x.2 (s.core x.1))
         && Stops.placeFree (s.modCtx 0 (fun c => { c with phase := .queued })) c.part i == f
         && (NSet.addAll [] (i.teams.map (fun t => t.2.core))).all (fun k => !Stops.areaWaits s (Stops.saveArea s 0 k)
           && Stops.intact (Stops.openArea s (Stops.saveArea s 0 k)) 0 k)))
       && s.cores.all (fun k => k.2.copyq.isEmpty && k.2.matq.isEmpty) && (s.vf 0).part.isSome) = true := by decide +kernel

/-- A context that has touched die 1, alone. -/
def touching : State := { mctx (fun x => { x with touched := 2 }) with linkDown := [(1, 0)], now := 100000 }

theorem witness_EndsAndLosses :
    (let s : State := { phased .running true with grids := [] }
     (s.ctxs.get? 0).any (fun c => c.ending) = true ∧ s.ctxs.rising = true ∧ s.orng.isEmpty = true ∧ s.fabric.isEmpty = true
         ∧ s.grids.isEmpty = true ∧ s.launchReqs.isEmpty = true
         ∧ (Stops.killLaunches (Stops.cancelAll s 0) 0).isSome = true)
    ∧ (let s : State := { m with linkDown := [(1, 0)], now := 99999 }
       s.linkDown.get? 1 = some 0 ∧ s.now < 0 + 100000)
    ∧ (let s : State := { m with linkDown := [(1, 0)], now := 100000 }
       s.linkDown.get? 1 = some 0 ∧ 0 + 100000 ≤ s.now ∧ (Stops.lostSet 1).any (fun b => !s.lost.contains b) = true
         ∧ s.ctxs.all (fun c => (Stops.lostSet 1).all (fun b => !c.2.touched.getLsbD b)) = true)
    ∧ touching.ctxs.length = 1 ∧ touching.orng = [] ∧ touching.fabric = []
    ∧ touching.cores.all (fun k => k.2.copyq.isEmpty && k.2.matq.isEmpty) = true
    ∧ ((Stops.lostSet 1).filter (fun b => !touching.lost.contains b)).contains 1 = true
    ∧ (touching.ctxs.get? 0).any (fun c => c.touched.getLsbD 1 && !Stops.fatal touching 0 c [1] && Stops.fatal touching 0 c [0]) = true
    ∧ (touching.group? 0).any (fun g => g.stop.isNone && decide ((touching.teams.get? g.team).map Team.ctx = some 0)) = true
    ∧ 19 < 20 := by decide +kernel

/-- Power is on and every image has been loaded. -/
def up : State :=
  { m with trust := { powered := true, recovery := false, images := [], report := none } }.setVf 0 { m.vf 0 with part := some 0 }

def img (ty : Nat) : BootImage := { ty := ty, svn := 1, body := [], ed25519 := [], mldsa := [] }

theorem witness_HostAndBoot :
    (up.vf 0).part = some 0
    ∧ (let s := up.setVf 0 { up.vf 0 with lqcfg := 4 }
       ((16 : BitVec 32) - (s.vf 0).lqhead).toNat ≤ 2 ^ ((s.vf 0).lqcfg.toNat % 32)
         ∧ 2 ^ ((s.vf 0).lqcfg.toNat % 32) < ((17 : BitVec 32) - (s.vf 0).lqhead).toNat ∧ (s.vf 0).held = [])
    ∧ up.trust.powered = true ∧ up.trust.recovery = false ∧ Boot.freeCtx up = some 1 ∧ (m.part 5).key = none
    ∧ up.ctxs.all (fun c => decide (c.2.part ≠ 5)) = true
    ∧ (m.regions.getD 0 Region.reset).owner = 0
    ∧ (({ m with regions := [(1, { valid := true, scrub := none, owner := 5 })] } : State).regions.get? 1).any (fun x => x.owner == 5) = true
    ∧ Boot.legal up 0 (up.part 0).cores 0x3 = true ∧ Boot.legal up 0 (up.part 0).cores 0x1 = false
    ∧ Boot.legal up 5 1 3 = false ∧ Boot.legal up 5 (1 <<< 50) 3 = true
    ∧ up.holds = [] ∧ up.excl = [] ∧ up.exclTill = []
    ∧ (let s := up.setPart 5 { up.part 5 with waymask := 3 }
       Boot.inUse s 50 = false ∧ Boot.visitors s 50 = [] ∧ Boot.unsettled s 50 = false ∧ Boot.owner? s 50 = none
         ∧ Boot.legal s 5 (Boot.withCore (s.part 5).cores 50 true) (s.part 5).waymask = true
         ∧ Boot.legal s 5 1 (s.part 5).waymask = false
         ∧ Boot.minus (s.part 5).cores (1 <<< 50) = []
         ∧ (Boot.minus (1 <<< 50) (s.part 5).cores).all (fun c => !Boot.unsettled s c) = true)
    ∧ Boot.owner? (up.setPart 5 { up.part 5 with cores := 1 <<< 50 }) 50 = some 5
    ∧ m.trust.powered = false ∧ [img 0, img 1, img 2, img 3].map BootImage.ty = [0, 1, 2, 3]
    ∧ (let s : State := { m with trust := { powered := true, recovery := true, images := [(0, 0, []), (1, 0, []), (2, 0, [])], report := none } }
       s.trust.recovery = true ∧ s.trust.images.length = 3 ∧ (img 3).ty = 3)
    ∧ ((dieOf m (acm 0 []) ready).orng.get? 0).any (fun o => o.tiles.get? 0 == some ready) = true
    ∧ (let o := (up.modDie 0 (fun o => { o with replayed := true })).die 0; o.cmds = [] ∧ o.replayed = true)
    ∧ (List.replicate 32 (0 : Byte)).length = 32
    ∧ [true, false].all (fun e => ((windowed e false []).fmtw.get? 0).any (fun x => x.en == e)) = true
    ∧ (m.core 0).evsel.rising = true := by decide +kernel

/-- The issue that withFetchWord places: a nop at the first slot of line 64. -/
def placed : State := State.reset.withFetchWord 96 1

/-- The same state after the departure and the tick that step puts before an issue, and the thread's first issue in it. -/
def before : State := Ops.leave (Issue.tick { placed with agenda := [] } 0)
def first : Option State :=
  (Issue.offerOf before 0 (Issue.sectorOf 0 ((before.thread? 0).getD (Launch.newThread 0 none [] 0))) 4096 [0]).map (fun o =>
    Issue.firstIssue (Issue.serve before 0 0 o) 0 [0])

theorem witness_StepRunsTheDecodedInstruction :
    placed.agenda = [{ dt := 0, what := .issue 0 [0] }]
    ∧ Issue.cohortOk before 0 [0] = true
    ∧ (before.thread? 0).any (fun t => decide (t.status = .ready) && decide (t.deadline = none) && decide (t.pc = 4096)) = true
    ∧ before.threads.length = 1
    ∧ first.any (fun s1 => match Issue.fetch s1 0 (s1.ctxOf 0) (some 0) 4096 4096 with
         | .line bits s2 => Issue.lineOk bits && (s2.group? 0).isSome && !(s2.core 0).capHold
           && decide (decode (BitVec.ofNat 96 (bits / 2 ^ (96 * (((4096 : BitVec 48) &&& 0x3F).toNat / 12)))) = .ok (.nop h))
           && s2.threads.all (fun x => x.2.visit.isNone && x.2.longs.isEmpty && x.2.vpoison.isEmpty && x.2.ppoison.isEmpty)
           && s2.groups.all (fun x => x.2.spoison.isEmpty && x.2.hpoison.isEmpty)
           && (match s2.group? 0, s2.thread? 0 with
             | some g, some t => (match Issue.prepareSlot s2 0 [0] t g.role bits with
               | .run _ _ => true
               | .done _ => false)
             | _, _ => false)
         | _ => false) = true
    ∧ Issue.offerOf m 0 0 4096 [0, 1] = none
    ∧ decode 0x1F = .ok (.unassignedOpcode 0x1F) ∧ decode 0x000000010000000000000001 = .error .unusedField
    ∧ Issue.isEvent .evaluation = true ∧ m.agenda = [] := by decide +kernel


/-! ### What WellFormed refuses: for each check a term that breaks it alone -/

/-- Each instruction breaks the one check named with it. -/
def breaks (l : List (Instr × Reject)) : Bool := l.all (fun x => decide (x.1.problems = [x.2]))

/-- Each instruction breaks no check. -/
def legal (l : List Instr) : Bool := l.all Instr.wellFormed

def fo : FpOps := { d := .v 3, a := .v 1, b := .reg (.v 2), c := .zero, ftz := false, rm := 0, xop := 0 }
def ho : HalfOps := { d := .v 3, a := .v 1, b := .reg (.v 2), c := .zero, ftz := false, bf := false, nan := false }
def po : IntPOps := { d := .v 3, a := .v 1, b := .reg (.v 2), p := 5, u := false, w64 := false, xop := 0 }
def redo : RedOps := { d := .v 4, addr := { base := .v 2, idx := none, off := 0 }, mig := false, op := 0, rel := false }
def ro : RgnOps := { e0 := some (.v 16), e1 := none, e2 := none, e3 := none, e4 := some 17, e5 := none, e6 := none, e7 := none }

theorem wellFormed_header : breaks [
    (.nop { h with gp := 96 }, .predicate), (.nop { h with la := 1 }, .lookahead)]
  ∧ legal [.nop { h with gp := 95 }, .ld { h with la := 15 } lo] := by decide +kernel

theorem wellFormed_control : breaks [
    (.bra h { lines := 0, slot := 5 }, .branchSlot), (.call h { lines := 0, slot := 7 }, .branchSlot), (.brx h (.v 1), .operand),
    (.callx h (.k 0), .operand), (.meet h (.v 0), .operand), (.kset h (.s 0) .zero 1, .operand), (.kset h (.k 0) (.v 1) 1, .operand),
    (.kset h (.k 0) .zero 0, .immediate), (.kset h (.k 0) .zero 4097, .immediate), (.wait h (.v 0), .operand),
    (.hcancel h (.k 0), .operand), (.htest h (.m 0) 0, .operand), (.htest h (.h 0) 96, .predicate), (.hmov h (.v 0) (.h 0), .operand),
    (.hmovTok h (.s 0) (.s 0), .operand), (.rgn h { ro with e0 := some (.s 16) }, .operand), (.rgn h { ro with e4 := some 15 }, .operand),
    (.rgn h { ro with e4 := some 16 }, .operand)]
  ∧ legal [.bra h { lines := 0, slot := 4 }, .kset h (.k 0) .zero 4096, .htest h (.s 0) 95, .rgn h ro] := by decide +kernel

theorem wellFormed_moves : breaks [
    (.mov h (.v 1) (.v 2) true, .operand), (.mov h (.s 0) (.v 2) false, .scalarDest), (.movi h (.v 1) 0 true, .operand),
    (.sel h { d := .s 0, a := .v 0, b := .v 0, p := 0, b64 := false }, .operand),
    (.sel h { d := .v 0, a := .v 1, b := .v 0, p := 0, b64 := true }, .operand),
    (.sel h { d := .v 0, a := .v 0, b := .k 0, p := 0, b64 := false }, .operand),
    (.sel h { d := .v 0, a := .v 0, b := .v 0, p := 96, b64 := false }, .predicate), (.pmov h { t := 0, p := 0, x := 96, y := 0 }, .predicate),
    (.srd h (.v 0) 0x11, .immediate), (.srd h (.v 1) 6, .operand), (.swr h (.v 0) 0, .immediate), (.swr h (.v 1) 9, .operand),
    (.rdl h (.v 0) (.v 0) (.imm 0), .operand), (.wrl h (.v 0) (.v 0) (.imm 0), .operand)]
  ∧ legal [.mov h (.s 0) (.s 2) true, .srd h (.v 10) 6, .rdl h (.s 0) (.v 0) (.imm 127)] := by decide +kernel

theorem wellFormed_integer : breaks [
    (.imul h { io with sat := true }, .modifier), (.iand h { io with u := true }, .modifier), (.lea h { io with d := .v 4, a := .v 2, w64 := true }, .modifier),
    (.iadd h { io with xop := 1 }, .modifier), (.imul h { io with d := .v 4, a := .v 2, w64 := true, xop := 1 }, .modifier),
    (.iadd h { io with d := .v 3, a := .v 2, w64 := true }, .operand), (.iadd h { io with a := .h 1 }, .operand),
    (.iadd h { io with b := .reg (.k 1) }, .operand), (.inot h io, .operand), (.iadd h { io with c := .v 1 }, .operand),
    (.shl h { io with b := .imm 256 }, .immediate), (.bfx h { io with b := .imm 65536 }, .immediate),
    (.iadd h { io with d := .s 0 }, .scalarDest), (.icmp h { po with d := .zero, xop := 6 }, .modifier), (.icmp h po, .unusedField),
    (.icmp h { po with d := .zero, a := .m 0 }, .operand), (.icmp h { po with d := .zero, b := .reg (.m 0) }, .operand),
    (.icmp h { po with d := .zero, p := 96 }, .predicate), (.iaddc h { po with u := true }, .modifier), (.isubb h { po with d := .h 0 }, .operand),
    (.iaddc h { po with d := .s 0, a := .s 1 }, .scalarDest)]
  ∧ legal [.iadd h io, .shl h { io with b := .imm 255 }, .imul h { io with d := .v 4, xop := 1 }, .inot h { io with b := .reg .zero },
    .icmp h { po with d := .zero, xop := 5 }, .iaddc h po] := by decide +kernel

theorem wellFormed_float : breaks [
    (.fclass h { fo with b := .reg .zero, ftz := true }, .modifier), (.fsub h { fo with rm := 1 }, .modifier),
    (.fadd h { fo with xop := 1 }, .modifier), (.fadd h { fo with d := .k 0 }, .operand), (.fadd h { fo with c := .v 1 }, .operand),
    (.frcp h fo, .operand), (.fadd h { fo with d := .s 0 }, .scalarDest),
    (.fcmp h { a := .v 0, b := .imm 0, p := 0, ftz := false, xop := 14 }, .modifier), (.hadd2 h { ho with bf := true }, .modifier),
    (.hadd2 h { ho with c := .v 1 }, .operand), (.cvt h (cv 13 0), .immediate), (.cvt h (cv 7 11), .immediate),
    (.cvt h { cv 0 7 with hi := true }, .modifier), (.cvt h { cv 0xB 7 with d := .v 4 }, .modifier), (.cvt h { cv 0 7 with sat := true }, .modifier),
    (.cvt h { cv 7 8 with ftz := true }, .modifier), (.cvt h { cv 7 8 with rm := 1 }, .modifier), (.cvt h { cv 9 0 with d := .v 5 }, .operand),
    (.cvt h { cv 0 7 with b := .v 1 }, .operand), (.fround h { d := .s 0, a := .v 0, ftz := false, mode := 0 }, .scalarDest),
    (.bfpx h { d := .v 0, a := .v 1, c := .zero, n := 7 }, .modifier), (.bfpq h { d := .v 0, a := .s 1, c := .zero, n := 0 }, .operand)]
  ∧ legal [.fadd h fo, .fsub h fo, .hadd2 h ho, .cvt h (cv 0xB 0), .cvt h (cv 0 7)] := by decide +kernel

theorem wellFormed_lanes : breaks [
    (.ballot h { d := .v 4, mask := .zero, wsel := 1, x4 := true, p := 0 }, .modifier), (.ballot h { d := .v 5, mask := .zero, wsel := 0, x4 := true, p := 0 }, .operand),
    (.ballot h { d := .v 4, mask := .s 2, wsel := 0, x4 := true, p := 0 }, .operand), (.vote h { mask := .zero, kind := 0, seg := 7, dp := 0, xp := 0 }, .modifier),
    (.vote h { mask := .zero, kind := 0, seg := 0, dp := 96, xp := 0 }, .predicate),
    (.shfl h { d := .v 1, a := .v 2, b := .imm 0, mask := .zero, mode := 0, b64 := true, seg := 0 }, .operand),
    (.matchx h { d := .v 1, a := .v 2, mask := .zero, wsel := 0, x4 := false, b64 := false, seg := 7 }, .modifier),
    (.redx h { d := .v 1, a := .v 2, mask := .zero, op := 12, seg := 0 }, .modifier), (.redx h { d := .s 1, a := .v 2, mask := .zero, op := 0, seg := 1 }, .modifier),
    (.scan h { d := .s 1, a := .v 2, mask := .zero, op := 0, excl := false, seg := 0 }, .operand),
    (.lmask h { d := .v 1, rel := 5, x4 := false, wsel := 0 }, .modifier)]
  ∧ legal [.ballot h { d := .v 4, mask := .s 4, wsel := 0, x4 := true, p := 0 }, .redx h { d := .s 1, a := .v 2, mask := .zero, op := 0, seg := 0 }] := by
  decide +kernel

theorem wellFormed_memory : breaks [
    (.ld h { lo with sgn := true }, .modifier), (.ld h { lo with d := .v 5, sz := 1 }, .operand), (.ld h { lo with addr := { ad with base := .v 3 } }, .operand),
    (.ld h { lo with addr := { ad with idx := some (.k 0, 0) } }, .operand), (.st h { so with d := .s 0 }, .operand), (.atom h { ao with op := 12 }, .modifier),
    (.atom h { ao with op := 11, w64 := true }, .modifier), (.atom h { ao with c := .h 0 }, .operand), (.red h { redo with op := 7 }, .modifier),
    (.gath h { go with idx := .v 3 }, .operand), (.gath h { go with d := .v 63 }, .operand), (.gath h { go with base := .v 1 }, .operand),
    (.lds h { sharedOps with d := .s 9, n := 1 }, .operand), (.sts h { sharedOps with addr := { ad with base := .v 2 } }, .operand),
    (.pld h { addr := ad, n := 3 }, .modifier), (.prefl h { ad with base := .h 0 } false, .operand)]
  ∧ legal [.ld h lo, .st h so, .atom h ao, .red h redo, .gath h go, .scat h { go with d := .v 8 }, .lds h sharedOps] := by decide +kernel

theorem wellFormed_engines : breaks [
    (.cpy h { d := .s 1, a := .s 0, b := .s 2, len := .imm 4 }, .handle), (.cpy h { d := .h 1, a := .s 1, b := .s 2, len := .imm 4 }, .operand),
    (.cpy h { d := .h 1, a := .s 0, b := .s 2, len := .imm 16777217 }, .immediate), (.cpy2 h (.v 0) (.s 0) (.s 2) (.s 4), .handle),
    (.cpy2 h (.h 0) (.s 0) (.s 2) (.s 5), .operand), (.pres h (.v 1) none 0 0, .operand), (.sgive h (.s 1) (.s 0), .operand),
    (.stakeTry h (.s 0) (.s 2) false false 96, .predicate), (.go h { ad with base := .v 1 }, .operand), (.carry h (.imm 0x1FFF) false, .immediate),
    (.carry h (.reg (.k 0)) false, .operand), (.whereIs h (.s 0) ad, .operand), (.mzero h (.s 0) (.m 0) (.k 0), .handle),
    (.mma h { mo with t := .v 0 } 0 0, .operand), (.mma h { mo with c := .s 4 } 0 0, .operand), (.mma h mo 3 0, .modifier),
    (.mmab h mo 7 0, .modifier), (.mst h { mo with d := .zero } 0, .handle), (.mst h mo 6, .modifier), (.acall h .zero (.s 0) (.reg (.s 2)) false, .handle),
    (.acall h (.h 0) (.s 1) (.reg (.s 2)) false, .operand), (.astat h (.h 0) (.v 0), .operand)]
  ∧ legal [.cpy h { d := .h 1, a := .s 0, b := .s 2, len := .imm 16777216 }, .carry h (.imm 0xFFF) true, .mma h { mo with d := .zero } 2 255, .mst h mo 5] := by
  decide +kernel

theorem wellFormed_system : breaks [
    (.tenq h (.s 4) none, .operand), (.tenq h (.s 8) (some 96), .predicate), (.tdeq h (.s 1) 0 0, .operand), (.dcnew h (.v 0) (.imm 0), .operand),
    (.dcrd h (.s 0) (.v 0), .operand), (.launch h (.s 0) (.s 2), .handle), (.launch h .zero (.s 1), .operand), (.dcfree h (.v 0), .operand),
    (.dln h (.imm 0) (.s 0), .immediate), (.dprog h (.reg (.v 0)), .operand), (.dslack h (.h 0), .operand), (.coll h (.h 0) (.s 0) 5 0, .modifier),
    (.coll h (.h 0) (.s 0) 1 1, .modifier), (.fput h (.h 0) (.s 4), .operand), (.fsig h (.s 0) (.s 4), .handle), (.sysrd h (.s 0) 2, .immediate),
    (.syswr h (.v 0) 4, .operand), (.tlbiVa h (.s 1), .operand), (.tlbiOth h (.v 0), .operand), (.cmaintWb h { ad with base := .v 1 }, .operand),
    (.chkset h (.s 0) (.imm 3), .immediate), (.chkset h (.v 0) (.imm 4), .operand)]
  ∧ legal [.tenq h (.s 8) (some 95), .launch h .zero (.s 2), .coll h (.h 0) (.s 0) 0 5, .sysrd h (.s 0) 4, .chkset h (.s 0) (.imm 1048576)] := by
  decide +kernel


/-! ### Slots written from the field tables of the specification (Table 02.2 and the table named), one for each constructor -/

def r3 : IntOps := { d := .v 3, a := .v 1, b := .reg (.s 12), c := .zero, sat := false, u := false, w64 := false, xop := 0 }
def r1 : IntOps := { r3 with b := .reg .zero }
def pr : IntPOps := { d := .v 3, a := .v 1, b := .reg (.s 12), p := 0, u := false, w64 := false, xop := 0 }
def fr : FpOps := { d := .v 3, a := .v 1, b := .reg (.s 12), c := .zero, ftz := false, rm := 0, xop := 0 }
def f1 : FpOps := { fr with b := .reg .zero }
def hr : HalfOps := { d := .v 3, a := .v 1, b := .reg (.s 12), c := .zero, ftz := false, bf := false, nan := false }
/-- [v4:v5 + s7 << 2 - 8] -/
def fmAddr : Addr := { base := .v 4, idx := some (.s 7, 2), off := 0xFFFFFFF8 }
def fmAddr20 : Addr20 := { base := .v 4, idx := some (.s 7, 2), off := 0xFFFF8 }

/-- Each slot decodes to the instruction beside it. -/
def reads (l : List (Slot × Instr)) : Bool := l.all (fun x => match decode x.1 with
  | .ok i => decide (i = x.2)
  | .error _ => false)

/-- Tables 12.6, 14.4. -/
theorem decode_control : reads [
    (0x0000000000000000000DF001, .nop { la := 0, gp := 95, gn := true }),
    (0xFFFFFFF20000000000005002, .bra { h with gp := 5 } { lines := 0x1FFFFFFE, slot := 2 }),
    (0x0000000000000007C0000003, .brx h (.v 62)),
    (0x0000001C0000000000000004, .call h { lines := 3, slot := 4 }),
    (0x000000000000003FC0000005, .callx h (.s 382)),
    (0x000000000000000000000006, .ret h),
    (0x000000000000000000000007, .exit h),
    (0x000000000000000000000008, .yield h),
    (0x000003E80000000000000009, .sleep h 1000),
    (0x00005A07000000000000000A, .trap h 7 0x5A),
    (0x00000000000000000000000B, .tfence h),
    (0x0000000000000009E000000C, .meet h (.k 15)),
    (0x0000100000000010C410000D, .kset h (.k 1) (.s 6) 4096),
    (0x00000000000000000000000E, .bar h),
    (0x00000000000000000000000F, .cbar h),
    (0x0000BEEF0000000000000015, .brk h 0xBEEF),
    (0x0000000000000000000000F0, .eret h)] := by decide +kernel

/-- Tables 08.9, 08.3. -/
theorem decode_handles : reads [
    (0x000000000000000DE0000010, .wait h (.h 31)),
    (0x000000400000001120000011, .htest h (.s 9) 64),
    (0x000000000000000A40000012, .hcancel h (.h 2)),
    (0x000000000000000A88300013, .hmov h (.s 3) (.h 4)),
    (0x000000000100000A88300013, .hmovTok h (.s 3) (.h 4)),
    (0x2A00001195000FC001000014, .rgn h { e0 := some (.v 16), e1 := none, e2 := some (.v 63), e3 := none, e4 := some 17, e5 := none, e6 := none, e7 := some 42 })] := by decide +kernel

/-- Tables 08.4 to 08.7, 08.12. -/
theorem decode_moves : reads [
    (0x000000000100001080200020, .mov h (.v 2) (.s 4) true),
    (0xFFFFFFFF000000001FF00021, .movi h (.s 383) 0xFFFFFFFF false),
    (0x00000021000020C040100022, .sel h { d := .v 1, a := .v 2, b := .s 3, p := 33, b64 := false }),
    (0x000101870800000000000023, .pmov h { t := 8, p := 7, x := 3, y := 4 }),
    (0xFFFFFFF8C20021C080000024, .pld h { addr := fmAddr, n := 2 }),
    (0xFFFFFFF8C10021C080000025, .pst h { addr := fmAddr, n := 1 }),
    (0x000000060000000000A00026, .srd h (.v 10) 6),
    (0x0000000C0000000160000027, .swr h (.v 11) 0xC),
    (0x0000007F0000000048100028, .rdl h (.s 1) (.v 2) (.imm 127)),
    (0x00000000010020D040100029, .wrl h (.v 1) (.s 2) (.reg (.s 3)))] := by decide +kernel

/-- Tables 09.1, 09.2. -/
theorem decode_integer : reads [
    (0x00000064C000000020300030, .iadd h { r3 with b := .imm 100, sat := true }),
    (0x000000002000230020300031, .isub h { r3 with u := true }),
    (0x000000000100230020400032, .imul h { r3 with d := .v 4, xop := 1 }),
    (0x000000000000230020300033, .imulh h r3),
    (0x000000000004A30020300034, .imad h { r3 with c := .v 9 }),
    (0x000000000000230020300F35, .idiv { h with la := 15 } r3),
    (0x000000000000230020300136, .irem { h with la := 1 } r3),
    (0x000000001000230040400037, .imin h { r3 with d := .v 4, a := .v 2, w64 := true }),
    (0x000000000000230020300038, .imax h r3),
    (0x000000004000000020300039, .iabs h { r1 with sat := true }),
    (0x00000000000023002030003A, .iand h r3),
    (0x00000000000023002030003B, .ior h r3),
    (0x00000000000023002030003C, .ixor h r3),
    (0x00000000000000002030003D, .inot h r1),
    (0x0000001F800000002030003E, .shl h { r3 with b := .imm 31 }),
    (0x00000000000023002030003F, .shr h r3),
    (0x000000000000230020300040, .sar h r3),
    (0x000000000000230020300041, .rotl h r3),
    (0x000000000000000020300042, .clz h r1),
    (0x000000000000000020300043, .popc h r1),
    (0x000000000000000020300044, .brev h r1),
    (0x000000000100230020300045, .bfx h { r3 with xop := 1 }),
    (0x000000000004A30020300046, .bfi h { r3 with c := .v 9 }),
    (0x000000092500230020000047, .icmp h { pr with d := .zero, p := 9, u := true, xop := 5 }),
    (0x0000005F0000230020300048, .iaddc h { pr with p := 95 }),
    (0x000002898000000020300049, .isubb h { pr with b := .imm 5, p := 9 }),
    (0x00000000230023004040004A, .lea h { r3 with d := .v 4, a := .v 2, u := true, xop := 3 }),
    (0x000000004204A3002030004B, .dot4 h { r3 with c := .v 9, sat := true, xop := 2 }),
    (0x12345678800480002030004C, .prmt h { r3 with b := .imm 0x12345678, c := .v 9 })] := by decide +kernel

/-- Tables 09.3, 09.4, 09.8, R260 to R264. -/
theorem decode_float : reads [
    (0x000000001000230020300050, .fadd h { fr with rm := 1 }),
    (0x3F8000008000000020300051, .fsub h { fr with b := .imm 0x3F800000 }),
    (0x000000007000230020300052, .fmul h { fr with ftz := true, rm := 3 }),
    (0x000000000004A30020300053, .ffma h { fr with c := .v 9 }),
    (0x000000000100230020300054, .fmin h { fr with xop := 1 }),
    (0x000000000000230020300055, .fmax h fr),
    (0x00000009020000C040000056, .fcmp h { a := .v 2, b := .reg (.v 3), p := 9, ftz := false, xop := 2 }),
    (0x000000000000000020300057, .fclass h f1),
    (0x000000000000000020300258, .frcp { h with la := 2 } f1),
    (0x000000004000000020300059, .frsq h { f1 with ftz := true }),
    (0x00000000200000002030005A, .fsqrt h { f1 with rm := 2 }),
    (0x00000000200023002030005B, .fdiv h { fr with rm := 2 }),
    (0x00000000000000002030005C, .fexp2 h f1),
    (0x00000000000000002030005D, .flog2 h f1),
    (0x00000000000000002030005E, .fsin h f1),
    (0x00000000000000002030005F, .fcos h f1),
    (0x000000004000230020300060, .hadd2 h { hr with ftz := true }),
    (0x000000000000230020300061, .hmul2 h hr),
    (0x000000000004A30020300062, .hfma2 h { hr with c := .v 9 }),
    (0x000000000200230020300063, .hmax2 h { hr with bf := true }),
    (0x000000000100230020300064, .hmin2 h { hr with nan := true }),
    (0x000001102000000020300065, .cvt h { d := .v 3, a := .v 1, b := .zero, ftz := false, rm := 2, sat := false, hi := true, st := 1, dt := 0 }),
    (0x000000004300000020300066, .fround h { d := .v 3, a := .v 1, ftz := true, mode := 3 }),
    (0x000000000644000020300067, .bfpq h { d := .v 3, a := .v 1, c := .s 8, n := 6 }),
    (0x000000000300000020300068, .bfpx h { d := .v 3, a := .v 1, c := .zero, n := 3 })] := by decide +kernel

/-- R265, R268 to R275. -/
theorem decode_cross_lane : reads [
    (0x000000280342000008100070, .ballot h { d := .s 1, mask := .s 4, wsel := 3, x4 := false, p := 40 }),
    (0x000003055300000000000071, .vote h { mask := .zero, kind := 3, seg := 5, dp := 5, xp := 6 }),
    (0x00000001D300000080500072, .shfl h { d := .v 5, a := .v 4, b := .imm 1, mask := .zero, mode := 3, b64 := false, seg := 5 }),
    (0x000000001C46000080800073, .matchx h { d := .v 8, a := .v 4, mask := .s 12, wsel := 0, x4 := true, b64 := true, seg := 1 }),
    (0x000000002100000100900074, .redx h { d := .v 9, a := .v 8, mask := .zero, op := 1, seg := 2 }),
    (0x000000006C00000100900075, .scan h { d := .v 9, a := .v 8, mask := .zero, op := 4, excl := true, seg := 6 }),
    (0x000000000C00000000800076, .lmask h { d := .v 8, rel := 4, x4 := true, wsel := 0 })] := by decide +kernel

/-- R41, Tables 05.14 to 05.18, 06.4. -/
theorem decode_memory : reads [
    (0xFFFFFFF8D90021C080800380, .ld { h with la := 3 } { d := .v 8, addr := fmAddr, mig := true, sz := 1, sgn := false, acq := true }),
    (0xFFFFFFF8CB0021C080800081, .st h { d := .v 8, addr := fmAddr, mig := false, sz := 3, rel := true }),
    (0x003FFFF8CA0521C080800082, .atom h { d := .v 8, c := .v 10, addr := fmAddr20, mig := false, op := 10, w64 := true, acq := true, rel := false }),
    (0x004FFFF8D10021C088800083, .red h { d := .s 8, addr := fmAddr20, mig := true, op := 1, rel := true }),
    (0x000000000000000000000084, .fence h),
    (0x000000000100000000000084, .fenceAcq h),
    (0x000000000200000000000084, .fenceRel h),
    (0xFFFFFFF8C10021C080000085, .prefl h fmAddr true),
    (0x00000040C300021082000086, .gath h { d := .v 32, base := .s 4, idx := .v 8, sh := 2, off := 64, n := 3 }),
    (0xFFFFFFFC8700020082000087, .scat h { d := .v 32, base := .v 4, idx := .v 8, sh := 0, off := 0xFFFFFFFC, n := 7 }),
    (0xFFFFFFF8CB0021D089000088, .lds h { d := .s 16, addr := { fmAddr with base := .s 4 }, n := 3, ord := true }),
    (0x000000200200001089000089, .sts h { d := .s 16, addr := { base := .s 4, idx := none, off := 32 }, n := 2, ord := false }),
    (0x00000007CF0021C080000093, .pres h (.v 4) (some (.s 7, 2)) 15 7),
    (0x000000000000001088500094, .sgive h (.s 4) (.s 5)),
    (0x000000000200001088500095, .stake h (.s 4) (.s 5) false true),
    (0x000000090500001088500095, .stakeTry h (.s 4) (.s 5) true false 9),
    (0x000000000000001088500096, .sfree h (.s 4) (.s 5))] := by decide +kernel

/-- Tables 06.3, 07.3, 07.7. -/
theorem decode_copy_and_migration : reads [
    (0x00000000004C259285300090, .cpy h { d := .h 3, a := .s 20, b := .s 22, len := .reg (.s 24) }),
    (0x00000000004C259285300091, .cpy2 h (.h 3) (.s 20) (.s 22) (.s 24)),
    (0x01000000010025D285300092, .cfill h { d := .h 3, a := .s 20, b := .s 23, len := .imm 0x1000000 }),
    (0xFFFFFFF8C00021C0800001A0, .go { h with la := 1 } fmAddr),
    (0x0000000000000000000000A1, .back h),
    (0x0000030C81000000000000A2, .carry h (.imm 0x30C) true),
    (0xFFFFFFF8C00021C080C000A3, .whereIs h (.v 12) fmAddr)] := by decide +kernel

/-- Tables 10.2, 11.6, 11.11. -/
theorem decode_matrix_and_arrays : reads [
    (0x000000000000108E200000A8, .mzero h .zero (.m 1) (.k 2)),
    (0x0000000F004C104E251000A9, .mma h { d := .h 1, t := .m 1, k := .k 1, c := .s 24 } 0 15),
    (0x000000FF0650104FE00000AA, .mmab h { d := .zero, t := .m 15, k := .k 1, c := .s 32 } 6 255),
    (0x00000000024E104E251000AB, .mld h { d := .h 1, t := .m 1, k := .k 1, c := .s 28 } 2),
    (0x00000000054E104E251000AC, .mst h { d := .h 1, t := .m 1, k := .k 1, c := .s 28 } 5),
    (0x00000000004E104E251000AD, .mscl h { d := .h 1, t := .m 1, k := .k 1, c := .s 28 }),
    (0x3F8000000100104E251000AD, .msclU h (.h 1) (.m 1) (.k 1) 0x3F800000),
    (0x0000073500000015052000B0, .acall h (.h 2) (.s 40) (.imm 5 3 7) false),
    (0x0000000000002A55052000B1, .acorr h (.h 2) (.s 40) (.s 41)),
    (0x0000000000002A40052000B2, .astat h (.h 2) (.s 41))] := by decide +kernel

/-- R351, Tables 12.11, 13.2. -/
theorem decode_tasks_and_steps : reads [
    (0x0000000901000011000000B8, .tenq h (.s 8) (some 9)),
    (0x000002890000003F000000B9, .tdeq h (.s 376) 9 5),
    (0x0000000701000011200000BA, .dcnew h (.s 9) (.imm 7)),
    (0x0000000000002291200000BB, .dcadd h (.s 9) (.reg (.s 10))),
    (0x0000000101000011200000BC, .dcdec h (.s 9) (.imm 1)),
    (0x0000000000002291200000BD, .dcrd h (.s 9) (.s 10)),
    (0x0000000000000011400000BE, .launch h .zero (.s 10)),
    (0x0000000000000011200000BF, .dcfree h (.s 9)),
    (0x0000C35001002300000000C0, .dln h (.imm 0xC350) (.s 12)),
    (0x0000000000000011800000C1, .dprog h (.reg (.s 12))),
    (0x0000000000000000000000C2, .dend h),
    (0x0000000000000011400000C3, .dslack h (.s 10))] := by decide +kernel

/-- Tables 15.7, 14.8. -/
theorem decode_fabric_and_system : reads [
    (0x000000002A000012054000C8, .coll h (.h 4) (.s 16) 2 5),
    (0x0000000000000012054000C9, .fput h (.h 4) (.s 16)),
    (0x0000000000000012054000CA, .fget h (.h 4) (.s 16)),
    (0x000000000000003F854000CB, .fsig h (.h 4) (.s 380)),
    (0x0300004000000000081000F1, .sysrd h (.s 1) 0x3000040),
    (0x0300004000000010200000F2, .syswr h (.s 1) 0x3000040),
    (0x0000000000000012800000F3, .tlbiVa h (.s 20)),
    (0x0000000001000000000000F3, .tlbiCtx h),
    (0x0000000002000012A00000F3, .tlbiOth h (.s 21)),
    (0x0000000003000012A00000F3, .tlbiPart h (.s 21)),
    (0x0000000004000000000000F3, .tlbiAll h),
    (0xFFFFFFF8C00021C0800000F4, .cmaintWb h fmAddr),
    (0xFFFFFFF8C10021C0800000F4, .cmaintWbi h fmAddr),
    (0xFFFFFFF8C20021C0800000F4, .cmaintIc h fmAddr),
    (0x0000000000000000000000F5, .halt h),
    (0x0000004080000010600000F6, .chkset h (.s 3) (.imm 64)),
    (0x5D0001600000000000000016, .unassignedOpcode 0x5D0001600000000000000016)] := by decide +kernel


/-! ### Worked results of the specification, and results of hand calculation from its rules -/

/-- Lane 0's v1 and v2 as given, and v3 to v9 zero. -/
def rr (a b : Word) : State := mt (fun t => { t with vregs := [(1, a), (2, b)] })

/-- v3 after an instruction. -/
def res (i : Instr) (a b : Word) : Word := v (after i (rr a b)) 3

def i2 : IntOps := { d := .v 3, a := .v 1, b := .reg (.v 2), c := .zero, sat := false, u := false, w64 := false, xop := 0 }
def f2 : FpOps := { d := .v 3, a := .v 1, b := .reg (.v 2), c := .zero, ftz := false, rm := 0, xop := 0 }

/-- R245: modular, and replaced by the nearer end of the signed and of the unsigned range. -/
theorem test_iadd : res (.iadd h i2) 0xFFFFFFFF 7 = 6 ∧ res (.iadd h { i2 with sat := true }) 0x7FFFFFFF 7 = 0x7FFFFFFF
    ∧ res (.iadd h { i2 with sat := true, u := true }) 0xFFFFFFFF 7 = 0xFFFFFFFF
    ∧ res (.isub h { i2 with sat := true, u := true }) 3 7 = 0 := by decide +kernel

/-- R247: truncation toward zero, division by zero, and the most negative number by −1. -/
theorem test_divide : Integer.quotRem false 32 (-7) 2 = (-3, -1) ∧ Integer.quotRem false 32 5 0 = (2 ^ 32 - 1, 5)
    ∧ Integer.quotRem false 32 (-(2 ^ 31)) (-1) = (-(2 ^ 31), 0) := by decide +kernel

/-- R248: a count of the width, and of more. -/
theorem test_shifts : res (.shl h i2) 1 32 = 0 ∧ res (.sar h i2) 0x80000000 255 = 0xFFFFFFFF ∧ res (.rotl h i2) 0x80000001 33 = 3
    ∧ res (.shr h i2) 0x80000000 0x11F = 1 := by decide +kernel

/-- R249: a field that runs over the top is cut, and a signed field keeps its sign. -/
theorem test_bfx : res (.bfx h { i2 with xop := 1 }) 0x0000F000 0x040C = 0xFFFFFFFF
    ∧ res (.bfx h i2) 0xA0000000 0x081C = 0xA ∧ res (.bfx h i2) 0xFFFFFFFF 0x0820 = 0 := by decide +kernel

/-- R251: a byte of B reversed, a byte zero, a byte of A inverted. -/
theorem test_prmt : v (after (.prmt h { i2 with c := .v 4 })
    (mt (fun t => { t with vregs := [(1, 0x44332211), (2, 0x88776601), (4, 0x00180814)] }))) 3 = 0x11EE0080 := by decide +kernel

/-- R79: 1 + 2^−24 is a tie and goes to the even number; upward it is the next number. -/
theorem test_fadd : res (.fadd h f2) 0x3F800000 0x33800000 = 0x3F800000
    ∧ res (.fadd h { f2 with rm := 2 }) 0x3F800000 0x33800000 = 0x3F800001 := by decide +kernel

/-- R254: −0 is below +0, and a NaN operand is treated as missing. -/
theorem test_fmin : res (.fmin h f2) 0x00000000 0x80000000 = 0x80000000 ∧ res (.fmax h f2) 0x7FC00000 0xBF800000 = 0xBF800000
    ∧ res (.fmax h { f2 with xop := 1 }) 0x7FC00000 0xBF800000 = 0x7FC00000 := by decide +kernel

/-- R263: −0.3 with .ceil gives −0; R260: −1.5 to s32 by .rz gives −1. -/
theorem test_fround : res (.fround h { d := .v 3, a := .v 1, ftz := false, mode := 2 }) 0xBE99999A 0 = 0x80000000
    ∧ res (.cvt h { d := .v 3, a := .v 1, b := .zero, ftz := false, rm := 1, sat := false, hi := false, st := 0, dt := 7 })
      0xBFC00000 0 = 0xFFFFFFFF := by decide +kernel

/-- Table 09.14: lanes 0 to 3 and lanes 4 to 7 under redx and scan, lane 6 absent. -/
theorem test_reductions :
    CrossLane.tree 1 7 [0x4B800000, 0x3F800000, 0x3F800000, 0x3F800000] = (0x4B800001, Flags.nx)
    ∧ CrossLane.scanAll 1 [0x4B800000, 0x3F800000, 0x3F800000, 0x3F800000]
      = ([0x4B800000, 0x4B800000, 0x4B800000, 0x4B800000], Flags.nx)
    ∧ (CrossLane.tree 1 7 [0x3FC00000, 0x40200000, CrossLane.identity 1, 0x40800000]).1 = 0x41000000 := by decide +kernel

/-- The worked cases of R95 and R98. -/
theorem test_group_sum : (Matrix.groupSum (Flags.unpack Flags.f32 false 0x4B800000)
      (List.replicate 8 (Flags.unpack Flags.f32 false 0x3F800000, 0))).1 = 0x4B800004
    ∧ (let mul (a b : Word) := (Flags.mulRne a b).1
       (Flags.addRne (mul (mul (mul 0x4394C000 0x3FA00000) 0x3C800000) 0x3C000000) 0x3F000000) = (0x3F0B9F00, 0)) := by decide +kernel

/-- R129, R113: host physical address 0x30_0056_7890 has its home on die 1, slice 55. -/
theorem test_home : Mem.homeDie 0x3000567890 = 1 ∧ Mem.homeSlice 0x3000567890 = 55 := by decide +kernel

/-- The header of the kernel idle4 (Table 02.15). -/
def idle4 : List Byte := [22, 167, 1, 0, 4, 17, 0, 0, 64, 0, 0, 0, 0, 0, 0, 0, 2, 1, 0, 0, 64, 0, 0, 0, 32, 78, 0, 0, 64, 0, 0, 0, 1, 0, 0, 0] ++ List.replicate 28 0

theorem test_header :
    let k := Launch.ofHeader 0 idle4
    Launch.headerOk k idle4 = true ∧ k.groups = 4 ∧ Launch.roleOf k 3 = .copy ∧ Launch.roleOf k 2 = .vector ∧ k.depth = 2
      ∧ k.spad = 8192 ∧ k.dline = 20000 ∧ k.dwork = 64 ∧ Launch.words k = 34816 ∧ k.vecs.head? = some 1
      ∧ Launch.headerOk (Launch.ofHeader 0 (0 :: idle4.drop 1)) (0 :: idle4.drop 1) = false := by decide +kernel

/-- The line worked to the bit of chapter 02: its parity, its pairs, its one target; one bit changed breaks its parity. -/
def worked : Nat := 0x7a61000000000000000000000001000000000000000000000001000000000000000000005002000000000000230020305030000000100000000080700280

theorem test_line : Issue.parityOk worked = true ∧ Issue.lineOk worked = true ∧ Issue.tgtBit worked 0 = true
    ∧ Issue.tgtBit worked 1 = false ∧ Issue.parityOk (worked + 2 ^ 100) = false ∧ Issue.lineOk (worked + 2 ^ 487) = false := by
  decide +kernel

/-- R31: a backward branch two lines up to slot 2. -/
theorem test_target : (m.thread? 0).map (fun t => Control.target t { lines := 0x1FFFFFFE, slot := 2 }) = some 0xF98 := by
  decide +kernel

/-! ### Witnesses: whole decoder and memory -/

theorem witness_DecodeOfEncodeIsTheInstruction :
    (Instr.iadd h io).hdr?.isSome = true ∧ (Instr.iadd h io).wellFormed = true
    ∧ (match decode 0x00000064C000000020300030 with
      | .ok _ => true
      | .error _ => false) = true := by decide +kernel

theorem witness_MemoryStaysCanonical :
    memoryCanonical State.reset = true ∧ nextIs (Machine.step (State.reset.withFetchWord 96 1)) (fun _ => true) = true
    ∧ memoryCanonical (State.reset.withFetchWord 96 1) = true := by decide +kernel

end Sys2Proof.Tests
end

section
/-! SUPPORT and PROOFS of the encoding: what the decoder answers by what the OP of a slot names, the target of an FB
instruction as a number, and the stop that the trap of one lane at home begins. -/

namespace Sys2Proof

open Sys2Proof.Machine Sys2Proof.Claims

/-! ### The decoder by cases (R58, R59) -/

theorem decode_of_parse_eq_none {w : Slot} (h : Decode.parse (Fields.unpack w) = none) :
    decode w = .ok (.unassignedOpcode w) := by
  simp [decode, h]

theorem decode_of_problems_eq_cons {w : Slot} {i : Instr} {r : Reject} {l : List Reject}
    (h : Decode.parse (Fields.unpack w) = some i) (hp : i.problems = r :: l) : decode w = .error r := by
  simp [decode, h, hp]

/-- What a slot decodes to is the row of an unassigned OP, or is legal and has the slot's fields. -/
theorem eq_or_problems_and_toFields_of_decode {w : Slot} {i : Instr} (h : decode w = .ok i) :
    i = .unassignedOpcode w ∨ i.problems = [] ∧ Decode.toFields i = some (Fields.unpack w) := by
  cases hi : Decode.parse (Fields.unpack w) with
  | none => exact .inl (by simpa [decode, hi] using h.symm)
  | some j =>
    cases hp : j.problems with
    | cons r l => simp [decode_of_problems_eq_cons hi hp] at h
    | nil =>
      simp only [decode, hi, hp] at h
      split at h
      · cases h; exact .inr ⟨hp, ‹_›⟩
      · cases h

theorem parse_ne_none_of_decode_eq_error {w : Slot} {r : Reject} (h : decode w = .error r) :
    Decode.parse (Fields.unpack w) ≠ none := by
  intro hn
  simp [decode_of_parse_eq_none hn] at h

/-- A slot that decode refuses is ILL_OP in every thread of the cohort: no guard is read (R59). -/
theorem Machine.Issue.prepareSlot_of_decode_eq_error {ta : Thread} {line : Nat} {r : Reject}
    (h : decode (Issue.slotBits line (pcSlot ta.pc)) = .error r) (s : State) (core : Nat) (tids : List Nat) (role : Role) :
    Issue.prepareSlot s core tids ta role line = .done (Ops.trapAll s tids Ops.illOp) := by
  have hn := parse_ne_none_of_decode_eq_error h
  simp [Issue.prepareSlot, Issue.decodeSlot, h, hn]

/-! ### Fields of a slot (Table 02.2) -/

theorem Fields.op_unpack_toNat (w : Slot) : (Fields.unpack w).op.toNat = w.toNat % 256 := by
  simp [Fields.unpack]

theorem Fields.slot_target_unpack_toNat (w : Slot) : (Fields.unpack w).target.slot.toNat = w.toNat / 2 ^ 64 % 8 := by
  simp [Fields.unpack, Fields.target, Fields.immBits, Nat.shiftRight_eq_div_pow]

/-- The two parts of IMM in an FB slot. -/
theorem eq_extract_of_imm_unpack {w : Slot} {x : FbTarget} (h : x.lines ++ x.slot = (Fields.unpack w).imm) :
    x.lines = w.extractLsb' 67 29 ∧ x.slot = w.extractLsb' 64 3 := by
  have hcut : x.lines ++ x.slot = w.extractLsb' 67 29 ++ w.extractLsb' 64 3 :=
    h.trans (BitVec.extractLsb'_append_extractLsb'_eq_extractLsb' (start₁ := 64) (len₁ := 3) (len₂ := 29) rfl).symm
  have hl := congrArg (BitVec.extractLsb' 3 29) hcut
  have hs := congrArg (BitVec.extractLsb' 0 3) hcut
  rw [BitVec.extractLsb'_append_eq_left, BitVec.extractLsb'_append_eq_left] at hl
  rw [BitVec.extractLsb'_append_eq_right, BitVec.extractLsb'_append_eq_right] at hs
  exact ⟨hl, hs⟩

/-! ### Unassigned values of OP (Table 02.7) -/

/-- By the rows of the table: an arm that names an instruction has a low digit that `assigned` accepts, and what is left of a
row is none. -/
theorem Decode.parse_eq_none_of_unassigned {f : Fields} (h : assigned f.op.toNat = false) : Decode.parse f = none := by
  unfold assigned at h
  unfold Decode.parse
  split <;> rename_i hrow <;> simp only [hrow] at h
  all_goals
    simp only [row0, row1, row2, row3, row4, row5, row6, row7, row8, row9, rowA, rowB, rowC, rowF] <;> split <;> simp_all

/-! ### FB instructions (R31) -/

theorem Decode.parse_bra {f : Fields} (h : f.op.toNat = 0x02) : Decode.parse f = some (.bra f.hdr f.target) := by
  simp [Decode.parse, h, Decode.row0]

theorem Decode.parse_call {f : Fields} (h : f.op.toNat = 0x04) : Decode.parse f = some (.call f.hdr f.target) := by
  simp [Decode.parse, h, Decode.row0]

theorem Instr.exists_problems_eq_cons {i : Instr} (h : i.bodyProblems ≠ []) : ∃ r l, i.problems = r :: l :=
  List.exists_cons_of_ne_nil (by simp [Instr.problems, h])

theorem Instr.bodyProblems_eq_nil {i : Instr} (h : i.problems = []) : i.bodyProblems = [] := by
  rw [Instr.problems] at h
  exact (List.append_eq_nil_iff.1 h).2

/-- The instructions of format FB with a target: bra and call. -/
def IsFb (x : FbTarget) (i : Instr) : Prop := ∃ h, i = .bra h x ∨ i = .call h x

theorem IsFb.bodyProblems_eq {x : FbTarget} {i : Instr} (hi : IsFb x i) :
    i.bodyProblems = need (decide (x.slot.toNat ≤ 4)) .branchSlot := by
  obtain ⟨h, rfl | rfl⟩ := hi <;> rfl

theorem IsFb.bodyProblems_eq_nil_iff {x : FbTarget} {i : Instr} (hi : IsFb x i) : i.bodyProblems = [] ↔ x.slot.toNat ≤ 4 := by
  simp [hi.bodyProblems_eq, need]

theorem IsFb.imm_eq_of_toFields {x : FbTarget} {i : Instr} (hi : IsFb x i) {f : Fields} (hf : Decode.toFields i = some f) :
    x.lines ++ x.slot = f.imm := by
  obtain ⟨h, rfl | rfl⟩ := hi <;> cases hf <;> rfl

theorem exists_parse_eq_isFb {f : Fields} (h : f.op.toNat = 0x02 ∨ f.op.toNat = 0x04) :
    ∃ i, Decode.parse f = some i ∧ IsFb f.target i := by
  rcases h with h | h
  · exact ⟨_, Decode.parse_bra h, _, .inl rfl⟩
  · exact ⟨_, Decode.parse_call h, _, .inr rfl⟩

/-- R31: a slot of 5, 6 or 7 is refused at decode. -/
theorem exists_decode_eq_error_of_slot {w : Slot} (hop : w.toNat % 256 = 0x02 ∨ w.toNat % 256 = 0x04)
    (hs : 5 ≤ w.toNat / 2 ^ 64 % 8) : ∃ r, decode w = .error r := by
  rw [← Fields.op_unpack_toNat] at hop
  rw [← Fields.slot_target_unpack_toNat] at hs
  obtain ⟨i, hi, hfb⟩ := exists_parse_eq_isFb hop
  obtain ⟨r, l, hp⟩ := Instr.exists_problems_eq_cons (mt hfb.bodyProblems_eq_nil_iff.1 (by omega))
  exact ⟨r, decode_of_problems_eq_cons hi hp⟩

/-- R31: what an FB instruction was decoded from. -/
theorem IsFb.target_of_decode {w : Slot} {x : FbTarget} {i : Instr} (hi : IsFb x i) (hd : decode w = .ok i) :
    x.lines = w.extractLsb' 67 29 ∧ x.slot = w.extractLsb' 64 3 ∧ x.slot.toNat ≤ 4 := by
  obtain rfl | ⟨hp, hf⟩ := eq_or_problems_and_toFields_of_decode hd
  · obtain ⟨h, e | e⟩ := hi <;> cases e
  · obtain ⟨hl, hs⟩ := eq_extract_of_imm_unpack (hi.imm_eq_of_toFields hf)
    exact ⟨hl, hs, hi.bodyProblems_eq_nil_iff.1 (Instr.bodyProblems_eq_nil hp)⟩

namespace Machine

theorem and_not_eq_pcLine (pc : BitVec 48) : pc &&& ~~~0x3F = BitVec.ofNat 48 (pcLine pc) := by
  have hmask : ~~~(0x3F : BitVec 48) = BitVec.allOnes 48 <<< 6 := by decide
  rw [hmask, ← BitVec.shiftLeft_ushiftRight]
  apply BitVec.eq_of_toNat_eq
  simp [pcLine, Nat.shiftRight_eq_div_pow, Nat.shiftLeft_eq]

theorem Control.target_eq_ofInt (t : Thread) (x : FbTarget) :
    Control.target t x = Ops.pc64 (BitVec.ofInt 48 (pcLine t.pc + x.lines.toInt * 64 + (12 * x.slot.toNat : Nat))) := by
  rw [Control.target, and_not_eq_pcLine, BitVec.ofInt_add, BitVec.ofInt_add, BitVec.ofInt_mul, BitVec.ofInt_natCast,
    BitVec.ofInt_natCast]
  rfl

theorem Ops.pc64_ofInt_toNat (x : Int) : ((Ops.pc64 (BitVec.ofInt 48 x)).toNat : Int) = x % 2 ^ 48 := by
  rw [Ops.pc64, BitVec.toNat_setWidth_of_le (by decide), BitVec.toNat_ofInt, Int.toNat_of_nonneg (Int.emod_nonneg _ (by decide))]
  rfl

/-! ### The stop that the trap of one lane at home begins (R400, R414) -/

/-- The record of a trap that no handler takes (Table 14.5). -/
def stopRecord (t : Thread) (tr : Trap) (k : StopKind) (others : NSet) : Stop :=
  { Ops.stopOf t tr k others with vec := if k = .novec || k = .double then Ops.Trap.vec tr else 0 }

/-- The trapped lane: its special registers are those of the record, and it does not go on. -/
def stoppedLane (t : Thread) (st : Stop) : Thread :=
  { t with epc := st.epc, ecause := st.cause, eaddr := st.eaddr, trapPc := some t.pc, status := .waiting, stay := false }

/-- What a trap delivered as a stop leaves of the state, when no stop of the lane's group stands. -/
def stoppedBy (s : State) (tid : Nat) (t : Thread) (st : Stop) : State :=
  (Ops.beginStop s (tidGid tid) st).setThread tid (stoppedLane t st)

section
variable {s : State} {tid : Nat} {t : Thread} {g : Group} {st : Stop}

@[simp] theorem thread?_stoppedBy : (stoppedBy s tid t st).thread? tid = some (stoppedLane t st) := by
  simp [stoppedBy, State.thread?_setThread]

theorem group?_stoppedBy (hg : s.group? (tidGid tid) = some g) (hn : g.stop = none) :
    (stoppedBy s tid t st).group? (tidGid tid) = some { g with stop := some st } := by
  change (Ops.beginStop s (tidGid tid) st).group? (tidGid tid) = _
  simp [Ops.beginStop, State.group?_modGroup, hg, hn]

theorem Ops.stoppedBefore_eq_false (hg : s.group? (tidGid tid) = some g) (hn : g.stop = none) :
    Ops.stoppedBefore s tid = false := by
  simp [Ops.stoppedBefore, hg, hn]

theorem Ops.takeTrap_of_delivery_stop {tm : Nat × Team} {tr : Trap} {k : StopKind} {others : NSet}
    (ht : s.thread? tid = some t) (htm : s.teamOf? tid = some tm) (hhome : t.visit = none)
    (hg : s.group? (tidGid tid) = some g) (hn : g.stop = none) (hd : Ops.delivery tm.2.kernel t tr = .stop k) :
    Ops.takeTrap s tid tr others = stoppedBy s tid t (stopRecord t tr k others) := by
  unfold Ops.takeTrap
  rw [ht, htm]
  dsimp only
  split
  · rename_i hv
    cases hhome.symm.trans hv
  · rw [hd]
    exact if_neg (by simp [Ops.stoppedBefore_eq_false hg hn])

/-- A stopped lane does not travel. -/
theorem Ops.send_stoppedBy : Ops.send (stoppedBy s tid t st) [tid] = stoppedBy s tid t st :=
  Ops.send_none fun k hk u hu => by
    obtain rfl := List.mem_singleton.1 hk
    cases thread?_stoppedBy.symm.trans hu
    simp [stoppedLane]

end

/-! ### The row of an unassigned OP (R58) -/

theorem exec_unassignedOpcode {s : State} {c : Cohort} (hc : s.cur = some c) (w : Slot) :
    exec (.unassignedOpcode w) s = .next (Ops.trapAll s c.tids Ops.illOp) := by
  change Ops.withCohort s _ = _
  rw [Ops.withCohort, hc]

theorem Ops.trapAll_eq_takeTraps_one {s : State} {tid : Nat} {t : Thread} (ht : s.thread? tid = some t) (f : Thread → Trap) :
    Ops.trapAll s [tid] f = Ops.takeTraps s [(tid, f t)] := by
  simp [Ops.trapAll, ht]

theorem Ops.delivery_illOp (k : Kernel) (t : Thread) : Ops.delivery k t (Ops.illOp t) = .stop .fault := rfl

theorem Ops.trapAll_illOp_one {s : State} {tid : Nat} {t : Thread} {tm : Nat × Team} {g : Group} (ht : s.thread? tid = some t)
    (htm : s.teamOf? tid = some tm) (hhome : t.visit = none) (hg : s.group? (tidGid tid) = some g) (hn : g.stop = none) :
    Ops.trapAll s [tid] Ops.illOp = stoppedBy s tid t (stopRecord t (Ops.illOp t) .fault [tidLane tid]) := by
  rw [Ops.trapAll_one ht, Ops.takeTrap_of_delivery_stop ht htm hhome hg hn (Ops.delivery_illOp _ t), Ops.send_stoppedBy]

end Machine

/-! ### The obligations -/

/-- Settles O11: an unassigned OP has no row in the table, so decode answers the row of R58, and ILL_OP is a fault, which no
handler takes, so that it begins the stop of the lane's group. -/
theorem unassignedOpcodes : Obligations.UnassignedOpcodes := by
  unfold Obligations.UnassignedOpcodes
  refine ⟨fun w hw => ?_, fun w s c tid t hc htids ht => ?_⟩
  · rw [← Fields.op_unpack_toNat] at hw
    exact decode_of_parse_eq_none (Decode.parse_eq_none_of_unassigned hw)
  · have hx := exec_unassignedOpcode hc w
    rw [htids] at hx
    refine ⟨?_, fun tm g htm hhome hg hn => ?_⟩
    · rw [hx, Ops.trapAll_eq_takeTraps_one ht]
      rfl
    · rw [Ops.trapAll_illOp_one ht htm hhome hg hn] at hx
      exact ⟨_, _, _, hx, group?_stoppedBy hg hn, rfl, rfl, rfl, rfl, rfl, rfl, _, thread?_stoppedBy, rfl, rfl, rfl⟩

/-- Settles O12: the target is a sum modulo 2^48 whose line part is the PC with its six low bits cleared; a slot of 5, 6 or 7
is a breach of the instruction's own operands; and what decodes encodes to the slot again, so that its target is the slot's
IMM. -/
theorem branchTargets : Obligations.BranchTargets := by
  unfold Obligations.BranchTargets
  refine ⟨fun t x => ?_, fun w s core tids ta role line hop hs hw => ?_, fun w h x hd => ?_⟩
  · rw [Control.target_eq_ofInt, Ops.pc64_ofInt_toNat]
    rfl
  · obtain ⟨r, hr⟩ := exists_decode_eq_error_of_slot hop hs
    subst hw
    exact ⟨⟨r, hr⟩, Issue.prepareSlot_of_decode_eq_error hr ..⟩
  · rcases hd with hd | hd
    · exact IsFb.target_of_decode ⟨h, .inl rfl⟩ hd
    · exact IsFb.target_of_decode ⟨h, .inr rfl⟩ hd

end Sys2Proof
end

section
/-! SUPPORT and PROOFS of the divisions: operands as numbers and results modulo 2^w, quotient and remainder in bit vectors and
in exact integers, and the long result that one lane holds under its shadow. -/

namespace Sys2Proof

open Sys2Proof.Machine Sys2Proof.Claims

/-! ### Words as numbers -/

namespace Claims

theorem num_inj (u : Bool) {w : Nat} {a b : BitVec w} : num u a = num u b ↔ a = b := by
  cases u
  · exact BitVec.toInt_inj
  · exact Int.ofNat_inj.trans BitVec.toNat_inj

@[simp] theorem num_zero (u : Bool) (w : Nat) : num u 0#w = 0 := by
  cases u <;> simp [num]

@[simp] theorem ofInt_num (u : Bool) {w : Nat} (a : BitVec w) : BitVec.ofInt w (num u a) = a := by
  cases u <;> simp [num]

theorem num_eq_zero_iff (u : Bool) {w : Nat} {b : BitVec w} : num u b = 0 ↔ b = 0 := by
  rw [← num_inj u]
  simp

theorem num_false_eq_min_iff {w : Nat} (hw : 0 < w) {a : BitVec w} : num false a = -(2 ^ (w - 1)) ↔ a = BitVec.intMin w := by
  rw [← num_inj false (b := BitVec.intMin w)]
  simp [num, BitVec.toInt_intMin_of_pos hw]

theorem num_false_eq_neg_one_iff {w : Nat} (hw : 0 < w) {b : BitVec w} : num false b = -1 ↔ b = BitVec.allOnes w := by
  rw [← num_inj false (b := BitVec.allOnes w)]
  simp [num, BitVec.toInt_allOnes, hw]

end Claims

namespace Machine

theorem Integer.val_toNat (u : Bool) {w : Nat} (hw : 0 < w) (a : BitVec w) : Integer.val u w a.toNat = num u a := by
  cases u
  · obtain ⟨k, rfl⟩ := Nat.exists_eq_succ_of_ne_zero hw.ne'
    simp [Integer.val, num, BitVec.toInt_eq_toNat_cond, pow_succ']
  · rfl

theorem Integer.ofNat_wrap (w : Nat) (x : Int) : BitVec.ofNat w (Integer.wrap w x) = BitVec.ofInt w x := by
  rw [← BitVec.ofInt_natCast, Integer.wrap, Int.toNat_of_nonneg (Int.emod_nonneg _ (by positivity))]
  apply BitVec.eq_of_toNat_eq
  simp [BitVec.toNat_ofInt]

/-- What a two-source instruction with the exact result f gives a lane. -/
def Integer.laneOut2 (o : IntOps) (f : Nat → Int → Int → Int) (s : State) (gid : Nat) (t : Thread) : Operands.LaneOut :=
  let w := Integer.width o.w64
  let a := Integer.val o.u w (Operands.wide s gid t o.w64 o.a)
  let b := Integer.val o.u w (Operands.wideSrc s gid t o.w64 o.b)
  Operands.outW o.d o.w64 (Integer.wrap w (f w a b))

/-- The exact result f, taken modulo 2^w, is g in bit vectors. -/
def Integer.Narrows (u : Bool) (f : Nat → Int → Int → Int) (g : (w : Nat) → BitVec w → BitVec w → BitVec w) : Prop :=
  ∀ w, 0 < w → ∀ a b : BitVec w, BitVec.ofInt w (f w (num u a) (num u b)) = g w a b

theorem Integer.Narrows.laneOut2_eq {o : IntOps} {f : Nat → Int → Int → Int} {g : (w : Nat) → BitVec w → BitVec w → BitVec w}
    (hf : Integer.Narrows o.u f g) (s : State) (tid : Nat) (t : Thread) :
    Integer.laneOut2 o f s (tidGid tid) t = (int2 o g s tid t).out := by
  have h32 := hf 32 (by decide)
  have h64 := hf 64 (by decide)
  unfold Integer.laneOut2 int2 Operands.wide Operands.wideSrc
  cases o.w64
  · simp [Integer.width, Integer.val_toNat, Operands.outW_word, Integer.ofNat_wrap, h32]
  · simp [Integer.width, Integer.val_toNat, Operands.outW_dword, Integer.ofNat_wrap, h64]

@[simp] theorem int2_flags (o : IntOps) (g : (w : Nat) → BitVec w → BitVec w → BitVec w) (s : State) (tid : Nat) (t : Thread) :
    (int2 o g s tid t).flags = 0 := by
  unfold int2
  split <;> rfl

/-! ### Quotient and remainder (R247) -/

/-- The one signed quotient that is out of range. -/
theorem Integer.quotient_overflows_iff (u : Bool) {w : Nat} (hw : 0 < w) (a b : BitVec w) :
    (!u && num u a == -(2 ^ (w - 1)) && num u b == -1) = true
      ↔ u = false ∧ a = BitVec.intMin w ∧ b = BitVec.allOnes w := by
  cases u
  · simp [num_false_eq_min_iff hw, num_false_eq_neg_one_iff hw]
  · simp

/-- The quotient of a zero divisor. -/
theorem Integer.ofInt_two_pow_sub_one (w : Nat) : BitVec.ofInt w (2 ^ w - 1) = BitVec.allOnes w := by
  have hcast : ((2 ^ w - 1 : Nat) : Int) = 2 ^ w - 1 := by simp
  rw [← hcast, BitVec.ofInt_natCast]
  apply BitVec.eq_of_toNat_eq
  simp

/-- R247 in exact integers, taken modulo 2^w, is R247 in bit vectors. -/
theorem Integer.ofInt_quotRem (u : Bool) {w : Nat} (hw : 0 < w) (a b : BitVec w) :
    (Integer.quotRem u w (num u a) (num u b)).map (BitVec.ofInt w) (BitVec.ofInt w) = Claims.quotRem u a b := by
  simp only [Integer.quotRem, Claims.quotRem, num_eq_zero_iff, Integer.quotient_overflows_iff u hw]
  split_ifs with hzero hover
  · simp [Integer.ofInt_two_pow_sub_one]
  · simp
  · simp [Int.tmod_def, Int.mul_comm]

theorem Integer.quotient_narrows (u : Bool) :
    Integer.Narrows u (fun w a b => (Integer.quotRem u w a b).1) (fun _ a b => (Claims.quotRem u a b).1) :=
  fun _ hw a b => congrArg Prod.fst (Integer.ofInt_quotRem u hw a b)

theorem Integer.remainder_narrows (u : Bool) :
    Integer.Narrows u (fun w a b => (Integer.quotRem u w a b).2) (fun _ a b => (Claims.quotRem u a b).2) :=
  fun _ hw a b => congrArg Prod.snd (Integer.ofInt_quotRem u hw a b)

/-! ### A result at once, or under a shadow (R49, R50) -/

theorem Operands.commitLong_of_la_eq_zero (s : State) (c : Cohort) {h : Hdr} (hla : h.la = 0)
    (f : Nat → Thread → Operands.LaneOut) : Operands.commitLong s c h f = Operands.commit s c h f := by
  simp [Operands.commitLong, hla]

/-- A shadow of at least one instruction keeps the result with its thread. -/
theorem Ops.thread?_openLong {s : State} {tid : Nat} {t : Thread} (ht : s.thread? tid = some t) {o : LongOp}
    (ho : o.left ≠ 0) :
    (Ops.openLong s tid o).thread? tid = some { t with longs := t.longs ++ [{ o with id := s.nextId }] } := by
  have ht' : ({ s with nextId := s.nextId + 1 } : State).thread? tid = some t := ht
  simp [Ops.openLong, ho, State.thread?_modThread, ht']

/-- One lane leads its group, so that its long result keeps every destination. -/
theorem Solo.commitLong_eq {s : State} {c : Cohort} {h : Hdr} {tid : Nat} {t : Thread} (hs : Solo s c h tid t) (hla : h.la ≠ 0)
    (f : Nat → Thread → Operands.LaneOut) :
    Operands.commitLong s c h f
      = Ops.openLong (Ops.advance s [tid]) tid (Operands.longOf t h.la (f (tidGid tid) t)) := by
  have ha := hs.active
  obtain ⟨-, hc, ht, -⟩ := hs
  rw [Operands.commitLong, if_neg hla]
  simp [ha, hc, ht, Ops.lanesOf_one]

/-- The long result that the lane holds: its words, its flags and the length of its shadow. -/
theorem Solo.getLast?_longs_commitLong {s : State} {c : Cohort} {h : Hdr} {tid : Nat} {t : Thread} (hs : Solo s c h tid t)
    (hla : h.la ≠ 0) (f : Nat → Thread → Operands.LaneOut) :
    ∃ t' x, (Operands.commitLong s c h f).thread? tid = some t' ∧ t'.longs.getLast? = some x
      ∧ x.vals = some ((f (tidGid tid) t).d.map Prod.snd) ∧ x.flags = (f (tidGid tid) t).flags ∧ x.left = h.la.toNat := by
  have ht : (Ops.advance s [tid]).thread? tid = some (Ops.retireLane t (nextPc t.pc)) := by
    obtain ⟨-, -, ht, -⟩ := hs
    rw [Ops.advance_self, ht]
    rfl
  have hleft : (Operands.longOf t h.la (f (tidGid tid) t)).left ≠ 0 := by
    simpa [Operands.longOf, BitVec.toNat_eq] using hla
  rw [hs.commitLong_eq hla f, Ops.thread?_openLong ht hleft]
  exact ⟨_, _, rfl, List.getLast?_concat, rfl, rfl, rfl⟩

/-! ### Two-source instructions of long latency -/

section
variable {i : Instr} {h : Hdr} {o : IntOps} {f : Nat → Int → Int → Int} {g : (w : Nat) → BitVec w → BitVec w → BitVec w}

theorem gives_int2_of_commitLong
    (hx : ∀ s, exec i s = Ops.withCohort s fun c => Operands.commitLong s c h (Integer.laneOut2 o f s))
    (hf : Integer.Narrows o.u f g) (hla : h.la = 0) : Gives i h (int2 o g) :=
  gives_commit (fun s => by simp only [hx, Operands.commitLong_of_la_eq_zero s _ hla]) hf.laneOut2_eq

theorem Solo.holds_int2_of_commitLong
    (hx : ∀ s, exec i s = Ops.withCohort s fun c => Operands.commitLong s c h (Integer.laneOut2 o f s))
    (hf : Integer.Narrows o.u f g) (hla : h.la ≠ 0) {s : State} {c : Cohort} {tid : Nat} {t : Thread} (hs : Solo s c h tid t) :
    ∃ u t' x, exec i s = .next u ∧ u.thread? tid = some t' ∧ t'.longs.getLast? = some x
      ∧ x.vals = some ((int2 o g s tid t).regs.map Prod.snd) ∧ x.flags = 0 ∧ x.left = h.la.toNat := by
  obtain ⟨t', x, ht, hlast, hvals, hflags, hleft⟩ := hs.getLast?_longs_commitLong hla (Integer.laneOut2 o f s)
  rw [hf.laneOut2_eq] at hvals hflags
  exact ⟨_, t', x, (hx s).trans (hs.run _), ht, hlast, hvals, hflags.trans (int2_flags ..), hleft⟩

end

theorem exec_idiv (h : Hdr) (o : IntOps) (s : State) :
    exec (.idiv h o) s = Ops.withCohort s fun c =>
      Operands.commitLong s c h (Integer.laneOut2 o (fun w a b => (Integer.quotRem o.u w a b).1) s) := rfl

theorem exec_irem (h : Hdr) (o : IntOps) (s : State) :
    exec (.irem h o) s = Ops.withCohort s fun c =>
      Operands.commitLong s c h (Integer.laneOut2 o (fun w a b => (Integer.quotRem o.u w a b).2) s) := rfl

end Machine

/-! ### The obligation -/

/-- Settles O2: both divisions take their part of one pair, which in bit vectors is the pair of R247; LA says whether it is
committed at once or held under the shadow. -/
theorem integerDivision : Obligations.IntegerDivision := by
  unfold Obligations.IntegerDivision
  intro h o
  have hquot := Integer.quotient_narrows o.u
  have hrem := Integer.remainder_narrows o.u
  refine ⟨fun hla => ⟨gives_int2_of_commitLong (exec_idiv h o) hquot hla, gives_int2_of_commitLong (exec_irem h o) hrem hla⟩, ?_⟩
  intro hla s c tid t hs p hp
  obtain rfl | rfl : p = _ ∨ p = _ := by simpa using hp
  · exact hs.holds_int2_of_commitLong (exec_idiv h o) hquot hla
  · exact hs.holds_int2_of_commitLong (exec_irem h o) hrem hla

end Sys2Proof
end
